-- ==== Sys2Proof/Word.lean ====
section
/-! DEFINITION. The words of the ring (bytes, samples, frame counter values) and the fixed-length tables the blocks
keep: reading and writing one entry. -/

namespace Sys2Proof

/-- One byte of a lane cell or one command field (R129, R132). -/
abbrev Byte := BitVec 8

/-- One audio slot: a signed 24-bit sample (R89). -/
abbrev Sample := BitVec 24

/-- A value of the frame counter; every timestamp is one (R118). -/
abbrev FrameCount := BitVec 32

/-- Entry `i` of a table of `n` entries; the default entry outside it. -/
def tget {α : Type} [Inhabited α] {n : Nat} (t : Vector α n) (i : Nat) : α :=
  t.toList.getD i default

/-- The table with entry `i` replaced; the table itself when it has no entry `i`. -/
def tset {α : Type} {n : Nat} (t : Vector α n) (i : Nat) (a : α) : Vector α n :=
  ⟨(t.toList.set i a).toArray, by simp⟩

/-- The table with entry `i` changed by `f`. -/
def tmod {α : Type} [Inhabited α] {n : Nat} (t : Vector α n) (i : Nat) (f : α → α) : Vector α n :=
  tset t i (f (tget t i))

/-- The table whose entry `i` is `f i`. -/
def tmake {α : Type} (n : Nat) (f : Nat → α) : Vector α n :=
  ⟨((List.range n).map f).toArray, by simp⟩

/-- The table with every entry changed by `f`, which is told the entry's number. -/
def tmapIdx {α : Type} [Inhabited α] {n : Nat} (t : Vector α n) (f : Nat → α → α) : Vector α n :=
  tmake n (fun i => f i (tget t i))

end Sys2Proof
end

