-- ==== Sys2Proof/Config.lean ====
section
/-! DEFINITION. The fixed sizes and times of the part. Nothing the part computes is left undefined by its manual, so
there is no free value here; what the outside decides (pin levels, memory upsets, the outcome of a programming) comes
in with the commands. -/

namespace Sys2Proof.Config

/-- Processed frames in a tick (R122). -/
def framesPerTick : Nat := 480

/-- Ticks in a second (R122). -/
def ticksPerSecond : Nat := 100

/-- Steady arrivals that make the port LOCKED (R119). -/
def lockRun : Nat := 16

/-- Reference clock periods in three nominal frame periods (section 8.2). -/
def threePeriods : Nat := 1536

/-- Processed frames of a response window (R48). -/
def responseWindow : Nat := 1440

/-- Attempts of one grant before the unit is unresponsive (R49). -/
def maxAttempts : Nat := 3

/-- Places of the reply queue (R134). -/
def replyPlaces : Nat := 8

/-- Places of the event list (R149). -/
def eventPlaces : Nat := 64

/-- Entries of the request pool (R23). -/
def poolEntries : Nat := 96

/-- Free pool entries at which POOL LOW is posted, and at which it is armed again (R24). -/
def poolLow : Nat := 8
def poolRearm : Nat := 24

/-- Largest value of the 16-bit saturating counts (R55, R125, R150). -/
def count16 : Nat := 65535

/-- Reference clock periods of a store and of an erase (R155). -/
def storePeriods : Nat := 1474560
def erasePeriods : Nat := 491520

/-- The mute index (R91). -/
def mute : Nat := 128

/-- Protected records of Table Memory (section 10.2): findings cannot nest deeper than this, since each one sets a
mark and no reaction to a finding clears one (log 9). -/
def records : Nat := 235

end Sys2Proof.Config
end

