-- ==== Sys2Proof/Syntax.lean ====
section
/-! DEFINITION. The commands of the part: what a frame brings, the cells the chip takes, and one constructor of
`Instr` for each row of spec/opcode_table.json. -/

namespace Sys2Proof

/-- A lane cell: 16 bytes in the order they travel (section 8.6). -/
abbrev Cell := Vector Byte 16

/-- One frame of the ring: 128 audio slots and a lane cell (R117). -/
structure Frame where
  slots : Vector Sample 128
  lane  : Cell
  deriving DecidableEq, Repr

/-- The levels of the input lines (Table 0.2): bit w of `walls` is WALLw, 1 = high = deployed (section 1.1). -/
structure Pins where
  walls   : BitVec 7 := 0
  houseWp : Bool := false
  deriving DecidableEq, Repr

/-- The protected tables of Table Memory, in the order of their codes (section 10.1.1). -/
inductive TableId where
  | delegate | settings | plan | booth | timeClass | override
  deriving DecidableEq, Repr

/-- What Table Memory's check would find in a stored record (R153). -/
inductive MemErr where
  | sound | correctable | uncorrectable
  deriving DecidableEq, Repr, Inhabited

/-- An error that has struck a stored record: table, record number as section 10.1.1 names it, and its kind. -/
structure Upset where
  table  : TableId
  record : Nat
  err    : MemErr
  deriving DecidableEq, Repr

/-- A frame arrival with all that the outside brings with it: the reference clock periods since the previous frame
marker, the input lines during the frame, the memory errors that struck since the frame before, and whether the frame's
cell is taken before the other steps due at this frame (the manual leaves that order open: R50, R79, R143; log 4). -/
structure Arrival where
  frame     : Frame
  gap       : Nat := 512
  pins      : Pins := {}
  upsets    : List Upset := []
  cellFirst : Bool := true
  deriving DecidableEq, Repr

/-- What a COMMAND cell carries beside code and fields: the tag, echoed in the reply, and the link flag (R132). -/
structure Hdr where
  tag  : Byte
  link : Bool
  deriving DecidableEq, Repr

/-- A command with its fields as the cell carries them (Table 9.4). SET MODE is two rows of the table: `setModeConfig`
is mode 0, `setModeLive` every other mode value, of which R140 refuses those above 1. -/
inductive Command where
  | unknown (code : BitVec 7)
  | status (part : Byte)
  | setModeLive (mode : Byte)
  | setModeConfig
  | engineReset
  | supervise (enable timeout lock : Byte)
  | setEvents (mask : Byte)
  | setTiming (ramp scan debounce : Byte)
  | loadDelegate (unit sect role trim cls : Byte)
  | removeDelegate (unit : Byte)
  | readDelegate (unit part : Byte)
  | setTimeClass (cls : Byte) (limit : BitVec 16) (lead : Byte)
  | grantFloor (unit : Byte)
  | closeFloor (unit : Byte)
  | clearFloor (room scope : Byte)
  | setSectionFloor (sect floorMode speakers queueLimit gap chair time : Byte)
  | setWall (wall ovr : Byte)
  | readRoom (room : Byte)
  | setSectionLevels (sect level fill underlay : Byte)
  | setBooth (booth language home gain : Byte)
  | setHomePlan (sect length : BitVec 4) (codes : Vector (BitVec 6) 8)
  | readBooth (booth part : Byte)
  | readSlot (selector number : Byte)
  | storePreset (preset : Byte)
  | recallPreset (preset : Byte)
  | erasePreset (preset : Byte)
  | setHouseWrite (enable : Byte)
  deriving DecidableEq, Repr

/-- A good inbound cell, delivered to its owner (Table 8.4). `unit` and `source` are source addresses. -/
inductive InCell where
  | micPress (unit : Byte)
  | priorityPress (unit : Byte)
  | unitTaken (unit grantId : Byte)
  | boothReport (source state relay : Byte)
  | command (h : Hdr) (c : Command)
  deriving DecidableEq, Repr

/-- The commands of the block, one constructor per row of spec/opcode_table.json. -/
inductive Instr where
  | hardReset (pins : Pins)
  | frameArrival (a : Arrival)
  | ringLost
  | runCountCleared
  | tick
  | second
  | rampStep
  | scan
  | wallChanged (wall : Nat)
  | partitionChangeEvent
  | repartitionDone
  | stoppingComplete
  | closeEnd (unit : Nat)
  | gapExpiry (room : Nat)
  | responseWindowExpiry (unit : Nat)
  | supervisionExpired
  | storeComplete (readBackMatches : Bool)
  | eraseComplete (readsClear : Bool)
  | micPress (unit : Byte)
  | priorityPress (unit : Byte)
  | unitTaken (unit grantId : Byte)
  | boothReport (source state relay : Byte)
  | unknownCommand (h : Hdr) (code : BitVec 7)
  | status (h : Hdr) (part : Byte)
  | setModeLive (h : Hdr) (mode : Byte)
  | setModeConfig (h : Hdr)
  | engineReset (h : Hdr)
  | supervise (h : Hdr) (enable timeout lock : Byte)
  | setEvents (h : Hdr) (mask : Byte)
  | setTiming (h : Hdr) (ramp scan debounce : Byte)
  | loadDelegate (h : Hdr) (unit sect role trim cls : Byte)
  | removeDelegate (h : Hdr) (unit : Byte)
  | readDelegate (h : Hdr) (unit part : Byte)
  | setTimeClass (h : Hdr) (cls : Byte) (limit : BitVec 16) (lead : Byte)
  | grantFloor (h : Hdr) (unit : Byte)
  | closeFloor (h : Hdr) (unit : Byte)
  | clearFloor (h : Hdr) (room scope : Byte)
  | setSectionFloor (h : Hdr) (sect floorMode speakers queueLimit gap chair time : Byte)
  | setWall (h : Hdr) (wall ovr : Byte)
  | readRoom (h : Hdr) (room : Byte)
  | setSectionLevels (h : Hdr) (sect level fill underlay : Byte)
  | setBooth (h : Hdr) (booth language home gain : Byte)
  | setHomePlan (h : Hdr) (sect length : BitVec 4) (codes : Vector (BitVec 6) 8)
  | readBooth (h : Hdr) (booth part : Byte)
  | readSlot (h : Hdr) (selector number : Byte)
  | storePreset (h : Hdr) (preset : Byte)
  | recallPreset (h : Hdr) (preset : Byte)
  | erasePreset (h : Hdr) (preset : Byte)
  | setHouseWrite (h : Hdr) (enable : Byte)
  deriving DecidableEq, Repr

end Sys2Proof
end

