-- ==== Sys2Proof/Decode.lean ====
section
/-! DEFINITION. The bytes of inbound cells: the CRC, the decoding of a cell addressed to the chip (R125, R131, R132,
Table 9.4) and the encoder of a good cell. The opcode table gives no row any bits, so `decodeTableWord` answers none. -/

namespace Sys2Proof

/-- The command a word spells by the table's bits: spec/opcode_table.json gives no row any bits. -/
def decodeTableWord (_nbits _w : Nat) : Option Instr := none

/-- One bit of the CRC (R131, step 2). -/
def crcBit (reg : BitVec 16) (bit : Bool) : BitVec 16 :=
  let shifted := reg <<< 1
  if reg.msb != bit then shifted ^^^ 0x1021#16 else shifted

/-- One byte of the CRC, most significant bit first (R131, step 2). -/
def crcByte (reg : BitVec 16) (b : Byte) : BitVec 16 :=
  [7, 6, 5, 4, 3, 2, 1, 0].foldl (fun r i => crcBit r (b.getLsbD i)) reg

/-- The CRC of bytes 0 to 13 of a cell (R131). -/
def crcOf (bytes : List Byte) : BitVec 16 :=
  (bytes.take 14).foldl crcByte 0xFFFF#16

/-- A cell from its first 14 bytes: bytes 14 and 15 carry their CRC, byte 14 the more significant half (R129). -/
def sealCell (bytes : List Byte) : Cell :=
  let body := (bytes ++ List.replicate 14 0#8).take 14
  let crc := crcOf body
  tmake 16 (fun i => if i < 14 then body.getD i 0 else if i = 14 then crc.extractLsb' 8 8 else crc.extractLsb' 0 8)

/-- Whether bytes 14 and 15 carry the CRC of bytes 0 to 13. -/
def crcMatches (c : Cell) : Bool :=
  let crc := crcOf c.toList
  tget c 14 == crc.extractLsb' 8 8 && tget c 15 == crc.extractLsb' 0 8

/-- The six-bit codes of SET HOME PLAN from its bytes 7 to 12, the first from the most significant bit (section 9.4). -/
def unpackCodes (w : BitVec 48) : Vector (BitVec 6) 8 :=
  tmake 8 (fun i => w.extractLsb' (42 - 6 * i) 6)

/-- The 48 bits that carry eight six-bit codes, the first in the most significant bits. -/
def packCodes (codes : Vector (BitVec 6) 8) : BitVec 48 :=
  tget codes 0 ++ tget codes 1 ++ tget codes 2 ++ tget codes 3 ++ tget codes 4 ++ tget codes 5 ++ tget codes 6 ++
    tget codes 7

/-- The command of a code and the field bytes 6 to 13, `f 0` being byte 6 (Table 9.4, section 9.4). -/
def decodeCommand (code : BitVec 7) (f : Nat → Byte) : Command :=
  match code.toNat with
  | 0x01 => .status (f 0)
  | 0x02 => if f 0 = 0 then .setModeConfig else .setModeLive (f 0)
  | 0x03 => .engineReset
  | 0x04 => .supervise (f 0) (f 1) (f 2)
  | 0x05 => .setEvents (f 0)
  | 0x06 => .setTiming (f 0) (f 1) (f 2)
  | 0x10 => .loadDelegate (f 0) (f 1) (f 2) (f 3) (f 4)
  | 0x11 => .removeDelegate (f 0)
  | 0x12 => .readDelegate (f 0) (f 1)
  | 0x13 => .setTimeClass (f 0) (f 1 ++ f 2) (f 3)
  | 0x14 => .grantFloor (f 0)
  | 0x15 => .closeFloor (f 0)
  | 0x16 => .clearFloor (f 0) (f 1)
  | 0x20 => .setSectionFloor (f 0) (f 1) (f 2) (f 3) (f 4) (f 5) (f 6)
  | 0x21 => .setWall (f 0) (f 1)
  | 0x22 => .readRoom (f 0)
  | 0x23 => .setSectionLevels (f 0) (f 1) (f 2) (f 3)
  | 0x30 => .setBooth (f 0) (f 1) (f 2) (f 3)
  | 0x31 => .setHomePlan ((f 0).extractLsb' 4 4) ((f 0).extractLsb' 0 4)
      (unpackCodes (f 1 ++ f 2 ++ f 3 ++ f 4 ++ f 5 ++ f 6))
  | 0x32 => .readBooth (f 0) (f 1)
  | 0x38 => .readSlot (f 0) (f 1)
  | 0x40 => .storePreset (f 0)
  | 0x41 => .recallPreset (f 0)
  | 0x42 => .erasePreset (f 0)
  | 0x43 => .setHouseWrite (f 0)
  | _ => .unknown code

/-- The code of a command (Table 9.4). -/
def Command.code : Command → BitVec 7
  | .unknown c => c
  | .status _ => 0x01
  | .setModeLive _ => 0x02
  | .setModeConfig => 0x02
  | .engineReset => 0x03
  | .supervise _ _ _ => 0x04
  | .setEvents _ => 0x05
  | .setTiming _ _ _ => 0x06
  | .loadDelegate _ _ _ _ _ => 0x10
  | .removeDelegate _ => 0x11
  | .readDelegate _ _ => 0x12
  | .setTimeClass _ _ _ => 0x13
  | .grantFloor _ => 0x14
  | .closeFloor _ => 0x15
  | .clearFloor _ _ => 0x16
  | .setSectionFloor _ _ _ _ _ _ _ => 0x20
  | .setWall _ _ => 0x21
  | .readRoom _ => 0x22
  | .setSectionLevels _ _ _ _ => 0x23
  | .setBooth _ _ _ _ => 0x30
  | .setHomePlan _ _ _ => 0x31
  | .readBooth _ _ => 0x32
  | .readSlot _ _ => 0x38
  | .storePreset _ => 0x40
  | .recallPreset _ => 0x41
  | .erasePreset _ => 0x42
  | .setHouseWrite _ => 0x43

/-- The codes of the catalogue (Table 9.4). -/
def catalogue : List (BitVec 7) :=
  [0x01, 0x02, 0x03, 0x04, 0x05, 0x06, 0x10, 0x11, 0x12, 0x13, 0x14, 0x15, 0x16] ++
    [0x20, 0x21, 0x22, 0x23, 0x30, 0x31, 0x32, 0x38, 0x40, 0x41, 0x42, 0x43]

/-- The field bytes of a command, from byte 6 (section 9.4). -/
def Command.fields : Command → List Byte
  | .unknown _ => []
  | .status p => [p]
  | .setModeLive m => [m]
  | .setModeConfig => [0]
  | .engineReset => []
  | .supervise e t l => [e, t, l]
  | .setEvents m => [m]
  | .setTiming r s d => [r, s, d]
  | .loadDelegate u s r t c => [u, s, r, t, c]
  | .removeDelegate u => [u]
  | .readDelegate u p => [u, p]
  | .setTimeClass c l w => [c, l.extractLsb' 8 8, l.extractLsb' 0 8, w]
  | .grantFloor u => [u]
  | .closeFloor u => [u]
  | .clearFloor r s => [r, s]
  | .setSectionFloor s m x q g c t => [s, m, x, q, g, c, t]
  | .setWall w o => [w, o]
  | .readRoom r => [r]
  | .setSectionLevels s l f u => [s, l, f, u]
  | .setBooth b l h g => [b, l, h, g]
  | .setHomePlan s n cs =>
    let w := packCodes cs
    [s ++ n, w.extractLsb' 40 8, w.extractLsb' 32 8, w.extractLsb' 24 8, w.extractLsb' 16 8, w.extractLsb' 8 8,
      w.extractLsb' 0 8]
  | .readBooth b p => [b, p]
  | .readSlot s n => [s, n]
  | .storePreset p => [p]
  | .recallPreset p => [p]
  | .erasePreset p => [p]
  | .setHouseWrite e => [e]

/-- Source ranges of Table 8.3. -/
def isUnitAddr (a : Byte) : Bool := decide (1 ≤ a.toNat) && decide (a.toNat ≤ 0xC0)
def isBoothAddr (a : Byte) : Bool := decide (0xD0 ≤ a.toNat) && decide (a.toNat ≤ 0xDF)

/-- The fields that R132 requires to lie in range, and the sources of Table 8.3. -/
def InCell.good : InCell → Bool
  | .micPress u => isUnitAddr u
  | .priorityPress u => isUnitAddr u
  | .unitTaken u g => isUnitAddr u && decide (g.toNat ≤ 15)
  | .boothReport b s r => isBoothAddr b && decide (s.toNat ≤ 2) && (decide (r.toNat ≤ 15) || r == 0xFF)
  | .command _ _ => true

/-- What a cell addressed to the chip says by its type, source and payload, before the range checks of its fields; none
for a type that Table 8.3 does not allow, or a button above 1. -/
def cellBody (c : Cell) : Option InCell :=
  let src := tget c 2
  match (tget c 3).toNat with
  | 0x01 =>
    if src = 0xF0 then
      some (.command ⟨tget c 4, (tget c 5).getLsbD 7⟩ (decodeCommand ((tget c 5).extractLsb' 0 7) (fun i => tget c (6 + i))))
    else none
  | 0x02 =>
    if tget c 5 = 0 then some (.micPress src) else if tget c 5 = 1 then some (.priorityPress src) else none
  | 0x03 => some (.unitTaken src (tget c 4))
  | 0x04 => some (.boothReport src (tget c 5) (tget c 6))
  | _ => none

/-- The good cell that the bytes of an occupied cell addressed to 0xFE carry, or none when R125 discards it. -/
def decodeCell (c : Cell) : Option InCell :=
  if crcMatches c && tget c 0 == 1 then
    match cellBody c with
    | some m => if m.good then some m else none
    | none => none
  else none

/-- The first 14 bytes of the cell by which a ring partner sends a message (R132). -/
def InCell.bytes : InCell → List Byte
  | .micPress u => [1, 0xFE, u, 0x02, 0, 0]
  | .priorityPress u => [1, 0xFE, u, 0x02, 0, 1]
  | .unitTaken u g => [1, 0xFE, u, 0x03, g]
  | .boothReport b s r => [1, 0xFE, b, 0x04, 0, s, r]
  | .command h c => [1, 0xFE, 0xF0, 0x01, h.tag, BitVec.ofBool h.link ++ c.code] ++ c.fields

/-- The cell a ring partner sends for a message. -/
def encodeCell (m : InCell) : Cell := sealCell m.bytes

/-- A command as a cell spells it: an unknown code lies outside the catalogue, and SET MODE CONFIG is mode 0. -/
def Command.spelled : Command → Bool
  | .unknown c => !catalogue.contains c
  | .setModeLive m => m != 0
  | _ => true

/-- A message that a cell can carry. -/
def InCell.spelled : InCell → Bool
  | .command _ c => c.spelled
  | m => m.good

/-- The cell that a row of the table delivers, for the rows that are cells. -/
def Instr.cell? : Instr → Option InCell
  | .hardReset _ => none
  | .frameArrival _ => none
  | .ringLost => none
  | .runCountCleared => none
  | .tick => none
  | .second => none
  | .rampStep => none
  | .scan => none
  | .wallChanged _ => none
  | .partitionChangeEvent => none
  | .repartitionDone => none
  | .stoppingComplete => none
  | .closeEnd _ => none
  | .gapExpiry _ => none
  | .responseWindowExpiry _ => none
  | .supervisionExpired => none
  | .storeComplete _ => none
  | .eraseComplete _ => none
  | .micPress u => some (.micPress u)
  | .priorityPress u => some (.priorityPress u)
  | .unitTaken u g => some (.unitTaken u g)
  | .boothReport b s r => some (.boothReport b s r)
  | .unknownCommand h c => some (.command h (.unknown c))
  | .status h p => some (.command h (.status p))
  | .setModeLive h m => some (.command h (.setModeLive m))
  | .setModeConfig h => some (.command h .setModeConfig)
  | .engineReset h => some (.command h .engineReset)
  | .supervise h e t l => some (.command h (.supervise e t l))
  | .setEvents h m => some (.command h (.setEvents m))
  | .setTiming h r s d => some (.command h (.setTiming r s d))
  | .loadDelegate h u s r t c => some (.command h (.loadDelegate u s r t c))
  | .removeDelegate h u => some (.command h (.removeDelegate u))
  | .readDelegate h u p => some (.command h (.readDelegate u p))
  | .setTimeClass h c l w => some (.command h (.setTimeClass c l w))
  | .grantFloor h u => some (.command h (.grantFloor u))
  | .closeFloor h u => some (.command h (.closeFloor u))
  | .clearFloor h r s => some (.command h (.clearFloor r s))
  | .setSectionFloor h s m x q g c t => some (.command h (.setSectionFloor s m x q g c t))
  | .setWall h w o => some (.command h (.setWall w o))
  | .readRoom h r => some (.command h (.readRoom r))
  | .setSectionLevels h s l f u => some (.command h (.setSectionLevels s l f u))
  | .setBooth h b l m g => some (.command h (.setBooth b l m g))
  | .setHomePlan h s n cs => some (.command h (.setHomePlan s n cs))
  | .readBooth h b p => some (.command h (.readBooth b p))
  | .readSlot h s n => some (.command h (.readSlot s n))
  | .storePreset h p => some (.command h (.storePreset p))
  | .recallPreset h p => some (.command h (.recallPreset p))
  | .erasePreset h p => some (.command h (.erasePreset p))
  | .setHouseWrite h e => some (.command h (.setHouseWrite e))

end Sys2Proof
end

