-- ==== Sys2Proof/WellFormed.lean ====
section
/-! DEFINITION. When a command is one the part can meet: a cell row carries what R125 and R132 let pass, a row of the
chip's own time names a unit, room or wall that exists, and a memory error strikes a record that exists. -/

namespace Sys2Proof

/-- A unit address 1 to 192 (Table 0.1). -/
def isUnitNumber (u : Nat) : Bool := decide (1 ≤ u) && decide (u ≤ 192)

/-- Whether a memory error strikes a record that exists (section 10.2). -/
def Upset.inRange (x : Upset) : Bool :=
  match x.table with
  | .delegate => isUnitNumber x.record
  | .settings => decide (x.record < 8)
  | .plan => decide (x.record < 8)
  | .booth => decide (x.record < 16)
  | .timeClass => decide (x.record < 4)
  | .override => decide (x.record < 7)

/-- Well-formed commands. The fields of COMMAND rows may hold any byte: the Command Processor checks them. -/
def Instr.wellFormed : Instr → Bool
  | .hardReset _ => true
  | .frameArrival a => a.upsets.all Upset.inRange
  | .ringLost => true
  | .runCountCleared => true
  | .tick => true
  | .second => true
  | .rampStep => true
  | .scan => true
  | .wallChanged w => decide (w < 7)
  | .partitionChangeEvent => true
  | .repartitionDone => true
  | .stoppingComplete => true
  | .closeEnd u => isUnitNumber u
  | .gapExpiry r => decide (r < 8)
  | .responseWindowExpiry u => isUnitNumber u
  | .supervisionExpired => true
  | .storeComplete _ => true
  | .eraseComplete _ => true
  | .micPress u => InCell.spelled (.micPress u)
  | .priorityPress u => InCell.spelled (.priorityPress u)
  | .unitTaken u g => InCell.spelled (.unitTaken u g)
  | .boothReport b s r => InCell.spelled (.boothReport b s r)
  | .unknownCommand h c => InCell.spelled (.command h (.unknown c))
  | .status _ _ => true
  | .setModeLive h m => InCell.spelled (.command h (.setModeLive m))
  | .setModeConfig _ => true
  | .engineReset _ => true
  | .supervise _ _ _ _ => true
  | .setEvents _ _ => true
  | .setTiming _ _ _ _ => true
  | .loadDelegate _ _ _ _ _ _ => true
  | .removeDelegate _ _ => true
  | .readDelegate _ _ _ => true
  | .setTimeClass _ _ _ _ => true
  | .grantFloor _ _ => true
  | .closeFloor _ _ => true
  | .clearFloor _ _ _ => true
  | .setSectionFloor _ _ _ _ _ _ _ _ => true
  | .setWall _ _ _ => true
  | .readRoom _ _ => true
  | .setSectionLevels _ _ _ _ _ => true
  | .setBooth _ _ _ _ _ => true
  | .setHomePlan _ _ _ _ => true
  | .readBooth _ _ _ => true
  | .readSlot _ _ _ => true
  | .storePreset _ _ => true
  | .recallPreset _ _ => true
  | .erasePreset _ _ => true
  | .setHouseWrite _ _ => true

end Sys2Proof
end

