-- ==== Sys2Proof/Machine/State.lean ====
section
/-! DEFINITION. The state of the part as plain data, block by block, and the state right after a hard reset. `Hall` is
what the hall's rules act on; `Chip` adds the ring port, the beats, the held outputs and the pins; `State` adds the
queue of commands that wait. -/

namespace Sys2Proof.Machine

/-! ## Names -/

/-- Wall contact state (section 1.1). -/
inductive WallState where
  | stowed | deployed
  deriving DecidableEq, Repr, Inhabited

/-- Wall override (Table 1.3). -/
inductive Override where
  | follow | forceDeployed | forceStowed
  deriving DecidableEq, Repr, Inhabited

/-- Floor mode (Table 1.6); `openFloor` is OPEN. -/
inductive FloorMode where
  | openFloor | queue | override | operator
  deriving DecidableEq, Repr, Inhabited

inductive ChairPolicy where
  | muteOnly | clearAll
  deriving DecidableEq, Repr, Inhabited

inductive TimeAction where
  | warnOnly | close
  deriving DecidableEq, Repr, Inhabited

inductive Role where
  | delegate | chair
  deriving DecidableEq, Repr, Inhabited

/-- Floor state of a delegate (Table 2.2). -/
inductive FloorState where
  | idle | waiting | granting | speaking | closing | chairPending
  deriving DecidableEq, Repr, Inhabited

/-- Why a holder was closed (Table 2.3). -/
inductive CloseReason where
  | unit | chair | override | operator | resize | timeUp | stopping | damaged
  deriving DecidableEq, Repr, Inhabited

/-- What a UNIT STATE cell tells the unit once (Table 3.1). -/
inductive Indication where
  | denied | queueFull | floorClosed | dropped | timeWarning | timeUp
  | closedByChair | closedByOverride | closedByOperator | closedByResize
  deriving DecidableEq, Repr, Inhabited

/-- Reported or effective state of a booth (Table 4.1). -/
inductive BoothState where
  | off | ready | onAir
  deriving DecidableEq, Repr, Inhabited

/-- Relay selection or relay in force (Table 4.1). -/
inductive Relay where
  | floor
  | booth (b : Nat)
  deriving DecidableEq, Repr, Inhabited

/-- Assignment of a booth (R65). -/
inductive Assignment where
  | none | lead | stoodDown | unplanned
  deriving DecidableEq, Repr, Inhabited

/-- A claim on the distribution pool: its class and key (Table 5.4). -/
inductive Claim where
  | leadOut (booth : Nat)
  | language (room channel : Nat)
  | feed (booth : Nat)
  | spareOut (booth : Nat)
  deriving DecidableEq, Repr, Inhabited

/-- Mode in force (Table 9.1). -/
inductive Mode where
  | config | live | stopping | safe
  deriving DecidableEq, Repr, Inhabited

/-- Requested mode (Table 9.1). -/
inductive ReqMode where
  | config | live
  deriving DecidableEq, Repr, Inhabited

/-- Lock state of the Ring Port (Table 8.1). -/
inductive LockState where
  | searching | locked | lost
  deriving DecidableEq, Repr, Inhabited

/-- Classes of events, in the order of the mask's bits (R152). -/
inductive EventClass where
  | floor | time | wall | booth | slot | integrity | system
  deriving DecidableEq, Repr, Inhabited

/-- Kinds of events (Table 10.2). -/
inductive EventKind where
  | wallChanged | repartitionStarted | repartitionDone | granted | closed | unresponsive | chairPriority | poolLow
  | unknownUnit | timeWarning | timeUp | languageDropped | leadChanged | relayLost | claimWaiting | claimServed
  | integrityCorrected | recordDamaged | ringLost | ringLocked | supervisionExpired | restarted | eventsLost
  | presetDone | presetFailed
  deriving DecidableEq, Repr, Inhabited

/-- Sense codes, each with its sense key (Table 9.2). -/
inductive Sense where
  | unknownCommand | fieldOutOfRange | duplicateLanguage | unitNotPresent | notOperatorRoom | presetEmpty
  | wrongMode | tablesDamaged
  | unitNotIdle | boothNotOff | storeInProgress | stopping
  | floorFull | noMicSlot | supervisionLocked
  | housePreset
  | recordDamaged
  | storeFailed
  | groupAbandoned
  deriving DecidableEq, Repr, Inhabited

/-- Qualifier of a GOOD reply (R135). -/
inductive Qualifier where
  | none | adjusted | partialRecall
  deriving DecidableEq, Repr, Inhabited

/-! ## Partition Unit -/

/-- Seven wall states (section 1.4). -/
abbrev Partition := Vector WallState 7

/-- Debounce of one wall (Table 1.1). -/
structure WallDebounce where
  debounced : WallState := .stowed
  run       : Nat := 0
  capture   : FrameCount := 0
  deriving DecidableEq, Repr, Inhabited

/-- The repartition record: phase, target and affected sections (R105, Table 7.1). -/
inductive Repartition where
  | idle
  | fadingOut (target : Partition) (affected : List Nat)
  | fadingIn (target : Partition) (affected : List Nat)
  deriving DecidableEq, Repr

structure PartitionUnit where
  walls         : Vector WallDebounce 7
  scanTicks     : Nat
  scanInterval  : Nat
  debounceCount : Nat
  effective     : Partition
  inForce       : Partition
  repartition   : Repartition
  deriving DecidableEq, Repr

/-! ## Floor Controller -/

/-- Runtime part of a delegate record (Table 2.1, Table 3.2), with the reason of the first close that CLOSED will carry
(R52). -/
structure DelegateRun where
  state           : FloorState := .idle
  slot            : Option Nat := none
  grantId         : BitVec 4 := 0
  attempts        : Nat := 1
  requestTs       : Option FrameCount := none
  grantTs         : Option FrameCount := none
  seconds         : Nat := 0
  warned          : Bool := false
  unresponsive    : Bool := false
  indication      : Option Indication := none
  unknownReported : Bool := false
  window          : Option Nat := none
  reason          : Option CloseReason := none
  deriving DecidableEq, Repr, Inhabited

/-- The Floor Controller: runtime parts by unit address minus 1, the request queue and gap timer of each room id, the
free pool entries and POOL LOW arming, the chair-pending list and the unit dirty set. A gap timer at `some 0` has run
down at this frame and waits for its expiry to be taken (R26). -/
structure FloorController where
  runs        : Vector DelegateRun 192
  queues      : Vector (List Nat) 8
  poolFree    : Nat
  poolArmed   : Bool
  chairs      : List Nat
  gaps        : Vector (Option Nat) 8
  dirty       : Vector Bool 192
  deriving DecidableEq, Repr

/-! ## Interpretation Router -/

/-- Reported and held fields of a booth record (Table 4.1). -/
structure BoothRun where
  reported   : BoothState := .off
  selection  : Relay := .floor
  relay      : Relay := .floor
  assignment : Assignment := .none
  outSlot    : Option Nat := none
  feedSlot   : Option Nat := none
  deriving DecidableEq, Repr, Inhabited

/-- The Router: booth runtime, the room plan of each room id, and the two notice dirty sets; the mark of section s and
channel c is entry 9 s + c (R71, R73). -/
structure Router where
  booths       : Vector BoothRun 16
  plans        : Vector (List Nat) 8
  boothDirty   : Vector Bool 16
  channelDirty : Vector Bool 72
  deriving DecidableEq, Repr

/-! ## Slot Allocator -/

/-- The slot map (R77), the wait list (R82) and the held plan lengths (R84). Entry k of `mics` is slot 8+k, entry i of
`pool` slot 40+i. -/
structure SlotAllocator where
  mics        : Vector (Option Nat) 24
  floorActive : Vector Bool 8
  pool        : Vector (Option Claim) 88
  waitList    : List Claim
  planLength  : Vector Nat 8
  deriving DecidableEq, Repr

/-! ## Mix Engine -/

/-- A gain point (section 6.3). -/
structure GainPoint where
  current : Nat := 128
  target  : Nat := 128
  deriving DecidableEq, Repr, Inhabited

/-- The 112 gain points (Table 6.2); the fade point of room id r and channel c is entry 9 r + c. -/
structure GainPoints where
  mics   : Vector GainPoint 24
  rooms  : Vector GainPoint 72
  booths : Vector GainPoint 16
  deriving DecidableEq, Repr

/-- Held output values and clip markers (R90, R102); entry 9 r + c is channel c of room id r. -/
structure Outputs where
  rooms      : Vector Int 72
  booths     : Vector Int 16
  roomClips  : Vector Bool 72
  boothClips : Vector Bool 16
  deriving DecidableEq, Repr

/-! ## Command Processor -/

/-- The four data bytes of a REPLY. -/
structure Data where
  d0 : Byte := 0
  d1 : Byte := 0
  d2 : Byte := 0
  d3 : Byte := 0
  deriving DecidableEq, Repr, Inhabited

/-- The answer to a command (R135). -/
inductive Answer where
  | good (q : Qualifier) (info : Nat) (data : Data)
  | check (sense : Sense) (info : Nat)
  deriving DecidableEq, Repr

structure Reply where
  tag    : Byte
  answer : Answer
  deriving DecidableEq, Repr

/-- Supervision (Table 9.6). -/
structure Supervision where
  enabled : Bool
  timeout : Nat
  lock    : Bool
  window  : Nat
  deriving DecidableEq, Repr

structure CommandProcessor where
  replies     : List Reply
  groupFailed : Bool
  deferred    : Option Nat
  requested   : ReqMode
  mode        : Mode
  supervision : Supervision
  deriving DecidableEq, Repr

/-! ## Event Queue -/

/-- An event record (section 10.1). -/
structure Event where
  kind    : EventKind
  ts      : FrameCount
  subject : Byte
  d0      : Byte := 0
  d1      : Byte := 0
  d2      : Byte := 0
  deriving DecidableEq, Repr

structure EventQueue where
  events    : List Event
  mask      : BitVec 7
  lost      : Bool
  lostCount : Nat
  deriving DecidableEq, Repr

/-! ## Table Memory -/

/-- A protected record: its content, its damaged mark, and what the check of its stored bits would find (R153). -/
structure Protected (α : Type) where
  value   : α
  damaged : Bool := false
  err     : MemErr := .sound
  deriving DecidableEq, Repr, Inhabited

/-- Loaded part of a delegate record (Table 2.1). -/
structure Delegate where
  present   : Bool := false
  sect      : Nat := 0
  role      : Role := .delegate
  trim      : Nat := 0
  timeClass : Nat := 0
  deriving DecidableEq, Repr, Inhabited

/-- Section settings (Table 1.6) with their defaults. -/
structure Settings where
  floorMode   : FloorMode := .queue
  maxSpeakers : Nat := 4
  queueLimit  : Nat := 16
  gap         : Nat := 0
  chairPolicy : ChairPolicy := .muteOnly
  timeAction  : TimeAction := .warnOnly
  level       : Nat := 0
  fill        : Nat := 12
  underlay    : Nat := 128
  deriving DecidableEq, Repr, Inhabited

/-- Loaded fields of a booth record (Table 4.1). -/
structure Booth where
  language : Nat := 0
  home     : Nat := 0
  gain     : Nat := 0
  deriving DecidableEq, Repr, Inhabited

/-- Time class (Table 3.4). -/
structure TimeClass where
  limit : Nat := 0
  lead  : Nat := 0
  deriving DecidableEq, Repr, Inhabited

/-- The 235 protected records (section 10.2). Entry u-1 of `delegates` is unit u. -/
structure TableMemory where
  delegates : Vector (Protected Delegate) 192
  settings  : Vector (Protected Settings) 8
  plans     : Vector (Protected (List Nat)) 8
  booths    : Vector (Protected Booth) 16
  classes   : Vector (Protected TimeClass) 4
  overrides : Vector (Protected Override) 7
  deriving DecidableEq, Repr

/-! ## Preset Store -/

/-- Contents of one preset (Table 11.1). -/
structure PresetContents where
  overrides : Vector Override 7
  settings  : Vector Settings 8
  plans     : Vector (List Nat) 8
  booths    : Vector Booth 16
  classes   : Vector TimeClass 4
  deriving DecidableEq, Repr

/-- State of a preset (R155). -/
inductive Preset where
  | empty
  | writing
  | valid (c : PresetContents)
  deriving DecidableEq, Repr, Inhabited

/-- What a programming operation does: store a copy, or erase (R156, R158). -/
inductive ProgramOp where
  | store (copy : PresetContents)
  | erase
  deriving DecidableEq, Repr

/-- The programming operation the store is busy with, and the reference clock periods it still takes (R155). -/
structure Programming where
  preset    : Nat
  op        : ProgramOp
  remaining : Nat
  deriving DecidableEq, Repr

structure PresetStore where
  presets     : Vector Preset 16
  programming : Option Programming
  houseWrite  : Bool
  deriving DecidableEq, Repr

/-! ## The hall, the chip and the state -/

/-- The blocks that the hall's rules act on, with the frame counter that times them (R118). -/
structure Hall where
  frameCounter : FrameCount
  part         : PartitionUnit
  floor        : FloorController
  router       : Router
  slots        : SlotAllocator
  gains        : GainPoints
  cmd          : CommandProcessor
  events       : EventQueue
  mem          : TableMemory
  store        : PresetStore
  deriving DecidableEq, Repr

/-- Ring Port apart from the frame counter (Table 8.1, R125, R128). -/
structure RingPort where
  lock        : LockState
  run         : Nat
  sinceMarker : Option Nat
  laneErrors  : Nat
  pointer     : Nat
  deriving DecidableEq, Repr

/-- Timebase (Table 8.2). -/
structure Timebase where
  sinceTick    : Nat
  sinceSecond  : Nat
  sinceRamp    : Nat
  rampInterval : Nat
  deriving DecidableEq, Repr

/-- A step that the present frame has made due and that is not yet taken (log 2). -/
inductive Due where
  | rampStep
  | window (unit : Nat)
  | tick
  | supervision
  | scan
  | wallFlip (wall : Nat)
  | gapExpiry (room : Nat)
  | second
  | closeEnd (unit : Nat)
  | partitionChange
  | repartitionDone
  | stopping
  deriving DecidableEq, Repr

/-- The whole part: the hall, the ring port, the timebase, the held outputs, the input lines as last sampled, the steps
due, and the frame that last left at RING_OUT. -/
structure Chip where
  hall    : Hall
  ring    : RingPort
  time    : Timebase
  outs    : Outputs
  pins    : Pins
  due     : List Due
  ringOut : Option Frame
  deriving DecidableEq, Repr

/-- The part and the commands that wait for it, first in, first out. -/
structure State where
  chip    : Chip
  pending : List Instr
  deriving DecidableEq, Repr

/-- Reasons for a machine fault: none. The part answers every command, by a reply, a mark, an event or a discarded cell,
so no step stops (log 31). -/
inductive Fault where
  deriving DecidableEq, Repr

/-- Reasons for a refusal. -/
inductive Refusal where
  /-- A command whose row has no meaning yet, raised by `exec` alone. Safe: the model stops where the part goes on. No arm
  of `exec` raises it. -/
  | notModelled (mnemonic : String)
  deriving DecidableEq, Repr

/-! ## Reset -/

/-- The Ring Port after either reset (Table 8.1, R125, R128). -/
def RingPort.reset : RingPort := ⟨.searching, 0, none, 0, 0⟩

/-- The Timebase after a reset that leaves ramp interval `r` (Table 8.2). -/
def Timebase.reset (r : Nat) : Timebase := ⟨0, 0, 0, r⟩

/-- The Floor Controller after either reset (R16). -/
def FloorController.reset : FloorController :=
  ⟨.replicate 192 {}, .replicate 8 [], Config.poolEntries, true, [], .replicate 8 none, .replicate 192 false⟩

/-- The Router after either reset, before its room plans are computed (R59). -/
def Router.reset : Router := ⟨.replicate 16 {}, .replicate 8 [], .replicate 16 true, .replicate 72 true⟩

/-- The slot map after either reset, before the floor slots and LANGUAGE claims are set (R77). -/
def SlotAllocator.reset : SlotAllocator :=
  ⟨.replicate 24 none, .replicate 8 false, .replicate 88 none, [], .replicate 8 0⟩

/-- The gain points after either reset (R93). -/
def GainPoints.reset : GainPoints := ⟨.replicate 24 {}, .replicate 72 {}, .replicate 16 {}⟩

/-- The held outputs and clip markers after either reset (R90, R103). -/
def Outputs.reset : Outputs := ⟨.replicate 72 0, .replicate 16 0, .replicate 72 false, .replicate 16 false⟩

/-- Supervision after a hard reset (Table 9.6). -/
def Supervision.reset : Supervision := ⟨false, 255, false, 2550⟩

/-- The Command Processor after a reset that leaves supervision `v` (Table 9.1). -/
def CommandProcessor.reset (v : Supervision) : CommandProcessor := ⟨[], false, none, .config, .config, v⟩

/-- Table Memory after a hard reset (R6, R12, R16, R54, R59, R154). -/
def TableMemory.reset : TableMemory :=
  ⟨.replicate 192 ⟨{}, false, .sound⟩, .replicate 8 ⟨{}, false, .sound⟩, .replicate 8 ⟨[], false, .sound⟩,
    .replicate 16 ⟨{}, false, .sound⟩, .replicate 4 ⟨{}, false, .sound⟩, .replicate 7 ⟨.follow, false, .sound⟩⟩

/-- The RESTARTED event that opens the list after a reset: cause 0 POWER, 1 COMMAND, timestamp 0 (R151). -/
def restartedEvent (cause : Byte) : Event := ⟨.restarted, 0, 0, cause, 0, 0⟩

/-- The Event Queue after a reset that leaves class mask `m` (Table 10.1). -/
def EventQueue.reset (m : BitVec 7) (cause : Byte) : EventQueue := ⟨[restartedEvent cause], m, false, 0⟩

/-- The part right after a hard reset with every wall line low (STOWED), HOUSE_WP low and every preset EMPTY: the whole
hall is room 0. The pin levels and the EMPTY presets are the model's choice (DESIGN CHOICE, logs 6 and 10, unsafe);
every other value is the spec's. -/
def Chip.reset : Chip where
  hall :=
    { frameCounter := 0
      part := ⟨.replicate 7 {}, 0, 2, 5, .replicate 7 .stowed, .replicate 7 .stowed, .idle⟩
      floor := .reset
      router := .reset
      slots := { SlotAllocator.reset with floorActive := tset (.replicate 8 false) 0 true }
      gains := .reset
      cmd := .reset .reset
      events := .reset 0x7F 0
      mem := .reset
      store := ⟨.replicate 16 .empty, none, false⟩ }
  ring := .reset
  time := .reset 4
  outs := .reset
  pins := {}
  due := []
  ringOut := none

/-- The machine right after reset: the part after a hard reset, with no command waiting. -/
def State.reset : State := ⟨.reset, []⟩

end Sys2Proof.Machine
end

