-- ==== Sys2Proof/Machine/Rooms.lean ====
section
/-! DEFINITION. Partitions and rooms (R9, R10), the one-byte maps (R130), and list helpers. -/

namespace Sys2Proof.Machine

/-- The list with `x` put before the first entry that `x` comes before. -/
def insertBy {α : Type} (before : α → α → Bool) (x : α) : List α → List α
  | [] => [x]
  | y :: ys => if before x y then x :: y :: ys else y :: insertBy before x ys

/-- The list sorted by `before` (entries that tie keep their order). -/
def sortBy {α : Type} (before : α → α → Bool) : List α → List α
  | [] => []
  | x :: xs => insertBy before x (sortBy before xs)

/-- The room id of section `s`: its room's lowest section (R9). -/
def roomOf (p : Partition) : Nat → Nat
  | 0 => 0
  | s + 1 => if tget p s = .stowed then roomOf p s else s + 1

/-- Whether `r` is a room id of the partition: r = 0 or wall r-1 is DEPLOYED (R9). -/
def isRoomId (p : Partition) (r : Nat) : Bool :=
  decide (r < 8) && (r == 0 || tget p (r - 1) == .deployed)

/-- The sections of the hall. -/
def sections : List Nat := List.range 8

/-- The room ids of a partition, ascending (R9). -/
def roomIds (p : Partition) : List Nat := sections.filter (isRoomId p)

/-- The sections of room `r`, ascending (R9). -/
def sectionsOf (p : Partition) (r : Nat) : List Nat := sections.filter (fun s => roomOf p s == r)

/-- Whether room `r` of `p` is unchanged in `q`: `q` has a room with exactly the same sections (R10). -/
def unchangedRoom (p q : Partition) (r : Nat) : Bool :=
  isRoomId p r && isRoomId q r && (sectionsOf p r == sectionsOf q r)

/-- The room ids of `p` that are changed in `q` (R10). -/
def changedRooms (p q : Partition) : List Nat := (roomIds p).filter (fun r => !unchangedRoom p q r)

/-- The sections whose room in `p` is changed in `q` (R10). -/
def changedSections (p q : Partition) : List Nat := sections.filter (fun s => !unchangedRoom p q (roomOf p s))

/-- Wall map: bit w is 1 when wall w is DEPLOYED (R130). -/
def wallMap (p : Partition) : Byte :=
  (List.range 7).foldl (fun b w => if tget p w = .deployed then b ||| BitVec.ofNat 8 (2 ^ w) else b) 0

/-- Section map: bit s is 1 when section s is in the set (R130). -/
def sectionMap (ss : List Nat) : Byte :=
  sections.foldl (fun b s => if ss.contains s then b ||| BitVec.ofNat 8 (2 ^ s) else b) 0

/-- The effective state of a wall (Table 1.3). -/
def effectiveWall (o : Override) (debounced : WallState) : WallState :=
  match o with
  | .follow => debounced
  | .forceDeployed => .deployed
  | .forceStowed => .stowed

/-- What the contact line of wall `w` reads: high is DEPLOYED (section 1.1). -/
def wallReading (lines : BitVec 7) (w : Nat) : WallState := if lines.getLsbD w then .deployed else .stowed

/-- The unit addresses, ascending. -/
def units : List Nat := (List.range 192).map (· + 1)

/-- The place of unit address `u` in the tables indexed by unit: 0 is no unit address. -/
def unitIndex (u : Nat) : Nat := if u = 0 then 192 else u - 1

/-- The booth numbers, ascending. -/
def boothNumbers : List Nat := List.range 16

/-- A byte from a number. -/
def byte (n : Nat) : Byte := BitVec.ofNat 8 n

/-- The two bytes of a 16-bit quantity, most significant first. -/
def highByte (n : Nat) : Byte := byte (n / 256)
def lowByte (n : Nat) : Byte := byte (n % 256)

/-- Two half bytes in one byte, `hi` in bits 4 to 7 (section 8.6.1). -/
def halves (hi lo : Nat) : Byte := byte (hi % 16 * 16 + lo % 16)

end Sys2Proof.Machine
end

