-- ==== Sys2Proof/Machine/Gain.lean ====
section
/-! DEFINITION. The gain arithmetic of the Mix Engine: the coefficient table G (R91), scaling (R92), the NOM table
(R95), the ramp of a gain point (R93) and the clamp (R102). -/

namespace Sys2Proof.Machine

/-- G(0) to G(32) (R91). -/
def coefficients0 : List Nat :=
  [ 32768, 30935, 29205, 27571, 26029, 24573, 23198, 21900, 20675, 19519, 18427,
    17396, 16423, 15504, 14637, 13818, 13045, 12315, 11627, 10976, 10362, 9783,
    9235, 8719, 8231, 7771, 7336, 6925, 6538, 6172, 5827, 5501, 5193 ]

/-- G(33) to G(65) (R91). -/
def coefficients1 : List Nat :=
  [ 4903, 4629, 4370, 4125, 3894, 3677, 3471, 3277, 3093, 2920, 2757,
    2603, 2457, 2320, 2190, 2068, 1952, 1843, 1740, 1642, 1550, 1464,
    1382, 1305, 1232, 1163, 1098, 1036, 978, 924, 872, 823, 777 ]

/-- G(66) to G(98) (R91). -/
def coefficients2 : List Nat :=
  [ 734, 693, 654, 617, 583, 550, 519, 490, 463, 437, 413,
    389, 368, 347, 328, 309, 292, 276, 260, 246, 232, 219,
    207, 195, 184, 174, 164, 155, 146, 138, 130, 123, 116 ]

/-- G(99) to G(128) (R91). -/
def coefficients3 : List Nat :=
  [ 110, 104, 98, 92, 87, 82, 78, 73, 69, 65, 62,
    58, 55, 52, 49, 46, 44, 41, 39, 37, 35, 33,
    31, 29, 28, 26, 25, 23, 22, 0 ]

/-- The coefficient of gain index `a`: 32,768 × 10^(−a/40) rounded to the nearest integer, 0 at index 128 (R91). -/
def coefficient (a : Nat) : Nat :=
  (coefficients0 ++ coefficients1 ++ coefficients2 ++ coefficients3).getD a 0

/-- sc(v, a): v times G(a), plus 16,384, divided by 32,768 toward minus infinity (R92). -/
def sc (v : Int) (a : Nat) : Int := (v * (coefficient a : Int) + 16384) / 32768

/-- NOM(n): 20 × log10(n) rounded, n taken as 1 when it is 0 (R95, Table 6.3). -/
def nom (n : Nat) : Nat :=
  ([0, 0, 6, 10, 12, 14, 16, 17, 18, 19, 20, 21, 22] ++ [22, 23, 24, 24, 25, 25, 26, 26, 26, 27, 27, 28]).getD n 28

/-- The target of a SPEAKING holder's microphone gain point: trim + NOM(n), at most 127 (R95). -/
def speakingTarget (trim n : Nat) : Nat := min 127 (trim + nom n)

/-- One ramp step of a gain point: one index toward the target (R93). -/
def GainPoint.ramp (g : GainPoint) : GainPoint :=
  if g.current < g.target then { g with current := g.current + 1 }
  else if g.target < g.current then { g with current := g.current - 1 }
  else g

/-- One ramp step of all 112 gain points (R93). -/
def GainPoints.ramp (g : GainPoints) : GainPoints where
  mics := tmapIdx g.mics (fun _ => GainPoint.ramp)
  rooms := tmapIdx g.rooms (fun _ => GainPoint.ramp)
  booths := tmapIdx g.booths (fun _ => GainPoint.ramp)

/-- The clamp of an output to the sample range (R102). -/
def clampSample (y : Int) : Int := if 8388607 < y then 8388607 else if y < -8388608 then -8388608 else y

end Sys2Proof.Machine
end

