-- ==== Sys2Proof/Machine/Ops.lean ====
section
/-! DEFINITION. The named operations on the hall: posting events (R149, R150), reading Table Memory with its check
(R153), the records' acting values (Table 10.4), and reading and writing the runtime tables, each in one place. -/

namespace Sys2Proof.Machine

/-! ## Events -/

/-- Code of an event kind (Table 10.2). -/
def EventKind.code : EventKind → Byte
  | .wallChanged => 1
  | .repartitionStarted => 2
  | .repartitionDone => 3
  | .granted => 4
  | .closed => 5
  | .unresponsive => 6
  | .chairPriority => 7
  | .poolLow => 8
  | .unknownUnit => 9
  | .timeWarning => 10
  | .timeUp => 11
  | .languageDropped => 12
  | .leadChanged => 13
  | .relayLost => 14
  | .claimWaiting => 15
  | .claimServed => 16
  | .integrityCorrected => 17
  | .recordDamaged => 18
  | .ringLost => 19
  | .ringLocked => 20
  | .supervisionExpired => 21
  | .restarted => 22
  | .eventsLost => 23
  | .presetDone => 24
  | .presetFailed => 25

/-- Class of an event kind (Table 10.2). -/
def EventKind.cls : EventKind → EventClass
  | .wallChanged | .repartitionStarted | .repartitionDone => .wall
  | .granted | .closed | .unresponsive | .chairPriority | .poolLow | .unknownUnit => .floor
  | .timeWarning | .timeUp => .time
  | .languageDropped | .leadChanged | .relayLost => .booth
  | .claimWaiting | .claimServed => .slot
  | .integrityCorrected | .recordDamaged => .integrity
  | .ringLost | .ringLocked | .supervisionExpired | .restarted | .eventsLost | .presetDone | .presetFailed => .system

/-- Mask bit of a class (R152). -/
def EventClass.bit : EventClass → Nat
  | .floor => 0
  | .time => 1
  | .wall => 2
  | .booth => 3
  | .slot => 4
  | .integrity => 5
  | .system => 6

/-- Whether the class mask lets an event of kind `k` through: RESTARTED and EVENTS LOST ignore it (R149). -/
def EventQueue.passes (q : EventQueue) (k : EventKind) : Bool :=
  k == .restarted || k == .eventsLost || q.mask.getLsbD k.cls.bit

/-- The EVENTS LOST event of a lost count, posted at frame counter value `now` (R150). -/
def eventsLostEvent (now : FrameCount) (count : Nat) : Event :=
  ⟨.eventsLost, now, 0, highByte count, lowByte count, 0⟩

/-- Handing one event to the queue at frame counter value `now` (R149, R150). -/
def EventQueue.push (q : EventQueue) (now : FrameCount) (e : Event) : EventQueue :=
  if q.passes e.kind = false then q
  else if q.lost = false then
    if q.events.length < Config.eventPlaces then { q with events := q.events ++ [e] }
    else { q with lost := true, lostCount := 1 }
  else if q.events.length + 2 ≤ Config.eventPlaces then
    { q with events := q.events ++ [eventsLostEvent now q.lostCount, e], lost := false, lostCount := 0 }
  else { q with lostCount := min (q.lostCount + 1) Config.count16 }

namespace Hall

/-- Post an event with a timestamp of its own (WALL CHANGED, R4). -/
def postAt (ts : FrameCount) (k : EventKind) (subject d0 d1 d2 : Byte) (h : Hall) : Hall :=
  { h with events := h.events.push h.frameCounter ⟨k, ts, subject, d0, d1, d2⟩ }

/-- Post an event at the present frame (R149). -/
def post (k : EventKind) (subject d0 d1 d2 : Byte) (h : Hall) : Hall :=
  h.postAt h.frameCounter k subject d0 d1 d2

end Hall

/-! ## Table Memory -/

/-- Code of a table (section 10.1.1). -/
def tableCode : TableId → Byte
  | .delegate => 0
  | .settings => 1
  | .plan => 2
  | .booth => 3
  | .timeClass => 4
  | .override => 5

/-- What the check of a read finds (R153). -/
inductive Finding where
  | none | corrected | damaged
  deriving DecidableEq, Repr

/-- The check of a read: a record whose mark is set is not checked (R153). -/
def Protected.finding {α : Type} (p : Protected α) : Finding :=
  if p.damaged then .none
  else match p.err with
    | .sound => .none
    | .correctable => .corrected
    | .uncorrectable => .damaged

/-- The record as the check leaves it: corrected in place, or marked damaged (R153). -/
def Protected.checked {α : Type} (p : Protected α) : Protected α :=
  match p.finding with
  | .none => p
  | .corrected => { p with err := .sound }
  | .damaged => { p with damaged := true }

/-- Whether no read of Table Memory would find damage that is not yet marked (R153). -/
def TableMemory.undamaged (m : TableMemory) : Bool :=
  m.delegates.all (fun p => p.finding != .damaged) && m.settings.all (fun p => p.finding != .damaged) &&
    m.plans.all (fun p => p.finding != .damaged) && m.booths.all (fun p => p.finding != .damaged) &&
    m.classes.all (fun p => p.finding != .damaged) && m.overrides.all (fun p => p.finding != .damaged)

/-- A record written whole, with fresh protection and a cleared mark (R154). -/
def fresh {α : Type} (v : α) : Protected α := ⟨v, false, .sound⟩

/-- The number of damaged marks in one table. -/
def damagedIn {α : Type} {n : Nat} (t : Vector (Protected α) n) : Nat :=
  (t.toList.filter (fun p => p.damaged)).length

/-- The number of damaged records (section 10.2). -/
def TableMemory.damagedCount (m : TableMemory) : Nat :=
  damagedIn m.delegates + damagedIn m.settings + damagedIn m.plans + damagedIn m.booths + damagedIn m.classes +
    damagedIn m.overrides

namespace Hall

/-- Report a finding: INTEGRITY CORRECTED, or RECORD DAMAGED with the new number of damaged records (R153). -/
def report (f : Finding) (t : TableId) (record : Nat) (h : Hall) : Hall :=
  match f with
  | .none => h
  | .corrected => h.post .integrityCorrected (tableCode t) (byte record) 0 0
  | .damaged => h.post .recordDamaged (tableCode t) (byte record) (byte (min 255 h.mem.damagedCount)) 0

/-! Stored records, as they stand. -/

def record (h : Hall) (u : Nat) : Protected Delegate := tget h.mem.delegates (unitIndex u)
def settingsRecord (h : Hall) (s : Nat) : Protected Settings := tget h.mem.settings s
def planRecord (h : Hall) (s : Nat) : Protected (List Nat) := tget h.mem.plans s
def boothRecord (h : Hall) (b : Nat) : Protected Booth := tget h.mem.booths b
def classRecord (h : Hall) (c : Nat) : Protected TimeClass := tget h.mem.classes c
def overrideRecord (h : Hall) (w : Nat) : Protected Override := tget h.mem.overrides w

/-! Acting values: the substitute of Table 10.4 while a record is damaged. -/

/-- The loaded fields of a unit's record, as stored. -/
def loaded (h : Hall) (u : Nat) : Delegate := (h.record u).value

/-- Whether the unit is present and its record not damaged: a damaged delegate record acts as absent. -/
def known (h : Hall) (u : Nat) : Bool := (h.record u).value.present && !(h.record u).damaged

/-- Section settings: the defaults of Table 1.6 while damaged. -/
def settings (h : Hall) (s : Nat) : Settings :=
  if (h.settingsRecord s).damaged then {} else (h.settingsRecord s).value

/-- Home plan: empty while damaged. -/
def homePlan (h : Hall) (s : Nat) : List Nat :=
  if (h.planRecord s).damaged then [] else (h.planRecord s).value

/-- Time class: unlimited while damaged. -/
def timeClass (h : Hall) (c : Nat) : TimeClass :=
  if (h.classRecord c).damaged then {} else (h.classRecord c).value

/-- Wall override: FOLLOW while damaged. -/
def wallOverride (h : Hall) (w : Nat) : Override :=
  if (h.overrideRecord w).damaged then .follow else (h.overrideRecord w).value

/-- The language, home section and gain of a booth, as stored. -/
def booth (h : Hall) (b : Nat) : Booth := (h.boothRecord b).value

/-! The checks of reads: mark and report, without the owner's reaction (R153). -/

def noteDelegate (u : Nat) (h : Hall) : Hall :=
  if (h.record u).finding = .none then h
  else ({ h with mem.delegates := tset h.mem.delegates (unitIndex u) (h.record u).checked }).report
    (h.record u).finding .delegate u

def noteSettings (s : Nat) (h : Hall) : Hall :=
  if (h.settingsRecord s).finding = .none then h
  else ({ h with mem.settings := tset h.mem.settings s (h.settingsRecord s).checked }).report
    (h.settingsRecord s).finding .settings s

def notePlan (s : Nat) (h : Hall) : Hall :=
  if (h.planRecord s).finding = .none then h
  else ({ h with mem.plans := tset h.mem.plans s (h.planRecord s).checked }).report (h.planRecord s).finding .plan s

def noteBooth (b : Nat) (h : Hall) : Hall :=
  if (h.boothRecord b).finding = .none then h
  else ({ h with mem.booths := tset h.mem.booths b (h.boothRecord b).checked }).report
    (h.boothRecord b).finding .booth b

def noteClass (c : Nat) (h : Hall) : Hall :=
  if (h.classRecord c).finding = .none then h
  else ({ h with mem.classes := tset h.mem.classes c (h.classRecord c).checked }).report
    (h.classRecord c).finding .timeClass c

def noteOverride (w : Nat) (h : Hall) : Hall :=
  if (h.overrideRecord w).finding = .none then h
  else ({ h with mem.overrides := tset h.mem.overrides w (h.overrideRecord w).checked }).report
    (h.overrideRecord w).finding .override w

/-! Whole writes of a record (R154). -/

def writeDelegate (u : Nat) (d : Delegate) (h : Hall) : Hall :=
  { h with mem.delegates := tset h.mem.delegates (unitIndex u) (fresh d) }
def writeSettings (s : Nat) (v : Settings) (h : Hall) : Hall :=
  { h with mem.settings := tset h.mem.settings s (fresh v) }
def writePlan (s : Nat) (v : List Nat) (h : Hall) : Hall :=
  { h with mem.plans := tset h.mem.plans s (fresh v) }
def writeBooth (b : Nat) (v : Booth) (h : Hall) : Hall :=
  { h with mem.booths := tset h.mem.booths b (fresh v) }
def writeClass (c : Nat) (v : TimeClass) (h : Hall) : Hall :=
  { h with mem.classes := tset h.mem.classes c (fresh v) }
def writeOverride (w : Nat) (v : Override) (h : Hall) : Hall :=
  { h with mem.overrides := tset h.mem.overrides w (fresh v) }

end Hall

/-- An error strikes a stored record (R153; which errors strike, and when, is the outside's: log 7). -/
def TableMemory.strike (m : TableMemory) (x : Upset) : TableMemory :=
  match x.table with
  | .delegate => { m with delegates := tmod m.delegates (unitIndex x.record) (fun p => { p with err := x.err }) }
  | .settings => { m with settings := tmod m.settings x.record (fun p => { p with err := x.err }) }
  | .plan => { m with plans := tmod m.plans x.record (fun p => { p with err := x.err }) }
  | .booth => { m with booths := tmod m.booths x.record (fun p => { p with err := x.err }) }
  | .timeClass => { m with classes := tmod m.classes x.record (fun p => { p with err := x.err }) }
  | .override => { m with overrides := tmod m.overrides x.record (fun p => { p with err := x.err }) }

namespace Hall

/-! ## Runtime tables -/

/-- The room id of section `s` in the partition in force. -/
def roomOfSection (h : Hall) (s : Nat) : Nat := roomOf h.part.inForce s

/-- The room ids of the partition in force. -/
def rooms (h : Hall) : List Nat := roomIds h.part.inForce

/-- The runtime part of a unit's record. -/
def run (h : Hall) (u : Nat) : DelegateRun := tget h.floor.runs (unitIndex u)

/-- Change the runtime part of a unit's record. -/
def setRun (u : Nat) (f : DelegateRun → DelegateRun) (h : Hall) : Hall :=
  { h with floor.runs := tmod h.floor.runs (unitIndex u) f }

/-- The room in force that contains the unit's section (section 2.1; for a damaged record see log 13). -/
def roomOfUnit (h : Hall) (u : Nat) : Nat := h.roomOfSection (h.loaded u).sect

/-- Whether the unit's role is CHAIR. -/
def isChair (h : Hall) (u : Nat) : Bool := (h.loaded u).role == .chair

/-- The request queue of room id `r`, oldest first (R23). -/
def queue (h : Hall) (r : Nat) : List Nat := tget h.floor.queues r

def setQueue (r : Nat) (q : List Nat) (h : Hall) : Hall := { h with floor.queues := tset h.floor.queues r q }

/-- The changeover gap timer of room id `r` (R26). -/
def gap (h : Hall) (r : Nat) : Option Nat := tget h.floor.gaps r

def setGap (r : Nat) (g : Option Nat) (h : Hall) : Hall := { h with floor.gaps := tset h.floor.gaps r g }

/-- The lowest FREE microphone slot k (R78). -/
def freeMic (h : Hall) : Option Nat := (List.range 24).find? (fun k => tget h.slots.mics k == none)

/-- Whether a microphone slot is free (R78). -/
def micFree (h : Hall) : Bool := h.freeMic.isSome

def setMic (k : Nat) (holder : Option Nat) (h : Hall) : Hall :=
  { h with slots.mics := tset h.slots.mics k holder }

/-- Set the target of microphone gain point k. -/
def setMicTarget (k target : Nat) (h : Hall) : Hall :=
  { h with gains.mics := tmod h.gains.mics k (fun g => { g with target := target }) }

/-- The runtime part of booth `b`. -/
def boothRun (h : Hall) (b : Nat) : BoothRun := tget h.router.booths b

def setBoothRun (b : Nat) (f : BoothRun → BoothRun) (h : Hall) : Hall :=
  { h with router.booths := tmod h.router.booths b f }

/-- The room in force that contains the booth's home section (R58). A damaged record acts as a booth OFF and Table 10.4 gives
it no home section; the model keeps the stored one (the model's choice, log 48). -/
def roomOfBooth (h : Hall) (b : Nat) : Nat := h.roomOfSection (h.booth b).home

/-- The effective state of a booth: OFF while its record is damaged or its language is 0 (R58). -/
def effective (h : Hall) (b : Nat) : BoothState :=
  if (h.boothRecord b).damaged || (h.booth b).language == 0 then .off else (h.boothRun b).reported

/-- The room plan of room id `r` (R63). -/
def plan (h : Hall) (r : Nat) : List Nat := tget h.router.plans r

/-- The pool slot index that a claim holds, if it holds one. -/
def heldAt (h : Hall) (c : Claim) : Option Nat := (List.range 88).find? (fun i => tget h.slots.pool i == some c)

def setMode (m : Mode) (h : Hall) : Hall := { h with cmd.mode := m }

def setRequested (m : ReqMode) (h : Hall) : Hall := { h with cmd.requested := m }

/-- Apply `f` for each entry of a list, in its order. -/
def each {α : Type} (l : List α) (f : α → Hall → Hall) (h : Hall) : Hall := l.foldl (fun h a => f a h) h

end Hall

end Sys2Proof.Machine
end

