-- ==== Sys2Proof/Machine/Flags.lean ====
section
/-! DEFINITION. Marks and flags: the three dirty sets (R43, R71, R73), pending indications (R45), POOL LOW arming (R24),
relay-refused (R58), and the codes of the fields that cells and replies carry (Table 8.9, section 8.6.1). -/

namespace Sys2Proof.Machine

namespace Hall

/-! ## Unit marks -/

/-- Mark a unit for a UNIT STATE cell; absent and damaged records are never marked (R43). -/
def mark (u : Nat) (h : Hall) : Hall :=
  { h with floor.dirty := if h.known u then tset h.floor.dirty (unitIndex u) true else h.floor.dirty }

/-- Remove a unit's mark. -/
def unmark (u : Nat) (h : Hall) : Hall := { h with floor.dirty := tset h.floor.dirty (unitIndex u) false }

/-- Set a pending indication, replacing one not yet sent, and mark the unit (R45). -/
def indicate (i : Indication) (u : Nat) (h : Hall) : Hall :=
  (h.setRun u (fun d => { d with indication := some i })).mark u

/-- Mark the unit, with an indication when there is one. -/
def signal (i : Option Indication) (u : Nat) (h : Hall) : Hall :=
  match i with
  | some i => h.indicate i u
  | none => h.mark u

/-! ## Notice marks -/

/-- Mark a booth notice (R71). -/
def markBooth (b : Nat) (h : Hall) : Hall := { h with router.boothDirty := tset h.router.boothDirty b true }

/-- Mark the notices of channel `c` for every section of room `r` (R73). -/
def markChannel (r c : Nat) (h : Hall) : Hall :=
  { h with router.channelDirty :=
      (sectionsOf h.part.inForce r).foldl (fun d s => tset d (9 * s + c) true) h.router.channelDirty }

/-- Mark all nine channels of a section (R73). -/
def markSection (s : Nat) (h : Hall) : Hall :=
  { h with router.channelDirty := (List.range 9).foldl (fun d c => tset d (9 * s + c) true) h.router.channelDirty }

/-- The channels of room `r` that carry language `l` (R63). -/
def channelsOf (h : Hall) (r l : Nat) : List Nat :=
  (List.range 8).filterMap (fun i => if (h.plan r)[i]? = some l then some (i + 1) else none)

/-- Mark the channel notices of a language of room `r` (R66, R67). -/
def markLanguage (r l : Nat) (h : Hall) : Hall := each (h.channelsOf r l) (markChannel r) h

/-- Mark all 16 booth notices and all 72 channel notices (R59, R121). -/
def markAllNotices (h : Hall) : Hall :=
  { h with router.boothDirty := .replicate 16 true, router.channelDirty := .replicate 72 true }

/-! ## The request pool and POOL LOW -/

/-- An entry is taken; POOL LOW is posted and disarmed when the free entries reach 8 or fewer (R24). -/
def poolTake (h : Hall) : Hall :=
  let free := h.floor.poolFree - 1
  if free ≤ Config.poolLow ∧ h.floor.poolArmed = true then
    ({ h with floor.poolFree := free, floor.poolArmed := false }).post .poolLow 0 (byte free) 0 0
  else { h with floor.poolFree := free }

/-- Entries are freed; POOL LOW is armed again at 24 free entries or more (R24). -/
def poolGive (n : Nat) (h : Hall) : Hall :=
  let free := h.floor.poolFree + n
  { h with floor.poolFree := free, floor.poolArmed := h.floor.poolArmed || decide (Config.poolRearm ≤ free) }

/-- Relay-refused: the relay selection differs from the relay in force (R58). -/
def relayRefused (h : Hall) (b : Nat) : Bool := decide ((h.boothRun b).selection ≠ (h.boothRun b).relay)

end Hall

/-! ## Codes -/

/-- The indication of a close reason (Table 2.3). -/
def CloseReason.indication : CloseReason → Option Indication
  | .unit => none
  | .chair => some .closedByChair
  | .override => some .closedByOverride
  | .operator => some .closedByOperator
  | .resize => some .closedByResize
  | .timeUp => some .timeUp
  | .stopping => some .floorClosed
  | .damaged => none

/-- Code of a close reason, in the order of Table 2.3. -/
def CloseReason.code : CloseReason → Byte
  | .unit => 0
  | .chair => 1
  | .override => 2
  | .operator => 3
  | .resize => 4
  | .timeUp => 5
  | .stopping => 6
  | .damaged => 7

/-- Code of an indication (Table 8.9). -/
def Indication.code : Indication → Byte
  | .denied => 1
  | .queueFull => 2
  | .floorClosed => 3
  | .dropped => 4
  | .timeWarning => 5
  | .timeUp => 6
  | .closedByChair => 7
  | .closedByOverride => 8
  | .closedByOperator => 9
  | .closedByResize => 10

/-- Code of a pending indication, 0 for none. -/
def indicationCode : Option Indication → Byte
  | none => 0
  | some i => i.code

/-- Floor state as a UNIT STATE cell reports it (R44, Table 8.9). -/
def FloorState.cellCode : FloorState → Byte
  | .idle => 0
  | .waiting => 1
  | .chairPending => 1
  | .granting => 2
  | .speaking => 3
  | .closing => 4

/-- Floor state as READ DELEGATE reports it (Table 8.11). -/
def FloorState.code : FloorState → Byte
  | .idle => 0
  | .waiting => 1
  | .granting => 2
  | .speaking => 3
  | .closing => 4
  | .chairPending => 5

/-- Booth state codes (Table 8.9). -/
def BoothState.code : BoothState → Nat
  | .off => 0
  | .ready => 1
  | .onAir => 2

/-- Assignment codes (Table 8.9). -/
def Assignment.code : Assignment → Byte
  | .none => 0
  | .lead => 1
  | .stoodDown => 2
  | .unplanned => 3

/-- A relay as a byte: the booth, or 0xFF for FLOOR (Table 8.8). -/
def Relay.code : Relay → Byte
  | .floor => 0xFF
  | .booth b => byte b

/-- Mode in force as a number (R135). -/
def Mode.code : Mode → Nat
  | .config => 0
  | .live => 1
  | .stopping => 2
  | .safe => 3

/-- Requested mode as a number (R135). -/
def ReqMode.code : ReqMode → Nat
  | .config => 0
  | .live => 1

/-- Class code of a claim (Table 8.11, section 10.1.1). -/
def Claim.classCode : Claim → Byte
  | .leadOut _ => 3
  | .language _ _ => 4
  | .feed _ => 5
  | .spareOut _ => 6

/-- Key of a claim as a byte: the booth, or room id (high) and channel (low) (section 10.1.1). -/
def Claim.keyByte : Claim → Byte
  | .leadOut b => byte b
  | .language r c => halves r c
  | .feed b => byte b
  | .spareOut b => byte b

/-- Place of a claim in the wait list's order: class LEAD-OUT, LANGUAGE, FEED, SPARE-OUT, then key (R82). -/
def Claim.rank : Claim → Nat
  | .leadOut b => b
  | .language r c => 1000 + 16 * r + c
  | .feed b => 2000 + b
  | .spareOut b => 3000 + b

/-- A slot as a byte, 0xFF when absent. -/
def slotByte : Option Nat → Byte
  | none => 0xFF
  | some s => byte s

/-- Phase code of STATUS part 0 (Table 9.7). -/
def Repartition.code : Repartition → Byte
  | .idle => 0
  | .fadingOut _ _ => 1
  | .fadingIn _ _ => 2

/-- A flag as a bit. -/
def flag (b : Bool) : Nat := if b then 1 else 0

end Sys2Proof.Machine
end

