-- ==== Sys2Proof/Machine/Operands.lean ====
section
/-! DEFINITION. The shared manner of checking command fields (R136): identifiers are refused, numbers are clamped, and the
lowest-numbered field is the info; the answers' codes (Table 9.2). -/

namespace Sys2Proof.Machine

/-- A field as its number, the value it carries and the largest value allowed. -/
abbrev FieldLimit := Nat × Nat × Nat

/-- The lowest-numbered field above its limit, the fields listed in ascending order (R136). -/
def fieldAbove (fs : List FieldLimit) : Option Nat :=
  (fs.find? (fun f => decide (f.2.2 < f.2.1))).map (·.1)

/-- A clamped field as its number, the value it carries and the value written. -/
abbrev ClampedField := Nat × Nat × Nat

/-- The answer to an executed write: ADJUSTED with the lowest-numbered clamped field, or NONE (R135, R136). -/
def goodWrite (fs : List ClampedField) : Answer :=
  match fs.find? (fun f => f.2.1 != f.2.2) with
  | some f => .good .adjusted f.1 {}
  | none => .good .none 0 {}

/-- A number brought into lo..hi (R136). -/
def clampTo (lo hi v : Nat) : Nat := if v < lo then lo else if hi < v then hi else v

/-- GOOD, qualifier NONE, no data. -/
def Answer.plain : Answer := .good .none 0 {}

/-- GOOD with the data of a read (R135). -/
def Answer.read (d : Data) : Answer := .good .none 0 d

/-- ILLEGAL REQUEST, FIELD OUT OF RANGE with a field number. -/
def Answer.field (n : Nat) : Answer := .check .fieldOutOfRange n

/-- Whether an answer is CHECK. -/
def Answer.isCheck : Answer → Bool
  | .good _ _ _ => false
  | .check _ _ => true

/-- Sense key of a sense code (Table 9.2). -/
def Sense.key : Sense → Byte
  | .unknownCommand | .fieldOutOfRange | .duplicateLanguage | .unitNotPresent | .notOperatorRoom | .presetEmpty => 1
  | .wrongMode | .tablesDamaged => 2
  | .unitNotIdle | .boothNotOff | .storeInProgress | .stopping => 3
  | .floorFull | .noMicSlot | .supervisionLocked => 4
  | .housePreset => 5
  | .recordDamaged => 6
  | .storeFailed => 7
  | .groupAbandoned => 8

/-- Code of a sense code within its key (Table 9.2). -/
def Sense.code : Sense → Byte
  | .unknownCommand => 1
  | .fieldOutOfRange => 2
  | .duplicateLanguage => 3
  | .unitNotPresent => 4
  | .notOperatorRoom => 5
  | .presetEmpty => 6
  | .wrongMode => 1
  | .tablesDamaged => 2
  | .unitNotIdle => 1
  | .boothNotOff => 2
  | .storeInProgress => 3
  | .stopping => 4
  | .floorFull => 1
  | .noMicSlot => 2
  | .supervisionLocked => 3
  | .housePreset => 1
  | .recordDamaged => 1
  | .storeFailed => 1
  | .groupAbandoned => 1

/-- Code of a qualifier (Table 8.9). -/
def Qualifier.code : Qualifier → Byte
  | .none => 0
  | .adjusted => 1
  | .partialRecall => 2

/-- Names carried by fields: floor mode, chair policy, time action, role, override (R13, R20, R8). -/
def floorModeOf (n : Nat) : FloorMode :=
  if n = 0 then .openFloor else if n = 1 then .queue else if n = 2 then .override else .operator
def chairPolicyOf (n : Nat) : ChairPolicy := if n = 0 then .muteOnly else .clearAll
def timeActionOf (n : Nat) : TimeAction := if n = 0 then .warnOnly else .close
def roleOf (n : Nat) : Role := if n = 0 then .delegate else .chair
def overrideOf (n : Nat) : Override := if n = 0 then .follow else if n = 1 then .forceDeployed else .forceStowed

/-- Booth state and relay selection carried by a BOOTH REPORT (R132). -/
def boothStateOf (n : Nat) : BoothState := if n = 0 then .off else if n = 1 then .ready else .onAir
def relayOf (b : Byte) : Relay := if b = 0xFF then .floor else .booth b.toNat

end Sys2Proof.Machine
end

