-- ==== Sys2Proof/Machine/Reader.lean ====
section
/-! DEFINITION. Reading Table Memory with the owner's reaction. A rule that reads a record first makes the check of
R153; a finding makes the owner of the table react, and the reaction reads records in its turn. The operations of the
hall therefore take the reads as an argument, one entry for each table; Integrity.lean ties the knot. -/

namespace Sys2Proof.Machine

/-- The reads of Table Memory: each checks one record and, at a finding, makes the owner's reaction (R153, Table 10.4). -/
structure Reader where
  delegate  : Nat → Hall → Hall
  settings  : Nat → Hall → Hall
  plan      : Nat → Hall → Hall
  booth     : Nat → Hall → Hall
  timeClass : Nat → Hall → Hall
  override  : Nat → Hall → Hall

/-- Reads that only mark and report. -/
def Reader.notes : Reader where
  delegate := Hall.noteDelegate
  settings := Hall.noteSettings
  plan := Hall.notePlan
  booth := Hall.noteBooth
  timeClass := Hall.noteClass
  override := Hall.noteOverride

namespace Hall

/-- The reads of `records` in turn. -/
def readAll (read : Nat → Hall → Hall) (records : List Nat) (h : Hall) : Hall := each records read h

/-! ## Ages (R23) -/

/-- The age of a timestamp: the frame counter minus it, modulo 2^32 (R23). -/
def age (h : Hall) (ts : FrameCount) : Nat := (h.frameCounter - ts).toNat

/-- Whether timestamp and unit `a` count as older than `b`: greater age, or equal and the lower unit address (R23). -/
def older (h : Hall) (a b : FrameCount × Nat) : Bool :=
  decide (h.age b.1 < h.age a.1) || (h.age b.1 == h.age a.1 && decide (a.2 < b.2))

/-- A unit's request with its address. -/
def requestKey (h : Hall) (u : Nat) : FrameCount × Nat := ((h.run u).requestTs.getD 0, u)

/-- A unit's grant with its address. -/
def grantKey (h : Hall) (u : Nat) : FrameCount × Nat := ((h.run u).grantTs.getD 0, u)

/-- Of some rooms, those with a queue, the room of the oldest head request first (R79, R26). -/
def oldestHeadFirst (h : Hall) (rs : List Nat) : List Nat :=
  sortBy (fun a b => h.older (h.requestKey ((h.queue a).headD 0)) (h.requestKey ((h.queue b).headD 0)))
    (rs.filter (fun r => !(h.queue r).isEmpty))

/-! ## Holders and positions (R17) -/

/-- Whether the unit is SPEAKING. -/
def isSpeaking (h : Hall) (u : Nat) : Bool := (h.run u).state == .speaking

/-- Whether the unit is in GRANTING or SPEAKING. -/
def onFloor (h : Hall) (u : Nat) : Bool := (h.run u).state == .granting || (h.run u).state == .speaking

/-- Whether the unit is a holder: GRANTING, SPEAKING or CLOSING (R17). -/
def isHolder (h : Hall) (u : Nat) : Bool := h.onFloor u || (h.run u).state == .closing

/-- Whether the unit takes a position: a non-chair in GRANTING or SPEAKING (R17). -/
def takesPosition (h : Hall) (u : Nat) : Bool := h.onFloor u && !h.isChair u

/-- The units that take a position of room `r`, ascending. -/
def positionHolders (h : Hall) (r : Nat) : List Nat :=
  units.filter (fun u => h.takesPosition u && h.roomOfUnit u == r)

/-- The SPEAKING units of room `r`, chairs included, ascending (R95). -/
def speakers (h : Hall) (r : Nat) : List Nat := units.filter (fun u => h.isSpeaking u && h.roomOfUnit u == r)

/-- Whether room `r` has a free position (R17). -/
def freePosition (h : Hall) (r : Nat) : Bool :=
  decide ((h.positionHolders r).length < (h.settings r).maxSpeakers)

/-- Whether the floor is open: the mode in force is LIVE or SAFE (section 2.9). -/
def floorOpen (h : Hall) : Bool := h.cmd.mode == .live || h.cmd.mode == .safe

/-- Whether room `r` is served from its queue: QUEUE, or OPERATOR while in SAFE (R25). -/
def servesQueue (h : Hall) (r : Nat) : Bool :=
  (h.settings r).floorMode == .queue || ((h.settings r).floorMode == .operator && h.cmd.mode == .safe)

/-- The queue position of a unit: its place in its room's queue while WAITING, 0 otherwise (R23). -/
def queuePosition (h : Hall) (u : Nat) : Nat :=
  if (h.run u).state = .waiting ∧ u ∈ h.queue (h.roomOfUnit u) then (h.queue (h.roomOfUnit u)).idxOf u + 1 else 0

end Hall

end Sys2Proof.Machine
end

