-- ==== Sys2Proof/Machine/Floor.lean ====
section
/-! DEFINITION. The floors of the rooms: queues and pool (R23), grants (R17, R47), closes and their consequences (R18,
R19), the microphone slot arbiter (R79), room service and gap (R25, R26), microphone targets (R95, R96), setting changes
(R38, R39), regrouping (R40, R41), damaged delegate records (R42) and entry into STOPPING and SAFE (R36, R37). -/

namespace Sys2Proof.Machine.Hall

/-! ## Queues and the chair-pending list -/

/-- A unit leaves its room's queue: the units behind it move up and are marked, and its pool entry becomes free (R23). -/
def leaveQueue (u : Nat) (h : Hall) : Hall :=
  let r := h.roomOfUnit u
  let q := h.queue r
  if u ∈ q then ((h.setQueue r (q.erase u)).poolGive 1).each (q.drop (q.idxOf u + 1)) mark else h

/-- A WAITING unit's request ends: IDLE without a request timestamp. -/
def endRequest (u : Nat) (h : Hall) : Hall :=
  h.setRun u (fun d => { d with state := .idle, requestTs := none })

/-- A WAITING unit leaves its queue for IDLE with an indication, if any, and is marked (R23, R29, R34). -/
def drop (i : Option Indication) (u : Nat) (h : Hall) : Hall := ((h.leaveQueue u).endRequest u).signal i u

/-- A unit joins its room's queue at the tail (R23). -/
def joinQueue (u : Nat) (h : Hall) : Hall :=
  let r := h.roomOfUnit u
  (((h.setQueue r (h.queue r ++ [u])).poolTake).setRun u
    (fun d => { d with state := .waiting, requestTs := some h.frameCounter })).mark u

/-- A chair joins the chair-pending list, oldest request first (R32). -/
def joinChairs (u : Nat) (h : Hall) : Hall :=
  let h := h.setRun u (fun d => { d with state := .chairPending, requestTs := some h.frameCounter })
  { h with floor.chairs := insertBy (fun a b => h.older (h.requestKey a) (h.requestKey b)) u h.floor.chairs }.mark u

/-- Take a unit out of the chair-pending list. -/
def leaveChairs (u : Nat) (h : Hall) : Hall := { h with floor.chairs := h.floor.chairs.erase u }

/-- A chair leaves the chair-pending list for IDLE with an indication, if any, and is marked (R29, R32). -/
def dropChair (i : Option Indication) (u : Nat) (h : Hall) : Hall :=
  ((h.leaveChairs u).endRequest u).signal i u

/-! ## Grants and closes -/

/-- Grant a unit the lowest free microphone slot (R17, R47, R78); nothing when none is free. -/
def grant (u : Nat) (h : Hall) : Hall :=
  match h.freeMic with
  | none => h
  | some k =>
    (((((h.leaveQueue u).leaveChairs u).setMic k (some u)).setMicTarget k Config.mute).setRun u
      (fun d => { d with
        state := .granting, slot := some k, grantId := d.grantId + 1, attempts := 1, requestTs := none,
        grantTs := some h.frameCounter, window := none, reason := none })).mark u

/-- Release the microphone slot a unit holds (R78). -/
def releaseMic (u : Nat) (h : Hall) : Hall :=
  match (h.run u).slot with
  | none => h
  | some k => h.setMic k none

/-- A unit's hold on the floor ends: IDLE, without slot, grant timestamp or response window (R18, R49, R52). -/
def endHold (u : Nat) (h : Hall) : Hall :=
  (h.releaseMic u).setRun u (fun d => { d with state := .idle, slot := none, grantTs := none, window := none })

/-- Set the target of the gain point of the microphone slot a unit holds (R95). -/
def aimMic (u target : Nat) (h : Hall) : Hall :=
  match (h.run u).slot with
  | none => h
  | some k => h.setMicTarget k target

/-- Close one holder with a reason (R18). -/
def closeOne (c : CloseReason) (u : Nat) (h : Hall) : Hall :=
  match (h.run u).state with
  | .granting => (h.endHold u).signal c.indication u
  | .speaking =>
    ((h.aimMic u Config.mute).setRun u (fun d => { d with state := .closing, reason := some c })).signal c.indication u
  | _ => h

/-- Set the microphone targets of the SPEAKING units of room `r` by their trims and number, as held (R95). -/
def aimSpeakers (r : Nat) (h : Hall) : Hall :=
  h.each (h.speakers r) (fun u g => g.aimMic u (speakingTarget (h.loaded u).trim (h.speakers r).length))

/-- Recompute the microphone targets of room `r`: the trims are read, then the targets set (R96). R96 gives the reads no
order; the model takes the room's speakers by ascending unit address (the model's choice, log 42). -/
def recomputeMics (rd : Reader) (r : Nat) (h : Hall) : Hall :=
  (h.readAll rd.delegate (h.speakers r)).aimSpeakers r

/-- The rooms that hold some of the units `us`, ascending. -/
def roomsOf (h : Hall) (us : List Nat) : List Nat := sections.filter (fun r => us.any (fun u => h.roomOfUnit u == r))

/-- Close holders, in order, and recompute the targets of the rooms whose SPEAKING units were among them (R18, R96). -/
def closeAll (rd : Reader) (c : CloseReason) (us : List Nat) (h : Hall) : Hall :=
  (h.each us (closeOne c)).each (h.roomsOf (us.filter h.isSpeaking)) (recomputeMics rd)

/-- The rooms from which closing the units `us` frees a position (R19). -/
def roomsFreed (h : Hall) (us : List Nat) : List Nat := h.roomsOf (us.filter h.takesPosition)

/-- The number of microphone slots that closing the units `us` releases at once: their cancelled grants (R18). -/
def slotsFreed (h : Hall) (us : List Nat) : Nat := (us.filter (fun u => (h.run u).state == .granting)).length

/-! ## Service, gap and arbiter -/

/-- The conditions of R25 for a further grant in room `r`. -/
def canServe (h : Hall) (r : Nat) : Bool :=
  h.floorOpen && (h.gap r).isNone && !(h.queue r).isEmpty && h.micFree && h.servesQueue r && h.freePosition r

/-- A service attempt in room `r`, with room for `n` looks at the queue's head (R25). -/
def serviceLoop (rd : Reader) (r : Nat) : Nat → Hall → Hall
  | 0, h => h
  | n + 1, h =>
    match h.queue r with
    | [] => h
    | u :: _ =>
      if h.canServe r then
        let h' := rd.delegate u h
        serviceLoop rd r n (if h'.canServe r && (h'.queue r).head? == some u then h'.grant u else h')
      else h

/-- A service attempt in room `r` (R25). The settings are read only when the other conditions hold. -/
def service (rd : Reader) (r : Nat) (h : Hall) : Hall :=
  if h.floorOpen && (h.gap r).isNone && !(h.queue r).isEmpty && h.micFree then
    let h := rd.settings r h
    serviceLoop rd r (h.queue r).length h
  else h

/-- The changeover gap start test of room `r` (R26). -/
def gapTest (rd : Reader) (r : Nat) (h : Hall) : Hall :=
  let h := rd.settings r h
  if 0 < (h.settings r).gap ∧ h.queue r ≠ [] ∧ h.gap r = none then h.setGap r (some (10 * (h.settings r).gap)) else h

/-- Step 1 of an arbiter run: waiting chairs take the free slots, with room for `n` looks at the list's head (R79). -/
def serveChairs (rd : Reader) : Nat → Hall → Hall
  | 0, h => h
  | n + 1, h =>
    match h.floor.chairs with
    | [] => h
    | c :: _ =>
      if h.micFree then
        let h' := rd.delegate c h
        serveChairs rd n (if h'.micFree && h'.floor.chairs.head? == some c then h'.grant c else h')
      else h

/-- The rooms that step 2 of an arbiter run serves, in its order (R79). -/
def roomsToServe (h : Hall) : List Nat := h.oldestHeadFirst (h.rooms.filter h.freePosition)

/-- Step 2 of an arbiter run: the rooms with a queue and a free position are served while a slot is free (R79). Their
settings are read first, rooms ascending (the model's choice, log 46). -/
def serveRooms (rd : Reader) (h : Hall) : Hall :=
  if h.micFree then
    let h := h.readAll rd.settings (h.rooms.filter (fun r => !(h.queue r).isEmpty))
    h.each h.roomsToServe (service rd)
  else h

/-- A run of the microphone slot arbiter (R79). -/
def arbiterRun (rd : Reader) (h : Hall) : Hall := (h.serveChairs rd h.floor.chairs.length).serveRooms rd

/-- `n` arbiter runs, one for each slot handed on. -/
def arbiterRuns (rd : Reader) : Nat → Hall → Hall
  | 0, h => h
  | n + 1, h => arbiterRuns rd n (h.arbiterRun rd)

/-- The consequences of closes: gap tests where wanted, an arbiter run for each slot released, service in the rooms
whose positions were freed (R19). -/
def consequences (rd : Reader) (gaps : Bool) (freed : List Nat) (slots : Nat) (h : Hall) : Hall :=
  ((if gaps then h.each freed (gapTest rd) else h).arbiterRuns rd slots).each freed (service rd)

/-- Close holders and take the consequences (R18, R19). -/
def closeWithConsequences (rd : Reader) (c : CloseReason) (gaps : Bool) (us : List Nat) (h : Hall) : Hall :=
  (h.closeAll rd c us).consequences rd gaps (h.roomsFreed us) (h.slotsFreed us)

/-- Entry into SAFE from LIVE: the settings of the rooms in force are read (R12), and the OPERATOR rooms are served, oldest
head first (R37, R142). The settings are read once the mode is SAFE, rooms ascending (the model's choice, log 44). -/
def enterSafe (rd : Reader) (h : Hall) : Hall :=
  if h.cmd.mode = .live then
    let h := (h.setMode .safe).readAll rd.settings h.rooms
    h.each (h.oldestHeadFirst (h.rooms.filter (fun r => (h.settings r).floorMode == .operator))) (service rd)
  else h

/-! ## Setting changes and regrouping -/

/-- Whether `a` counts as granted more recently than `b`: GRANTING before SPEAKING, then the newer grant, then the
higher unit address (R38). -/
def moreRecent (h : Hall) (a b : Nat) : Bool :=
  if (h.run a).state = (h.run b).state then h.older (h.grantKey b) (h.grantKey a) else (h.run a).state == .granting

/-- The position holders of room `r` beyond its max speakers, most recently granted first (R38). -/
def excess (h : Hall) (r : Nat) : List Nat :=
  (sortBy h.moreRecent (h.positionHolders r)).take ((h.positionHolders r).length - (h.settings r).maxSpeakers)

/-- Whether a floor mode keeps a queue. -/
def keepsQueue (m : FloorMode) : Bool := m == .queue || m == .operator

/-- Drop the whole queue of room `r` with DROPPED, once the records of its delegates are read (R15, log 8). -/
def dropQueue (rd : Reader) (r : Nat) (h : Hall) : Hall :=
  let h := h.readAll rd.delegate (h.queue r)
  h.each (h.queue r) (drop (some .dropped))

/-- The entries of room `r`'s queue beyond its limit. -/
def beyondLimit (h : Hall) (r : Nat) : List Nat := (h.queue r).drop (h.settings r).queueLimit

/-- Drop the newest entries of room `r`'s queue beyond its limit, once their records are read (R15, R39, R40, log 8). -/
def cutQueue (rd : Reader) (r : Nat) (h : Hall) : Hall :=
  let h := h.readAll rd.delegate (h.beyondLimit r)
  h.each (h.beyondLimit r) (drop (some .dropped))

/-- The records of room `r`'s position holders are read, by a rule that acts on them (R15, log 8). -/
def readPositions (rd : Reader) (r : Nat) (h : Hall) : Hall := h.readAll rd.delegate (h.positionHolders r)

/-- Close the position holders of room `r` beyond its max speakers, once the records of all are read (R15, R38, R39). -/
def closeExcess (rd : Reader) (r : Nat) (h : Hall) : Hall :=
  let h := h.readPositions rd r
  if h.excess r = [] then h else h.closeWithConsequences rd .resize true (h.excess r)

/-- New floor settings of section `s` act on the floor of the room it heads, `old` being those that acted before (R39). -/
def settingsChanged (rd : Reader) (s : Nat) (old : Settings) (h : Hall) : Hall :=
  if isRoomId h.part.inForce s then
    let h := if keepsQueue old.floorMode && !keepsQueue (h.settings s).floorMode then (h.dropQueue rd s).setGap s none
      else h
    ((h.cutQueue rd s).closeExcess rd s).service rd s
  else h

/-- The queue of new room `r` gathered from the WAITING units of its sections, oldest request first (R40, step 1). -/
def gatherQueue (r : Nat) (h : Hall) : Hall :=
  h.setQueue r (sortBy (fun a b => h.older (h.requestKey a) (h.requestKey b))
    (units.filter (fun u => (h.run u).state == .waiting && h.roomOfUnit u == r)))

/-- The cut of new room `r`'s queue, and its end in an OPEN or OVERRIDE room (R40, steps 2 and 3). -/
def trimQueue (rd : Reader) (r : Nat) (h : Hall) : Hall :=
  let h := (rd.settings r h).cutQueue rd r
  if keepsQueue (h.settings r).floorMode then h else h.dropQueue rd r

/-- Regrouping of the floor: `old` is the partition from before, `before` the queue positions held then (R40, R41). The
records of the delegates regrouped are read where R40 has them in a new queue and where R41 looks at the positions (R15;
the places are the model's choice, log 8). -/
def regroup (rd : Reader) (old : Partition) (before : Nat → Nat) (h : Hall) : Hall :=
  let new := h.part.inForce
  let rs := (roomIds new).filter (fun r => !unchangedRoom new old r)
  let h := h.each (changedRooms old new) (fun r h => h.setQueue r [])
  let h := h.each rs gatherQueue
  let h := h.each rs (fun r h => h.readAll rd.delegate (h.queue r))
  let h := h.each rs (trimQueue rd)
  let h := h.each (units.filter (fun u => before u != h.queuePosition u)) mark
  let h := h.each (changedRooms old new) (fun r h => h.setGap r none)
  let h := h.each rs (readPositions rd)
  let us := rs.flatMap h.excess
  let slots := h.slotsFreed us
  let h := (h.closeAll rd .resize us).arbiterRuns rd slots
  h.each (h.oldestHeadFirst rs) (service rd)

/-! ## Damage and STOPPING -/

/-- The Floor Controller's reaction to a delegate record found damaged (R42). -/
def delegateDamaged (rd : Reader) (u : Nat) (h : Hall) : Hall :=
  let freed := h.roomsFreed [u]
  let slots := h.slotsFreed [u]
  let h := match (h.run u).state with
    | .waiting => (h.leaveQueue u).endRequest u
    | .chairPending => (h.leaveChairs u).endRequest u
    | _ => h.closeAll rd .damaged [u]
  ((h.setRun u (fun d => { d with indication := none })).unmark u).consequences rd true freed slots

/-- The chairs that satisfy `f` leave the chair-pending list with an indication, once their records are read (R15, R32). -/
def dropChairs (rd : Reader) (i : Indication) (f : Hall → Nat → Bool) (h : Hall) : Hall :=
  let h := h.readAll rd.delegate (h.floor.chairs.filter (f h))
  h.each (h.floor.chairs.filter (f h)) (dropChair (some i))

/-- The records of the GRANTING and SPEAKING units that satisfy `f` are read, by a rule that closes them (R15, log 8). -/
def readHolders (rd : Reader) (f : Hall → Nat → Bool) (h : Hall) : Hall :=
  h.readAll rd.delegate (units.filter (fun u => h.onFloor u && f h u))

/-- The Floor Controller closes the whole floor at entry into STOPPING (R36); each step first reads the records of the
delegates on which it acts (R15, log 8). -/
def closeFloor (rd : Reader) (h : Hall) : Hall :=
  let h := h.dropChairs rd .denied (fun _ _ => true)
  let h := h.each h.rooms (dropQueue rd)
  let h := h.each sections (fun r h => h.setGap r none)
  let h := h.readHolders rd (fun _ _ => true)
  h.closeWithConsequences rd .stopping false (units.filter h.onFloor)

end Sys2Proof.Machine.Hall
end

