-- ==== Sys2Proof/Machine/Slots.lean ====
section
/-! DEFINITION. The distribution pool: claims made, released, reclassed and served (R81 to R83), the LANGUAGE claims of
the room plans (R84 to R86), the floor slots (R80) and the residual of a room (R87). -/

namespace Sys2Proof.Machine

namespace Hall

/-- The lowest FREE pool slot, as its place in the pool (R81). -/
def freePool (h : Hall) : Option Nat := (List.range 88).find? (fun i => tget h.slots.pool i == none)

/-- Whether booth `b` leads a language. -/
def leads (h : Hall) (b : Nat) : Bool := (h.boothRun b).assignment == .lead

/-- Mark the channel notices of the language that booth `b` leads, if it leads (R67, R73). -/
def markLed (b : Nat) (h : Hall) : Hall :=
  if h.leads b then h.markLanguage (h.roomOfBooth b) (h.booth b).language else h

/-- Tell the Router a booth's output slot (R67, R83). -/
def tellOutput (b : Nat) (slot : Option Nat) (h : Hall) : Hall :=
  ((h.setBoothRun b (fun x => { x with outSlot := slot })).markBooth b).markLed b

/-- Tell the Router a booth's feed slot (R67). -/
def tellFeed (b : Nat) (slot : Option Nat) (h : Hall) : Hall :=
  (h.setBoothRun b (fun x => { x with feedSlot := slot })).markBooth b

/-- The owner of a claim is told that it holds pool place `i` (R81). -/
def tellGiven (c : Claim) (i : Nat) (h : Hall) : Hall :=
  match c with
  | .leadOut b => h.tellOutput b (some (40 + i))
  | .spareOut b => h.tellOutput b (some (40 + i))
  | .feed b => h.tellFeed b (some (40 + i))
  | .language r k => h.markChannel r k

/-- The owner of a claim is told that its slot has gone (R83). A LANGUAGE claim is released only when its channel leaves
the plan or its room changes, and those rules mark the notices. -/
def tellReleased (c : Claim) (h : Hall) : Hall :=
  match c with
  | .leadOut b => h.tellOutput b none
  | .spareOut b => h.tellOutput b none
  | .feed b => h.tellFeed b none
  | .language _ _ => h

def setPool (i : Nat) (c : Option Claim) (h : Hall) : Hall := { h with slots.pool := tset h.slots.pool i c }

/-- Put a claim in the wait list at the place of its class and key (R82). -/
def wait (c : Claim) (h : Hall) : Hall :=
  { h with slots.waitList := insertBy (fun a b => decide (a.rank < b.rank)) c h.slots.waitList }

/-- Take a claim out of the wait list. -/
def unwait (c : Claim) (h : Hall) : Hall := { h with slots.waitList := h.slots.waitList.erase c }

/-- A claim is made (R81). -/
def makeClaim (c : Claim) (h : Hall) : Hall :=
  match h.freePool with
  | some i => (h.setPool i (some c)).tellGiven c i
  | none => (h.wait c).post .claimWaiting c.classCode c.keyByte 0 0

/-- Pool place `i` is given back and serves the first waiter (R83). -/
def servePool (i : Nat) (h : Hall) : Hall :=
  match h.slots.waitList with
  | [] => h.setPool i none
  | w :: _ => (((h.unwait w).setPool i (some w)).post .claimServed w.classCode w.keyByte (byte (40 + i)) 0).tellGiven w i

/-- A claim is released (R83); nothing when there is no such claim. -/
def releaseClaim (c : Claim) (h : Hall) : Hall :=
  match h.heldAt c with
  | some i => (h.tellReleased c).servePool i
  | none => h.unwait c

/-- A booth's output claim changes class (R82). -/
def reclass (a b : Claim) (h : Hall) : Hall :=
  match h.heldAt a with
  | some i => h.setPool i (some b)
  | none => if a ∈ h.slots.waitList then (h.unwait a).wait b else h

/-- The claim of a booth's output under an assignment (R67). -/
def outputClaim (a : Assignment) (b : Nat) : Claim := if a = .lead then .leadOut b else .spareOut b

/-- A booth that left OFF makes its output claim and then its FEED claim (R67). -/
def claimBooth (b : Nat) (h : Hall) : Hall :=
  (h.makeClaim (outputClaim (h.boothRun b).assignment b)).makeClaim (.feed b)

/-- A booth that became OFF releases its output claim and then its FEED claim (R67, R83). -/
def releaseBooth (b : Nat) (h : Hall) : Hall :=
  ((h.releaseClaim (.leadOut b)).releaseClaim (.spareOut b)).releaseClaim (.feed b)

/-! ## LANGUAGE claims -/

def setPlanLength (r n : Nat) (h : Hall) : Hall := { h with slots.planLength := tset h.slots.planLength r n }

/-- The channels above `a` up to `b`, ascending. -/
def channelsBetween (a b : Nat) : List Nat := (List.range (b - a)).map (· + a + 1)

/-- A room plan of a new length is handed over (R85). -/
def planHanded (r : Nat) (h : Hall) : Hall :=
  let p := tget h.slots.planLength r
  let p' := (h.plan r).length
  let h := h.each (channelsBetween p' p) (fun c => releaseClaim (.language r c))
  let h := h.each (channelsBetween p p') (fun c => makeClaim (.language r c))
  h.setPlanLength r p'

/-- The LANGUAGE claims of room `r` for its plan (R84, R86 step 3). -/
def claimLanguages (r : Nat) (h : Hall) : Hall :=
  (h.each (channelsBetween 0 (h.plan r).length) (fun c => makeClaim (.language r c))).setPlanLength r (h.plan r).length

/-- Whether a claim is a LANGUAGE claim of one of the rooms. -/
def languageOf (rs : List Nat) (c : Claim) : Bool :=
  match c with
  | .language r _ => rs.contains r
  | _ => false

/-- The LANGUAGE claims of some rooms that hold slots, in slot order (R86). -/
def heldLanguages (h : Hall) (rs : List Nat) : List Claim :=
  h.slots.pool.toList.filterMap (fun c => match c with
    | some c => if languageOf rs c then some c else none
    | none => none)

/-- The LANGUAGE claims at the partition change event: `gone` are the changed rooms of the old partition, `new` the new
rooms (R86). -/
def regroupClaims (gone new : List Nat) (h : Hall) : Hall :=
  let h := { h with slots.waitList := h.slots.waitList.filter (fun c => !languageOf gone c) }
  let h := h.each (h.heldLanguages gone) releaseClaim
  let h := h.each gone (fun r => setPlanLength r 0)
  h.each new claimLanguages

/-- The floor slots of the partition in force (R80). -/
def setFloorSlots (h : Hall) : Hall :=
  { h with slots.floorActive := tmake 8 (fun r => isRoomId h.part.inForce r) }

/-- The residual of room `r`: its LANGUAGE claims on the wait list (R87). -/
def residual (h : Hall) (r : Nat) : Nat := (h.slots.waitList.filter (languageOf [r])).length

/-- The pool slot of channel `c` of room `r`, if it is carried. -/
def channelSlot (h : Hall) (r c : Nat) : Option Nat := (h.heldAt (.language r c)).map (40 + ·)

end Hall

end Sys2Proof.Machine
end

