-- ==== Sys2Proof/Machine/Router.lean ====
section
/-! DEFINITION. The Interpretation Router: room plans (R63, R64), assignments (R65, R66), booth reports (R68), relay (R69,
R70), a booth's new record (R60), damaged booths and plans (R75, R76) and the sources of the channels (R72). -/

namespace Sys2Proof.Machine.Hall

/-! ## Assignments -/

/-- The booth records are read, ascending, by a rule that looks for booths by language, home section or effective state
(R58; that such a rule reads all sixteen is the model's choice, log 8). -/
def readBooths (rd : Reader) (h : Hall) : Hall := h.readAll rd.booth boothNumbers

/-- The booths of room `r`, ascending. -/
def boothsOf (h : Hall) (r : Nat) : List Nat := boothNumbers.filter (fun b => h.roomOfBooth b == r)

/-- Whether a booth is a candidate for language `l` in room `r` (R65). -/
def isCandidate (h : Hall) (r l b : Nat) : Bool :=
  h.roomOfBooth b == r && h.effective b != .off && (h.booth b).language == l

/-- Whether `a` precedes `b` for the lead: lower home section, then lower number (R65). -/
def precedes (h : Hall) (a b : Nat) : Bool :=
  decide ((h.booth a).home < (h.booth b).home) || ((h.booth a).home == (h.booth b).home && decide (a < b))

/-- The lead that R65 gives language `l` in room `r`. -/
def leadOf (h : Hall) (r l : Nat) : Option Nat :=
  (sortBy h.precedes (boothNumbers.filter (h.isCandidate r l))).head?

/-- The assignment that R65 gives a booth. -/
def assignmentOf (h : Hall) (b : Nat) : Assignment :=
  let r := h.roomOfBooth b
  let l := (h.booth b).language
  if h.effective b = .off then .none
  else if l ∈ h.plan r then (if h.leadOf r l = some b then .lead else .stoodDown)
  else .unplanned

/-- An assignment that one evaluation changes. -/
structure Reassigned where
  booth : Nat
  old   : Assignment
  new   : Assignment
  deriving DecidableEq, Repr

/-- The changed assignments of room `r`'s booths, ascending (R66). -/
def reassigned (h : Hall) (r : Nat) : List Reassigned :=
  (h.boothsOf r).filterMap (fun b =>
    if (h.boothRun b).assignment = h.assignmentOf b then none
    else some ⟨b, (h.boothRun b).assignment, h.assignmentOf b⟩)

/-- The new assignment is held and the booth notice marked (R66). -/
def hold (x : Reassigned) (h : Hall) : Hall :=
  (h.setBoothRun x.booth (fun y => { y with assignment := x.new })).markBooth x.booth

/-- The lead of a booth, until now: the room in which it led and the language that it led. -/
structure Led where
  room     : Nat
  language : Nat
  deriving DecidableEq, Repr

/-- The lead of booth `b` where neither its room nor its language has changed. -/
def ledNow (h : Hall) (b : Nat) : Led := ⟨h.roomOfBooth b, (h.booth b).language⟩

/-- A booth evaluated in room `r` left LEAD: LEAD CHANGED and, where it led in that room, the channel notices of the language
it led (R66). In another room the lead of no language has changed by this, and no notice is marked; those of the room in
which it led are marked by `markMovedLead`. -/
def leadLeft (r b : Nat) (led : Led) (h : Hall) : Hall :=
  let h := h.post .leadChanged (byte b) (byte r) (byte led.language) 0
  if led.room = r then h.markLanguage r led.language else h

/-- A booth entered LEAD: LEAD CHANGED, and the channel notices of its language (R66). -/
def leadEntered (r b : Nat) (h : Hall) : Hall :=
  let l := (h.booth b).language
  (h.post .leadChanged (byte b) (byte r) (byte l) 1).markLanguage r l

/-- Evaluate the assignments of room `r`; `led b` is the lead of booth `b` until now (R66, log 21). A booth that led in another
room and leaves LEAD because its home section was written is evaluated here, in its new room, and LEAD CHANGED carries that
room: R66 does not say which of the two rooms it carries (the model's choice, log 39). -/
def evaluate (rd : Reader) (led : Nat → Led) (r : Nat) (h : Hall) : Hall :=
  let h := h.readBooths rd
  let xs := h.reassigned r
  let h := h.each xs hold
  let h := h.each (xs.filter (·.old == .lead)) (fun x => leadLeft r x.booth (led x.booth))
  let h := h.each (xs.filter (·.new == .lead)) (fun x => leadEntered r x.booth)
  let h := h.each (xs.filter (fun x => x.old != .none && x.new != .none))
    (fun x => reclass (outputClaim x.old x.booth) (outputClaim x.new x.booth))
  let h := h.each (xs.filter (·.new == .none)) (fun x => releaseBooth x.booth)
  h.each (xs.filter (·.old == .none)) (fun x => claimBooth x.booth)

/-- Evaluate a room in which no booth's home section or language has changed. -/
def reassess (rd : Reader) (r : Nat) (h : Hall) : Hall := h.evaluate rd h.ledNow r

/-! ## Room plans -/

/-- A plan in the making: the codes so far, and the cut codes with the section that brought them. -/
abbrev PlanDraft := List Nat × List (Nat × Nat)

/-- One code of section `s`'s home plan joins the draft (R63). -/
def PlanDraft.add (s : Nat) (d : PlanDraft) (code : Nat) : PlanDraft :=
  if code ∈ d.1 then d
  else if d.1.length < 8 then (d.1 ++ [code], d.2)
  else if d.2.any (fun x => x.1 == code) then d
  else (d.1, d.2 ++ [(code, s)])

/-- The room plan of room `r` and the codes cut, from the home plans as they act (R63). -/
def draftPlan (h : Hall) (r : Nat) : PlanDraft :=
  (sectionsOf h.part.inForce r).foldl (fun d s => (h.homePlan s).foldl (PlanDraft.add s) d) ([], [])

/-- Set room `r`'s plan, posting LANGUAGE DROPPED for each code cut (R63). -/
def computePlan (r : Nat) (h : Hall) : Hall :=
  let d := h.draftPlan r
  let h := h.each d.2 (fun x => post .languageDropped (byte r) (byte x.1) (byte x.2) 0)
  { h with router.plans := tset h.router.plans r d.1 }

/-- The home plans of room `r`'s sections are read, ascending (R63, step 1). -/
def readPlans (rd : Reader) (r : Nat) (h : Hall) : Hall := h.readAll rd.plan (sectionsOf h.part.inForce r)

/-- The consequences of a room plan that changed from `old` (R64). -/
def planChanged (rd : Reader) (r : Nat) (old : List Nat) (h : Hall) : Hall :=
  let changed := (List.range 8).filter (fun i => decide (old[i]? ≠ (h.plan r)[i]?))
  ((h.each changed (fun i => markChannel r (i + 1))).planHanded r).reassess rd r

/-- The room plan of room `r` is computed again and compared with the plan held (R63, R64). Each home plan found damaged
by its reads makes the reaction of R76 and SAFE first, and the plan is then computed with what these leave (R153). -/
def replan (rd : Reader) (r : Nat) (h : Hall) : Hall :=
  let h := h.readPlans rd r
  let old := h.plan r
  let h := h.computePlan r
  if h.plan r = old then h else h.planChanged rd r old

/-- The room plan of new room `r` at the partition change event (R74, step 2; for a home plan found damaged see log 17, for
the order of the new rooms log 51). -/
def planNewRoom (rd : Reader) (r : Nat) (h : Hall) : Hall := (h.readPlans rd r).computePlan r

/-! ## Relay -/

/-- Booth `b`'s relay in force falls back to FLOOR from source `s` (R70). -/
def loseRelay (b s : Nat) (cause : Byte) (h : Hall) : Hall :=
  ((h.setBoothRun b (fun x => { x with relay := .floor })).post .relayLost (byte b) (byte s) cause 0).markBooth b

/-- The test of R70 on one booth. -/
def relayTest (b : Nat) (h : Hall) : Hall :=
  match (h.boothRun b).relay with
  | .floor => h
  | .booth s =>
    if h.roomOfBooth s ≠ h.roomOfBooth b then h.loseRelay b s 0
    else if (h.boothRecord s).damaged || (h.boothRecord b).damaged then h.loseRelay b s 1
    else h

/-- The relay check of one booth: its own record and then its source's are read (R58), and the test is made (R70). -/
def relayCheckOf (rd : Reader) (b : Nat) (h : Hall) : Hall :=
  match (h.boothRun b).relay with
  | .floor => h
  | .booth s => (rd.booth s (rd.booth b h)).relayTest b

/-- The relay check (R70). R70 gives the tests, and so several RELAY LOST of one check, no order; the model takes the booths
by ascending number (the model's choice, log 47). -/
def relayCheck (rd : Reader) (h : Hall) : Hall := h.each boothNumbers (relayCheckOf rd)

/-- Whether booth `b` may relay from booth `s` (R69). -/
def mayRelay (h : Hall) (b s : Nat) : Bool :=
  s != b && !(h.boothRecord s).damaged && h.roomOfBooth s == h.roomOfBooth b && (h.boothRun s).relay == .floor &&
    boothNumbers.all (fun x => (h.boothRun x).relay != .booth b)

/-- The relay selection of booth `b` is handled (R69). -/
def selectRelay (rd : Reader) (b : Nat) (h : Hall) : Hall :=
  let sel := (h.boothRun b).selection
  if sel = (h.boothRun b).relay then h
  else match sel with
    | .floor => h.setBoothRun b (fun x => { x with relay := .floor })
    | .booth s =>
      let h := rd.booth s h
      if h.mayRelay b s then h.setBoothRun b (fun x => { x with relay := .booth s }) else h

/-- A booth's effective state has changed from `old` (R68, step 2). -/
def stateChanged (rd : Reader) (led : Nat → Led) (b : Nat) (old : BoothState) (h : Hall) : Hall :=
  if h.effective b = old then h
  else if old = .off ∨ h.effective b = .off then (h.evaluate rd led (h.roomOfBooth b)).markBooth b
  else (h.markLed b).markBooth b

/-- A BOOTH REPORT of booth `b` (R68). -/
def boothReport (rd : Reader) (b : Nat) (state : BoothState) (selection : Relay) (h : Hall) : Hall :=
  let h := rd.booth b h
  let old := h.effective b
  let relay := (h.boothRun b).relay
  let refused := h.relayRefused b
  let h := h.setBoothRun b (fun x => { x with reported := state, selection := selection })
  let h := h.stateChanged rd h.ledNow b old
  let h := if (h.boothRecord b).damaged || (h.booth b).language == 0 then h else h.selectRelay rd b
  if (h.boothRun b).relay ≠ relay ∨ h.relayRefused b ≠ refused then h.markBooth b else h

/-! ## Loaded fields of booths -/

/-- What the Router held of a booth before its record was written. -/
structure BoothBefore where
  record    : Booth
  damaged   : Bool
  effective : BoothState
  room      : Nat
  lead      : Bool
  deriving DecidableEq, Repr

def boothBefore (h : Hall) (b : Nat) : BoothBefore :=
  ⟨h.booth b, (h.boothRecord b).damaged, h.effective b, h.roomOfBooth b, h.leads b⟩

/-- Mark the channels that a booth led before and leads now, where room or language differ (R73). -/
def markMovedLead (b : Nat) (x : BoothBefore) (h : Hall) : Hall :=
  if x.room = h.roomOfBooth b ∧ x.record.language = (h.booth b).language then h
  else (if x.lead then h.markLanguage x.room x.record.language else h).markLed b

/-- What follows a booth record written over `x`: effective state, relay check, assignments in the old and the new room,
the notice (R60). `led` gives the leads until now. -/
def boothWritten (rd : Reader) (led : Nat → Led) (b : Nat) (x : BoothBefore) (h : Hall) : Hall :=
  if x.record.language = (h.booth b).language ∧ x.record.home = (h.booth b).home ∧ x.damaged = false then h
  else
    let h := (h.stateChanged rd led b x.effective).relayCheck rd
    let h := h.evaluate rd led x.room
    let h := if h.roomOfBooth b = x.room then h else h.evaluate rd led (h.roomOfBooth b)
    (h.markMovedLead b x).markBooth b

/-! ## Damage -/

/-- The Router's reaction to a booth record found damaged (R75). -/
def boothDamaged (rd : Reader) (b : Nat) (h : Hall) : Hall :=
  (((h.releaseBooth b).relayCheck rd).reassess rd (h.roomOfBooth b)).markBooth b

/-- The Router's reaction to the home plan of section `s` found damaged (R76). -/
def planDamaged (rd : Reader) (s : Nat) (h : Hall) : Hall := h.replan rd (h.roomOfSection s)

/-! ## Channel sources -/

/-- The source of channel `c` (1 to 8) of room `r`: the lead that is ON_AIR with an output slot, else FILL (R72, R99). -/
def channelSource (h : Hall) (r c : Nat) : Option Nat :=
  match (h.plan r)[c - 1]? with
  | none => none
  | some l => (h.boothsOf r).find? (fun b =>
      h.leads b && (h.booth b).language == l && h.effective b == .onAir && ((h.boothRun b).outSlot).isSome)

end Sys2Proof.Machine.Hall
end

