-- ==== Sys2Proof/Machine/Repartition.lean ====
section
/-! DEFINITION. Fade targets (R101), the effective walls (R7), the start test (R106), the repartition (R107 to R111, R115),
the partition change event of every reader (R41, R74, R80, R86, R96) and the changes of mode that go with them (R140,
R141). -/

namespace Sys2Proof.Machine.Hall

/-! ## Fade points -/

/-- Give the nine fade points of room id `r` a target (R101). -/
def setRoomFades (target r : Nat) (h : Hall) : Hall :=
  { h with gains.rooms := tmapIdx h.gains.rooms (fun i g => if i / 9 = r then { g with target := target } else g) }

/-- Give every booth fade point the target of channel 0 of its booth's room (R101). -/
def syncBoothFades (h : Hall) : Hall :=
  let f := fun b g => { g with target := (tget h.gains.rooms (9 * h.roomOfBooth b)).target }
  { h with gains.booths := tmapIdx h.gains.booths f }

/-- Give the fade points of some room ids a target; the booths follow (R101). -/
def fadeRooms (target : Nat) (rs : List Nat) (h : Hall) : Hall := (h.each rs (setRoomFades target)).syncBoothFades

/-- Whether the nine fade points of room id `r` stand at index `a`. -/
def roomFadesAt (h : Hall) (a r : Nat) : Bool := (List.range 9).all (fun c => (tget h.gains.rooms (9 * r + c)).current == a)

/-- Whether the named fade points stand at index `a`: those of rooms `rs`, and of the booths whose home section lies in
the sections `ss` (R108, R111). -/
def namedFadesAt (h : Hall) (a : Nat) (rs ss : List Nat) : Bool :=
  rs.all (h.roomFadesAt a) &&
    boothNumbers.all (fun b => !ss.contains (h.booth b).home || (tget h.gains.booths b).current == a)

/-! ## Modes -/

/-- The mode in force becomes STOPPING: the floor closes and every room fades out (R36, R101, R141). -/
def enterStopping (rd : Reader) (h : Hall) : Hall := ((h.setMode .stopping).closeFloor rd).fadeRooms Config.mute sections

/-- The mode in force becomes LIVE from CONFIG: every room fades in (R101, R140). -/
def goLive (h : Hall) : Hall := ((h.setRequested .live).setMode .live).fadeRooms 0 h.rooms

/-! ## The partition change event -/

/-- The new rooms of the partition in force after a change from `old` (R105). -/
def newRooms (h : Hall) (old : Partition) : List Nat :=
  (roomIds h.part.inForce).filter (fun r => !unchangedRoom h.part.inForce old r)

def setPartition (p : Partition) (h : Hall) : Hall := { h with part.inForce := p }

/-- The Router's reaction, with the Slot Allocator's LANGUAGE claims at its step 2 (R74, R86). R74 does not say where it
reads the booth records; the model reads all sixteen at step 1, which finds the booths' rooms by their home sections, so
that R75's evaluation after a finding there runs before the new room plans are computed (the model's choice, log 40).
The claims that a reaction has made for a new room meanwhile are released with those of the changed rooms (log 17). R74 and
R109 give no order among the new rooms whose plans are computed at step 2, and so none for their LANGUAGE DROPPED events; the
model takes the rooms ascending (the model's choice, log 51). -/
def regroupRouter (rd : Reader) (old : Partition) (h : Hall) : Hall :=
  let rs := h.newRooms old
  let gone := changedRooms old h.part.inForce
  let moved := changedSections old h.part.inForce
  let h := h.readBooths rd
  let h := h.each (gone.filter (fun r => !isRoomId h.part.inForce r))
    (fun r h => { h with router.plans := tset h.router.plans r [] })
  let h := (h.each rs (planNewRoom rd)).regroupClaims (gone ++ rs.filter (fun r => !gone.contains r)) rs
  let h := (h.relayCheck rd).each rs (reassess rd)
  let h := h.each (boothNumbers.filter (fun b => moved.contains (h.booth b).home)) markBooth
  h.each moved markSection

/-- The Mix Engine's reaction (R96, R101); the rooms are taken ascending (the model's choice, log 42). -/
def regroupMix (rd : Reader) (old : Partition) (h : Hall) : Hall :=
  let h := h.each h.rooms (recomputeMics rd)
  h.fadeRooms Config.mute ((roomIds old).filter (fun r => !isRoomId h.part.inForce r))

/-- The partition in force becomes `p` and the four readers react (R109, Table 7.3; for their order see log 16). -/
def changePartition (rd : Reader) (p : Partition) (h : Hall) : Hall :=
  let old := h.part.inForce
  let before := h.queuePosition
  ((((h.setPartition p).regroup rd old before).regroupRouter rd old).setFloorSlots).regroupMix rd old

/-! ## The repartition -/

def setRepartition (x : Repartition) (h : Hall) : Hall := { h with part.repartition := x }

/-- Whether a repartition is in flight (R105). -/
def inFlight (h : Hall) : Bool := h.part.repartition != .idle

/-- A repartition starts (R107). -/
def startRepartition (h : Hall) : Hall :=
  let p := h.part.inForce
  let target := h.part.effective
  let ss := changedSections p target
  ((h.setRepartition (.fadingOut target ss)).fadeRooms Config.mute (changedRooms p target)).post .repartitionStarted 0
    (wallMap p) (wallMap target) (sectionMap ss)

/-- The partition in force changes at once in CONFIG (R115). -/
def changeAtOnce (rd : Reader) (h : Hall) : Hall :=
  let p := h.part.effective
  let ss := changedSections h.part.inForce p
  (h.changePartition rd p).post .repartitionDone 0 (wallMap p) 1 (sectionMap ss)

/-- The start test (R106, Table 7.2). -/
def startTest (rd : Reader) (h : Hall) : Hall :=
  if h.part.effective = h.part.inForce ∨ h.part.repartition ≠ .idle then h
  else match h.cmd.mode with
    | .live => h.startRepartition
    | .safe => h.startRepartition
    | .config => h.changeAtOnce rd
    | .stopping => h

/-- The effective walls that debounced states and overrides give (R7). -/
def wallsNow (h : Hall) : Partition := tmake 7 (fun w => effectiveWall (h.wallOverride w) (tget h.part.walls w).debounced)

def setEffective (p : Partition) (h : Hall) : Hall := { h with part.effective := p }

/-- The effective walls are computed; a change goes to the start test (R7). -/
def computeWalls (rd : Reader) (h : Hall) : Hall :=
  let h := h.readAll rd.override (List.range 7)
  if h.wallsNow = h.part.effective then h else (h.setEffective h.wallsNow).startTest rd

/-- Whether the fade-out is complete (R108). -/
def fadeOutDone (h : Hall) : Bool :=
  match h.part.repartition with
  | .fadingOut p ss => h.namedFadesAt Config.mute (changedRooms h.part.inForce p) ss
  | _ => false

/-- Whether the fade-in is complete (R111): the new rooms are those made of the affected sections. -/
def fadeInDone (h : Hall) : Bool :=
  match h.part.repartition with
  | .fadingIn _ ss => h.namedFadesAt 0 (h.rooms.filter ss.contains) ss
  | _ => false

/-- The partition change event that ends a fade-out (R109, R110). -/
def partitionChange (rd : Reader) (h : Hall) : Hall :=
  match h.part.repartition with
  | .fadingOut p ss =>
    let old := h.part.inForce
    let h := (h.changePartition rd p).setRepartition (.fadingIn p ss)
    h.fadeRooms 0 (h.newRooms old)
  | _ => h

/-- The end of a repartition (R111). -/
def repartitionDone (rd : Reader) (h : Hall) : Hall :=
  match h.part.repartition with
  | .fadingIn _ ss =>
    let h := (h.setRepartition .idle).post .repartitionDone 0 (wallMap h.part.inForce) 0 (sectionMap ss)
    let h := if h.cmd.requested = .config ∧ h.floorOpen then h.enterStopping rd else h
    h.startTest rd
  | _ => h

/-- Whether STOPPING can end: no holder, and every room and booth fade point at mute (R141). -/
def stoppingDone (h : Hall) : Bool :=
  h.cmd.mode == .stopping && units.all (fun u => !h.isHolder u) && sections.all (h.roomFadesAt Config.mute) &&
    boothNumbers.all (fun b => (tget h.gains.booths b).current == Config.mute)

/-- STOPPING ends in CONFIG, and the start test is made (R141, R116). -/
def stoppingComplete (rd : Reader) (h : Hall) : Hall :=
  if h.stoppingDone then (h.setMode .config).startTest rd else h

/-! ## Walls -/

def setWallDebounce (w : Nat) (x : WallDebounce) (h : Hall) : Hall := { h with part.walls := tset h.part.walls w x }

/-- One wall's debounce at a scan that reads `reading`: R3, without the flip of R4. -/
def debounce (w : Nat) (reading : WallState) (h : Hall) : Hall :=
  let x := tget h.part.walls w
  if reading = x.debounced then h.setWallDebounce w { x with run := 0 }
  else h.setWallDebounce w
    { x with run := x.run + 1, capture := if x.run = 0 then h.frameCounter else x.capture }

/-- Whether wall `w`'s run has reached the debounce count (R4). -/
def flips (h : Hall) (w : Nat) : Bool := 0 < (tget h.part.walls w).run && h.part.debounceCount ≤ (tget h.part.walls w).run

/-- The opposite wall state. -/
def otherState : WallState → WallState
  | .stowed => .deployed
  | .deployed => .stowed

/-- Code of a wall state (Table 10.2). -/
def wallCode : WallState → Byte
  | .stowed => 0
  | .deployed => 1

/-- Wall `w`'s debounced state flips, and WALL CHANGED is posted with the capture timestamp (R4). -/
def flipWall (w : Nat) (h : Hall) : Hall :=
  let x := tget h.part.walls w
  let now := otherState x.debounced
  (h.setWallDebounce w { x with debounced := now, run := 0 }).postAt x.capture .wallChanged (byte w) (wallCode now) 0 0

end Sys2Proof.Machine.Hall
end

