-- ==== Sys2Proof/Machine/Units.lean ====
section
/-! DEFINITION. What delegate units do and are told: button presses (R27 to R31, R36), the grant handshake (R48 to R51),
the end of a close (R52), unknown units (R53), speaking time (R55 to R57), and the operator's floor commands (R33 to
R35). -/

namespace Sys2Proof.Machine.Hall

/-! ## Speaking time -/

/-- The three detail bytes of TIME WARNING and TIME UP: count (at most 4,095) and limit, twelve bits each. -/
def timeDetail (n limit : Nat) : BitVec 24 := BitVec.ofNat 12 (min n 4095) ++ BitVec.ofNat 12 limit

/-- Post a time event of unit `u` (R56). -/
def postTime (k : EventKind) (u n limit : Nat) (h : Hall) : Hall :=
  let d := timeDetail n limit
  h.post k (byte u) (d.extractLsb' 16 8) (d.extractLsb' 8 8) (d.extractLsb' 0 8)

/-- The warning case of R56. -/
def warn (u limit lead : Nat) (h : Hall) : Hall :=
  let n := (h.run u).seconds
  if 0 < lead ∧ (h.run u).warned = false ∧ limit - lead ≤ n ∧ n < limit then
    ((h.setRun u (fun d => { d with warned := true })).indicate .timeWarning u).postTime .timeWarning u n limit
  else h

/-- The time action of unit `u`'s room. -/
def timeAction (h : Hall) (u : Nat) : TimeAction := (h.settings (h.roomOfUnit u)).timeAction

/-- The time of unit `u` is up: closed under CLOSE; told under WARN_ONLY when `tell` (R56, limit and past the limit). -/
def timeUp (rd : Reader) (u limit : Nat) (tell : Bool) (h : Hall) : Hall :=
  let h := rd.settings (h.roomOfUnit u) h
  if h.isSpeaking u then
    match h.timeAction u with
    | .close => h.closeWithConsequences rd .timeUp true [u]
    | .warnOnly => if tell then (h.indicate .timeUp u).postTime .timeUp u (h.run u).seconds limit else h
  else h

/-- Whether the unit's speaking time is tested: SPEAKING and not a chair. -/
def isTimed (h : Hall) (u : Nat) : Bool := h.isSpeaking u && !h.isChair u

/-- The test of a SPEAKING non-chair at a second (R56). -/
def secondTest (rd : Reader) (u : Nat) (h : Hall) : Hall :=
  let h := rd.delegate u h
  if h.isTimed u then
    let h := rd.timeClass (h.loaded u).timeClass h
    let c := h.timeClass (h.loaded u).timeClass
    if h.isTimed u ∧ c.limit ≠ 0 then
      if c.limit ≤ (h.run u).seconds then h.timeUp rd u c.limit ((h.run u).seconds == c.limit)
      else h.warn u c.limit c.lead
    else h
  else h

/-- A Timebase second: every SPEAKING unit's seconds, then the tests (R55, R56). -/
def second (rd : Reader) (h : Hall) : Hall :=
  let us := units.filter h.isSpeaking
  let h := h.each us (fun u h => h.setRun u (fun d => { d with seconds := min (d.seconds + 1) Config.count16 }))
  h.each us (secondTest rd)

/-- The limit or lead that applies to unit `u` has changed (R57). The class record is read for the test (R54). -/
def limitChanged (rd : Reader) (u : Nat) (h : Hall) : Hall :=
  let h := rd.delegate u h
  if h.known u && !h.isChair u then
    let h := h.mark u
    let h := if h.isSpeaking u then rd.timeClass (h.loaded u).timeClass h else h
    let c := h.timeClass (h.loaded u).timeClass
    if h.isTimed u then
      let n := (h.run u).seconds
      let h := h.setRun u (fun d => { d with
        warned := if c.limit = 0 ∨ n < c.limit - c.lead then false else d.warned })
      if c.limit = 0 then h else if c.limit ≤ n then h.timeUp rd u c.limit true else h.warn u c.limit c.lead
    else h
  else h

/-- Time class `c` has changed from the values `old` that acted before: its units are told and tested (R57, log 15). R57
gives the units of a class no order; the model takes them by ascending unit address (the model's choice, log 38). -/
def classChanged (rd : Reader) (c : Nat) (old : TimeClass) (h : Hall) : Hall :=
  if h.timeClass c = old then h
  else h.each (units.filter (fun u => (h.record u).value.present && (h.loaded u).timeClass == c)) (limitChanged rd)

/-! ## Cells from units -/

/-- A cell of type `type` from an absent or damaged unit is reported once (R53). -/
def unknownUnit (type : Byte) (u : Nat) (h : Hall) : Hall :=
  if (h.run u).unknownReported then h
  else (h.setRun u (fun d => { d with unknownReported := true })).post .unknownUnit (byte u) type 0 0

/-- A cell from a unit: its record is read; an unknown unit is reported, a known one loses its unresponsive flag and is
handled (R51, R53). -/
def fromUnit (rd : Reader) (type : Byte) (act : Nat → Hall → Hall) (u : Nat) (h : Hall) : Hall :=
  let h := rd.delegate u h
  if h.known u then act u (h.setRun u (fun d => { d with unresponsive := false })) else h.unknownUnit type u

/-- Join the room's queue within its limits, with a service attempt when it was empty; QUEUE FULL otherwise (R28). -/
def requestFloor (rd : Reader) (u : Nat) (h : Hall) : Hall :=
  let r := h.roomOfUnit u
  if (h.queue r).length < (h.settings r).queueLimit ∧ 0 < h.floor.poolFree then
    if (h.queue r).isEmpty then (h.joinQueue u).service rd r else h.joinQueue u
  else h.indicate .queueFull u

/-- The oldest position holder of room `r`: SPEAKING before GRANTING, oldest grant first, lower address first (R27). -/
def oldestHolder (h : Hall) (r : Nat) : Option Nat :=
  (sortBy (fun a b =>
    if (h.run a).state = (h.run b).state then h.older (h.grantKey a) (h.grantKey b) else (h.run a).state == .speaking)
    (h.positionHolders r)).head?

/-- The press of unit `u` takes the position of the room's oldest holder: the grant is made, then that holder closed (R27). -/
def takeOldest (rd : Reader) (r u : Nat) (h : Hall) : Hall :=
  match h.oldestHolder r with
  | some v =>
    let freed := h.roomsFreed [v]
    let slots := h.slotsFreed [v]
    ((h.grant u).closeAll rd .override [v]).consequences rd true freed slots
  | none => h.indicate .denied u

/-- A press in an OVERRIDE room `r` (R27). Where no position is free the holders' records are read first (R15, log 8). -/
def overridePress (rd : Reader) (r u : Nat) (h : Hall) : Hall :=
  let h := if h.micFree && !h.freePosition r then h.readPositions rd r else h
  if h.micFree then (if h.freePosition r then h.grant u else h.takeOldest rd r u) else h.indicate .denied u

/-- A MIC press of an IDLE non-chair on an open floor, by its room's floor mode (R27, R28, Table 2.6). -/
def idlePress (rd : Reader) (u : Nat) (h : Hall) : Hall :=
  let h := rd.settings (h.roomOfUnit u) h
  let r := h.roomOfUnit u
  match (h.settings r).floorMode with
  | .openFloor => if h.freePosition r && h.micFree then h.grant u else h.indicate .denied u
  | .override => h.overridePress rd r u
  | .queue =>
    if (h.queue r).isEmpty && h.freePosition r && h.micFree && (h.gap r).isNone then h.grant u else h.requestFloor rd u
  | .operator =>
    if h.cmd.mode == .safe && (h.queue r).isEmpty && h.freePosition r && h.micFree && (h.gap r).isNone then h.grant u
    else h.requestFloor rd u

/-- A MIC press of a known unit (R27 to R30, R36). -/
def micPress (rd : Reader) (u : Nat) (h : Hall) : Hall :=
  match (h.run u).state with
  | .idle =>
    if !h.floorOpen then h.indicate .floorClosed u
    else if h.isChair u then (if h.micFree then h.grant u else h.indicate .denied u)
    else h.idlePress rd u
  | .waiting => h.drop none u
  | .granting => h.closeWithConsequences rd .unit true [u]
  | .speaking => h.closeWithConsequences rd .unit true [u]
  | .closing => h
  | .chairPending => h.dropChair none u

/-- The chair itself is served by chair priority: granted, or put in the chair-pending list, when IDLE (R31, step 4). -/
def serveChair (u : Nat) (h : Hall) : Hall :=
  if (h.run u).state = .idle then (if h.micFree then h.grant u else h.joinChairs u) else h

/-- Chair priority by chair `u` (R31). R31 needs the room's chair policy at step 2 and does not say when it reads the
settings record; the model reads it before step 1, with R39's reaction to a finding before the floor is closed (the
model's choice, log 14). The records of the delegates to be closed are read next (R15, log 8). The service attempt that
follows is made in the chair's room, whether or not a position was freed there. -/
def chairPriority (rd : Reader) (u : Nat) (h : Hall) : Hall :=
  let r := h.roomOfUnit u
  let h := (rd.settings r h).readPositions rd r
  let us := h.positionHolders r
  let slots := us.filterMap (fun v => if (h.run v).state = .granting then (h.run v).slot else none)
  let h := h.closeAll rd .chair us
  let h := if (h.settings r).chairPolicy = .clearAll then h.dropQueue rd r else h
  let h := ((h.setGap r none).serveChair u).post .chairPriority (byte u) 0 0 0
  h.consequences rd false [r] (slots.filter (fun k => tget h.slots.mics k == none)).length

/-- A PRIORITY press of a known unit (R30, R31, R36). -/
def priorityPress (rd : Reader) (u : Nat) (h : Hall) : Hall :=
  if h.isChair u then
    if h.floorOpen then h.chairPriority rd u
    else if (h.run u).state = .idle then h.indicate .floorClosed u
    else h
  else h.micPress rd u

/-- A UNIT TAKEN of a known unit: matching it opens the microphone (R50), otherwise it marks the unit (R51). -/
def taken (rd : Reader) (grantId : Nat) (u : Nat) (h : Hall) : Hall :=
  if (h.run u).state = .granting ∧ (h.run u).grantId.toNat = grantId then
    let h := h.setRun u (fun d => { d with window := none, state := .speaking, seconds := 0, warned := false })
    let h := (h.recomputeMics rd (h.roomOfUnit u)).mark u
    h.post .granted (byte u) (byte grantId) (byte (8 + ((h.run u).slot).getD 0)) 0
  else h.mark u

/-! ## Timers of a unit -/

/-- The response window of unit `u` has run down: a retry, or the unit is unresponsive (R48, R49). The unit's record is
read first (R15); found damaged, its grant is gone and nothing more is done. -/
def windowExpiry (rd : Reader) (u : Nat) (h : Hall) : Hall :=
  let h := rd.delegate u h
  let d := h.run u
  if d.state = .granting ∧ d.window = some 0 then
    if d.attempts < Config.maxAttempts then
      (h.setRun u (fun d => { d with attempts := d.attempts + 1, window := none })).mark u
    else
      let freed := h.roomsFreed [u]
      let h := ((h.setRun u (fun d => { d with unresponsive := true })).endHold u).mark u
      let h := h.post .unresponsive (byte u) (byte d.grantId.toNat) (byte (8 + d.slot.getD 0)) 0
      h.consequences rd false freed 1
  else h

/-- The gain point of CLOSING unit `u` has arrived at mute (R52). The unit's record is read first (R15); found damaged, the
close ends all the same, without a mark. -/
def closeEnd (rd : Reader) (u : Nat) (h : Hall) : Hall :=
  let h := rd.delegate u h
  let d := h.run u
  if d.state = .closing then
    let h := (h.endHold u).mark u
    let h := h.post .closed (byte u) ((d.reason.getD .unit).code) (highByte d.seconds) (lowByte d.seconds)
    let h := (h.arbiterRun rd).service rd (h.roomOfUnit u)
    h.recomputeMics rd (h.roomOfUnit u)
  else h

/-- The gap timer of room `r` has run down: it stops and the room is served (R26). -/
def gapExpiry (rd : Reader) (r : Nat) (h : Hall) : Hall :=
  if h.gap r = some 0 then (h.setGap r none).service rd r else h

/-! ## Operator commands -/

/-- CLOSE FLOOR of a known unit, by its state (R34). -/
def operatorClose (rd : Reader) (u : Nat) (h : Hall) : Hall :=
  match (h.run u).state with
  | .idle => h
  | .waiting => h.drop (some .closedByOperator) u
  | .granting => h.closeWithConsequences rd .operator true [u]
  | .speaking => h.closeWithConsequences rd .operator true [u]
  | .closing => h
  | .chairPending => h.dropChair (some .closedByOperator) u

/-- CLEAR FLOOR of scope QUEUE: the queue is dropped and the gap timer stopped (R35). -/
def clearQueue (rd : Reader) (r : Nat) (h : Hall) : Hall := (h.dropQueue rd r).setGap r none

/-- Whether unit `u` sits in room `r`. -/
def inRoom (r : Nat) (h : Hall) (u : Nat) : Bool := h.roomOfUnit u == r

/-- CLEAR FLOOR of scope ALL (R35). -/
def clearAll (rd : Reader) (r : Nat) (h : Hall) : Hall :=
  let h := (h.clearQueue rd r).readHolders rd (inRoom r)
  let us := units.filter (fun u => h.onFloor u && h.inRoom r u)
  let freed := h.roomsFreed us
  let slots := h.slotsFreed us
  let h := h.closeAll rd .operator us
  let h := h.dropChairs rd .closedByOperator (inRoom r)
  h.consequences rd false freed slots

/-- CLEAR FLOOR on room `r`: scope 0 SPEAKERS, 1 QUEUE, 2 ALL (R35). -/
def clearFloor (rd : Reader) (r scope : Nat) (h : Hall) : Hall :=
  if scope = 0 then
    let h := h.readPositions rd r
    h.closeWithConsequences rd .operator true (h.positionHolders r)
  else if scope = 1 then h.clearQueue rd r
  else h.clearAll rd r

end Sys2Proof.Machine.Hall
end

