-- ==== Sys2Proof/Machine/Integrity.lean ====
section
/-! DEFINITION. The reads of Table Memory with their owners' reactions (R153, Table 10.4): the knot of Reader.lean. A
reaction reads with the reads one level down; each level sets one more damaged mark, so `Config.records` levels are
enough (log 9). -/

namespace Sys2Proof.Machine

namespace Hall

/-- Entry into SAFE after a finding in a table other than the delegate table (R142, R153). -/
def safeAfter (rd : Reader) (react : Hall → Hall) (h : Hall) : Hall := (react h).enterSafe rd

end Hall

/-- One level of reads over the reads `rd` that the reactions use (R153): the check, and at damage the owner's reaction
and SAFE. -/
def Reader.next (rd : Reader) : Reader where
  delegate u h :=
    if (h.record u).finding = .damaged then (h.noteDelegate u).delegateDamaged rd u else h.noteDelegate u
  settings s h :=
    if (h.settingsRecord s).finding = .damaged then
      (h.noteSettings s).safeAfter rd (Hall.settingsChanged rd s (h.settings s))
    else h.noteSettings s
  plan s h :=
    if (h.planRecord s).finding = .damaged then (h.notePlan s).safeAfter rd (Hall.planDamaged rd s) else h.notePlan s
  booth b h :=
    if (h.boothRecord b).finding = .damaged then (h.noteBooth b).safeAfter rd (Hall.boothDamaged rd b)
    else h.noteBooth b
  timeClass c h :=
    if (h.classRecord c).finding = .damaged then (h.noteClass c).safeAfter rd (Hall.classChanged rd c (h.timeClass c))
    else h.noteClass c
  override w h :=
    if (h.overrideRecord w).finding = .damaged then (h.noteOverride w).safeAfter rd (Hall.computeWalls rd)
    else h.noteOverride w

/-- Reads with `n` levels of reactions. -/
def readerAt : Nat → Reader
  | 0 => Reader.notes
  | n + 1 => (readerAt n).next

/-- The reads of Table Memory. -/
def reader : Reader := readerAt Config.records

end Sys2Proof.Machine
end

