-- ==== Sys2Proof/Machine/Preset.lean ====
section
/-! DEFINITION. The Preset Store: what a preset holds, storing, erasing and their ends (R155 to R159), and recall (R160),
with the record writes that the start-up recall shares (R161). -/

namespace Sys2Proof.Machine.Hall

/-! ## Reading the tables -/

/-- The reads of all records that a preset holds (R156, step 4). R156 gives the reads no order; the model takes the tables as
Table 11.1 lists them, and the records of each ascending (the model's choice, log 43). -/
def readPreset (rd : Reader) (h : Hall) : Hall :=
  ((((h.readAll rd.override (List.range 7)).readAll rd.settings sections).readAll rd.plan sections).readAll rd.booth
    boothNumbers).readAll rd.timeClass (List.range 4)

/-- The number of damaged records among those that a preset holds. -/
def presetDamaged (h : Hall) : Nat := h.mem.damagedCount - damagedIn h.mem.delegates

/-- A copy of the records that a preset holds. -/
def copyTables (h : Hall) : PresetContents where
  overrides := tmake 7 (fun w => (h.overrideRecord w).value)
  settings := tmake 8 (fun s => (h.settingsRecord s).value)
  plans := tmake 8 (fun s => (h.planRecord s).value)
  booths := tmake 16 h.booth
  classes := tmake 4 (fun c => (h.classRecord c).value)

/-! ## Programming -/

def setPreset (p : Nat) (x : Preset) (h : Hall) : Hall := { h with store.presets := tset h.store.presets p x }

def setProgramming (x : Option Programming) (h : Hall) : Hall := { h with store.programming := x }

/-- Begin to program a preset (R156, R158). -/
def program (p : Nat) (op : ProgramOp) (periods : Nat) (h : Hall) : Hall :=
  (h.setPreset p .writing).setProgramming (some ⟨p, op, periods⟩)

/-- The checks that STORE PRESET and ERASE PRESET share: range, busy, house protection (R156 steps 1 to 3, R159). -/
def programRefusal (h : Hall) (houseWp : Bool) (p : Nat) : Option Answer :=
  if 15 < p then some (.field 1)
  else if h.store.programming.isSome then some (.check .storeInProgress 0)
  else if 12 ≤ p ∧ ¬(houseWp = true ∧ h.store.houseWrite = true) then some (.check .housePreset 0)
  else none

/-- STORE PRESET (R156). -/
def storePreset (rd : Reader) (houseWp : Bool) (p : Nat) (h : Hall) : Hall × Answer :=
  match h.programRefusal houseWp p with
  | some a => (h, a)
  | none =>
    let h := h.readPreset rd
    if 0 < h.presetDamaged then (h, .check .recordDamaged 0)
    else (h.program p (.store h.copyTables) Config.storePeriods, .plain)

/-- ERASE PRESET (R158). -/
def erasePreset (houseWp : Bool) (p : Nat) (h : Hall) : Hall × Answer :=
  match h.programRefusal houseWp p with
  | some a => (h, a)
  | none => (h.program p .erase Config.erasePeriods, .plain)

/-- Post PRESET DONE or PRESET FAILED: detail 0 STORE, 1 ERASE (R157). -/
def postPreset (ok : Bool) (p : Nat) (op : Byte) (h : Hall) : Hall :=
  h.post (if ok then .presetDone else .presetFailed) (byte p) op 0 0

/-- The end of a store: `ok` says whether the read-back matched (R157, R138). With no store in progress nothing changes (the
model's choice, log 37). -/
def storeComplete (ok : Bool) (h : Hall) : Hall :=
  match h.store.programming with
  | some ⟨p, .store copy, _⟩ =>
    let h := ((h.setPreset p (if ok then .valid copy else .empty)).setProgramming none).postPreset ok p 0
    if ok then h else { h with cmd.deferred := some p }
  | _ => h

/-- The end of an erase: `ok` says whether the preset reads clear (R157). With no erase in progress nothing changes (the
model's choice, log 37). -/
def eraseComplete (ok : Bool) (h : Hall) : Hall :=
  match h.store.programming with
  | some ⟨p, .erase, _⟩ => ((h.setPreset p .empty).setProgramming none).postPreset ok p 1
  | _ => h

/-- SET HOUSE WRITE (R159). -/
def setHouseWrite (enable : Nat) (h : Hall) : Hall × Answer :=
  if 1 < enable then (h, .field 1) else ({ h with store.houseWrite := enable == 1 }, .plain)

/-! ## Recall -/

/-- Write the time classes of a preset. -/
def writeClasses (x : PresetContents) (h : Hall) : Hall := h.each (List.range 4) (fun c => writeClass c (tget x.classes c))

/-- Write the section settings of a preset. -/
def writeAllSettings (x : PresetContents) (h : Hall) : Hall := h.each sections (fun s => writeSettings s (tget x.settings s))

/-- Write the home plans of a preset. -/
def writePlans (x : PresetContents) (h : Hall) : Hall := h.each sections (fun s => writePlan s (tget x.plans s))

/-- Write the booth records of a preset. -/
def writeBooths (x : PresetContents) (h : Hall) : Hall := h.each boothNumbers (fun b => writeBooth b (tget x.booths b))

/-- Write the wall overrides of a preset. -/
def writeOverrides (x : PresetContents) (h : Hall) : Hall :=
  h.each (List.range 7) (fun w => writeOverride w (tget x.overrides w))

/-- Part 1 of a recall, with R57 for each class. The values that acted before are those held, unread (the model's choice,
log 49). -/
def recallClasses (rd : Reader) (x : PresetContents) (h : Hall) : Hall :=
  let old := h.timeClass
  (h.writeClasses x).each (List.range 4) (fun c => classChanged rd c (old c))

/-- Part 2, with R39 once for each room in force. The settings that acted before are those held, unread (the model's choice,
log 49). -/
def recallSettings (rd : Reader) (x : PresetContents) (h : Hall) : Hall :=
  let old := h.settings
  (h.writeAllSettings x).each h.rooms (fun r => settingsChanged rd r (old r))

/-- Part 3, with each room plan in force computed once. -/
def recallPlans (rd : Reader) (x : PresetContents) (h : Hall) : Hall := (h.writePlans x).each h.rooms (replan rd)

/-- Part 4, in CONFIG, with the steps of R60 for each booth (log 32). The records are read before they are written, as SET
BOOTH reads its booth's (R58). -/
def recallBooths (rd : Reader) (x : PresetContents) (h : Hall) : Hall :=
  let h := h.readBooths rd
  let before := h.boothBefore
  let led := h.ledNow
  ((h.writeBooths x).each boothNumbers (fun b => boothWritten rd led b (before b))).syncBoothFades

/-- Part 5, with the effective walls computed once. -/
def recallOverrides (rd : Reader) (x : PresetContents) (h : Hall) : Hall := (h.writeOverrides x).computeWalls rd

/-- RECALL PRESET (R160, Table 11.2). Whether part 4 is written, and the qualifier, go by the mode in force at acceptance,
also where a read of parts 1 to 3 has taken LIVE to SAFE (the model's choice, log 52). -/
def recallPreset (rd : Reader) (p : Nat) (h : Hall) : Hall × Answer :=
  if 15 < p then (h, .field 1)
  else match tget h.store.presets p with
    | .writing => (h, .check .storeInProgress 0)
    | .empty => (h, .check .presetEmpty 0)
    | .valid x =>
      let live := h.cmd.mode == .live
      let h := ((h.recallClasses rd x).recallSettings rd x).recallPlans rd x
      let h := if live then h else h.recallBooths rd x
      (h.recallOverrides rd x, if live then .good .partialRecall 0 {} else .plain)

end Sys2Proof.Machine.Hall
end

