-- ==== Sys2Proof/Machine/Reset.lean ====
section
/-! DEFINITION. The hard reset and the engine reset (R2, R11, R16, R59, R77, R84, R93, R114, R118, R148, R151, R155, R161). -/

namespace Sys2Proof.Machine

/-- The walls' debounce as the seeding scan leaves it (R2). -/
def seedWalls (lines : BitVec 7) : Vector WallDebounce 7 := tmake 7 (fun w => ⟨wallReading lines w, 0, 0⟩)

/-- The Preset Store after either reset: idle, a preset that was being programmed EMPTY, house write disabled (R155,
R159). -/
def PresetStore.restarted (s : PresetStore) : PresetStore where
  presets := match s.programming with
    | some x => tset s.presets x.preset .empty
    | none => s.presets
  programming := none
  houseWrite := false

/-- What a reset keeps or sets by its kind. -/
structure Kept where
  mem           : TableMemory
  mask          : BitVec 7
  scanInterval  : Nat
  debounceCount : Nat
  supervision   : Supervision
  cause         : Byte

namespace Hall

/-- The hall right after a reset, before the partition in force is set. -/
def restarted (k : Kept) (lines : BitVec 7) (store : PresetStore) : Hall where
  frameCounter := 0
  part := ⟨seedWalls lines, 0, k.scanInterval, k.debounceCount, .replicate 7 .stowed, .replicate 7 .stowed, .idle⟩
  floor := .reset
  router := .reset
  slots := .reset
  gains := .reset
  cmd := .reset k.supervision
  events := .reset k.mask k.cause
  mem := k.mem
  store := store.restarted

/-- The effective walls of the seeding scan become the partition in force (R2, R7, R11). -/
def seed (h : Hall) : Hall :=
  let h := h.readAll noteOverride (List.range 7)
  (h.setEffective h.wallsNow).setPartition h.wallsNow

/-- The start-up recall of preset 0: parts 1 to 4 write; a change by part 5 replaces the partition in force (R161). -/
def startUpRecall (h : Hall) : Hall :=
  match tget h.store.presets 0 with
  | .valid x =>
    let h := ((((h.writeClasses x).writeAllSettings x).writePlans x).writeBooths x).writeOverrides x
    let p := h.wallsNow
    if p = h.part.effective then h
    else
      let ss := changedSections h.part.inForce p
      ((h.setEffective p).setPartition p).post .repartitionDone 0 (wallMap p) 1 (sectionMap ss)
  | _ => h

/-- The room plan of room `r` at a reset (R59, R63). Each home plan found damaged makes the plan computed again once more
(R76, log 17); at a reset nothing else follows (R64). -/
def planAtReset (r : Nat) (h : Hall) : Hall :=
  let found := (sectionsOf h.part.inForce r).filter (fun s => (h.planRecord s).finding == .damaged)
  (h.readPlans Reader.notes r).each (List.range (found.length + 1)) (fun _ => computePlan r)

/-- Each reader sets up its state for the partition in force: room plans (R59, R63), floor slots (R80), LANGUAGE claims
(R84), and every notice marked (R59). R59 and R63 give no order among the rooms whose plans are computed, and so none for their
LANGUAGE DROPPED events; the model takes the rooms ascending (the model's choice, log 51). -/
def setUp (h : Hall) : Hall :=
  let h := (h.each h.rooms planAtReset).setFloorSlots
  (h.each h.rooms claimLanguages).markAllNotices

/-- Every present unit whose record is not damaged is marked (R16, R121). -/
def markKnown (h : Hall) : Hall := h.each units mark

end Hall

namespace Chip

/-- The chip around a hall after a reset: the ring port searches, time starts afresh (R118, R122, Table 8.1). -/
def restarted (h : Hall) (rampInterval : Nat) (pins : Pins) (out : Option Frame) : Chip :=
  ⟨h, .reset, .reset rampInterval, .reset, pins, [], out⟩

/-- What a hard reset sets. -/
def keptByHardReset : Kept := ⟨.reset, 0x7F, 2, 5, .reset, 0⟩

/-- What an engine reset keeps (R148). -/
def keptByEngineReset (c : Chip) : Kept :=
  let v := c.hall.cmd.supervision
  ⟨c.hall.mem, c.hall.events.mask, c.hall.part.scanInterval, c.hall.part.debounceCount,
    { v with window := 10 * v.timeout }, 1⟩

/-- The hard reset, with the input lines as they stand at its end (R11, R161). -/
def hardReset (pins : Pins) (c : Chip) : Chip :=
  restarted ((((Hall.restarted keptByHardReset pins.walls c.hall.store).seed).startUpRecall).setUp) 4 pins none

/-- The engine reset (R148). -/
def engineReset (c : Chip) : Chip :=
  restarted (((Hall.restarted c.keptByEngineReset c.pins.walls c.hall.store).seed).setUp.markKnown) c.time.rampInterval
    c.pins c.ringOut

end Chip

end Sys2Proof.Machine
end

