-- ==== Sys2Proof/Machine/Commands.lean ====
section
/-! DEFINITION. The commands of the catalogue (Table 9.4): each as the state it leaves and its answer. Taking a command
(R133) is in Processor.lean. -/

namespace Sys2Proof.Machine

namespace Hall

/-! ## Modes, supervision, events (sections 9.5, 9.6, 10.1) -/

/-- SET MODE with a mode other than 0 (R140). -/
def setModeLive (mode : Nat) (h : Hall) : Hall × Answer :=
  if 1 < mode then (h, .field 1)
  else match h.cmd.mode with
    | .live => (h.setRequested .live, .plain)
    | .stopping => (h, .check .stopping 0)
    | .config =>
      if h.mem.damagedCount = 0 then (h.goLive, .plain) else (h, .check .tablesDamaged h.mem.damagedCount)
    | .safe =>
      if h.mem.damagedCount = 0 then ((h.setRequested .live).setMode .live, .plain)
      else (h, .check .tablesDamaged h.mem.damagedCount)

/-- SET MODE CONFIG (R141). -/
def setModeConfig (rd : Reader) (h : Hall) : Hall × Answer :=
  if h.floorOpen then
    let h := h.setRequested .config
    (if h.inFlight then h else h.enterStopping rd, .plain)
  else (h, .plain)

def setSupervision (v : Supervision) (h : Hall) : Hall := { h with cmd.supervision := v }

/-- SUPERVISE (R144). -/
def supervise (enable timeout lock : Nat) (h : Hall) : Hall × Answer :=
  let v := h.cmd.supervision
  match fieldAbove [(1, enable, 1), (3, lock, 1)] with
  | some n => (h, .field n)
  | none =>
    if lock = 1 ∧ enable = 0 then (h, .field 3)
    else if v.lock = true ∧ enable = 0 then (h, .check .supervisionLocked 0)
    else
      let t := max 1 timeout
      (h.setSupervision ⟨enable == 1, t, v.lock || lock == 1, 10 * t⟩, goodWrite [(2, timeout, t)])

/-- SET EVENTS (R152). -/
def setEvents (mask : Byte) (h : Hall) : Hall × Answer :=
  if mask.getLsbD 7 then (h, .field 1) else ({ h with events.mask := mask.extractLsb' 0 7 }, .plain)

/-! ## Delegates (section 2.3) -/

/-- The lowest-numbered field out of range, field 1 being a unit address 1 to 192. -/
def unitField (u : Nat) (fs : List FieldLimit) : Option Nat := if u = 0 then some 1 else fieldAbove ((1, u, 192) :: fs)

/-- A whole write of an absent or IDLE delegate's record (R20). -/
def loadWhole (u : Nat) (d : Delegate) (h : Hall) : Hall :=
  ((h.writeDelegate u d).setRun u (fun x => { x with unknownReported := false })).mark u

/-- The trim and class of a record rewritten in place; its protection stands (R154). -/
def writeTrimClass (u trim cls : Nat) (h : Hall) : Hall :=
  let p := h.record u
  let q := { p with value := { p.value with trim := trim, timeClass := cls } }
  { h with mem.delegates := tset h.mem.delegates (unitIndex u) q }

/-- The write of trim and class to a delegate that is not IDLE (R20, R96, R57). -/
def loadPart (rd : Reader) (u trim cls : Nat) (h : Hall) : Hall :=
  let old := (h.loaded u).timeClass
  let h := ((h.writeTrimClass u trim cls).setRun u (fun x => { x with unknownReported := false })).mark u
  let h := if h.isSpeaking u then h.aimMic u (speakingTarget trim (h.speakers (h.roomOfUnit u)).length) else h
  if old = cls then h else h.limitChanged rd u

/-- LOAD DELEGATE (R20). -/
def loadDelegate (rd : Reader) (u sect role trim cls : Nat) (h : Hall) : Hall × Answer :=
  match unitField u [(2, sect, 7), (3, role, 1), (5, cls, 3)] with
  | some n => (h, .field n)
  | none =>
    let h := rd.delegate u h
    let t := min trim 40
    if (h.run u).state = .idle then (h.loadWhole u ⟨true, sect, roleOf role, t, cls⟩, goodWrite [(4, trim, t)])
    else if (h.record u).damaged = false ∧ (h.loaded u).sect = sect ∧ (h.loaded u).role = roleOf role then
      (h.loadPart rd u t cls, goodWrite [(4, trim, t)])
    else (h, .check .unitNotIdle 0)

/-- What REMOVE DELEGATE clears (R21). -/
def clearUnit (u : Nat) (h : Hall) : Hall :=
  ((h.writeDelegate u {}).setRun u (fun x => { x with indication := none, unknownReported := false })).unmark u

/-- REMOVE DELEGATE (R21). -/
def removeDelegate (rd : Reader) (u : Nat) (h : Hall) : Hall × Answer :=
  match unitField u [] with
  | some n => (h, .field n)
  | none =>
    let h := rd.delegate u h
    if (h.record u).value.present = false ∧ (h.record u).damaged = false then (h, .check .unitNotPresent 0)
    else if (h.run u).state ≠ .idle then (h, .check .unitNotIdle 0)
    else (h.clearUnit u, .plain)

/-- The data of READ DELEGATE (Table 8.11). -/
def delegateData (h : Hall) (u part : Nat) : Data :=
  let l := h.loaded u
  let d := h.run u
  if part = 0 then
    ⟨byte (flag l.present), halves l.sect (match l.role with | .delegate => 0 | .chair => 1), byte l.trim, byte l.timeClass⟩
  else if part = 1 then
    ⟨d.state.code, slotByte d.slot, byte (h.queuePosition u), halves d.grantId.toNat d.attempts⟩
  else
    ⟨highByte d.seconds, lowByte d.seconds, byte (flag d.warned + 2 * flag d.unresponsive + 4 * flag d.unknownReported),
      indicationCode d.indication⟩

/-- READ DELEGATE (R22). -/
def readDelegate (rd : Reader) (u part : Nat) (h : Hall) : Hall × Answer :=
  match unitField u [(2, part, 2)] with
  | some n => (h, .field n)
  | none =>
    let h := rd.delegate u h
    if (h.record u).damaged then (h, .check .recordDamaged 0) else (h, .read (h.delegateData u part))

/-- SET TIME CLASS (R54). R57 compares with the values that acted before, which the model takes as held, without a read of the
old record (the model's choice, log 49). -/
def setTimeClass (rd : Reader) (cls limit lead : Nat) (h : Hall) : Hall × Answer :=
  if 3 < cls then (h, .field 1)
  else
    let l := if limit = 0 then 0 else clampTo 10 3600 limit
    let w := if l ≠ 0 ∧ l ≤ min lead 120 then l - 1 else min lead 120
    let old := h.timeClass cls
    ((h.writeClass cls ⟨l, w⟩).classChanged rd cls old, goodWrite [(2, limit, l), (3, lead, w)])

/-! ## Floor commands (section 2.8) -/

/-- GRANT FLOOR (R33). -/
def grantFloor (rd : Reader) (u : Nat) (h : Hall) : Hall × Answer :=
  match unitField u [] with
  | some n => (h, .field n)
  | none =>
    let h := rd.delegate u h
    if h.known u = false then (h, .check .unitNotPresent 0)
    else
      let r := h.roomOfUnit u
      let h := rd.settings r h
      if (h.settings r).floorMode ≠ .operator then (h, .check .notOperatorRoom 0)
      else if h.onFloor u then (h, .plain)
      else if (h.run u).state = .closing ∨ (h.run u).state = .chairPending then (h, .check .unitNotIdle 0)
      else if h.isChair u = false ∧ h.freePosition r = false then (h, .check .floorFull 0)
      else if h.micFree = false then (h, .check .noMicSlot 0)
      else (h.grant u, .plain)

/-- CLOSE FLOOR (R34). -/
def closeFloorOf (rd : Reader) (u : Nat) (h : Hall) : Hall × Answer :=
  match unitField u [] with
  | some n => (h, .field n)
  | none =>
    let h := rd.delegate u h
    if h.known u then (h.operatorClose rd u, .plain) else (h, .check .unitNotPresent 0)

/-- CLEAR FLOOR (R35). -/
def clearFloorOf (rd : Reader) (room scope : Nat) (h : Hall) : Hall × Answer :=
  if isRoomId h.part.inForce room = false then (h, .field 1)
  else if 2 < scope then (h, .field 2)
  else (h.clearFloor rd room scope, .plain)

/-! ## Section settings and walls (chapter 1) -/

/-- SET SECTION FLOOR (R13, R39); the record is read for the fields the command does not carry (R12, log 29). -/
def setSectionFloor (rd : Reader) (s mode speakers queueLimit gap chair time : Nat) (h : Hall) : Hall × Answer :=
  match fieldAbove [(1, s, 7), (2, mode, 3), (6, chair, 1), (7, time, 1)] with
  | some n => (h, .field n)
  | none =>
    let h := rd.settings s h
    let old := h.settings s
    let x := clampTo 1 8 speakers
    let q := clampTo 1 32 queueLimit
    let g := min gap 50
    let new := { old with
      floorMode := floorModeOf mode, maxSpeakers := x, queueLimit := q, gap := g
      chairPolicy := chairPolicyOf chair, timeAction := timeActionOf time }
    ((h.writeSettings s new).settingsChanged rd s old, goodWrite [(3, speakers, x), (4, queueLimit, q), (5, gap, g)])

/-- SET SECTION LEVELS (R14). -/
def setSectionLevels (rd : Reader) (s level fill underlay : Nat) (h : Hall) : Hall × Answer :=
  if 7 < s then (h, .field 1)
  else
    let h := rd.settings s h
    let l := min level 127
    let f := min fill 128
    let w := min underlay 128
    (h.writeSettings s { h.settings s with level := l, fill := f, underlay := w },
      goodWrite [(2, level, l), (3, fill, f), (4, underlay, w)])

/-- SET WALL (R8). -/
def setWall (rd : Reader) (w ovr : Nat) (h : Hall) : Hall × Answer :=
  match fieldAbove [(1, w, 6), (2, ovr, 2)] with
  | some n => (h, .field n)
  | none => ((h.writeOverride w (overrideOf ovr)).computeWalls rd, .plain)

/-! ## Booths and plans (chapter 4) -/

/-- SET BOOTH (R60). One that changes the record's language, home section or mark is followed by evaluations, which look at
every booth (R66); the sixteen records are read for them before the write (the model's choice, log 8). -/
def setBooth (rd : Reader) (b language home gain : Nat) (h : Hall) : Hall × Answer :=
  match fieldAbove [(1, b, 15), (2, language, 63), (3, home, 7)] with
  | some n => (h, .field n)
  | none =>
    let h := rd.booth b h
    let x := h.boothBefore b
    if h.cmd.mode ≠ .config ∧ x.effective ≠ .off ∧ (language ≠ x.record.language ∨ home ≠ x.record.home) then
      (h, .check .boothNotOff 0)
    else
      let h := if language = x.record.language ∧ home = x.record.home ∧ x.damaged = false then h else h.readBooths rd
      let x := h.boothBefore b
      let g := min gain 127
      (((h.writeBooth b ⟨language, home, g⟩).boothWritten rd h.ledNow b x).syncBoothFades, goodWrite [(4, gain, g)])

/-- The place of the first code that is not a language code, counted from 0 (R62, step 3). -/
def badCode (codes : List Nat) : Option Nat := codes.findIdx? (fun c => c == 0 || decide (63 < c))

/-- The place of the first code that equals an earlier one, counted from 0 (R62, step 4). -/
def repeatedCode (codes : List Nat) : Option Nat :=
  (List.range codes.length).find? (fun i => (codes.take i).contains (codes.getD i 0))

/-- SET HOME PLAN (R62). -/
def setHomePlan (rd : Reader) (s length : Nat) (codes : List Nat) (h : Hall) : Hall × Answer :=
  if 7 < s then (h, .field 1)
  else
    let n := min length 8
    let plan := codes.take n
    match badCode plan with
    | some i => (h, .field (i + 3))
    | none =>
      match repeatedCode plan with
      | some i => (h, .check .duplicateLanguage (i + 3))
      | none => ((h.writePlan s plan).replan rd (h.roomOfSection s), goodWrite [(2, length, n)])

/-! ## The slot plan (section 5.8) -/

/-- The data of READ SLOT, selector 0: region, status, owner class, key (Table 5.5, Table 8.11). -/
def slotData (h : Hall) (slot : Nat) : Data :=
  if slot < 8 then ⟨0, 0, 0, 0⟩
  else if slot < 32 then
    match tget h.slots.mics (slot - 8) with
    | none => ⟨1, 1, 0, 0⟩
    | some u => ⟨1, 2, 1, byte u⟩
  else if slot < 40 then
    if tget h.slots.floorActive (slot - 32) then ⟨2, 3, 2, byte (slot - 32)⟩ else ⟨2, 4, 2, byte (slot - 32)⟩
  else
    match tget h.slots.pool (slot - 40) with
    | none => ⟨3, 1, 0, 0⟩
    | some c => ⟨3, 2, c.classCode, c.keyByte⟩

/-- The data of READ SLOT, selector 1: the claim at a place of the wait list (Table 5.5). -/
def placeData (h : Hall) (place : Nat) : Data :=
  match h.slots.waitList[place - 1]? with
  | none => {}
  | some c => ⟨c.classCode, c.keyByte, 0, 0⟩

/-- The data of READ SLOT, selector 2: the summary (Table 5.5). -/
def summaryData (h : Hall) : Data :=
  ⟨byte (h.slots.mics.toList.filter (· == none)).length, byte (h.slots.pool.toList.filter (· == none)).length,
    byte h.slots.waitList.length, byte (h.slots.floorActive.toList.filter (· == true)).length⟩

/-- READ SLOT (R88). -/
def readSlot (selector number : Nat) (h : Hall) : Hall × Answer :=
  if 2 < selector then (h, .field 1)
  else if selector = 0 then (if 127 < number then (h, .field 2) else (h, .read (h.slotData number)))
  else if selector = 1 then
    (if number = 0 ∨ 96 < number then (h, .field 2) else (h, .read (h.placeData number)))
  else (h, .read h.summaryData)

end Hall

/-! ## Commands that reach beyond the hall -/

namespace Chip

/-- A command of the hall's blocks. -/
def onHall (f : Hall → Hall × Answer) (c : Chip) : Chip × Answer := ({ c with hall := (f c.hall).1 }, (f c.hall).2)

/-- The data of STATUS (Table 9.7). -/
def statusData (c : Chip) (part : Nat) : Data :=
  let h := c.hall
  let v := h.cmd.supervision
  if part = 0 then
    ⟨halves h.cmd.mode.code h.cmd.requested.code, h.part.repartition.code, wallMap h.part.inForce, wallMap h.part.effective⟩
  else if part = 1 then
    ⟨highByte c.ring.laneErrors, lowByte c.ring.laneErrors,
      byte (flag v.enabled + 2 * flag v.lock + 4 * flag (v.window == 0)), byte v.timeout⟩
  else if part = 2 then
    ⟨byte (min 255 h.mem.damagedCount), byte h.events.events.length,
      byte (flag h.store.houseWrite + 2 * flag c.pins.houseWp + 4 * flag h.store.programming.isSome), 0⟩
  else ⟨byte c.time.rampInterval, byte h.part.scanInterval, byte h.part.debounceCount, 0⟩

/-- STATUS (R146). -/
def status (part : Nat) (c : Chip) : Chip × Answer :=
  if 3 < part then (c, .field 1) else (c, .read (c.statusData part))

/-- SET TIMING (R145). -/
def setTiming (ramp scan debounce : Nat) (c : Chip) : Chip × Answer :=
  let r := clampTo 1 32 ramp
  let s := clampTo 1 8 scan
  let d := clampTo 2 15 debounce
  ({ c with time.rampInterval := r, hall.part.scanInterval := s, hall.part.debounceCount := d },
    goodWrite [(1, ramp, r), (2, scan, s), (3, debounce, d)])

/-- The clip markers of room id `r`, bit c for channel c (Table 9.8). -/
def clipBits (c : Chip) (r : Nat) : Nat :=
  (List.range 9).foldl (fun a k => a + 2 ^ k * flag (tget c.outs.roomClips (9 * r + k))) 0

/-- The data of READ ROOM (Table 9.8). -/
def roomData (c : Chip) (r : Nat) : Data :=
  let h := c.hall
  ⟨halves (h.plan r).length (h.residual r), byte (c.clipBits r % 256), halves (h.positionHolders r).length (c.clipBits r / 256),
    byte (h.queue r).length⟩

/-- READ ROOM; the markers it reports are cleared (R147, R103). -/
def readRoom (r : Nat) (c : Chip) : Chip × Answer :=
  if isRoomId c.hall.part.inForce r then
    let clear := fun i m => m && i / 9 != r
    ({ c with outs.roomClips := tmapIdx c.outs.roomClips clear }, .read (c.roomData r))
  else (c, .field 1)

/-- The data of READ BOOTH (Table 8.11). -/
def boothData (c : Chip) (b part : Nat) : Data :=
  let h := c.hall
  let x := h.boothRun b
  if part = 0 then ⟨byte (h.booth b).language, byte (h.booth b).home, byte (h.booth b).gain, 0⟩
  else if part = 1 then
    ⟨halves x.reported.code (h.effective b).code, x.assignment.code, x.selection.code, x.relay.code⟩
  else
    ⟨byte (h.roomOfBooth b), slotByte x.outSlot, slotByte x.feedSlot, byte (flag (tget c.outs.boothClips b))⟩

/-- READ BOOTH; part 2 clears the feed's marker (R61, R103). -/
def readBooth (rd : Reader) (b part : Nat) (c : Chip) : Chip × Answer :=
  match fieldAbove [(1, b, 15), (2, part, 2)] with
  | some n => (c, .field n)
  | none =>
    let c := { c with hall := rd.booth b c.hall }
    if (c.hall.boothRecord b).damaged then (c, .check .recordDamaged 0)
    else if part = 2 then ({ c with outs.boothClips := tset c.outs.boothClips b false }, .read (c.boothData b part))
    else (c, .read (c.boothData b part))

end Chip

end Sys2Proof.Machine
end

