-- ==== Sys2Proof/Machine/Processor.lean ====
section
/-! DEFINITION. Taking a command (R133, R137 to R139): the modes of Table 9.4, the execution of each command, the reply and
the group mark. -/

namespace Sys2Proof.Machine

/-- Whether a command is taken in a mode in force (R139, Table 9.4). -/
def Command.taken (m : Mode) : Command → Bool
  | .unknown _ => true
  | .status _ => true
  | .setModeLive _ => true
  | .setModeConfig => true
  | .engineReset => true
  | .supervise _ _ _ => true
  | .setEvents _ => true
  | .setTiming _ _ _ => m == .config
  | .loadDelegate _ _ _ _ _ => m != .safe
  | .removeDelegate _ => m != .safe
  | .readDelegate _ _ => true
  | .setTimeClass _ _ _ => m != .safe
  | .grantFloor _ => m == .live
  | .closeFloor _ => true
  | .clearFloor _ _ => true
  | .setSectionFloor _ _ _ _ _ _ _ => m != .safe
  | .setWall _ _ => true
  | .readRoom _ => true
  | .setSectionLevels _ _ _ _ => m != .safe
  | .setBooth _ _ _ _ => m != .safe
  | .setHomePlan _ _ _ => m != .safe
  | .readBooth _ _ => true
  | .readSlot _ _ => true
  | .storePreset _ => m != .safe
  | .recallPreset _ => m == .config || m == .live
  | .erasePreset _ => m != .safe
  | .setHouseWrite _ => true

namespace Chip

/-- The execution of a command that is answered by a reply, with the reads `rd` (R133, steps 4 and 6); ENGINE RESET, which
is not answered, leaves the chip to `deliverCommand`. -/
def run (rd : Reader) (x : Command) (c : Chip) : Chip × Answer :=
  match x with
  | .unknown code => (c, .check .unknownCommand code.toNat)
  | .status p => c.status p.toNat
  | .setModeLive m => c.onHall (Hall.setModeLive m.toNat)
  | .setModeConfig => c.onHall (Hall.setModeConfig rd)
  | .engineReset => (c, .plain)
  | .supervise e t l => c.onHall (Hall.supervise e.toNat t.toNat l.toNat)
  | .setEvents m => c.onHall (Hall.setEvents m)
  | .setTiming r s d => c.setTiming r.toNat s.toNat d.toNat
  | .loadDelegate u s r t k => c.onHall (Hall.loadDelegate rd u.toNat s.toNat r.toNat t.toNat k.toNat)
  | .removeDelegate u => c.onHall (Hall.removeDelegate rd u.toNat)
  | .readDelegate u p => c.onHall (Hall.readDelegate rd u.toNat p.toNat)
  | .setTimeClass k l w => c.onHall (Hall.setTimeClass rd k.toNat l.toNat w.toNat)
  | .grantFloor u => c.onHall (Hall.grantFloor rd u.toNat)
  | .closeFloor u => c.onHall (Hall.closeFloorOf rd u.toNat)
  | .clearFloor r s => c.onHall (Hall.clearFloorOf rd r.toNat s.toNat)
  | .setSectionFloor s m x q g k t =>
    c.onHall (Hall.setSectionFloor rd s.toNat m.toNat x.toNat q.toNat g.toNat k.toNat t.toNat)
  | .setWall w o => c.onHall (Hall.setWall rd w.toNat o.toNat)
  | .readRoom r => c.readRoom r.toNat
  | .setSectionLevels s l f u => c.onHall (Hall.setSectionLevels rd s.toNat l.toNat f.toNat u.toNat)
  | .setBooth b l m g => c.onHall (Hall.setBooth rd b.toNat l.toNat m.toNat g.toNat)
  | .setHomePlan s n cs => c.onHall (Hall.setHomePlan rd s.toNat n.toNat (cs.toList.map BitVec.toNat))
  | .readBooth b p => c.readBooth rd b.toNat p.toNat
  | .readSlot s n => c.onHall (Hall.readSlot s.toNat n.toNat)
  | .storePreset p => c.onHall (Hall.storePreset rd c.pins.houseWp p.toNat)
  | .recallPreset p => c.onHall (Hall.recallPreset rd p.toNat)
  | .erasePreset p => c.onHall (Hall.erasePreset c.pins.houseWp p.toNat)
  | .setHouseWrite e => c.onHall (Hall.setHouseWrite e.toNat)

/-- Queue the reply and bring the group mark up to date (R134, R137). -/
def answer (h : Hdr) (a : Answer) (c : Chip) : Chip :=
  { c with
    hall.cmd.replies := c.hall.cmd.replies ++ [⟨h.tag, a⟩]
    hall.cmd.groupFailed := h.link && (a.isCheck || c.hall.cmd.groupFailed) }

/-- Restart the supervision window (R143). -/
def restartWindow (c : Chip) : Chip :=
  { c with hall.cmd.supervision.window := 10 * c.hall.cmd.supervision.timeout }

/-- The deferred record becomes absent (R138). -/
def clearDeferred (c : Chip) : Chip := { c with hall.cmd.deferred := none }

/-- Steps 4 to 6 of R133. -/
def execute (h : Hdr) (x : Command) (c : Chip) : Chip :=
  if Command.taken c.hall.cmd.mode x then
    match x with
    | .engineReset => c.engineReset
    | x => (c.run reader x).1.answer h (c.run reader x).2
  else c.answer h (.check .wrongMode c.hall.cmd.mode.code)

/-- A delivered command (R133). -/
def deliverCommand (h : Hdr) (x : Command) (c : Chip) : Chip :=
  let c := c.restartWindow
  match c.hall.cmd.deferred with
  | some p => c.clearDeferred.answer h (.check .storeFailed p)
  | none => if c.hall.cmd.groupFailed then c.answer h (.check .groupAbandoned 0) else c.execute h x

end Chip

end Sys2Proof.Machine
end

