-- ==== Sys2Proof/Machine/Beats.lean ====
section
/-! DEFINITION. The steps that a frame makes due and their taking (R1, R26, R48, R94, R122, R123, R143). A frame's due
steps stand in `due`, in an order the rules allow; a row takes its step when it is due, and a step's own consequences
are due before those that waited (log 2). -/

namespace Sys2Proof.Machine.Chip

/-- Change the hall. -/
def onlyHall (f : Hall → Hall) (c : Chip) : Chip := { c with hall := f c.hall }

/-- Steps that a step brings about are due before the others. -/
def makeDue (ds : List Due) (c : Chip) : Chip := { c with due := ds ++ c.due }

/-! ## Single steps -/

/-- The closes that a ramp step reports: CLOSING units whose gain point stands at mute, ascending (R94). -/
def closesReported (h : Hall) : List Nat :=
  units.filter (fun u => (h.run u).state == .closing &&
    match (h.run u).slot with
    | some k => (tget h.gains.mics k).current == Config.mute
    | none => false)

/-- The reports of a ramp step, as due steps (R94). -/
def rampReports (h : Hall) : List Due :=
  (closesReported h).map Due.closeEnd ++ (if h.fadeOutDone then [.partitionChange] else []) ++
    (if h.fadeInDone then [.repartitionDone] else []) ++ (if h.cmd.mode = .stopping then [.stopping] else [])

/-- A ramp step: every gain point moves, and the Mix Engine reports (R93, R94). -/
def rampStep (c : Chip) : Chip :=
  let c := { c with hall.gains := c.hall.gains.ramp }
  c.makeDue (rampReports c.hall)

/-- One tick off a running gap timer (R26). -/
def gapTick (g : Option Nat) : Option Nat := g.map (· - 1)

/-- The rooms whose gap timers have run down, oldest head request first, rooms without a queue last (R26). -/
def gapsExpired (h : Hall) : List Nat :=
  let rs := sections.filter (fun r => h.gap r == some 0)
  h.oldestHeadFirst rs ++ rs.filter (fun r => (h.queue r).isEmpty)

/-- A tick at the Command Processor (R143). -/
def superviseTick (c : Chip) : Chip :=
  let v := c.hall.cmd.supervision
  if v.enabled = true ∧ 0 < v.window then { c with hall.cmd.supervision.window := v.window - 1 } else c

/-- Whether a tick that finds supervision `v` makes its window expire (R143). -/
def windowEnds (v : Supervision) : Bool := v.enabled && v.window == 1

/-- A tick at the Timebase's second counter, the Partition Unit, the Floor Controller and the Command Processor (R1, R26,
R122, R143). -/
def tick (c : Chip) : Chip :=
  let scans := decide (c.hall.part.scanInterval ≤ c.hall.part.scanTicks + 1)
  let seconds := decide (Config.ticksPerSecond ≤ c.time.sinceSecond + 1)
  let ends := windowEnds c.hall.cmd.supervision
  let c := { c with
    time.sinceSecond := if seconds then 0 else c.time.sinceSecond + 1
    hall.part.scanTicks := if scans then 0 else c.hall.part.scanTicks + 1
    hall.floor.gaps := tmapIdx c.hall.floor.gaps (fun _ => gapTick) }
  let c := c.superviseTick
  c.makeDue ((if ends then [.supervision] else []) ++ (if scans then [.scan] else []) ++
    (gapsExpired c.hall).map Due.gapExpiry ++ (if seconds then [.second] else []))

/-- A scan: every wall's debounce, then the flips, and with them the effective walls (R3, R4, R7). -/
def scan (c : Chip) : Chip :=
  let h := c.hall.each (List.range 7) (fun w => Hall.debounce w (wallReading c.pins.walls w))
  let ws := (List.range 7).filter h.flips
  let c := { c with hall := h }
  if ws = [] then c.onlyHall (Hall.computeWalls reader) else c.makeDue (ws.map Due.wallFlip)

/-- Whether a due step is a wall's flip. -/
def isFlip : Due → Bool
  | .wallFlip _ => true
  | _ => false

def isGap : Due → Bool
  | .gapExpiry _ => true
  | _ => false

def isCloseEnd : Due → Bool
  | .closeEnd _ => true
  | _ => false

/-- A wall flips; after the last flip of the scan the effective walls are computed (R4, R7). -/
def wallFlip (w : Nat) (c : Chip) : Chip :=
  let c := c.onlyHall (Hall.flipWall w)
  if c.due.any isFlip then c else c.onlyHall (Hall.computeWalls reader)

/-- The supervision window has run down (R143). -/
def supervisionExpired (c : Chip) : Chip :=
  let m := if c.hall.cmd.mode = .live then Mode.safe else c.hall.cmd.mode
  c.onlyHall (fun h => (h.post .supervisionExpired 0 (byte m.code) 0 0).enterSafe reader)

/-! ## Taking -/

/-- Take one step. -/
def runDue (d : Due) (c : Chip) : Chip :=
  match d with
  | .rampStep => c.rampStep
  | .window u => c.onlyHall (Hall.windowExpiry reader u)
  | .tick => c.tick
  | .supervision => c.supervisionExpired
  | .scan => c.scan
  | .wallFlip w => c.wallFlip w
  | .gapExpiry r => c.onlyHall (Hall.gapExpiry reader r)
  | .second => c.onlyHall (Hall.second reader)
  | .closeEnd u => c.onlyHall (Hall.closeEnd reader u)
  | .partitionChange => c.onlyHall (Hall.partitionChange reader)
  | .repartitionDone => c.onlyHall (Hall.repartitionDone reader)
  | .stopping => c.onlyHall (Hall.stoppingComplete reader)

/-- Take one step off the list and run it. -/
def takeOff (d : Due) (c : Chip) : Chip := { c with due := c.due.erase d }.runDue d

/-- Whether step `d` is due and in turn: flips, gap expiries and ends of closes are taken in the order of the rules, and
STOPPING is tested after the closes of its ramp step (R4, R26, R52, R141). -/
def inTurn (d : Due) (c : Chip) : Bool :=
  c.due.contains d &&
    match d with
    | .wallFlip _ => c.due.find? isFlip == some d
    | .gapExpiry _ => c.due.find? isGap == some d
    | .closeEnd _ => c.due.find? isCloseEnd == some d
    | .stopping => !c.due.any isCloseEnd
    | _ => true

/-- A ramp step that is due is taken before any other due step of its frame, before a good cell, and before any read that
could find damage (R90, log 3). -/
def settleRamp (c : Chip) : Chip := if c.due.contains .rampStep then c.takeOff .rampStep else c

/-- Before a cell is handled: a due ramp step, and the expiry that belongs to a tick already taken (R90, R143). -/
def settle (c : Chip) : Chip :=
  let c := c.settleRamp
  if c.due.contains .supervision then c.takeOff .supervision else c

/-- The row of step `d`: the step is taken when it is due and in turn; otherwise nothing changes (log 2). -/
def takeRow (d : Due) (c : Chip) : Chip :=
  let c := if d = .rampStep then c else c.settleRamp
  if c.inTurn d then c.takeOff d else c

/-- Take every due step, in order. -/
def drain : Nat → Chip → Chip
  | 0, c => c
  | n + 1, c =>
    match c.due with
    | [] => c
    | d :: _ => drain n (c.takeOff d)

/-- Take every due step: at most 24 windows, 24 ends of closes, 8 gaps, 7 flips and 8 single steps stand due at once. -/
def finish (c : Chip) : Chip := c.drain 128

end Sys2Proof.Machine.Chip
end

