-- ==== Sys2Proof/Machine/Mix.lean ====
section
/-! DEFINITION. The mix of one frame: inputs (R89), floor sums (R97), floor channels, language channels and feeds (R98 to
R100), fades and clipping (R102), the reads that R98 makes, and the slots that the chip writes (R77, R117). -/

namespace Sys2Proof.Machine

/-- The integer that a slot of the frame carries. -/
def Frame.sample (f : Frame) (slot : Nat) : Int := (tget f.slots slot).toInt

/-- An output before and after the clamp (R102). -/
structure Level where
  value : Int := 0
  clips : Bool := false
  deriving DecidableEq, Repr, Inhabited

/-- The output value of `s` through a fade point's index (R102). -/
def faded (s : Int) (fade : Nat) : Level := ⟨clampSample (sc s fade), decide (clampSample (sc s fade) ≠ sc s fade)⟩

namespace Hall

/-! ## Outputs -/

/-- What microphone slot k adds to room `r`'s floor sum (R97). -/
def micTerm (h : Hall) (f : Frame) (r k : Nat) : Int :=
  match tget h.slots.mics k with
  | none => 0
  | some u => if h.roomOfUnit u = r then sc (Frame.sample f (8 + k)) (tget h.gains.mics k).current else 0

/-- The floor sum of room `r` (R97). -/
def floorSum (h : Hall) (f : Frame) (r : Nat) : Int := (List.range 24).foldl (fun a k => a + h.micTerm f r k) 0

/-- The sample of booth `b`, when its output claim holds a slot (R89). -/
def boothSample (h : Hall) (f : Frame) (b : Nat) : Int :=
  match (h.boothRun b).outSlot with
  | none => 0
  | some s => Frame.sample f s

/-- Booth `b`'s interpretation at its gain (R99, R100). -/
def boothLevel (h : Hall) (f : Frame) (b : Nat) : Int := sc (h.boothSample f b) (h.booth b).gain

/-- The floor channel of a room with floor sum `sum` (R98). -/
def floorLevel (h : Hall) (r : Nat) (sum : Int) : Int := sc sum (h.settings r).level

/-- Language channel `c` of room `r` (R99). -/
def channelLevel (h : Hall) (f : Frame) (r c : Nat) (sum : Int) : Int :=
  match h.channelSource r c with
  | some b => h.boothLevel f b + sc sum (h.settings r).underlay
  | none => sc sum (h.settings r).fill

/-- The booth that booth `b`'s feed carries, if its relay in force is on air with a slot (R100). -/
def feedSource (h : Hall) (b : Nat) : Option Nat :=
  match (h.boothRun b).relay with
  | .floor => none
  | .booth t => if h.effective t = .onAir ∧ ((h.boothRun t).outSlot).isSome then some t else none

/-- The feed of booth `b` whose room has floor sum `sum` (R100). -/
def feedLevel (h : Hall) (f : Frame) (b : Nat) (sum : Int) : Int :=
  match h.feedSource b with
  | some t => h.boothLevel f t
  | none => h.floorLevel (h.roomOfBooth b) sum

/-- The output of channel `c` of room id `r`: held 0 when it is not computed (R90). -/
def roomOutput (h : Hall) (f : Frame) (sums : Vector Int 8) (r c : Nat) : Level :=
  if isRoomId h.part.inForce r && decide (c ≤ (h.plan r).length) then
    faded (if c = 0 then h.floorLevel r (tget sums r) else h.channelLevel f r c (tget sums r))
      (tget h.gains.rooms (9 * r + c)).current
  else {}

/-- The feed of booth `b`: held 0 while it is OFF (R90). -/
def boothOutput (h : Hall) (f : Frame) (sums : Vector Int 8) (b : Nat) : Level :=
  if h.effective b = .off then {}
  else faded (h.feedLevel f b (tget sums (h.roomOfBooth b))) (tget h.gains.booths b).current

/-- The outputs that the hall `h` gives the frame; markers already set stay set (R90, R102). -/
def mix (h : Hall) (f : Frame) (o : Outputs) : Outputs :=
  let sums : Vector Int 8 := tmake 8 (h.floorSum f)
  let rs : Vector Level 72 := tmake 72 (fun i => h.roomOutput f sums (i / 9) (i % 9))
  let bs : Vector Level 16 := tmake 16 (h.boothOutput f sums)
  { rooms := tmake 72 (fun i => (tget rs i).value)
    booths := tmake 16 (fun b => (tget bs b).value)
    roomClips := tmapIdx o.roomClips (fun i m => m || (tget rs i).clips)
    boothClips := tmapIdx o.boothClips (fun b m => m || (tget bs b).clips) }

/-! ## The reads of a computation -/

/-- The reads of a computation, with their owners' reactions: the settings of the rooms in force for the levels (R98), and
the booth records for gains, rooms and effective states (R58, R98 to R100). R98 and R153 give these reads no order; the
model takes the rooms ascending and then the booths ascending (the model's choice, log 41). -/
def readLevels (rd : Reader) (h : Hall) : Hall := (h.readAll rd.settings h.rooms).readBooths rd

/-! ## Slots written -/

/-- The held output that the slot map writes into a slot, if it writes there (R77). -/
def written (h : Hall) (o : Outputs) (slot : Nat) : Option Int :=
  if 32 ≤ slot ∧ slot < 40 then
    if tget h.slots.floorActive (slot - 32) then some (tget o.rooms (9 * (slot - 32))) else none
  else if 40 ≤ slot then
    match tget h.slots.pool (slot - 40) with
    | some (.language r c) => some (tget o.rooms (9 * r + c))
    | some (.feed b) => some (tget o.booths b)
    | _ => none
  else none

/-- The slots of the frame as they leave at RING_OUT (R117). -/
def slotsOut (h : Hall) (o : Outputs) (f : Frame) : Vector Sample 128 :=
  tmapIdx f.slots (fun i x => match h.written o i with
    | some v => BitVec.ofInt 24 v
    | none => x)

end Hall

end Sys2Proof.Machine
end

