-- ==== Sys2Proof/Machine/Cells.lean ====
section
/-! DEFINITION. The cells the chip places (R129, Tables 8.5 to 8.9): UNIT STATE (R44, R46), REPLY (R135), BOOTH NOTICE
(R71), CHANNEL NOTICE (R72), EVENT, and the Transmit Arbiter that chooses among them (R127, R128). -/

namespace Sys2Proof.Machine

/-- A cell of the chip: destination, type, byte 4 and payload (R129). -/
def outCell (dest type tag : Byte) (payload : List Byte) : Cell := sealCell ([1, dest, 0xFE, type, tag] ++ payload)

/-- The cell of a reply (Table 8.8). -/
def Reply.cell (x : Reply) : Cell :=
  match x.answer with
  | .good q info d =>
    outCell 0xF0 0x81 x.tag [0, q.code, 0, highByte info, lowByte info, d.d0, d.d1, d.d2, d.d3]
  | .check s info => outCell 0xF0 0x81 x.tag [1, s.key, s.code, highByte info, lowByte info, 0, 0, 0, 0]

/-- The cell of an event (Table 8.8). -/
def Event.cell (e : Event) : Cell :=
  outCell 0xF0 0x85 0 [e.kind.code, e.subject, e.ts.extractLsb' 24 8, e.ts.extractLsb' 16 8, e.ts.extractLsb' 8 8,
    e.ts.extractLsb' 0 8, e.d0, e.d1, e.d2]

namespace Hall

/-- The remaining seconds of a unit (R46). -/
def remaining (h : Hall) (u : Nat) : Nat :=
  let d := h.run u
  let l := (h.timeClass (h.loaded u).timeClass).limit
  if h.isChair u || l == 0 then 0xFFFF
  else if d.state = .speaking ∨ d.state = .closing then l - d.seconds
  else l

/-- The UNIT STATE cell of a unit (R44). -/
def unitCell (h : Hall) (u : Nat) : Cell :=
  let d := h.run u
  outCell (byte u) 0x82 (byte d.grantId.toNat)
    [d.state.cellCode, slotByte (if h.isHolder u then d.slot.map (8 + ·) else none), byte (h.queuePosition u),
      indicationCode d.indication, highByte (h.remaining u), lowByte (h.remaining u), 0, 0, 0]

/-- The BOOTH NOTICE cell of a booth (R71). -/
def boothCell (h : Hall) (b : Nat) : Cell :=
  let x := h.boothRun b
  outCell (byte (0xD0 + b)) 0x83 0
    [byte (h.effective b).code, x.assignment.code, byte (h.roomOfBooth b), slotByte x.outSlot, slotByte x.feedSlot,
      x.relay.code, byte (flag (h.relayRefused b)), 0, 0]

/-- The CHANNEL NOTICE cell of channel `c` of section `s` (R72, Table 4.4). -/
def channelCell (h : Hall) (s c : Nat) : Cell :=
  let r := h.roomOfSection s
  let head := [byte s, byte r, byte c]
  outCell (byte (0xE0 + s)) 0x84 0
    (if c = 0 then head ++ [0, byte (32 + r), 0, 0xFF, 0, 0]
    else match (h.plan r)[c - 1]? with
      | none => head ++ [0, 0xFF, 3, 0xFF, 0, 0]
      | some l =>
        match h.channelSource r c with
        | some b => head ++ [byte l, slotByte (h.channelSlot r c), 1, byte b, 0, 0]
        | none => head ++ [byte l, slotByte (h.channelSlot r c), 2, 0xFF, 0, 0])

/-! ## The arbiter's sources -/

/-- The marked units, ascending. -/
def markedUnits (h : Hall) : List Nat := units.filter (fun u => tget h.floor.dirty (unitIndex u))

/-- The marked unit that round robin chooses above `pointer` (R128). -/
def nextUnit (h : Hall) (pointer : Nat) : Option Nat :=
  match h.markedUnits.find? (fun u => decide (pointer < u)) with
  | some u => some u
  | none => h.markedUnits.head?

/-- The reads that a UNIT STATE cell makes: the delegate record, and the class record where the cell shows its limit. -/
def readUnit (rd : Reader) (u : Nat) (h : Hall) : Hall :=
  let h := rd.delegate u h
  if h.known u && !h.isChair u then rd.timeClass (h.loaded u).timeClass h else h

/-- What placing a UNIT STATE cell does to its unit: mark and indication removed, and the response window of a GRANTING
unit started, at whatever count it stood (R44, R48; for one that has run down at this frame see log 25). -/
def unitPlaced (u : Nat) (h : Hall) : Hall :=
  (h.setRun u (fun d => { d with
    indication := none
    window := if d.state = .granting then some Config.responseWindow else d.window })).unmark u

/-- A unit whose UNIT STATE cell can be placed, after its reads: a record found damaged loses its mark, and the choice is
made again, at most `n` times (R42, R127, log 23). -/
def chooseUnit (rd : Reader) (pointer : Nat) : Nat → Hall → Hall × Option Nat
  | 0, h => (h, none)
  | n + 1, h =>
    match h.nextUnit pointer with
    | none => (h, none)
    | some u =>
      let h' := h.readUnit rd u
      if tget h'.floor.dirty (unitIndex u) then (h', some u) else chooseUnit rd pointer n h'

def unmarkBooth (b : Nat) (h : Hall) : Hall := { h with router.boothDirty := tset h.router.boothDirty b false }

def unmarkChannel (i : Nat) (h : Hall) : Hall := { h with router.channelDirty := tset h.router.channelDirty i false }

/-- The lowest marked entry of a dirty set. -/
def firstMark {n : Nat} (t : Vector Bool n) : Option Nat := (List.range n).find? (fun i => tget t i)

def popReply (h : Hall) : Hall := { h with cmd.replies := h.cmd.replies.tail }

def popEvent (h : Hall) : Hall := { h with events.events := h.events.events.tail }

/-- The reads that a CHANNEL NOTICE cell makes: the booth records, by which the lead of the channel's language and its state
are found (R58, R72). A notice of channel 0 or of a channel above the plan asks for no booth. -/
def readChannel (rd : Reader) (s c : Nat) (h : Hall) : Hall :=
  if 1 ≤ c ∧ c ≤ (h.plan (h.roomOfSection s)).length then h.readBooths rd else h

/-- The Transmit Arbiter's sources 2 to 5 (Table 8.5): the hall after the placement and the cell, if there is one. The
records of a notice are read at its placement (R71, R72); a finding there leaves the choice of the cell as it was made
(the model's choice, log 45). -/
def placeOther (rd : Reader) (h : Hall) : Hall × Option Cell :=
  match h.cmd.replies with
  | x :: _ => (h.popReply, some x.cell)
  | [] =>
    match firstMark h.router.boothDirty with
    | some b =>
      let h := rd.booth b h
      (h.unmarkBooth b, some (h.boothCell b))
    | none =>
      match firstMark h.router.channelDirty with
      | some i =>
        let h := h.readChannel rd (i / 9) (i % 9)
        (h.unmarkChannel i, some (h.channelCell (i / 9) (i % 9)))
      | none =>
        match h.events.events with
        | e :: _ => (h.popEvent, some e.cell)
        | [] => (h, none)

end Hall

/-- What the Transmit Arbiter places: the hall, the round-robin pointer and the cell, if any (R127, R128). -/
structure Placement where
  hall    : Hall
  pointer : Nat
  cell    : Option Cell

/-- The Transmit Arbiter at an empty lane cell (R127). -/
def Hall.place (rd : Reader) (pointer : Nat) (h : Hall) : Placement :=
  let x := h.chooseUnit rd pointer 192
  match x.2 with
  | some u => ⟨x.1.unitPlaced u, u, some (x.1.unitCell u)⟩
  | none => ⟨(x.1.placeOther rd).1, pointer, (x.1.placeOther rd).2⟩

end Sys2Proof.Machine
end

