-- ==== Sys2Proof/Machine/Ring.lean ====
section
/-! DEFINITION. The Ring Port: delivery of good cells (R126), the lane cell of a processed frame (R124 to R127), lock (R119
to R121), the counters a processed frame moves (R118, R122, R123), and the arrival of a frame (R117). -/

namespace Sys2Proof.Machine.Chip

/-! ## Cells -/

/-- Whether the port is LOCKED. -/
def locked (c : Chip) : Bool := c.ring.lock == .locked

/-- The lane error count rises (R125). -/
def laneError (c : Chip) : Chip := { c with ring.laneErrors := min (c.ring.laneErrors + 1) Config.count16 }

/-- A good cell is handled by its owner (R126). -/
def deliver (m : InCell) (c : Chip) : Chip :=
  match m with
  | .micPress u => c.onlyHall (Hall.fromUnit reader 0x02 (Hall.micPress reader) u.toNat)
  | .priorityPress u => c.onlyHall (Hall.fromUnit reader 0x02 (Hall.priorityPress reader) u.toNat)
  | .unitTaken u g => c.onlyHall (Hall.fromUnit reader 0x03 (Hall.taken reader g.toNat) u.toNat)
  | .boothReport b s r =>
    c.onlyHall (Hall.boothReport reader (b.toNat - 0xD0) (boothStateOf s.toNat) (relayOf r))
  | .command h x => c.deliverCommand h x

/-- Whether a good cell is left in the lane: a COMMAND that finds the reply queue full (R126). -/
def leftInLane (m : InCell) (c : Chip) : Bool :=
  match m with
  | .command _ _ => decide (Config.replyPlaces ≤ c.hall.cmd.replies.length)
  | _ => false

/-- The row of a cell: the cell is handled when the port is LOCKED and the cell is one it takes; a malformed one is
discarded (R124 to R126, logs 4, 5, 30). -/
def cellRow (m : InCell) (c : Chip) : Chip :=
  if c.locked then
    if m.good = false then c.laneError
    else if m.spelled = false ∨ c.leftInLane m = true then c
    else c.settle.deliver m
  else c

/-- The row of a COMMAND cell. -/
def commandRow (h : Hdr) (x : Command) (c : Chip) : Chip := c.cellRow (.command h x)

/-! ## The lane -/

/-- A cell that has been consumed: occupancy 0, the other bytes as they came (section 8.4, log 24). -/
def emptied (x : Cell) : Cell := tset x 0 0

/-- The Transmit Arbiter is offered the empty cell `x` (R127): the chip and the cell that leaves. -/
def arbiter (x : Cell) (c : Chip) : Chip × Cell :=
  let p := c.hall.place reader c.ring.pointer
  ({ c with hall := p.hall, ring.pointer := p.pointer }, p.cell.getD x)

/-- The lane cell of a processed frame (R124 to R127): the chip and the cell that leaves. Where the lane comes before the due
steps (`cellFirst`), a good cell still has the due ramp step taken before it, and so has every placement whose reads could find
damage (`compute`); any other placement touches no gain point. -/
def lane (x : Cell) (c : Chip) : Chip × Cell :=
  if tget x 0 = 0 then c.arbiter x
  else if tget x 1 ≠ 0xFE then (if tget x 2 = 0xFE then c.arbiter (emptied x) else (c, x))
  else match decodeCell x with
    | none => c.laneError.arbiter (emptied x)
    | some m =>
      if c.leftInLane m then (c, x)
      else
        let c := c.settle.deliver m
        if c.locked then c.arbiter (emptied x) else (c, emptied x)

/-! ## Lock -/

def setRing (r : RingPort) (c : Chip) : Chip := { c with ring := r }

/-- Three nominal periods without a frame marker: LOCKED becomes LOST with RING LOST (R120). -/
def loseRing (c : Chip) : Chip :=
  (c.setRing { c.ring with lock := .lost, run := 0 }).onlyHall (Hall.post .ringLost 0 0 0 0)

/-- The run count returns to 0 (R119). -/
def clearRun (c : Chip) : Chip := c.setRing { c.ring with run := 0 }

/-- The row RING_LOST: in LOCKED the port becomes LOST (R120). The steps of the last frame are taken first.
For the time since the last marker see log 53. -/
def ringLost (c : Chip) : Chip :=
  if c.locked then
    let c := c.finish.loseRing
    c.setRing { c.ring with sinceMarker := some Config.threePeriods }
  else c

/-- The row RUN_COUNT_CLEARED: in SEARCHING and LOST a run loses its next arrival (R119). The time since the last marker stands
at three nominal periods after it, also where no marker has yet been seen: there this is the model's choice (log 53). -/
def runCountCleared (c : Chip) : Chip :=
  if c.locked then c else c.setRing { c.ring with run := 0, sinceMarker := some Config.threePeriods }

/-- A frame marker after `gap` reference clock periods: more than three nominal periods have ended lock or run before it
(R119, R120). -/
def marker (gap : Nat) (c : Chip) : Chip :=
  let c := if c.ring.sinceMarker.isSome ∧ Config.threePeriods < gap then (if c.locked then c.loseRing else c.clearRun)
    else c
  c.setRing { c.ring with sinceMarker := some 0 }

/-- What relock from LOST marks and posts (R121). -/
def relock (c : Chip) : Chip :=
  c.onlyHall (fun h => ((h.markKnown).markAllNotices).post .ringLocked 0 0 0 0)

/-! ## Processed frames -/

/-- The running response windows fall by one (R48). -/
def windowTick (w : Option Nat) : Option Nat := w.map (· - 1)

/-- The units whose response window has run down, ascending (R48). -/
def windowsEnded (h : Hall) : List Nat := units.filter (fun u => (h.run u).window == some 0)

/-- The counters that a processed frame moves, and the steps they make due: the ramp step, the windows that run down, the
tick (R48, R118, R122, R123). -/
def count (c : Chip) : Chip :=
  let ticks := decide (Config.framesPerTick ≤ c.time.sinceTick + 1)
  let ramps := decide (c.time.rampInterval ≤ c.time.sinceRamp + 1)
  let c := { c with
    hall.frameCounter := c.hall.frameCounter + 1
    hall.floor.runs := tmapIdx c.hall.floor.runs (fun _ d => { d with window := windowTick d.window })
    time.sinceTick := if ticks then 0 else c.time.sinceTick + 1
    time.sinceRamp := if ramps then 0 else c.time.sinceRamp + 1 }
  c.makeDue ((if ramps then [.rampStep] else []) ++ (windowsEnded c.hall).map Due.window ++ (if ticks then [.tick] else []))

/-- The hall that the mix of this frame computes with: as it stands, with the gains of a due ramp step (R90, log 3). -/
def heard (c : Chip) : Hall :=
  if c.due.contains .rampStep then { c.hall with gains := c.hall.gains.ramp } else c.hall

/-- The mix of a processed frame: the levels are read, and the outputs computed from the hall as it stood with the values
read (R90, R98, log 22). Where a read of the frame could find damage, and an owner's reaction so set gain targets, a due ramp
step is taken before the first read: the reads of the computation, and those of the placement at the lane cell (R90, step 1).
Where no read can find damage, neither touches a gain point. -/
def compute (f : Frame) (c : Chip) : Chip :=
  let h := c.heard
  let c := if c.hall.mem.undamaged then c else c.settleRamp
  let c := c.onlyHall (Hall.readLevels reader)
  { c with outs := Hall.mix { h with mem := c.hall.mem } f c.outs }

/-- A processed frame (R117). -/
def process (a : Arrival) (c : Chip) : Chip :=
  let slots := c.hall.slotsOut c.outs a.frame
  let c := c.compute a.frame
  let c := if a.cellFirst then c else c.finish
  let x := c.lane a.frame.lane
  { x.1 with ringOut := some ⟨slots, x.2⟩ }

/-- What comes in beside a frame: pin levels, memory errors, and the reference clock periods that a programming has run
(R155; logs 6, 7, 11). -/
def latch (a : Arrival) (c : Chip) : Chip :=
  let spend := fun x : Programming => { x with remaining := x.remaining - a.gap }
  { c with
    pins := a.pins
    hall.mem := a.upsets.foldl TableMemory.strike c.hall.mem
    hall.store.programming := c.hall.store.programming.map spend }

/-- The run count of R119 reaches 16: the port is LOCKED and its first frame is counted; from LOST it relocks (R121). R121's
marks and RING LOCKED come right after the count, before the computation, the lane cell and the due steps of that frame (the
model's choice, log 50). -/
def acquire (c : Chip) : Chip :=
  let lost := c.ring.lock == .lost
  let c := (c.setRing { c.ring with lock := .locked, run := 0 }).count
  if lost then c.relock else c

/-- The arrival of a frame (R117, R119). -/
def frameArrival (a : Arrival) (c : Chip) : Chip :=
  let c := (c.finish.latch a).marker a.gap
  if c.locked then c.count.process a
  else if Config.lockRun ≤ c.ring.run + 1 then c.acquire.process a
  else { c.setRing { c.ring with run := c.ring.run + 1 } with ringOut := some a.frame }

end Sys2Proof.Machine.Chip
end

