-- ==== Sys2Proof/Machine/ExecRing.lean ====
section
/-! DEFINITION. Meanings of the rows of the ring: HARD_RESET, FRAME_ARRIVAL, RING_LOST, RUN_COUNT_CLEARED. -/

namespace Sys2Proof.Machine

/-- The state with its chip changed; the queue of waiting commands is left to `step`. -/
def State.onChip (f : Chip → Chip) (s : State) : State := { s with chip := f s.chip }

/-- HARD_RESET: RESET_N has been held low, or power has come up; `pins` are the input lines at its end (R2, R11, R161). -/
def execHardReset (pins : Pins) (s : State) : Host.Outcome State Fault Refusal :=
  .next (s.onChip (Chip.hardReset pins))

/-- FRAME_ARRIVAL (R117, R119). -/
def execFrameArrival (a : Arrival) (s : State) : Host.Outcome State Fault Refusal :=
  .next (s.onChip (Chip.frameArrival a))

/-- RING_LOST (R120). -/
def execRingLost (s : State) : Host.Outcome State Fault Refusal :=
  .next (s.onChip (Chip.ringLost))

/-- RUN_COUNT_CLEARED (R119). -/
def execRunCountCleared (s : State) : Host.Outcome State Fault Refusal :=
  .next (s.onChip (Chip.runCountCleared))

end Sys2Proof.Machine
end

