-- ==== Sys2Proof/Machine/ExecCommands.lean ====
section
/-! DEFINITION. Meanings of the rows that are COMMAND cells (R126, R133). -/

namespace Sys2Proof.Machine

/-- UNKNOWN_COMMAND (R133). -/
def execUnknownCommand (h : Hdr) (code : BitVec 7) (s : State) : Host.Outcome State Fault Refusal :=
  .next (s.onChip (Chip.commandRow h (.unknown code)))

/-- STATUS (R146). -/
def execStatus (h : Hdr) (part : Byte) (s : State) : Host.Outcome State Fault Refusal :=
  .next (s.onChip (Chip.commandRow h (.status part)))

/-- SET_MODE_LIVE (R140). -/
def execSetModeLive (h : Hdr) (mode : Byte) (s : State) : Host.Outcome State Fault Refusal :=
  .next (s.onChip (Chip.commandRow h (.setModeLive mode)))

/-- SET_MODE_CONFIG (R141). -/
def execSetModeConfig (h : Hdr) (s : State) : Host.Outcome State Fault Refusal :=
  .next (s.onChip (Chip.commandRow h .setModeConfig))

/-- ENGINE_RESET (R148). -/
def execEngineReset (h : Hdr) (s : State) : Host.Outcome State Fault Refusal :=
  .next (s.onChip (Chip.commandRow h .engineReset))

/-- SUPERVISE (R144). -/
def execSupervise (h : Hdr) (enable timeout lock : Byte) (s : State) : Host.Outcome State Fault Refusal :=
  .next (s.onChip (Chip.commandRow h (.supervise enable timeout lock)))

/-- SET_EVENTS (R152). -/
def execSetEvents (h : Hdr) (mask : Byte) (s : State) : Host.Outcome State Fault Refusal :=
  .next (s.onChip (Chip.commandRow h (.setEvents mask)))

/-- SET_TIMING (R145). -/
def execSetTiming (h : Hdr) (ramp scan debounce : Byte) (s : State) : Host.Outcome State Fault Refusal :=
  .next (s.onChip (Chip.commandRow h (.setTiming ramp scan debounce)))

/-- LOAD_DELEGATE (R20). -/
def execLoadDelegate (h : Hdr) (unit sect role trim cls : Byte) (s : State) : Host.Outcome State Fault Refusal :=
  .next (s.onChip (Chip.commandRow h (.loadDelegate unit sect role trim cls)))

/-- REMOVE_DELEGATE (R21). -/
def execRemoveDelegate (h : Hdr) (unit : Byte) (s : State) : Host.Outcome State Fault Refusal :=
  .next (s.onChip (Chip.commandRow h (.removeDelegate unit)))

/-- READ_DELEGATE (R22). -/
def execReadDelegate (h : Hdr) (unit part : Byte) (s : State) : Host.Outcome State Fault Refusal :=
  .next (s.onChip (Chip.commandRow h (.readDelegate unit part)))

/-- SET_TIME_CLASS (R54). -/
def execSetTimeClass (h : Hdr) (cls : Byte) (limit : BitVec 16) (lead : Byte)
    (s : State) : Host.Outcome State Fault Refusal :=
  .next (s.onChip (Chip.commandRow h (.setTimeClass cls limit lead)))

/-- GRANT_FLOOR (R33). -/
def execGrantFloor (h : Hdr) (unit : Byte) (s : State) : Host.Outcome State Fault Refusal :=
  .next (s.onChip (Chip.commandRow h (.grantFloor unit)))

/-- CLOSE_FLOOR (R34). -/
def execCloseFloor (h : Hdr) (unit : Byte) (s : State) : Host.Outcome State Fault Refusal :=
  .next (s.onChip (Chip.commandRow h (.closeFloor unit)))

/-- CLEAR_FLOOR (R35). -/
def execClearFloor (h : Hdr) (room scope : Byte) (s : State) : Host.Outcome State Fault Refusal :=
  .next (s.onChip (Chip.commandRow h (.clearFloor room scope)))

/-- SET_SECTION_FLOOR (R13). -/
def execSetSectionFloor (h : Hdr) (sect floorMode speakers queueLimit gap chair time : Byte)
    (s : State) : Host.Outcome State Fault Refusal :=
  .next (s.onChip (Chip.commandRow h (.setSectionFloor sect floorMode speakers queueLimit gap chair time)))

/-- SET_WALL (R8). -/
def execSetWall (h : Hdr) (wall ovr : Byte) (s : State) : Host.Outcome State Fault Refusal :=
  .next (s.onChip (Chip.commandRow h (.setWall wall ovr)))

/-- READ_ROOM (R147). -/
def execReadRoom (h : Hdr) (room : Byte) (s : State) : Host.Outcome State Fault Refusal :=
  .next (s.onChip (Chip.commandRow h (.readRoom room)))

/-- SET_SECTION_LEVELS (R14). -/
def execSetSectionLevels (h : Hdr) (sect level fill underlay : Byte) (s : State) : Host.Outcome State Fault Refusal :=
  .next (s.onChip (Chip.commandRow h (.setSectionLevels sect level fill underlay)))

/-- SET_BOOTH (R60). -/
def execSetBooth (h : Hdr) (booth language home gain : Byte) (s : State) : Host.Outcome State Fault Refusal :=
  .next (s.onChip (Chip.commandRow h (.setBooth booth language home gain)))

/-- SET_HOME_PLAN (R62). -/
def execSetHomePlan (h : Hdr) (sect length : BitVec 4) (codes : Vector (BitVec 6) 8)
    (s : State) : Host.Outcome State Fault Refusal :=
  .next (s.onChip (Chip.commandRow h (.setHomePlan sect length codes)))

/-- READ_BOOTH (R61). -/
def execReadBooth (h : Hdr) (booth part : Byte) (s : State) : Host.Outcome State Fault Refusal :=
  .next (s.onChip (Chip.commandRow h (.readBooth booth part)))

/-- READ_SLOT (R88). -/
def execReadSlot (h : Hdr) (selector number : Byte) (s : State) : Host.Outcome State Fault Refusal :=
  .next (s.onChip (Chip.commandRow h (.readSlot selector number)))

/-- STORE_PRESET (R156). -/
def execStorePreset (h : Hdr) (preset : Byte) (s : State) : Host.Outcome State Fault Refusal :=
  .next (s.onChip (Chip.commandRow h (.storePreset preset)))

/-- RECALL_PRESET (R160). -/
def execRecallPreset (h : Hdr) (preset : Byte) (s : State) : Host.Outcome State Fault Refusal :=
  .next (s.onChip (Chip.commandRow h (.recallPreset preset)))

/-- ERASE_PRESET (R158). -/
def execErasePreset (h : Hdr) (preset : Byte) (s : State) : Host.Outcome State Fault Refusal :=
  .next (s.onChip (Chip.commandRow h (.erasePreset preset)))

/-- SET_HOUSE_WRITE (R159). -/
def execSetHouseWrite (h : Hdr) (enable : Byte) (s : State) : Host.Outcome State Fault Refusal :=
  .next (s.onChip (Chip.commandRow h (.setHouseWrite enable)))

end Sys2Proof.Machine
end

