-- ==== Sys2Proof/Machine/ExecTime.lean ====
section
/-! DEFINITION. Meanings of the rows that the chip's own time brings: beats, wall flips, the repartition's ends, closes, gaps,
windows, supervision and programming. -/

namespace Sys2Proof.Machine

/-- TICK: the tick that the frame made due (R122, R1, R26, R143). -/
def execTick (s : State) : Host.Outcome State Fault Refusal :=
  .next (s.onChip (Chip.takeRow .tick))

/-- SECOND (R122, R55, R56). -/
def execSecond (s : State) : Host.Outcome State Fault Refusal :=
  .next (s.onChip (Chip.takeRow .second))

/-- RAMP_STEP (R123, R93, R94). -/
def execRampStep (s : State) : Host.Outcome State Fault Refusal :=
  .next (s.onChip (Chip.takeRow .rampStep))

/-- SCAN (R1, R3, R7). -/
def execScan (s : State) : Host.Outcome State Fault Refusal :=
  .next (s.onChip (Chip.takeRow .scan))

/-- WALL_CHANGED: the flip of a wall (R4, R7). -/
def execWallChanged (wall : Nat) (s : State) : Host.Outcome State Fault Refusal :=
  .next (s.onChip (Chip.takeRow (.wallFlip wall)))

/-- PARTITION_CHANGE_EVENT at the end of the fade-out (R109, R110). -/
def execPartitionChangeEvent (s : State) : Host.Outcome State Fault Refusal :=
  .next (s.onChip (Chip.takeRow .partitionChange))

/-- REPARTITION_DONE at the end of the fade-in (R111). -/
def execRepartitionDone (s : State) : Host.Outcome State Fault Refusal :=
  .next (s.onChip (Chip.takeRow .repartitionDone))

/-- STOPPING_COMPLETE: the test of R141 at a ramp step in STOPPING. -/
def execStoppingComplete (s : State) : Host.Outcome State Fault Refusal :=
  .next (s.onChip (Chip.takeRow .stopping))

/-- CLOSE_END: a CLOSING unit's gain point stands at mute (R52). -/
def execCloseEnd (unit : Nat) (s : State) : Host.Outcome State Fault Refusal :=
  .next (s.onChip (Chip.takeRow (.closeEnd unit)))

/-- GAP_EXPIRY (R26). -/
def execGapExpiry (room : Nat) (s : State) : Host.Outcome State Fault Refusal :=
  .next (s.onChip (Chip.takeRow (.gapExpiry room)))

/-- RESPONSE_WINDOW_EXPIRY (R48, R49). -/
def execResponseWindowExpiry (unit : Nat) (s : State) : Host.Outcome State Fault Refusal :=
  .next (s.onChip (Chip.takeRow (.window unit)))

/-- SUPERVISION_EXPIRED (R143). -/
def execSupervisionExpired (s : State) : Host.Outcome State Fault Refusal :=
  .next (s.onChip (Chip.takeRow .supervision))

/-- STORE_COMPLETE: the 60 ms of a store have run (R157). -/
def execStoreComplete (readBackMatches : Bool) (s : State) : Host.Outcome State Fault Refusal :=
  .next (s.onChip (Chip.onlyHall (Hall.storeComplete readBackMatches)))

/-- ERASE_COMPLETE: the 20 ms of an erase have run (R157). -/
def execEraseComplete (readsClear : Bool) (s : State) : Host.Outcome State Fault Refusal :=
  .next (s.onChip (Chip.onlyHall (Hall.eraseComplete readsClear)))

end Sys2Proof.Machine
end

