-- ==== Sys2Proof/Machine/ExecUnits.lean ====
section
/-! DEFINITION. Meanings of the rows that are cells of units and booths (R126). -/

namespace Sys2Proof.Machine

/-- MIC_PRESS (R27 to R30, R36). -/
def execMicPress (unit : Byte) (s : State) : Host.Outcome State Fault Refusal :=
  .next (s.onChip (Chip.cellRow (.micPress unit)))

/-- PRIORITY_PRESS (R30, R31, R36). -/
def execPriorityPress (unit : Byte) (s : State) : Host.Outcome State Fault Refusal :=
  .next (s.onChip (Chip.cellRow (.priorityPress unit)))

/-- UNIT_TAKEN (R50, R51). -/
def execUnitTaken (unit grantId : Byte) (s : State) : Host.Outcome State Fault Refusal :=
  .next (s.onChip (Chip.cellRow (.unitTaken unit grantId)))

/-- BOOTH_REPORT (R68). -/
def execBoothReport (source state relay : Byte) (s : State) : Host.Outcome State Fault Refusal :=
  .next (s.onChip (Chip.cellRow (.boothReport source state relay)))

end Sys2Proof.Machine
end

