-- ==== Sys2Proof/Machine/Dispatch.lean ====
section
/-! DEFINITION. The meaning of every command, one arm for each constructor of Instr. -/

namespace Sys2Proof.Machine

def exec (i : Instr) (s : State) : Host.Outcome State Fault Refusal :=
  match i with
  | .hardReset pins => Sys2Proof.Machine.execHardReset pins s
  | .frameArrival a => Sys2Proof.Machine.execFrameArrival a s
  | .ringLost => Sys2Proof.Machine.execRingLost s
  | .runCountCleared => Sys2Proof.Machine.execRunCountCleared s
  | .tick => Sys2Proof.Machine.execTick s
  | .second => Sys2Proof.Machine.execSecond s
  | .rampStep => Sys2Proof.Machine.execRampStep s
  | .scan => Sys2Proof.Machine.execScan s
  | .wallChanged wall => Sys2Proof.Machine.execWallChanged wall s
  | .partitionChangeEvent => Sys2Proof.Machine.execPartitionChangeEvent s
  | .repartitionDone => Sys2Proof.Machine.execRepartitionDone s
  | .stoppingComplete => Sys2Proof.Machine.execStoppingComplete s
  | .closeEnd unit => Sys2Proof.Machine.execCloseEnd unit s
  | .gapExpiry room => Sys2Proof.Machine.execGapExpiry room s
  | .responseWindowExpiry unit => Sys2Proof.Machine.execResponseWindowExpiry unit s
  | .supervisionExpired => Sys2Proof.Machine.execSupervisionExpired s
  | .storeComplete readBackMatches => Sys2Proof.Machine.execStoreComplete readBackMatches s
  | .eraseComplete readsClear => Sys2Proof.Machine.execEraseComplete readsClear s
  | .micPress unit => Sys2Proof.Machine.execMicPress unit s
  | .priorityPress unit => Sys2Proof.Machine.execPriorityPress unit s
  | .unitTaken unit grantId => Sys2Proof.Machine.execUnitTaken unit grantId s
  | .boothReport source state relay => Sys2Proof.Machine.execBoothReport source state relay s
  | .unknownCommand h code => Sys2Proof.Machine.execUnknownCommand h code s
  | .status h part => Sys2Proof.Machine.execStatus h part s
  | .setModeLive h mode => Sys2Proof.Machine.execSetModeLive h mode s
  | .setModeConfig h => Sys2Proof.Machine.execSetModeConfig h s
  | .engineReset h => Sys2Proof.Machine.execEngineReset h s
  | .supervise h enable timeout lock => Sys2Proof.Machine.execSupervise h enable timeout lock s
  | .setEvents h mask => Sys2Proof.Machine.execSetEvents h mask s
  | .setTiming h ramp scan debounce => Sys2Proof.Machine.execSetTiming h ramp scan debounce s
  | .loadDelegate h unit sect role trim cls => Sys2Proof.Machine.execLoadDelegate h unit sect role trim cls s
  | .removeDelegate h unit => Sys2Proof.Machine.execRemoveDelegate h unit s
  | .readDelegate h unit part => Sys2Proof.Machine.execReadDelegate h unit part s
  | .setTimeClass h cls limit lead => Sys2Proof.Machine.execSetTimeClass h cls limit lead s
  | .grantFloor h unit => Sys2Proof.Machine.execGrantFloor h unit s
  | .closeFloor h unit => Sys2Proof.Machine.execCloseFloor h unit s
  | .clearFloor h room scope => Sys2Proof.Machine.execClearFloor h room scope s
  | .setSectionFloor h sect floorMode speakers queueLimit gap chair time => Sys2Proof.Machine.execSetSectionFloor h sect floorMode speakers queueLimit gap chair time s
  | .setWall h wall ovr => Sys2Proof.Machine.execSetWall h wall ovr s
  | .readRoom h room => Sys2Proof.Machine.execReadRoom h room s
  | .setSectionLevels h sect level fill underlay => Sys2Proof.Machine.execSetSectionLevels h sect level fill underlay s
  | .setBooth h booth language home gain => Sys2Proof.Machine.execSetBooth h booth language home gain s
  | .setHomePlan h sect length codes => Sys2Proof.Machine.execSetHomePlan h sect length codes s
  | .readBooth h booth part => Sys2Proof.Machine.execReadBooth h booth part s
  | .readSlot h selector number => Sys2Proof.Machine.execReadSlot h selector number s
  | .storePreset h preset => Sys2Proof.Machine.execStorePreset h preset s
  | .recallPreset h preset => Sys2Proof.Machine.execRecallPreset h preset s
  | .erasePreset h preset => Sys2Proof.Machine.execErasePreset h preset s
  | .setHouseWrite h enable => Sys2Proof.Machine.execSetHouseWrite h enable s

end Sys2Proof.Machine
end

