-- ==== Sys2Proof/Safety.lean ====
section
/-! DEFINITION. What the statements speak of: when a command is executed, what its answer leaves, what follows a written
record by its rules, memory without errors, and the invariants that every step keeps. -/

namespace Sys2Proof.Machine

/-- The state with another chip; the queue of waiting commands stays. -/
def State.withChip (s : State) (c : Chip) : State := { s with chip := c }

/-! ## Conditions on the state -/

namespace Chip

/-- LOCKED, with no step of the last frame waiting. -/
def Quiet (c : Chip) : Prop := c.ring.lock = .locked ∧ c.due = []

/-- A COMMAND cell is delivered and comes to step 4 of R133: LOCKED, room for its reply, no deferred record, no failed
group. -/
def Ready (c : Chip) : Prop :=
  c.Quiet ∧ c.hall.cmd.replies.length < 8 ∧ c.hall.cmd.deferred = none ∧ c.hall.cmd.groupFailed = false

/-- The chip with a command answered: the reply queued, the group mark set by link flag and answer, the supervision window
restarted (R134, R137, R143). -/
def answered (h : Hdr) (a : Answer) (c : Chip) : Chip :=
  { c with
    hall.cmd.replies := c.hall.cmd.replies ++ [⟨h.tag, a⟩]
    hall.cmd.groupFailed := h.link && a.isCheck
    hall.cmd.supervision.window := 10 * c.hall.cmd.supervision.timeout }

/-- The frame of arrival `a` is a processed frame: the port is LOCKED, or this arrival is the sixteenth of its run (R117,
R119). -/
def Processes (a : Arrival) (c : Chip) : Prop :=
  (c.ring.sinceMarker.isSome = true → a.gap ≤ 1536) ∧ (c.ring.lock = .locked ∨ 15 ≤ c.ring.run)

end Chip

namespace Hall

/-- `g` differs from `h` at most in the floor, the microphone slots and gain points, and the events that wait. -/
def SameBeyondFloor (h g : Hall) : Prop :=
  g = { h with
    floor := g.floor, slots.mics := g.slots.mics, gains.mics := g.gains.mics
    events := { g.events with mask := h.events.mask } }

/-- `g` differs from `h` at most in the Router, the pool and the floor slots, and the events that wait. -/
def SameBeyondRouter (h g : Hall) : Prop :=
  g = { h with
    router := g.router, slots := { g.slots with mics := h.slots.mics }
    events := { g.events with mask := h.events.mask } }

/-- `g` is `h` after entry into STOPPING, for memory in which reads find nothing (R141, R101, R36): every fade point has target
128, and the floor is closed. Chairs leave the chair-pending list with DENIED, the queued units leave their queues with DROPPED,
the gap timers stop, and the units then still GRANTING and SPEAKING are closed with reason STOPPING and FLOOR CLOSED; these
units, and no others, are marked. The queues that the pool entries come back from are emptied where the units in them lie in
their room, as they do in every run (R23, log 36). All else stays. -/
def StoppingEntered (h g : Hall) : Prop :=
  let queued := fun (u : Nat) => h.rooms.any (fun r => (h.queue r).contains u)
  let waits := fun (u : Nat) => queued u || h.floor.chairs.contains u
  let state := fun (u : Nat) => (h.run u).state
  let length := fun (x : Hall) => ((List.range 8).map (fun r => (x.queue r).length)).sum
  let free := h.floor.poolFree + (length h - length g)
  g = { h with
    cmd.mode := .stopping, floor := g.floor, slots.mics := g.slots.mics
    gains := ⟨g.gains.mics, tmapIdx h.gains.rooms (fun _ x => { x with target := 128 }),
      tmapIdx h.gains.booths (fun _ x => { x with target := 128 })⟩ } ∧
  g.floor.chairs = [] ∧ (∀ r < 8, g.gap r = none) ∧
  (∀ r ∈ h.rooms, (∀ u ∈ h.queue r, h.roomOfUnit u = r → u ∉ g.queue r) ∧
    ((∀ u ∈ h.queue r, h.roomOfUnit u = r) → g.queue r = [])) ∧
  (∀ r < 8, (g.queue r).Sublist (h.queue r) ∧ (r ∉ h.rooms → g.queue r = h.queue r)) ∧
  g.floor.poolFree = free ∧
  g.floor.poolArmed = (h.floor.poolArmed || decide (length g < length h ∧ 24 ≤ free)) ∧
  (∀ u ∈ units,
    let d := h.run u
    g.run u =
      if queued u then { d with state := .idle, requestTs := none, indication := some .dropped }
      else if h.floor.chairs.contains u then { d with state := .idle, requestTs := none, indication := some .denied }
      else if d.state = .granting then
        { d with state := .idle, slot := none, grantTs := none, window := none, indication := some .floorClosed }
      else if d.state = .speaking then
        { d with state := .closing, reason := some .stopping, indication := some .floorClosed }
      else d) ∧
  (∀ u ∈ units, tget g.floor.dirty (u - 1) = (tget h.floor.dirty (u - 1) ||
    (h.known u && (waits u || decide (state u = .granting ∨ state u = .speaking))))) ∧
  (∀ k < 24, tget g.slots.mics k =
    if ∃ u ∈ units, waits u = false ∧ state u = .granting ∧ (h.run u).slot = some k then none else tget h.slots.mics k) ∧
  (∀ k < 24, tget g.gains.mics k =
    if ∃ u ∈ units, waits u = false ∧ state u = .speaking ∧ (h.run u).slot = some k then
      { tget h.gains.mics k with target := 128 }
    else tget h.gains.mics k)

/-- The room plan that R63 gives room `r`: the codes of its sections' home plans in order, each once, eight at most. -/
def planOf (h : Hall) (r : Nat) : List Nat := (((sectionsOf h.part.inForce r).flatMap h.homePlan).eraseDups).take 8

/-- The codes that R63 cuts from room `r`'s plan. -/
def codesCut (h : Hall) (r : Nat) : List Nat := (((sectionsOf h.part.inForce r).flatMap h.homePlan).eraseDups).drop 8

/-- The events of the codes cut from room `r`'s plan, each with the first section that brought the code (R63). -/
def dropEvents (h : Hall) (r : Nat) : List Event :=
  (h.codesCut r).map (fun l => ⟨.languageDropped, h.frameCounter, byte r, byte l,
    byte (((sectionsOf h.part.inForce r).find? (fun s => l ∈ h.homePlan s)).getD 0), 0⟩)

/-- The event queue after some events are handed to it, in order. -/
def eventsAfter (h : Hall) (es : List Event) : EventQueue := es.foldl (fun q e => q.push h.frameCounter e) h.events

/-- The LANGUAGE claims of some rooms' plans, each room's channels ascending (R84). -/
def languageClaims (h : Hall) (rs : List Nat) : List Claim :=
  rs.flatMap (fun r => (List.range (h.plan r).length).map (fun i => .language r (i + 1)))

/-- The channel marks once the notices of language `l` are marked for every section of room `r` (R73). -/
def languageMarks (h : Hall) (r l : Nat) : Vector Bool 72 :=
  tmapIdx h.router.channelDirty (fun i d =>
    d || decide (h.roomOfSection (i / 9) = r ∧ 1 ≤ i % 9 ∧ (h.plan r)[i % 9 - 1]? = some l))

/-- The assignment that R65 gives booth `b`: of the booths of its room that are not OFF and have its language, the lead is
the one of the lowest home section and, of those, the lowest number. -/
def assignedTo (h : Hall) (b : Nat) : Assignment :=
  let x := h.booth b
  if h.effective b = .off then .none
  else if x.language ∉ h.plan (h.roomOfBooth b) then .unplanned
  else if ∀ y ∈ boothNumbers, h.roomOfBooth y = h.roomOfBooth b → h.effective y ≠ .off →
      (h.booth y).language = x.language → x.home < (h.booth y).home ∨ (x.home = (h.booth y).home ∧ b ≤ y) then .lead
  else .stoodDown

/-- The relay check (R70): a relay in force from another room, or from or to a damaged record, becomes FLOOR, RELAY LOST is
posted and the booth notice marked, booths ascending (the model's choice, log 47). -/
def relaysChecked (h : Hall) : Hall :=
  boothNumbers.foldl (fun g b =>
    let fall := fun (t : Nat) (cause : Byte) => { g with
      router.booths := tset g.router.booths b { g.boothRun b with relay := .floor }
      router.boothDirty := tset g.router.boothDirty b true
      events := g.events.push g.frameCounter ⟨.relayLost, g.frameCounter, byte b, byte t, cause, 0⟩ }
    match (g.boothRun b).relay with
    | .floor => g
    | .booth t =>
      if g.roomOfBooth t ≠ g.roomOfBooth b then fall t 0
      else if (g.boothRecord t).damaged = true ∨ (g.boothRecord b).damaged = true then fall t 1
      else g) h

/-- What follows when the effective state of booth `b`, which was `e`, has changed (R68): entering or leaving OFF has its
room evaluated, with the leads `led` until now; a move between READY and ON_AIR marks the channel it leads. The
booth notice is marked. -/
def stateMoved (h : Hall) (led : Nat → Led) (b : Nat) (e : BoothState) : Hall :=
  let marked := fun (g : Hall) => { g with router.boothDirty := tset g.router.boothDirty b true }
  if h.effective b = e then h
  else if e = .off ∨ h.effective b = .off then marked (h.evaluate reader led (h.roomOfBooth b))
  else marked { h with router.channelDirty :=
    if (h.boothRun b).assignment = .lead then h.languageMarks (h.roomOfBooth b) (h.booth b).language
    else h.router.channelDirty }

/-- The effective walls that the overrides and the lines `lines` give (R2, R7). -/
def wallsRead (h : Hall) (lines : BitVec 7) : Partition :=
  tmake 7 (fun w => effectiveWall (h.wallOverride w) (wallReading lines w))

/-- The fade points with the target `a` in the rooms `rs` (R101). -/
def roomFades (h : Hall) (a : Nat) (rs : List Nat) : Vector GainPoint 72 :=
  tmapIdx h.gains.rooms (fun i g => if i / 9 ∈ rs then { g with target := a } else g)

/-- The booth fade points with the targets of their rooms, where the rooms `rs` have target `a` (R101). -/
def boothFades (h : Hall) (a : Nat) (rs : List Nat) : Vector GainPoint 16 :=
  tmapIdx h.gains.booths (fun b g => { g with
    target := if h.roomOfBooth b ∈ rs then a else (tget h.gains.rooms (9 * h.roomOfBooth b)).target })

/-- The booth whose sample channel `k` of room `r` carries: the lead of the channel's language, while it is ON_AIR and holds
its output slot; with none the channel is filled (R72, R99). -/
def carrier (h : Hall) (r k : Nat) : Option Nat :=
  match (h.plan r)[k - 1]? with
  | none => none
  | some l => boothNumbers.find? (fun b => decide (h.roomOfBooth b = r ∧ (h.boothRun b).assignment = .lead ∧
      (h.booth b).language = l ∧ h.effective b = .onAir ∧ (h.boothRun b).outSlot ≠ none))

/-! ## What follows a written record

Each for memory in which reads find nothing; the rules that these name are spelled out by the statements. -/

/-- The gap test of room `r` (R26): with a queue and no gap running, a gap of the room's length starts. -/
def gapTested (h : Hall) (r : Nat) : Hall :=
  if 0 < (h.settings r).gap ∧ h.queue r ≠ [] ∧ h.gap r = none then
    { h with floor.gaps := tset h.floor.gaps r (some (10 * (h.settings r).gap)) }
  else h

/-- The queue entries `us` are dropped, in order, with DROPPED. -/
def dropped (h : Hall) (us : List Nat) : Hall := h.each us (drop (some .dropped))

/-- Entry into SAFE, from LIVE alone: the OPERATOR rooms are served, oldest head first (R37, R142). -/
def safeTaken (h : Hall) : Hall :=
  if h.cmd.mode = .live then
    let safe := { h with cmd.mode := .safe }
    safe.each (safe.oldestHeadFirst (safe.rooms.filter (fun r => (h.settings r).floorMode = .operator))) (service reader)
  else h

/-- Time class `k` acts with other values than `old` until now: its present units are told and tested, ascending (R57; the
order is the model's choice, log 38). -/
def classTaken (h : Hall) (k : Nat) (old : TimeClass) : Hall :=
  if h.timeClass k = old then h
  else h.each (units.filter (fun u => (h.record u).value.present ∧ (h.loaded u).timeClass = k)) (limitChanged reader)

/-- The settings of section `r` act on the floor of the room it heads, `old` having acted until now (R39): a floor mode that
ends the queue drops it and stops the gap, the queue is cut at the limit, the positions beyond max speakers are closed, and a
service attempt is made. -/
def settingsTaken (h : Hall) (r : Nat) (old : Settings) : Hall :=
  let new := h.settings r
  let keeps := fun (m : FloorMode) => m == .queue || m == .operator
  let ended := if keeps old.floorMode && !keeps new.floorMode then
      { h.dropped (h.queue r) with floor.gaps := tset (h.dropped (h.queue r)).floor.gaps r none }
    else h
  let cut := ended.dropped ((ended.queue r).drop new.queueLimit)
  let resized := if cut.excess r = [] then cut else cut.closeWithConsequences reader .resize true (cut.excess r)
  if isRoomId h.part.inForce r = true then resized.service reader r else h

/-- The room plan of room `r` is computed again (R63, R64, R85): LANGUAGE DROPPED for each code cut; where the plan has
changed, the notices of the channels whose code changed are marked, the LANGUAGE claims beyond a shorter plan released and
those of a longer one made, channels ascending, and the assignments evaluated. -/
def planTaken (h : Hall) (r : Nat) : Hall :=
  let planned := { h with router.plans := tset h.router.plans r (h.planOf r), events := h.eventsAfter (h.dropEvents r) }
  let held := tget h.slots.planLength r
  let n := (h.planOf r).length
  let channels := fun (a b : Nat) => (List.range b).filter (fun i => decide (a ≤ i))
  let marked := { planned with router.channelDirty := tmapIdx h.router.channelDirty (fun i d =>
    d || decide (h.roomOfSection (i / 9) = r ∧ 1 ≤ i % 9 ∧ (h.plan r)[i % 9 - 1]? ≠ (h.planOf r)[i % 9 - 1]?)) }
  let released := marked.each (channels n held) (fun i => releaseClaim (.language r (i + 1)))
  let claimed := released.each (channels held n) (fun i => makeClaim (.language r (i + 1)))
  if h.planOf r = h.plan r then planned
  else { claimed with slots.planLength := tset h.slots.planLength r n }.evaluate reader
    (fun b => ⟨h.roomOfBooth b, (h.booth b).language⟩) r

/-- The record of booth `b` has been written over `x` (R60): where language, home section or mark have changed, the effective
state (R68), the relay check (R70), the assignments of the old and then the new room (R66) and the notices follow; `led` gives
the leads until now. -/
def boothTaken (h : Hall) (led : Nat → Led) (b : Nat) (x : BoothBefore) : Hall :=
  let same := x.record.language = (h.booth b).language ∧ x.record.home = (h.booth b).home
  let room := h.roomOfBooth b
  let first := (h.stateMoved led b x.effective).relaysChecked.evaluate reader led x.room
  let second := if room = x.room then first else first.evaluate reader led room
  let told := if x.room = room ∧ x.record.language = (h.booth b).language then second
    else
      let left := if x.lead then
        { second with router.channelDirty := second.languageMarks x.room x.record.language } else second
      if (left.boothRun b).assignment = .lead then
        { left with router.channelDirty := left.languageMarks room (h.booth b).language } else left
  if same ∧ x.damaged = false then h else { told with router.boothDirty := tset told.router.boothDirty b true }

/-- The partition in force becomes `p` and the readers react (R109, R40, R41, R74, R80, R86, R96, R101; what these leave to the
model is said at the statement of the partition change event). -/
def partitionTaken (h : Hall) (p : Partition) : Hall :=
  let old := h.part.inForce
  let new := (roomIds p).filter (fun r => !unchangedRoom p old r)
  let changed := changedRooms old p
  let gone := (roomIds old).filter (fun r => !isRoomId p r)
  let start := { h with part.inForce := p }
  let gathered := { start with floor.queues := tmapIdx h.floor.queues (fun r q =>
    if r ∈ new then sortBy (fun u v => h.older (h.requestKey u) (h.requestKey v))
      (units.filter (fun u => (h.run u).state = FloorState.waiting ∧ start.roomOfUnit u = r))
    else if r ∈ changed then [] else q) }
  let trimmed := gathered.each new (fun r x =>
    let cut := x.dropped ((x.queue r).drop (h.settings r).queueLimit)
    if (h.settings r).floorMode ∈ [FloorMode.queue, .operator] then cut else cut.dropped (cut.queue r))
  let stopped := { trimmed with
    floor.dirty := tmapIdx trimmed.floor.dirty (fun i d =>
      d || (h.known (i + 1) && h.queuePosition (i + 1) != trimmed.queuePosition (i + 1)))
    floor.gaps := tmapIdx trimmed.floor.gaps (fun r x => if r ∈ changed then none else x) }
  let us := new.flatMap stopped.excess
  let closed := (stopped.closeAll reader .resize us).arbiterRuns reader (stopped.slotsFreed us)
  let served := closed.each (closed.oldestHeadFirst new) (service reader)
  let planned := { served with
    router.plans := tmapIdx h.router.plans (fun r l => if r ∈ new then start.planOf r else if r ∈ gone then [] else l)
    events := served.eventsAfter (new.flatMap start.dropEvents) }
  let ofChanged := fun (x : Claim) => match x with
    | .language r _ => r ∈ changed || r ∈ new
    | _ => false
  let freed := { planned with slots.waitList := planned.slots.waitList.filter (fun x => !ofChanged x) }.each
    ((planned.slots.pool.toList.filterMap id).filter ofChanged) releaseClaim
  let claimed := freed.each (planned.languageClaims new) makeClaim
  let routed := claimed.relaysChecked.each new (fun r x => x.evaluate reader
    (fun b => ⟨start.roomOfBooth b, (h.booth b).language⟩) r)
  let moved := changedSections old p
  let rooms := tmapIdx h.gains.rooms (fun i x => if i / 9 ∈ gone then { x with target := 128 } else x)
  { routed with
    part := { h.part with inForce := p }
    router.boothDirty := tmapIdx routed.router.boothDirty (fun b d => d || (h.booth b).home ∈ moved)
    router.channelDirty := tmapIdx routed.router.channelDirty (fun i d => d || i / 9 ∈ moved)
    slots.floorActive := tmake 8 (isRoomId p)
    slots.planLength := tmapIdx h.slots.planLength (fun r n =>
      if r ∈ new then (planned.plan r).length else if r ∈ changed then 0 else n)
    gains := ⟨(served.each (roomIds p) aimSpeakers).gains.mics, rooms, tmapIdx h.gains.booths (fun b x => { x with
      target := (tget rooms (9 * start.roomOfBooth b)).target })⟩ }

/-- The start test (R106, R107, R115): in LIVE and SAFE a difference of the effective walls starts a repartition, with the
fades of the changed rooms and REPARTITION STARTED; in CONFIG it changes the partition in force at once, with REPARTITION DONE
of kind IMMEDIATE, posted after the reactions of the readers (log 27); in STOPPING, or with a repartition in flight, it waits. -/
def startTaken (h : Hall) : Hall :=
  let old := h.part.inForce
  let p := h.part.effective
  let rs := changedRooms old p
  let ss := changedSections old p
  let changed := h.partitionTaken p
  if p = old ∨ h.part.repartition ≠ .idle ∨ h.cmd.mode = .stopping then h
  else if h.cmd.mode = .config then { changed with
    events := changed.events.push h.frameCounter ⟨.repartitionDone, h.frameCounter, 0, wallMap p, 1, sectionMap ss⟩ }
  else { h with
    part.repartition := .fadingOut p ss
    gains.rooms := h.roomFades 128 rs, gains.booths := h.boothFades 128 rs
    events := h.events.push h.frameCounter
      ⟨.repartitionStarted, h.frameCounter, 0, wallMap old, wallMap p, sectionMap ss⟩ }

/-- The effective walls are computed; a change goes to the start test (R7, R106). -/
def wallsTaken (h : Hall) : Hall :=
  let p : Partition := tmake 7 (fun w => match h.wallOverride w with
    | .follow => (tget h.part.walls w).debounced
    | .forceDeployed => .deployed
    | .forceStowed => .stowed)
  if p = h.part.effective then h else { h with part.effective := p }.startTaken

/-! The parts of a recall (Table 11.2): each written whole, and then its reaction. -/

def classesRecalled (h : Hall) (x : Vector TimeClass 4) : Hall :=
  { h with mem.classes := tmake 4 (fun k => ⟨tget x k, false, .sound⟩) }.each (List.range 4)
    (fun k g => g.classTaken k (h.timeClass k))

def settingsRecalled (h : Hall) (x : Vector Settings 8) : Hall :=
  { h with mem.settings := tmake 8 (fun i => ⟨tget x i, false, .sound⟩) }.each h.rooms
    (fun r g => g.settingsTaken r (h.settings r))

def plansRecalled (h : Hall) (x : Vector (List Nat) 8) : Hall :=
  { h with mem.plans := tmake 8 (fun i => ⟨tget x i, false, .sound⟩) }.each h.rooms (fun r g => g.planTaken r)

def boothsRecalled (h : Hall) (x : Vector Booth 16) : Hall :=
  let stepped := { h with mem.booths := tmake 16 (fun b => ⟨tget x b, false, .sound⟩) }.each boothNumbers (fun b g =>
    g.boothTaken (fun y => ⟨h.roomOfBooth y, (h.booth y).language⟩) b
      ⟨h.booth b, (h.boothRecord b).damaged, h.effective b, h.roomOfBooth b, (h.boothRun b).assignment == Assignment.lead⟩)
  { stepped with gains.booths := stepped.boothFades 0 [] }

end Hall

/-- The chip after the counts of a processed frame whose arrival brings no memory error, and after its computation from
memory without errors (R117, R118, R121 to R123, R48, R90): counters and windows have moved, the steps they make due
wait, and the outputs are those of the frame. -/
def Chip.processed (a : Arrival) (c : Chip) : Chip :=
  let h := c.hall
  let lost := decide (c.ring.lock = .lost)
  let now := h.frameCounter + 1
  let ramps := decide (c.time.rampInterval ≤ c.time.sinceRamp + 1)
  let ticks := decide (480 ≤ c.time.sinceTick + 1)
  let counted := { h with
    frameCounter := now
    floor.runs := tmapIdx h.floor.runs (fun _ d => { d with window := d.window.map (· - 1) })
    floor.dirty := tmapIdx h.floor.dirty (fun i d => d || (lost && h.known (i + 1)))
    router.boothDirty := tmapIdx h.router.boothDirty (fun _ d => d || lost)
    router.channelDirty := tmapIdx h.router.channelDirty (fun _ d => d || lost)
    events := if lost then h.events.push now ⟨.ringLocked, now, 0, 0, 0, 0⟩ else h.events
    store.programming := h.store.programming.map (fun x => { x with remaining := x.remaining - a.gap }) }
  let step := fun (_ : Nat) (x : GainPoint) => { x with
    current := if x.current < x.target then x.current + 1 else if x.target < x.current then x.current - 1 else x.current }
  let stepped : GainPoints :=
    ⟨tmapIdx h.gains.mics step, tmapIdx h.gains.rooms step, tmapIdx h.gains.booths step⟩
  { c with
    hall := counted
    ring := { c.ring with lock := .locked, run := if c.ring.lock = .locked then c.ring.run else 0, sinceMarker := some 0 }
    time.sinceTick := if ticks then 0 else c.time.sinceTick + 1
    time.sinceRamp := if ramps then 0 else c.time.sinceRamp + 1
    pins := a.pins
    outs := Hall.mix (if ramps then { counted with gains := stepped } else counted) a.frame c.outs
    due := (if ramps then [.rampStep] else []) ++
      (units.filter (fun u => (counted.run u).window = some 0)).map Due.window ++ (if ticks then [.tick] else []) }

/-- The Transmit Arbiter has been offered the empty cell `x` (R127): the chip, and what leaves. -/
def Chip.offered (x : Cell) (c : Chip) : Chip × Cell :=
  let p := c.hall.place reader c.ring.pointer
  ({ c with hall := p.hall, ring.pointer := p.pointer }, p.cell.getD x)

/-- No read of Table Memory would find an error: every record is free of errors or already marked damaged (R153). -/
def TableMemory.ReadsFindNothing (m : TableMemory) : Prop :=
  (∀ p ∈ m.delegates, p.finding = .none) ∧ (∀ p ∈ m.settings, p.finding = .none) ∧
  (∀ p ∈ m.plans, p.finding = .none) ∧ (∀ p ∈ m.booths, p.finding = .none) ∧
  (∀ p ∈ m.classes, p.finding = .none) ∧ (∀ p ∈ m.overrides, p.finding = .none)

/-! ## Invariants -/

/-- The counters of the Ring Port and the Timebase lie in their ranges (Tables 8.1 and 8.2, R125). -/
def Chip.CountersInRange (c : Chip) : Prop :=
  c.ring.run < 16 ∧ c.ring.laneErrors ≤ 65535 ∧ c.time.sinceTick < 480 ∧ c.time.sinceSecond < 100 ∧
  c.time.sinceRamp < 32 ∧ 1 ≤ c.time.rampInterval ∧ c.time.rampInterval ≤ 32

/-- A value of the sample range (R102). -/
def IsSample (v : Int) : Prop := -8388608 ≤ v ∧ v ≤ 8388607

/-- Every held output lies in the sample range (R102). -/
def Chip.OutputsInRange (c : Chip) : Prop :=
  (∀ i < 72, IsSample (tget c.outs.rooms i)) ∧ (∀ b < 16, IsSample (tget c.outs.booths b))

/-- The reply queue holds at most 8 replies, the event list at most 64 events, the lost count at most 65,535 (R134, R149,
R150). -/
def Chip.QueuesBounded (c : Chip) : Prop :=
  c.hall.cmd.replies.length ≤ 8 ∧ c.hall.events.events.length ≤ 64 ∧ c.hall.events.lostCount ≤ 65535

end Sys2Proof.Machine
end

