-- ==== Sys2Proof/Certificates/Slice0/Obligations.lean ====
section
/-! DEFINITION. The statements about the part, for the provers: one `def Obligations.<Name> : Prop` each. -/

open Sys2Proof Sys2Proof.Machine

/-! ## The queue of commands -/

/-- A step takes the command at the front of the queue and executes it on the state with the queue's rest; with no command
waiting it changes nothing (the model's reading of a block, log 1). -/
def Obligations.StepTakesFront : Prop :=
  (∀ (s : State) (i : Instr) (rest : List Instr), s.pending = i :: rest → step s = exec i { s with pending := rest }) ∧
  ∀ s : State, s.pending = [] → step s = .next s

/-- Every command answers a next state and leaves the queue of waiting commands as it is (logs 1 and 31). -/
def Obligations.EveryCommandCompletes : Prop :=
  ∀ (s : State) (i : Instr), ∃ t, exec i s = .next t ∧ t.pending = s.pending

/-! ## Taking a command -/

/-- R133 and R137: a delivered command meets deferred record, group mark, code and mode in this order; only then its own
rule runs. The answer is queued and the group mark brought up to date. -/
def Obligations.CommandsAreHandledInOrder : Prop :=
  ∀ (s : State) (i : Instr) (hd : Hdr) (x : Command), i.cell? = some (.command hd x) → x.spelled = true →
    s.chip.Quiet → s.chip.hall.cmd.replies.length < 8 →
    let c := s.chip
    exec i s = .next (s.withChip (
      match c.hall.cmd.deferred with
      | some p => { c with hall.cmd.deferred := none }.answered hd (.check .storeFailed p)
      | none =>
        if c.hall.cmd.groupFailed then c.answered hd (.check .groupAbandoned 0)
        else if x.code ∉ catalogue then c.answered hd (.check .unknownCommand x.code.toNat)
        else if Command.taken c.hall.cmd.mode x = false then c.answered hd (.check .wrongMode c.hall.cmd.mode.code)
        else if x = .engineReset then c.restartWindow.engineReset
        else (c.restartWindow.run reader x).1.answered hd (c.restartWindow.run reader x).2))

/-- R139: each command of the catalogue is taken in the modes of Table 9.4 and answered WRONG MODE in the others. -/
def Obligations.CommandsAreTakenByMode : Prop :=
  ∀ (s : State) (i : Instr) (hd : Hdr) (x : Command), i.cell? = some (.command hd x) → x.spelled = true →
    x.code ∈ catalogue → s.chip.Ready →
    let c := s.chip
    let modes : List Mode :=
      if x.code = 0x06 then [.config]
      else if x.code = 0x14 then [.live]
      else if x.code = 0x41 then [.config, .live]
      else if x.code ∈ [0x10, 0x11, 0x13, 0x20, 0x23, 0x30, 0x31, 0x40, 0x42] then [.config, .live, .stopping]
      else [.config, .live, .stopping, .safe]
    (Command.taken c.hall.cmd.mode x = true ↔ c.hall.cmd.mode ∈ modes) ∧
    (c.hall.cmd.mode ∉ modes →
      exec i s = .next (s.withChip (c.answered hd (.check .wrongMode c.hall.cmd.mode.code))))

/-! ## The Command Processor's own commands -/

/-- R146: STATUS answers the data of Table 9.7 and changes nothing else. -/
def Obligations.StatusReports : Prop :=
  ∀ (s : State) (hd : Hdr) (part : Byte), s.chip.Ready →
    let c := s.chip
    let h := c.hall
    let v := h.cmd.supervision
    exec (.status hd part) s = .next (s.withChip (c.answered hd <|
      if 3 < part.toNat then .check .fieldOutOfRange 1
      else .good .none 0 (
        if part = 0 then
          ⟨halves h.cmd.mode.code h.cmd.requested.code,
            match h.part.repartition with
            | .idle => 0
            | .fadingOut _ _ => 1
            | .fadingIn _ _ => 2,
            wallMap h.part.inForce, wallMap h.part.effective⟩
        else if part = 1 then
          ⟨highByte c.ring.laneErrors, lowByte c.ring.laneErrors,
            byte (flag v.enabled + 2 * flag v.lock + 4 * flag (10 * v.timeout == 0)), byte v.timeout⟩
        else if part = 2 then
          ⟨byte (min 255 h.mem.damagedCount), byte h.events.events.length,
            byte (flag h.store.houseWrite + 2 * flag c.pins.houseWp + 4 * flag h.store.programming.isSome), 0⟩
        else ⟨byte c.time.rampInterval, byte h.part.scanInterval, byte h.part.debounceCount, 0⟩)))

/-- R140: a request for LIVE by the mode in force, with validation and the fade targets of R101. -/
def Obligations.SetModeLiveByMode : Prop :=
  ∀ (s : State) (hd : Hdr) (mode : Byte), s.chip.Ready → mode ≠ 0 →
    let c := s.chip
    let h := c.hall
    let good : Answer := .good .none 0 {}
    exec (.setModeLive hd mode) s = .next (s.withChip (
      if 1 < mode.toNat then c.answered hd (.check .fieldOutOfRange 1)
      else match h.cmd.mode with
      | .live => { c with hall.cmd.requested := .live }.answered hd good
      | .stopping => c.answered hd (.check .stopping 0)
      | .config =>
        if h.mem.damagedCount = 0 then
          { c with
            hall.cmd.requested := .live, hall.cmd.mode := .live
            hall.gains.rooms := tmapIdx h.gains.rooms
              (fun i g => if isRoomId h.part.inForce (i / 9) then { g with target := 0 } else g)
            hall.gains.booths := tmapIdx h.gains.booths (fun _ g => { g with target := 0 }) }.answered hd good
        else c.answered hd (.check .tablesDamaged h.mem.damagedCount)
      | .safe =>
        if h.mem.damagedCount = 0 then
          { c with hall.cmd.requested := .live, hall.cmd.mode := .live }.answered hd good
        else c.answered hd (.check .tablesDamaged h.mem.damagedCount)))

/-- R144: SUPERVISE refuses, clamps, writes, and restarts the window with the timeout just written. A hard reset clears the
lock and disables supervision. That a lock of 1 with an enable of 0 is refused with info 3 is the model's choice (log 20):
R144 says only "the lowest such field". -/
def Obligations.SuperviseWrites : Prop :=
  (∀ (s : State) (hd : Hdr) (enable timeout lock : Byte), s.chip.Ready →
    let c := s.chip
    let v := c.hall.cmd.supervision
    exec (.supervise hd enable timeout lock) s = .next (s.withChip (
      if 1 < enable.toNat then c.answered hd (.check .fieldOutOfRange 1)
      else if 1 < lock.toNat ∨ (lock = 1 ∧ enable = 0) then c.answered hd (.check .fieldOutOfRange 3)
      else if v.lock = true ∧ enable = 0 then c.answered hd (.check .supervisionLocked 0)
      else
        { c with hall.cmd.supervision :=
          ⟨enable == 1, if timeout = 0 then 1 else timeout.toNat, v.lock || lock == 1,
            10 * (if timeout = 0 then 1 else timeout.toNat)⟩ }.answered hd
          (if timeout = 0 then .good .adjusted 2 {} else .good .none 0 {})))) ∧
  ∀ (s : State) (pins : Pins), ∃ t, exec (.hardReset pins) s = .next t ∧
    t.chip.hall.cmd.supervision.lock = false ∧ t.chip.hall.cmd.supervision.enabled = false

/-- R152: SET EVENTS writes the class mask, and the mask acts on postings by class, bit by bit. -/
def Obligations.SetEventsWritesMask : Prop :=
  (∀ (s : State) (hd : Hdr) (mask : Byte), s.chip.Ready →
    let c := s.chip
    exec (.setEvents hd mask) s = .next (s.withChip (
      if mask.getLsbD 7 then c.answered hd (.check .fieldOutOfRange 1)
      else { c with hall.events.mask := mask.extractLsb' 0 7 }.answered hd (.good .none 0 {})))) ∧
  ∀ (q : EventQueue) (k : EventKind),
    q.passes k = (k == .restarted || k == .eventsLost || q.mask.getLsbD (
      if k ∈ [.granted, .closed, .unresponsive, .chairPriority, .poolLow, .unknownUnit] then 0
      else if k ∈ [.timeWarning, .timeUp] then 1
      else if k ∈ [.wallChanged, .repartitionStarted, .repartitionDone] then 2
      else if k ∈ [.languageDropped, .leadChanged, .relayLost] then 3
      else if k ∈ [.claimWaiting, .claimServed] then 4
      else if k ∈ [.integrityCorrected, .recordDamaged] then 5
      else 6))

/-- R145: SET TIMING is taken in CONFIG, brings its three numbers into range and writes them together; a hard reset leaves
4, 2 and 5, and an engine reset keeps them. -/
def Obligations.SetTimingWrites : Prop :=
  (∀ (s : State) (hd : Hdr) (ramp scan debounce : Byte), s.chip.Ready →
    let c := s.chip
    let r := max 1 (min 32 ramp.toNat)
    let i := max 1 (min 8 scan.toNat)
    let d := max 2 (min 15 debounce.toNat)
    exec (.setTiming hd ramp scan debounce) s = .next (s.withChip (
      if c.hall.cmd.mode ≠ .config then c.answered hd (.check .wrongMode c.hall.cmd.mode.code)
      else
        { c with time.rampInterval := r, hall.part.scanInterval := i, hall.part.debounceCount := d }.answered hd
          (if ramp.toNat ≠ r then .good .adjusted 1 {}
          else if scan.toNat ≠ i then .good .adjusted 2 {}
          else if debounce.toNat ≠ d then .good .adjusted 3 {}
          else .good .none 0 {})))) ∧
  (∀ (s : State) (pins : Pins), ∃ t, exec (.hardReset pins) s = .next t ∧
    t.chip.time.rampInterval = 4 ∧ t.chip.hall.part.scanInterval = 2 ∧ t.chip.hall.part.debounceCount = 5) ∧
  ∀ (s : State) (hd : Hdr), s.chip.Ready → ∃ t, exec (.engineReset hd) s = .next t ∧
    t.chip.time.rampInterval = s.chip.time.rampInterval ∧
    t.chip.hall.part.scanInterval = s.chip.hall.part.scanInterval ∧
    t.chip.hall.part.debounceCount = s.chip.hall.part.debounceCount

/-- R141, R101 and R36: a request for CONFIG changes nothing in CONFIG and STOPPING, waits for the end of a repartition in
flight, and otherwise brings STOPPING. Every fade point then gets target 128 and the floor closes: chairs leave the
chair-pending list with DENIED, WAITING delegates every queue with DROPPED, the gap timers stop, and every GRANTING and
SPEAKING holder is closed with reason STOPPING and FLOOR CLOSED. The entries dropped return to the pool, which may arm POOL LOW
(R23, R24). `Hall.StoppingEntered` says what the hall is then. -/
def Obligations.SetModeConfigByMode : Prop :=
  ∀ (s : State) (hd : Hdr), s.chip.Ready → s.chip.hall.mem.ReadsFindNothing →
    let c := s.chip
    let h := c.hall
    let good : Answer := .good .none 0 {}
    let stops := (h.cmd.mode = .live ∨ h.cmd.mode = .safe) ∧ h.part.repartition = .idle
    (¬stops → exec (.setModeConfig hd) s = .next (s.withChip (
      if h.cmd.mode = .config ∨ h.cmd.mode = .stopping then c.answered hd good
      else { c with hall.cmd.requested := .config }.answered hd good))) ∧
    (stops → ∃ g, exec (.setModeConfig hd) s = .next (s.withChip ({ c with hall := g }.answered hd good)) ∧
      Hall.StoppingEntered { h with cmd.requested := .config } g)

/-- R148, R2, R16, R59, R80, R84, R118 and R151: ENGINE RESET keeps tables, timing, class mask and supervision, sets up
everything else afresh for the walls as they read, the room plans and their LANGUAGE claims from slot 40 among it, and is
answered by RESTARTED alone, which only the LANGUAGE DROPPED events of the plans follow, rooms ascending (the model's choice,
log 51). -/
def Obligations.EngineResetSetsUp : Prop :=
  ∀ (s : State) (hd : Hdr), s.chip.Ready → s.chip.hall.mem.ReadsFindNothing →
    let c := s.chip
    let h := c.hall
    let v := h.cmd.supervision
    let walls := h.wallsRead c.pins.walls
    ∃ t, exec (.engineReset hd) s = .next t ∧ t.pending = s.pending ∧
      t.chip.ring = ⟨.searching, 0, none, 0, 0⟩ ∧ t.chip.time = ⟨0, 0, 0, c.time.rampInterval⟩ ∧
      t.chip.outs = ⟨.replicate 72 0, .replicate 16 0, .replicate 72 false, .replicate 16 false⟩ ∧
      t.chip.pins = c.pins ∧ t.chip.due = [] ∧
      let g := t.chip.hall
      g.frameCounter = 0 ∧ g.mem = h.mem ∧ g.store = h.store.restarted ∧
      g.cmd = ⟨[], false, none, .config, .config, { v with window := 10 * v.timeout }⟩ ∧
      g.part = ⟨tmake 7 (fun w => ⟨wallReading c.pins.walls w, 0, 0⟩), 0, h.part.scanInterval, h.part.debounceCount,
        walls, walls, .idle⟩ ∧
      g.events = { g with events := ⟨[⟨.restarted, 0, 0, 1, 0, 0⟩], h.events.mask, false, 0⟩ }.eventsAfter
        ((roomIds walls).flatMap g.dropEvents) ∧
      g.floor.runs = .replicate 192 {} ∧ g.floor.queues = .replicate 8 [] ∧ g.floor.poolFree = 96 ∧
      g.floor.poolArmed = true ∧ g.floor.chairs = [] ∧ g.floor.gaps = .replicate 8 none ∧
      (∀ u ∈ units, tget g.floor.dirty (u - 1) = h.known u) ∧
      g.slots = ⟨.replicate 24 none, tmake 8 (isRoomId walls),
        tmake 88 (fun i => (g.languageClaims (roomIds walls))[i]?), [],
        tmake 8 (fun r => if r ∈ roomIds walls then (g.planOf r).length else 0)⟩ ∧
      g.gains = ⟨.replicate 24 {}, .replicate 72 {}, .replicate 16 {}⟩ ∧
      g.router = ⟨.replicate 16 {}, tmake 8 (fun r => if r ∈ roomIds walls then g.planOf r else []), .replicate 16 true,
        .replicate 72 true⟩

/-! ## Delegates -/

/-- R20, R57 and R96: LOAD DELEGATE refuses fields, clamps the trim, writes an absent or IDLE delegate whole, rewrites trim and
class of one that is not IDLE, with the target of a SPEAKING one, and refuses any other. A rewrite that changes the class number
is followed by the mark and the test of R57 (for classes of equal values see log 15). -/
def Obligations.LoadDelegateWrites : Prop :=
  ∀ (s : State) (hd : Hdr) (unit sect role trim cls : Byte), s.chip.Ready → s.chip.hall.mem.ReadsFindNothing →
    let c := s.chip
    let h := c.hall
    let u := unit.toNat
    let r : Role := if role = 0 then .delegate else .chair
    let t := min trim.toNat 40
    let good : Answer := if 40 < trim.toNat then .good .adjusted 4 {} else .good .none 0 {}
    let p := h.record u
    let inPlace := h.cmd.mode ≠ .safe ∧ 1 ≤ u ∧ u ≤ 192 ∧ sect.toNat ≤ 7 ∧ role.toNat ≤ 1 ∧ cls.toNat ≤ 3 ∧
      (h.run u).state ≠ .idle ∧ p.damaged = false ∧ p.value.sect = sect.toNat ∧ p.value.role = r
    let written := { h with
      mem.delegates := tset h.mem.delegates (u - 1) { p with value := { p.value with trim := t, timeClass := cls.toNat } } }
    (¬inPlace → exec (.loadDelegate hd unit sect role trim cls) s = .next (s.withChip (
      if h.cmd.mode = .safe then c.answered hd (.check .wrongMode 3)
      else if u = 0 ∨ 192 < u then c.answered hd (.check .fieldOutOfRange 1)
      else if 7 < sect.toNat then c.answered hd (.check .fieldOutOfRange 2)
      else if 1 < role.toNat then c.answered hd (.check .fieldOutOfRange 3)
      else if 3 < cls.toNat then c.answered hd (.check .fieldOutOfRange 5)
      else if (h.run u).state = .idle then
        { c with
          hall.mem.delegates := tset h.mem.delegates (u - 1) ⟨⟨true, sect.toNat, r, t, cls.toNat⟩, false, .sound⟩
          hall.floor.runs := tset h.floor.runs (u - 1) { h.run u with unknownReported := false }
          hall.floor.dirty := tset h.floor.dirty (u - 1) true }.answered hd good
      else c.answered hd (.check .unitNotIdle 0)))) ∧
    (inPlace → ∃ g, exec (.loadDelegate hd unit sect role trim cls) s =
        .next (s.withChip ({ c with hall := g }.answered hd good)) ∧
      written.SameBeyondFloor g ∧
      let told := { written with
        floor.runs := tset h.floor.runs (u - 1) { h.run u with unknownReported := false }
        floor.dirty := if p.value.present then tset h.floor.dirty (u - 1) true else h.floor.dirty
        gains.mics := match (h.run u).slot with
          | some k =>
            if (h.run u).state = .speaking then
              tmod h.gains.mics k (fun x =>
                { x with target := min 127 (t + nom (h.speakers (h.roomOfUnit u)).length) })
            else h.gains.mics
          | none => h.gains.mics }
      g = if p.value.timeClass = cls.toNat then told else told.limitChanged reader u)

/-- R21: REMOVE DELEGATE refuses an absent unit and one that is not IDLE; otherwise the record becomes absent and its
marks, flags and indication are cleared. -/
def Obligations.RemoveDelegateClears : Prop :=
  ∀ (s : State) (hd : Hdr) (unit : Byte), s.chip.Ready → s.chip.hall.mem.ReadsFindNothing →
    let c := s.chip
    let h := c.hall
    let u := unit.toNat
    exec (.removeDelegate hd unit) s = .next (s.withChip (
      if h.cmd.mode = .safe then c.answered hd (.check .wrongMode 3)
      else if u = 0 ∨ 192 < u then c.answered hd (.check .fieldOutOfRange 1)
      else if (h.record u).value.present = false ∧ (h.record u).damaged = false then
        c.answered hd (.check .unitNotPresent 0)
      else if (h.run u).state ≠ .idle then c.answered hd (.check .unitNotIdle 0)
      else
        { c with
          hall.mem.delegates := tset h.mem.delegates (u - 1) ⟨⟨false, 0, .delegate, 0, 0⟩, false, .sound⟩
          hall.floor.runs := tset h.floor.runs (u - 1) { h.run u with indication := none, unknownReported := false }
          hall.floor.dirty := tset h.floor.dirty (u - 1) false }.answered hd (.good .none 0 {})))

/-- R22, R61, R88 and Table 8.11: READ DELEGATE and READ BOOTH refuse fields and damaged records and otherwise report the
part asked for; READ BOOTH of part 2 clears the feed's clip marker (R103). READ SLOT refuses fields and otherwise reports a
slot, a place of the wait list or the summary; an INACTIVE floor slot is reported with its room id as owner (the model's
choice, log 34). -/
def Obligations.ReadsReport : Prop :=
  (∀ (s : State) (hd : Hdr) (unit part : Byte), s.chip.Ready → s.chip.hall.mem.ReadsFindNothing →
    let c := s.chip
    let h := c.hall
    let u := unit.toNat
    let l := h.loaded u
    let d := h.run u
    exec (.readDelegate hd unit part) s = .next (s.withChip (c.answered hd (
      if u = 0 ∨ 192 < u then .check .fieldOutOfRange 1
      else if 2 < part.toNat then .check .fieldOutOfRange 2
      else if (h.record u).damaged then .check .recordDamaged 0
      else .good .none 0 (
        if part = 0 then
          ⟨byte (flag l.present), halves l.sect (if l.role = .chair then 1 else 0), byte l.trim, byte l.timeClass⟩
        else if part = 1 then
          ⟨d.state.code, match d.slot with | some k => byte k | none => 0xFF, byte (h.queuePosition u),
            halves d.grantId.toNat d.attempts⟩
        else
          ⟨byte (d.seconds / 256), byte (d.seconds % 256),
            byte (flag d.warned + 2 * flag d.unresponsive + 4 * flag d.unknownReported),
            match d.indication with | some i => i.code | none => 0⟩))))) ∧
  (∀ (s : State) (hd : Hdr) (booth part : Byte), s.chip.Ready → s.chip.hall.mem.ReadsFindNothing →
    let c := s.chip
    let h := c.hall
    let b := booth.toNat
    let x := h.boothRun b
    let cell := fun (o : Option Nat) => match o with | some k => byte k | none => (0xFF : Byte)
    let relay := fun (y : Relay) => match y with | .booth n => byte n | .floor => (0xFF : Byte)
    exec (.readBooth hd booth part) s = .next (s.withChip (
      if 15 < b then c.answered hd (.check .fieldOutOfRange 1)
      else if 2 < part.toNat then c.answered hd (.check .fieldOutOfRange 2)
      else if (h.boothRecord b).damaged then c.answered hd (.check .recordDamaged 0)
      else if part = 0 then
        c.answered hd (.good .none 0 ⟨byte (h.booth b).language, byte (h.booth b).home, byte (h.booth b).gain, 0⟩)
      else if part = 1 then
        c.answered hd (.good .none 0
          ⟨halves x.reported.code (h.effective b).code, x.assignment.code, relay x.selection, relay x.relay⟩)
      else
        { c with outs.boothClips := tset c.outs.boothClips b false }.answered hd (.good .none 0
          ⟨byte (h.roomOfBooth b), cell x.outSlot, cell x.feedSlot, byte (flag (tget c.outs.boothClips b))⟩)))) ∧
  ∀ (s : State) (hd : Hdr) (selector number : Byte), s.chip.Ready →
    let c := s.chip
    let h := c.hall
    let n := number.toNat
    let claim := fun (x : Claim) => match x with
      | .leadOut b => ((3 : Byte), byte b)
      | .language r k => (4, halves r k)
      | .feed b => (5, byte b)
      | .spareOut b => (6, byte b)
    exec (.readSlot hd selector number) s = .next (s.withChip (c.answered hd (
      if 2 < selector.toNat then .check .fieldOutOfRange 1
      else if selector = 0 then
        if 127 < n then .check .fieldOutOfRange 2
        else .good .none 0 (
          if n < 8 then ⟨0, 0, 0, 0⟩
          else if n < 32 then
            match tget h.slots.mics (n - 8) with
            | none => ⟨1, 1, 0, 0⟩
            | some u => ⟨1, 2, 1, byte u⟩
          else if n < 40 then ⟨2, if tget h.slots.floorActive (n - 32) then 3 else 4, 2, byte (n - 32)⟩
          else match tget h.slots.pool (n - 40) with
            | none => ⟨3, 1, 0, 0⟩
            | some x => ⟨3, 2, (claim x).1, (claim x).2⟩)
      else if selector = 1 then
        if n = 0 ∨ 96 < n then .check .fieldOutOfRange 2
        else .good .none 0 (
          match h.slots.waitList[n - 1]? with
          | none => ⟨0, 0, 0, 0⟩
          | some x => ⟨(claim x).1, (claim x).2, 0, 0⟩)
      else .good .none 0
        ⟨byte (h.slots.mics.toList.count none), byte (h.slots.pool.toList.count none), byte h.slots.waitList.length,
          byte (h.slots.floorActive.toList.count true)⟩)))

/-- R147 and R103: READ ROOM of a room in force reports plan length and residual, the nine clip markers, the positions
taken and the queue's length, and clears the markers it reports. -/
def Obligations.ReadRoomReports : Prop :=
  ∀ (s : State) (hd : Hdr) (room : Byte), s.chip.Ready →
    let c := s.chip
    let h := c.hall
    let r := room.toNat
    (isRoomId h.part.inForce r = false →
      exec (.readRoom hd room) s = .next (s.withChip (c.answered hd (.check .fieldOutOfRange 1)))) ∧
    (isRoomId h.part.inForce r = true → ∃ d : Data,
      exec (.readRoom hd room) s = .next (s.withChip ({ c with
        outs.roomClips := tmapIdx c.outs.roomClips (fun i m => if i / 9 = r then false else m) }.answered hd
          (.good .none 0 d))) ∧
      d.d0 = halves (h.plan r).length (h.slots.waitList.countP (fun x => match x with
        | .language y _ => y == r
        | _ => false)) ∧
      (∀ k < 8, d.d1.getLsbD k = tget c.outs.roomClips (9 * r + k)) ∧
      d.d2.getLsbD 0 = tget c.outs.roomClips (9 * r + 8) ∧
      (d.d2 >>> 4).toNat = (h.positionHolders r).length % 16 ∧
      d.d3 = byte (h.queue r).length)

/-! ## Time classes and the floor -/

/-- R54 and R57: SET TIME CLASS clamps limit and lead and writes both. Where the values that act have changed, every present
delegate of the class is told and tested: a non-chair is marked, and one that is SPEAKING is tested at once against the new
values. That a write of the values that already acted leaves the floor alone is the model's choice (log 15), and so is the
ascending order of the units (log 38). -/
def Obligations.SetTimeClassWrites : Prop :=
  (∀ (s : State) (hd : Hdr) (cls : Byte) (limit : BitVec 16) (lead : Byte), s.chip.Ready →
    s.chip.hall.mem.ReadsFindNothing →
    let c := s.chip
    let h := c.hall
    let l := if limit = 0 then 0 else max 10 (min 3600 limit.toNat)
    let w := if l ≠ 0 ∧ l ≤ min lead.toNat 120 then l - 1 else min lead.toNat 120
    let good : Answer :=
      if limit.toNat ≠ l then .good .adjusted 2 {} else if lead.toNat ≠ w then .good .adjusted 3 {} else .good .none 0 {}
    let written := { h with mem.classes := tset h.mem.classes cls.toNat ⟨⟨l, w⟩, false, .sound⟩ }
    (h.cmd.mode = .safe ∨ 3 < cls.toNat → exec (.setTimeClass hd cls limit lead) s = .next (s.withChip (
      if h.cmd.mode = .safe then c.answered hd (.check .wrongMode 3) else c.answered hd (.check .fieldOutOfRange 1)))) ∧
    (h.cmd.mode ≠ .safe ∧ cls.toNat ≤ 3 → ∃ g,
      exec (.setTimeClass hd cls limit lead) s = .next (s.withChip ({ c with hall := g }.answered hd good)) ∧
      written.SameBeyondFloor g ∧
      g = written.classTaken cls.toNat (h.timeClass cls.toNat))) ∧
  ∀ (h : Hall) (u : Nat), h.mem.ReadsFindNothing → u ∈ units →
    let d := h.run u
    let l := h.timeClass (h.loaded u).timeClass
    let marks := tset h.floor.dirty (u - 1) true
    let x := { d with warned := if l.limit = 0 ∨ d.seconds < l.limit - l.lead then false else d.warned }
    let tested := { h with floor.dirty := marks, floor.runs := tset h.floor.runs (u - 1) x }
    let told := fun (i : Indication) (k : EventKind) (y : DelegateRun) =>
      let detail := min d.seconds 4095 * 4096 + l.limit
      { tested with
        floor.runs := tset h.floor.runs (u - 1) { y with indication := some i }
        events := h.events.push h.frameCounter
          ⟨k, h.frameCounter, byte u, byte (detail / 65536), byte (detail / 256), byte detail⟩ }
    l.limit < 4096 → h.limitChanged reader u =
      if h.known u = false ∨ h.isChair u = true then h
      else if d.state ≠ .speaking then { h with floor.dirty := marks }
      else if l.limit = 0 then tested
      else if d.seconds < l.limit then
        if 0 < l.lead ∧ x.warned = false ∧ l.limit - l.lead ≤ d.seconds then
          told .timeWarning .timeWarning { x with warned := true }
        else tested
      else if (h.settings (h.roomOfUnit u)).timeAction = .close then
        tested.closeWithConsequences reader .timeUp true [u]
      else told .timeUp .timeUp x

/-- R33: GRANT FLOOR makes its checks in order and grants the delegate. -/
def Obligations.GrantFloorByCheck : Prop :=
  ∀ (s : State) (hd : Hdr) (unit : Byte), s.chip.Ready → s.chip.hall.mem.ReadsFindNothing →
    let c := s.chip
    let h := c.hall
    let u := unit.toNat
    let r := h.roomOfUnit u
    exec (.grantFloor hd unit) s = .next (s.withChip (
      if h.cmd.mode ≠ .live then c.answered hd (.check .wrongMode h.cmd.mode.code)
      else if u = 0 ∨ 192 < u then c.answered hd (.check .fieldOutOfRange 1)
      else if h.known u = false then c.answered hd (.check .unitNotPresent 0)
      else if (h.settings r).floorMode ≠ .operator then c.answered hd (.check .notOperatorRoom 0)
      else if (h.run u).state = .granting ∨ (h.run u).state = .speaking then c.answered hd (.good .none 0 {})
      else if (h.run u).state = .closing ∨ (h.run u).state = .chairPending then
        c.answered hd (.check .unitNotIdle 0)
      else if h.isChair u = false ∧ (h.settings r).maxSpeakers ≤ (h.positionHolders r).length then
        c.answered hd (.check .floorFull 0)
      else if none ∉ h.slots.mics.toList then c.answered hd (.check .noMicSlot 0)
      else { c with hall := h.grant u }.answered hd (.good .none 0 {})))

/-- R17, R47 and R78: a grant takes the lowest free microphone slot, leaves queue and chair-pending list, and starts the
handshake; nothing else changes but the marks of the units that moved up and the pool's arming. -/
def Obligations.GrantTakesLowestFreeSlot : Prop :=
  ∀ (h : Hall) (u k : Nat), u ∈ units → k < 24 → tget h.slots.mics k = none → (∀ j < k, tget h.slots.mics j ≠ none) →
    let g := h.grant u
    let r := h.roomOfUnit u
    let d := h.run u
    g.run u = { d with
      state := .granting, slot := some k, grantId := d.grantId + 1, attempts := 1, requestTs := none
      grantTs := some h.frameCounter, window := none, reason := none } ∧
    (∀ v ∈ units, v ≠ u → g.run v = h.run v) ∧
    (∀ x < 8, g.queue x = if x = r then (h.queue r).erase u else h.queue x) ∧
    g.floor.poolFree = h.floor.poolFree + (if u ∈ h.queue r then 1 else 0) ∧
    g.floor.chairs = h.floor.chairs.erase u ∧ g.floor.gaps = h.floor.gaps ∧
    (h.known u = true → tget g.floor.dirty (u - 1) = true) ∧
    (∀ v ∈ h.queue r, (h.queue r).idxOf u < (h.queue r).idxOf v → v ∈ units → h.known v = true →
      tget g.floor.dirty (v - 1) = true) ∧
    (∀ v ∈ units, tget h.floor.dirty (v - 1) = true → tget g.floor.dirty (v - 1) = true) ∧
    g = { h with
      floor := g.floor, slots.mics := tset h.slots.mics k (some u)
      gains.mics := tmod h.gains.mics k (fun x => { x with target := 128 }) }

/-- R18: to close a GRANTING holder cancels its grant and frees its slot at once; to close a SPEAKING one sends its gain
point to mute and keeps slot and grant timestamp; a holder already CLOSING is left as it is. The reason's indication, if
any, becomes pending. -/
def Obligations.CloseByState : Prop :=
  ∀ (h : Hall) (c : CloseReason) (u k : Nat), u ∈ units → k < 24 → (h.run u).slot = some k →
    let g := h.closeOne c u
    let d := h.run u
    let i : Option Indication := match c with
      | .unit => d.indication
      | .chair => some .closedByChair
      | .override => some .closedByOverride
      | .operator => some .closedByOperator
      | .resize => some .closedByResize
      | .timeUp => some .timeUp
      | .stopping => some .floorClosed
      | .damaged => d.indication
    let marks := if h.known u then tset h.floor.dirty (u - 1) true else h.floor.dirty
    (d.state = .granting → g = { h with
      slots.mics := tset h.slots.mics k none
      floor.runs := tset h.floor.runs (u - 1)
        { d with state := .idle, slot := none, grantTs := none, window := none, indication := i }
      floor.dirty := marks }) ∧
    (d.state = .speaking → g = { h with
      gains.mics := tmod h.gains.mics k (fun x => { x with target := 128 })
      floor.runs := tset h.floor.runs (u - 1) { d with state := .closing, reason := some c, indication := i }
      floor.dirty := marks }) ∧
    (d.state = .closing → g = h)

/-- R34 and R19: CLOSE FLOOR acts by the delegate's state; after a close come the gap test of the room that lost a
position, the arbiter for the slot of a cancelled grant, and the room's service, in this order. -/
def Obligations.CloseFloorByState : Prop :=
  ∀ (s : State) (hd : Hdr) (unit : Byte), s.chip.Ready → s.chip.hall.mem.ReadsFindNothing →
    let c := s.chip.restartWindow
    let h := c.hall
    let u := unit.toNat
    let r := h.roomOfUnit u
    let gapTest := fun (g : Hall) => if h.isChair u then g else g.gapTested r
    let serve := fun (g : Hall) => if h.isChair u then g else g.service reader r
    exec (.closeFloor hd unit) s = .next (s.withChip (
      if u = 0 ∨ 192 < u then c.answered hd (.check .fieldOutOfRange 1)
      else if h.known u = false then c.answered hd (.check .unitNotPresent 0)
      else { c with
        hall := match (h.run u).state with
          | .idle => h
          | .waiting => h.drop (some .closedByOperator) u
          | .granting => serve ((gapTest (h.closeOne .operator u)).arbiterRun reader)
          | .speaking => serve (gapTest ((h.closeOne .operator u).aimSpeakers r))
          | .closing => h
          | .chairPending => h.dropChair (some .closedByOperator) u }.answered hd (.good .none 0 {})))

/-- R35: CLEAR FLOOR refuses a room that is not in force and a scope above 2; SPEAKERS closes the position holders with
their consequences, QUEUE drops the queue and stops the gap, ALL does both to every holder and waiting chair of the room,
without a gap. Each rule first reads the records of the delegates on which it acts (R15; the places of these reads are the
model's choice, log 8). -/
def Obligations.ClearFloorByScope : Prop :=
  ∀ (s : State) (hd : Hdr) (room scope : Byte), s.chip.Ready →
    let c := s.chip.restartWindow
    let h := c.hall
    let r := room.toNat
    let read := fun (us : List Nat) (g : Hall) => g.readAll reader.delegate us
    let held := read (h.positionHolders r) h
    let queued := read (h.queue r) h
    let emptied := (queued.each (queued.queue r) (Hall.drop (some .dropped))).setGap r none
    let inRoom := fun (g : Hall) => units.filter (fun u => g.onFloor u && g.roomOfUnit u == r)
    let seen := read (inRoom emptied) emptied
    let us := inRoom seen
    let closed := seen.closeAll reader .operator us
    let chairs := fun (g : Hall) => g.floor.chairs.filter (fun u => g.roomOfUnit u == r)
    let waiting := read (chairs closed) closed
    let cleared := waiting.each (chairs waiting) (Hall.dropChair (some .closedByOperator))
    exec (.clearFloor hd room scope) s = .next (s.withChip (
      if isRoomId h.part.inForce r = false then c.answered hd (.check .fieldOutOfRange 1)
      else if 2 < scope.toNat then c.answered hd (.check .fieldOutOfRange 2)
      else { c with
        hall :=
          if scope = 0 then held.closeWithConsequences reader .operator true (held.positionHolders r)
          else if scope = 1 then emptied
          else cleared.consequences reader false (seen.roomsFreed us) (seen.slotsFreed us) }.answered hd
            (.good .none 0 {})))

/-- R25, R26 and R79: a service attempt does nothing while one of its conditions fails, and otherwise grants the head of the
queue and goes on; a gap timer that has run down stops, and its room is served. An arbiter run does nothing without a free
slot; otherwise the waiting chairs are granted, oldest first, while a slot is free, and then the rooms with a queue and a free
position get a service attempt, the oldest head request first, of two that tie the lower unit address. -/
def Obligations.ServiceGrantsFromHead : Prop :=
  (∀ (h : Hall) (r : Nat), h.mem.ReadsFindNothing →
    let serves := (h.cmd.mode = .live ∨ h.cmd.mode = .safe) ∧
      ((h.settings r).floorMode = .queue ∨ ((h.settings r).floorMode = .operator ∧ h.cmd.mode = .safe)) ∧
      h.gap r = none ∧ h.queue r ≠ [] ∧ (h.positionHolders r).length < (h.settings r).maxSpeakers ∧
      none ∈ h.slots.mics.toList
    (¬serves → h.service reader r = h) ∧
    (∀ u q, serves → h.queue r = u :: q → u ∈ units → h.roomOfUnit u = r →
      h.service reader r = (h.grant u).service reader r)) ∧
  (∀ h : Hall, h.mem.ReadsFindNothing →
    (none ∉ h.slots.mics.toList → h.arbiterRun reader = h) ∧
    (∀ u q, none ∈ h.slots.mics.toList → h.floor.chairs = u :: q → h.arbiterRun reader = (h.grant u).arbiterRun reader) ∧
    (none ∈ h.slots.mics.toList → h.floor.chairs = [] →
      let open' := h.rooms.filter (fun r => (h.positionHolders r).length < (h.settings r).maxSpeakers)
      h.arbiterRun reader = h.each (h.oldestHeadFirst open') (Hall.service reader))) ∧
  (∀ (h : Hall) (rs : List Nat),
    let head := fun (r : Nat) => (h.queue r).headD 0
    let age := fun (r : Nat) => (h.frameCounter - (h.run (head r)).requestTs.getD 0).toNat
    (h.oldestHeadFirst rs).Perm (rs.filter (fun r => h.queue r ≠ [])) ∧
    (h.oldestHeadFirst rs).Pairwise (fun a b => age b < age a ∨ (age a = age b ∧ head a ≤ head b))) ∧
  ∀ (s : State) (r : Nat) (rest : List Due), s.chip.due = .gapExpiry r :: rest → Due.rampStep ∉ rest →
    let c := s.chip
    let h := c.hall
    exec (.gapExpiry r) s = .next (s.withChip { c with
      due := rest
      hall := if h.gap r = some 0 then { h with floor.gaps := tset h.floor.gaps r none }.service reader r else h })

/-! ## Section settings and walls -/

/-- R13: SET SECTION FLOOR refuses enumerations, clamps numbers and writes the six floor fields together; the level fields
stay, or become the defaults in a damaged record (R12). Where the section heads a room R39 acts on its floor, in this order:
a floor mode that ends the queue drops it and stops the gap, the queue is cut at the limit, the positions beyond max
speakers are closed, most recently granted first (R38), and a service attempt is made. Nothing else changes. -/
def Obligations.SetSectionFloorWrites : Prop :=
  (∀ (s : State) (hd : Hdr) (sect mode speakers limit gap chair time : Byte), s.chip.Ready →
    s.chip.hall.mem.ReadsFindNothing →
    let c := s.chip
    let h := c.hall
    let x := max 1 (min 8 speakers.toNat)
    let q := max 1 (min 32 limit.toNat)
    let g := min 50 gap.toNat
    let good : Answer :=
      if speakers.toNat ≠ x then .good .adjusted 3 {}
      else if limit.toNat ≠ q then .good .adjusted 4 {}
      else if gap.toNat ≠ g then .good .adjusted 5 {}
      else .good .none 0 {}
    let new := { h.settings sect.toNat with
      floorMode := if mode = 0 then .openFloor else if mode = 1 then .queue else if mode = 2 then .override else .operator
      maxSpeakers := x, queueLimit := q, gap := g
      chairPolicy := if chair = 0 then .muteOnly else .clearAll
      timeAction := if time = 0 then .warnOnly else .close }
    let written := { h with mem.settings := tset h.mem.settings sect.toNat ⟨new, false, .sound⟩ }
    let fails := h.cmd.mode = .safe ∨ 7 < sect.toNat ∨ 3 < mode.toNat ∨ 1 < chair.toNat ∨ 1 < time.toNat
    (fails → exec (.setSectionFloor hd sect mode speakers limit gap chair time) s = .next (s.withChip (
      if h.cmd.mode = .safe then c.answered hd (.check .wrongMode 3)
      else if 7 < sect.toNat then c.answered hd (.check .fieldOutOfRange 1)
      else if 3 < mode.toNat then c.answered hd (.check .fieldOutOfRange 2)
      else if 1 < chair.toNat then c.answered hd (.check .fieldOutOfRange 6)
      else c.answered hd (.check .fieldOutOfRange 7)))) ∧
    (¬fails → ∃ y, exec (.setSectionFloor hd sect mode speakers limit gap chair time) s =
        .next (s.withChip ({ c with hall := y }.answered hd good)) ∧
      written.SameBeyondFloor y ∧
      y = written.settingsTaken sect.toNat (h.settings sect.toNat))) ∧
  ∀ (h : Hall) (r : Nat),
    let us := h.excess r
    let older := fun (u v : Nat) =>
      if (h.run u).state = (h.run v).state then h.older (h.grantKey u) (h.grantKey v) else (h.run u).state == .speaking
    us.length = (h.positionHolders r).length - (h.settings r).maxSpeakers ∧ us.Nodup ∧
    (∀ u ∈ us, u ∈ h.positionHolders r) ∧ (∀ u ∈ us, ∀ v ∈ h.positionHolders r, v ∉ us → older v u = true) ∧
    ∀ (i j : Nat), i < j → ∀ u ∈ us[i]?, ∀ v ∈ us[j]?, older v u = true

/-- R14: SET SECTION LEVELS refuses a section above 7, clamps the levels and writes them together; the floor fields stay, or
become the defaults in a damaged record (R12). -/
def Obligations.SetSectionLevelsWrites : Prop :=
  ∀ (s : State) (hd : Hdr) (sect level fill underlay : Byte), s.chip.Ready → s.chip.hall.mem.ReadsFindNothing →
    let c := s.chip
    let h := c.hall
    let l := min 127 level.toNat
    let f := min 128 fill.toNat
    let w := min 128 underlay.toNat
    let new := { h.settings sect.toNat with level := l, fill := f, underlay := w }
    exec (.setSectionLevels hd sect level fill underlay) s = .next (s.withChip (
      if h.cmd.mode = .safe then c.answered hd (.check .wrongMode 3)
      else if 7 < sect.toNat then c.answered hd (.check .fieldOutOfRange 1)
      else
        { c with hall.mem.settings := tset h.mem.settings sect.toNat ⟨new, false, .sound⟩ }.answered hd
          (if level.toNat ≠ l then .good .adjusted 2 {}
          else if fill.toNat ≠ f then .good .adjusted 3 {}
          else if underlay.toNat ≠ w then .good .adjusted 4 {}
          else .good .none 0 {})))

/-- R8, R7, R106, R107, R109 and R115: SET WALL refuses wall and override, writes the override and computes the effective
walls; a change goes to the start test, which acts by phase and mode in force: in LIVE and SAFE a repartition starts, in CONFIG
the partition in force changes at once, with the reactions of every reader and REPARTITION DONE of kind IMMEDIATE. The order of
the readers, the LANGUAGE claims held under the id of a new room, the order of several RELAY LOST and the order of the new
rooms' plans are the model's choice (logs 16, 17, 47 and 51), and so is that REPARTITION DONE of kind IMMEDIATE is posted after
the reactions of the readers (log 27, DEDUCED). -/
def Obligations.SetWallWrites : Prop :=
  (∀ (s : State) (hd : Hdr) (wall ovr : Byte), s.chip.Ready → s.chip.hall.mem.ReadsFindNothing →
    let c := s.chip
    let h := c.hall
    let o : Override := if ovr = 0 then .follow else if ovr = 1 then .forceDeployed else .forceStowed
    let written := { h with mem.overrides := tset h.mem.overrides wall.toNat ⟨o, false, .sound⟩ }
    let p : Partition := tmake 7 (fun w => match written.wallOverride w with
      | .follow => (tget h.part.walls w).debounced
      | .forceDeployed => .deployed
      | .forceStowed => .stowed)
    let waits := p = h.part.inForce ∨ h.part.repartition ≠ .idle ∨ h.cmd.mode = .stopping
    let rs := changedRooms h.part.inForce p
    let ss := changedSections h.part.inForce p
    (6 < wall.toNat ∨ 2 < ovr.toNat → exec (.setWall hd wall ovr) s = .next (s.withChip (c.answered hd
      (if 6 < wall.toNat then .check .fieldOutOfRange 1 else .check .fieldOutOfRange 2)))) ∧
    (wall.toNat ≤ 6 ∧ ovr.toNat ≤ 2 → ∃ g,
      exec (.setWall hd wall ovr) s = .next (s.withChip ({ c with hall := g }.answered hd (.good .none 0 {}))) ∧
      g.mem = written.mem ∧ g.part.effective = p ∧
      (p = h.part.effective → g = written) ∧
      (p ≠ h.part.effective ∧ waits → g = { written with part.effective := p }) ∧
      (p ≠ h.part.effective ∧ ¬waits ∧ (h.cmd.mode = .live ∨ h.cmd.mode = .safe) → g = { written with
        part.effective := p, part.repartition := .fadingOut p ss
        gains.rooms := h.roomFades 128 rs, gains.booths := h.boothFades 128 rs
        events := h.events.push h.frameCounter
          ⟨.repartitionStarted, h.frameCounter, 0, wallMap h.part.inForce, wallMap p, sectionMap ss⟩ }) ∧
      (p ≠ h.part.effective ∧ ¬waits ∧ h.cmd.mode = .config →
        g.part = { h.part with effective := p, inForce := p } ∧ g.slots.floorActive = tmake 8 (isRoomId p) ∧
        (let changed := { written with part.effective := p }.partitionTaken p
         g = { changed with
          events := changed.events.push h.frameCounter
            ⟨.repartitionDone, h.frameCounter, 0, wallMap p, 1, sectionMap ss⟩ })))) ∧
  ∀ h : Hall, h.mem.ReadsFindNothing → h.startTest reader = h.startTaken ∧ h.computeWalls reader = h.wallsTaken

/-! ## Booths and plans -/

/-- R60: SET BOOTH refuses fields, refuses a changed language or home section while the booth is not OFF outside CONFIG,
clamps the gain and writes the record. A change or a cleared mark is followed by the Router's steps: the effective state
(R68), the relay check (R70), the assignments of the old and the new room (R66), and the notices; floor and walls stay. The
booth's fade point takes its room's target (R101). The notices of the channel that a booth led are marked in the room in which
it led (R66, R73). In LEAD CHANGED the language of a booth that left LEAD is the one that it led until now (log 21), and the room
of a booth whose home section was written is the new one (log 39); several RELAY LOST are posted by ascending booth (log 47):
these are the model's choice. -/
def Obligations.SetBoothWrites : Prop :=
  ∀ (s : State) (hd : Hdr) (booth language home gain : Byte), s.chip.Ready → s.chip.hall.mem.ReadsFindNothing →
    let c := s.chip
    let h := c.hall
    let b := booth.toNat
    let old := h.boothRecord b
    let a := min 127 gain.toNat
    let good : Answer := if gain.toNat ≠ a then .good .adjusted 4 {} else .good .none 0 {}
    let same := old.value.language = language.toNat ∧ old.value.home = home.toNat
    let written := { h with mem.booths := tset h.mem.booths b ⟨⟨language.toNat, home.toNat, a⟩, false, .sound⟩ }
    let fails := h.cmd.mode = .safe ∨ 15 < b ∨ 63 < language.toNat ∨ 7 < home.toNat ∨
      (h.cmd.mode ≠ .config ∧ h.effective b ≠ .off ∧ ¬same)
    (fails → exec (.setBooth hd booth language home gain) s = .next (s.withChip (
      if h.cmd.mode = .safe then c.answered hd (.check .wrongMode 3)
      else if 15 < b then c.answered hd (.check .fieldOutOfRange 1)
      else if 63 < language.toNat then c.answered hd (.check .fieldOutOfRange 2)
      else if 7 < home.toNat then c.answered hd (.check .fieldOutOfRange 3)
      else c.answered hd (.check .boothNotOff 0)))) ∧
    (¬fails → ∃ g, exec (.setBooth hd booth language home gain) s =
        .next (s.withChip ({ c with hall := g }.answered hd good)) ∧
      { written with gains.booths := written.boothFades 0 [] }.SameBeyondRouter g ∧
      (same ∧ old.damaged = false → g.router = h.router ∧ g.slots = h.slots ∧ g.events = h.events) ∧
      (¬(same ∧ old.damaged = false) →
        let led : Nat → Hall.Led := fun y => ⟨h.roomOfBooth y, (h.booth y).language⟩
        let before : Hall.BoothBefore := ⟨old.value, old.damaged, h.effective b, h.roomOfBooth b, (h.boothRun b).assignment == Assignment.lead⟩
        tget g.router.boothDirty b = true ∧
        g = { written.boothTaken led b before with gains.booths := written.boothFades 0 [] }))

/-- R62 to R64 and R85: SET HOME PLAN clamps the length, refuses bad and repeated codes, writes the plan, and gives the room of
the section the plan of R63, with LANGUAGE DROPPED for each code cut. Where the room plan has changed, the notices of the
channels whose code changed are marked, the claims of channels beyond a shorter plan are released and those of a longer plan
made, and the assignments are evaluated. -/
def Obligations.SetHomePlanWrites : Prop :=
  ∀ (s : State) (hd : Hdr) (sect length : BitVec 4) (codes : Vector (BitVec 6) 8), s.chip.Ready →
    s.chip.hall.mem.ReadsFindNothing →
    let c := s.chip
    let h := c.hall
    let r := h.roomOfSection sect.toNat
    let n := min 8 length.toNat
    let l := (codes.toList.map BitVec.toNat).take n
    let bad := (List.range n).find? (fun i => l.getD i 0 == 0)
    let again := (List.range n).find? (fun i => (l.take i).contains (l.getD i 0))
    let written := { h with mem.plans := tset h.mem.plans sect.toNat ⟨l, false, .sound⟩ }
    let good : Answer := if 8 < length.toNat then .good .adjusted 2 {} else .good .none 0 {}
    let fails := h.cmd.mode = .safe ∨ 7 < sect.toNat ∨ bad ≠ none ∨ again ≠ none
    (fails → exec (.setHomePlan hd sect length codes) s = .next (s.withChip (
      if h.cmd.mode = .safe then c.answered hd (.check .wrongMode 3)
      else if 7 < sect.toNat then c.answered hd (.check .fieldOutOfRange 1)
      else match bad with
        | some i => c.answered hd (.check .fieldOutOfRange (i + 3))
        | none => c.answered hd (.check .duplicateLanguage (again.getD 0 + 3))))) ∧
    (¬fails → ∃ g, exec (.setHomePlan hd sect length codes) s =
        .next (s.withChip ({ c with hall := g }.answered hd good)) ∧
      written.SameBeyondRouter g ∧
      (∀ x < 8, g.plan x = if x = r then written.planOf r else h.plan x) ∧
      (written.planOf r = h.plan r → g.router.booths = h.router.booths ∧ g.slots = h.slots) ∧
      g = written.planTaken r)

/-! ## Presets -/

/-- R156, R158 and R159: STORE PRESET and ERASE PRESET make their checks in order; accepted, they make the preset WRITING
and the store busy, a store with a copy of every record as it stands. SET HOUSE WRITE writes the house write enable. -/
def Obligations.PresetsAreProgrammed : Prop :=
  (∀ (s : State) (hd : Hdr) (preset : Byte), s.chip.Ready → s.chip.hall.mem.ReadsFindNothing →
    let c := s.chip
    let h := c.hall
    let p := preset.toNat
    let m := h.mem
    exec (.storePreset hd preset) s = .next (s.withChip (
      if h.cmd.mode = .safe then c.answered hd (.check .wrongMode 3)
      else if 15 < p then c.answered hd (.check .fieldOutOfRange 1)
      else if h.store.programming ≠ none then c.answered hd (.check .storeInProgress 0)
      else if 12 ≤ p ∧ (c.pins.houseWp = false ∨ h.store.houseWrite = false) then c.answered hd (.check .housePreset 0)
      else if m.settings.toList.any (·.damaged) ∨ m.plans.toList.any (·.damaged) ∨ m.booths.toList.any (·.damaged) ∨
          m.classes.toList.any (·.damaged) ∨ m.overrides.toList.any (·.damaged) then
        c.answered hd (.check .recordDamaged 0)
      else
        { c with
          hall.store.presets := tset h.store.presets p .writing
          hall.store.programming := some ⟨p, .store ⟨tmake 7 (fun w => (tget m.overrides w).value),
            tmake 8 (fun i => (tget m.settings i).value), tmake 8 (fun i => (tget m.plans i).value),
            tmake 16 (fun b => (tget m.booths b).value), tmake 4 (fun k => (tget m.classes k).value)⟩,
            1474560⟩ }.answered hd (.good .none 0 {})))) ∧
  (∀ (s : State) (hd : Hdr) (preset : Byte), s.chip.Ready →
    let c := s.chip
    let h := c.hall
    let p := preset.toNat
    exec (.erasePreset hd preset) s = .next (s.withChip (
      if h.cmd.mode = .safe then c.answered hd (.check .wrongMode 3)
      else if 15 < p then c.answered hd (.check .fieldOutOfRange 1)
      else if h.store.programming ≠ none then c.answered hd (.check .storeInProgress 0)
      else if 12 ≤ p ∧ (c.pins.houseWp = false ∨ h.store.houseWrite = false) then c.answered hd (.check .housePreset 0)
      else
        { c with
          hall.store.presets := tset h.store.presets p .writing
          hall.store.programming := some ⟨p, .erase, 491520⟩ }.answered hd (.good .none 0 {})))) ∧
  ∀ (s : State) (hd : Hdr) (enable : Byte), s.chip.Ready →
    let c := s.chip
    exec (.setHouseWrite hd enable) s = .next (s.withChip (
      if 1 < enable.toNat then c.answered hd (.check .fieldOutOfRange 1)
      else { c with hall.store.houseWrite := enable == 1 }.answered hd (.good .none 0 {})))

/-- R157 and R138: when a programming has run, the store is idle; a matching store leaves the preset VALID, every other end
leaves it EMPTY, with PRESET DONE or PRESET FAILED; a failed store sets the deferred record. The model's choice are: that
the rows complete at any remaining count (log 11), that the outcome of the read-back is an operand of the row (log 12), and
that a row that finds no programming of its kind changes nothing (log 37). -/
def Obligations.ProgrammingEnds : Prop :=
  ∀ (s : State) (p n : Nat) (copy : PresetContents) (ok : Bool),
    let c := s.chip
    let h := c.hall
    let posted := fun op => h.events.push h.frameCounter
      ⟨if ok then .presetDone else .presetFailed, h.frameCounter, byte p, op, 0, 0⟩
    (h.store.programming = some ⟨p, .store copy, n⟩ → exec (.storeComplete ok) s = .next (s.withChip { c with
      hall.store.presets := tset h.store.presets p (if ok then .valid copy else .empty)
      hall.store.programming := none, hall.events := posted 0
      hall.cmd.deferred := if ok then h.cmd.deferred else some p })) ∧
    (h.store.programming = some ⟨p, .erase, n⟩ → exec (.eraseComplete ok) s = .next (s.withChip { c with
      hall.store.presets := tset h.store.presets p .empty
      hall.store.programming := none, hall.events := posted 1 })) ∧
    ((∀ q x m, h.store.programming ≠ some ⟨q, .store x, m⟩) → exec (.storeComplete ok) s = .next s) ∧
    ((∀ q m, h.store.programming ≠ some ⟨q, .erase, m⟩) → exec (.eraseComplete ok) s = .next s)

/-- R160 and Table 11.2: RECALL PRESET makes its checks in order; accepted, it rewrites the tables of a preset with fresh
protection, the booth records in CONFIG alone, and leaves the delegate table; in LIVE the answer is PARTIAL. Each part is
followed by its reaction before the next is written: R57 for each class, R39 for each room, the room plan of each room (R63,
R64), the steps of R60 for each booth, and the effective walls with the start test (R7). These are the model's choice: that all
booth records are written before the steps of the first are taken (log 32), the language and room of LEAD CHANGED (logs 21 and
39), the order of the units of a class (log 38), and what a partition changed at once leaves open (logs 16, 17, 47 and 51, and
log 27, DEDUCED: REPARTITION DONE of kind IMMEDIATE is posted after the reactions of the readers). -/
def Obligations.RecallPresetRewrites : Prop :=
  ∀ (s : State) (hd : Hdr) (preset : Byte), s.chip.Ready → s.chip.hall.mem.ReadsFindNothing →
    let c := s.chip
    let h := c.hall
    let p := preset.toNat
    let taken := (h.cmd.mode = .config ∨ h.cmd.mode = .live) ∧ p ≤ 15
    ((∀ x, tget h.store.presets p ≠ .valid x) ∨ ¬taken →
      exec (.recallPreset hd preset) s = .next (s.withChip (c.answered hd (
      if h.cmd.mode ≠ .config ∧ h.cmd.mode ≠ .live then .check .wrongMode h.cmd.mode.code
      else if 15 < p then .check .fieldOutOfRange 1
      else if tget h.store.presets p = .writing then .check .storeInProgress 0
      else .check .presetEmpty 0)))) ∧
    ∀ x, taken → tget h.store.presets p = .valid x → ∃ g,
      exec (.recallPreset hd preset) s = .next (s.withChip ({ c with hall := g }.answered hd
        (if h.cmd.mode = Mode.live then .good .partialRecall 0 {} else .good .none 0 {}))) ∧
      g.mem = { h.mem with
        classes := tmake 4 (fun k => ⟨tget x.classes k, false, .sound⟩)
        settings := tmake 8 (fun i => ⟨tget x.settings i, false, .sound⟩)
        plans := tmake 8 (fun i => ⟨tget x.plans i, false, .sound⟩)
        booths := if h.cmd.mode = Mode.live then h.mem.booths else tmake 16 (fun b => ⟨tget x.booths b, false, .sound⟩)
        overrides := tmake 7 (fun w => ⟨tget x.overrides w, false, .sound⟩) } ∧
      g.store = h.store ∧
      let told := h.classesRecalled x.classes
      let set := told.settingsRecalled x.settings
      let planned := set.plansRecalled x.plans
      let seated := if h.cmd.mode = Mode.live then planned else planned.boothsRecalled x.booths
      g = { seated with mem.overrides := tmake 7 (fun w => ⟨tget x.overrides w, false, .sound⟩) }.wallsTaken

/-! ## Frames -/

/-- R117, R119 and R120: a frame that is not processed passes unchanged; the counter and the Timebase stand, and the run
count goes on, from 0 where more than three periods lie before the frame. A LOCKED port is then LOST, with RING LOST. That
the frame carries the reference clock periods since the last marker, of which more than 1,536 end lock or run and exactly
1,536 do not, and that the same periods count a programming down, is the model's choice (log 11). -/
def Obligations.UnprocessedFramesPass : Prop :=
  ∀ (s : State) (a : Arrival), s.chip.due = [] → ¬s.chip.Processes a →
    let c := s.chip
    let h := c.hall
    let late := c.ring.sinceMarker.isSome = true ∧ 1536 < a.gap
    let lost := late ∧ c.ring.lock = .locked
    exec (.frameArrival a) s = .next (s.withChip { c with
      hall.events := if lost then h.events.push h.frameCounter ⟨.ringLost, h.frameCounter, 0, 0, 0, 0⟩ else h.events
      hall.mem := a.upsets.foldl TableMemory.strike h.mem
      hall.store.programming := h.store.programming.map (fun x => { x with remaining := x.remaining - a.gap })
      ring := { c.ring with
        lock := if lost then .lost else c.ring.lock
        run := if late then 1 else c.ring.run + 1
        sinceMarker := some 0 }
      pins := a.pins, ringOut := some a.frame })

/-- R119, R120 and R121: LOCKED becomes LOST with RING LOST; the sixteenth frame of a run makes the port LOCKED, from LOST
with every known unit and every notice marked and RING LOCKED posted, from SEARCHING with nothing marked or posted. (The
lock is shown for a frame whose cell goes to another node.) That the time since the last marker stands at three nominal periods
after RING_LOST and RUN_COUNT_CLEARED also where no marker has yet been seen is the model's choice (log 53). -/
def Obligations.RingIsLostAndLocked : Prop :=
  (∀ s : State, s.chip.due = [] →
    let c := s.chip
    let h := c.hall
    exec .ringLost s = .next (s.withChip (
      if c.ring.lock = .locked then { c with
        ring := { c.ring with lock := .lost, run := 0, sinceMarker := some 1536 }
        hall.events := h.events.push h.frameCounter ⟨.ringLost, h.frameCounter, 0, 0, 0, 0⟩ }
      else c)) ∧
    exec .runCountCleared s = .next (s.withChip (
      if c.ring.lock = .locked then c else { c with ring := { c.ring with run := 0, sinceMarker := some 1536 } }))) ∧
  ∀ (s : State) (a : Arrival), s.chip.due = [] → s.chip.Processes a → s.chip.ring.lock ≠ .locked →
    s.chip.hall.mem.ReadsFindNothing → a.upsets = [] → a.cellFirst = true →
    tget a.frame.lane 0 ≠ 0 → tget a.frame.lane 1 ≠ 0xFE → tget a.frame.lane 2 ≠ 0xFE →
    let c := s.chip
    let h := c.hall
    let lost := c.ring.lock = .lost
    ∃ t, exec (.frameArrival a) s = .next t ∧
      t.chip.ring = { c.ring with lock := .locked, run := 0, sinceMarker := some 0 } ∧
      let g := t.chip.hall
      g.frameCounter = h.frameCounter + 1 ∧
      (∀ u ∈ units, tget g.floor.dirty (u - 1) = (tget h.floor.dirty (u - 1) || (decide lost && h.known u))) ∧
      g.router.boothDirty = (if lost then .replicate 16 true else h.router.boothDirty) ∧
      g.router.channelDirty = (if lost then .replicate 72 true else h.router.channelDirty) ∧
      g.events = if lost then
          h.events.push (h.frameCounter + 1) ⟨.ringLocked, h.frameCounter + 1, 0, 0, 0, 0⟩
        else h.events

/-- R118, R122 and R123: a processed frame moves the frame counter and the counts of tick and ramp step, unless its cell is
an ENGINE RESET. -/
def Obligations.ProcessedFramesCount : Prop :=
  ∀ (s : State) (a : Arrival), s.chip.Processes a →
    (∀ hd, decodeCell a.frame.lane ≠ some (.command hd .engineReset)) →
    let c := s.chip
    ∃ t, exec (.frameArrival a) s = .next t ∧
      t.chip.hall.frameCounter = c.hall.frameCounter + 1 ∧
      t.chip.time.sinceTick = (if 480 ≤ c.time.sinceTick + 1 then 0 else c.time.sinceTick + 1) ∧
      t.chip.time.sinceRamp = (if c.time.rampInterval ≤ c.time.sinceRamp + 1 then 0 else c.time.sinceRamp + 1)

/-- R77, R117 and R90: in a processed frame the active floor slots and the slots of LANGUAGE and FEED claims leave with the
output values held before the frame; every other slot leaves as it came. -/
def Obligations.SlotsAreWritten : Prop :=
  ∀ (s : State) (a : Arrival), s.chip.due = [] → s.chip.Processes a →
    let c := s.chip
    let m := c.hall.slots
    ∃ t f, exec (.frameArrival a) s = .next t ∧ t.chip.ringOut = some f ∧
      ∀ i < 128, tget f.slots i =
        if i < 32 then tget a.frame.slots i
        else if i < 40 then
          if tget m.floorActive (i - 32) then BitVec.ofInt 24 (tget c.outs.rooms (9 * (i - 32)))
          else tget a.frame.slots i
        else match tget m.pool (i - 40) with
          | some (.language r k) => BitVec.ofInt 24 (tget c.outs.rooms (9 * r + k))
          | some (.feed b) => BitVec.ofInt 24 (tget c.outs.booths b)
          | _ => tget a.frame.slots i

/-- R117, R90 and R124 to R127: in a processed frame another node's cell passes; a cell for the chip that is not good is
consumed and counted; a COMMAND that finds 8 replies waiting stays in the lane; any other good cell is consumed and handled
as its own row handles it. An empty or emptied cell is offered to the Transmit Arbiter, unless the port is no longer LOCKED.
What leaves is empty or a cell of the chip's own. Counts, outputs and due steps are those of the frame. These are the
model's choice: that the steps the frame makes due come after its cell, or all before it, as the arrival says (logs 2 and
4); that bytes 1 to 15 of an emptied cell leave as they came (log 24); the order of the due steps, windows before the tick
(log 35); and that a relock's marks and RING LOCKED come before the computation and the cell (log 50). -/
def Obligations.LaneCellsByCase : Prop :=
  (∀ (s : State) (a : Arrival), s.chip.Processes a →
    let c := s.chip
    let x := a.frame.lane
    ∃ t f, exec (.frameArrival a) s = .next t ∧ t.chip.ringOut = some f ∧
      (tget x 0 ≠ 0 ∧ tget x 1 ≠ 0xFE ∧ tget x 2 ≠ 0xFE →
        f.lane = x ∧ t.chip.ring.laneErrors = c.ring.laneErrors) ∧
      (tget x 0 = 0 ∨ (tget x 1 ≠ 0xFE ∧ tget x 2 = 0xFE) →
        (tget f.lane 0 = 0 ∨ tget f.lane 2 = 0xFE) ∧ t.chip.ring.laneErrors = c.ring.laneErrors) ∧
      (tget x 0 ≠ 0 ∧ tget x 1 = 0xFE ∧ decodeCell x = none →
        (tget f.lane 0 = 0 ∨ tget f.lane 2 = 0xFE) ∧ t.chip.ring.laneErrors = min (c.ring.laneErrors + 1) 65535) ∧
      (∀ hd y, tget x 0 ≠ 0 ∧ tget x 1 = 0xFE ∧ decodeCell x = some (.command hd y) ∧ 8 ≤ c.hall.cmd.replies.length →
        f.lane = x ∧ t.chip.ring.laneErrors = c.ring.laneErrors ∧ t.chip.hall.cmd.replies = c.hall.cmd.replies)) ∧
  ∀ (s : State) (a : Arrival), s.chip.Processes a → s.chip.due = [] → a.upsets = [] → s.chip.hall.mem.ReadsFindNothing →
    let c := s.chip
    let x := a.frame.lane
    let empty := tset x 0 0
    let counted := c.processed a
    let d := if a.cellFirst then counted else counted.finish
    let leaves := fun (y : Chip × Cell) => exec (.frameArrival a) s =
      .next (s.withChip { y.1 with ringOut := some ⟨c.hall.slotsOut c.outs a.frame, y.2⟩ })
    (tget x 0 = 0 → leaves (d.offered x)) ∧
    (tget x 0 ≠ 0 → tget x 1 ≠ 0xFE → tget x 2 ≠ 0xFE → leaves (d, x)) ∧
    (tget x 0 ≠ 0 → tget x 1 ≠ 0xFE → tget x 2 = 0xFE → leaves (d.offered empty)) ∧
    (tget x 0 ≠ 0 → tget x 1 = 0xFE → decodeCell x = none →
      leaves ({ d with ring.laneErrors := min (d.ring.laneErrors + 1) 65535 }.offered empty)) ∧
    ∀ m, tget x 0 ≠ 0 → tget x 1 = 0xFE → decodeCell x = some m →
      ((∃ hd y, m = .command hd y) ∧ 8 ≤ d.hall.cmd.replies.length → leaves (d, x)) ∧
      (¬((∃ hd y, m = .command hd y) ∧ 8 ≤ d.hall.cmd.replies.length) →
        ∀ (i : Instr) (t : State), i.cell? = some m → exec i (s.withChip d) = .next t →
          leaves (if t.chip.ring.lock = .locked then t.chip.offered empty else (t.chip, empty)))

/-- R127, R128, R129 and R131: an empty cell takes the first source that has something to send: the next marked unit in round
robin, the oldest reply, the lowest booth notice, the lowest channel notice, the oldest event. A placed cell is occupied,
from 0xFE, and carries its CRC. R44, R46, R48, R71, R72, R135 and Tables 4.4, 8.8, 8.9, 9.2 and 10.2: the bytes 0 to 13 of each
kind of cell, and what a UNIT STATE cell does to its unit: the mark and the indication go, and a GRANTING unit's response window
of 1,440 frames starts, at whatever count it stood (for a window that has run down at this frame and whose expiry is not yet
taken this is read from R48, log 25, DEDUCED). -/
def Obligations.ArbiterServesInOrder : Prop :=
  (∀ (h : Hall) (pointer : Nat), h.mem.ReadsFindNothing →
    let p := h.place reader pointer
    let marked := fun u => tget h.floor.dirty (u - 1)
    (∀ u ∈ units, marked u = true →
      (pointer < u ∧ (∀ v ∈ units, marked v = true → pointer < v → u ≤ v)) ∨
        ((∀ v ∈ units, marked v = true → v ≤ pointer ∧ u ≤ v)) →
      p.pointer = u ∧ p.cell = some (h.unitCell u) ∧ p.hall = h.unitPlaced u) ∧
    ((∀ u ∈ units, marked u = false) → p.pointer = pointer ∧
      (∀ x q, h.cmd.replies = x :: q → p.cell = some x.cell ∧ p.hall = { h with cmd.replies := q }) ∧
      (h.cmd.replies = [] →
        (∀ b < 16, tget h.router.boothDirty b = true → (∀ j < b, tget h.router.boothDirty j = false) →
          p.cell = some (h.boothCell b) ∧
            p.hall = { h with router.boothDirty := tset h.router.boothDirty b false }) ∧
        ((∀ b < 16, tget h.router.boothDirty b = false) →
          (∀ i < 72, tget h.router.channelDirty i = true → (∀ j < i, tget h.router.channelDirty j = false) →
            p.cell = some (h.channelCell (i / 9) (i % 9)) ∧
              p.hall = { h with router.channelDirty := tset h.router.channelDirty i false }) ∧
          ((∀ i < 72, tget h.router.channelDirty i = false) →
            (∀ e q, h.events.events = e :: q → p.cell = some e.cell ∧ p.hall = { h with events.events := q }) ∧
            (h.events.events = [] → p.cell = none ∧ p.hall = h))))) ∧
    ∀ x, p.cell = some x → tget x 0 = 1 ∧ tget x 2 = 0xFE ∧ crcMatches x = true) ∧
  (∀ (h : Hall) (u : Nat), u ∈ units →
    let d := h.run u
    let r := h.roomOfUnit u
    let holds := d.state ∈ [FloorState.granting, .speaking, .closing]
    let limit := (h.timeClass (h.loaded u).timeClass).limit
    let left := if h.isChair u = true ∨ limit = 0 then 0xFFFF
      else if d.state = .speaking ∨ d.state = .closing then limit - d.seconds
      else limit
    let indications : List Indication := [.denied, .queueFull, .floorClosed, .dropped, .timeWarning, .timeUp, .closedByChair,
      .closedByOverride, .closedByOperator, .closedByResize]
    (h.unitCell u).toList.take 14 = [1, byte u, 0xFE, 0x82, byte d.grantId.toNat,
      match d.state with
        | .idle => 0
        | .waiting => 1
        | .chairPending => 1
        | .granting => 2
        | .speaking => 3
        | .closing => 4,
      match d.slot with
        | some k => if holds then byte (8 + k) else 0xFF
        | none => 0xFF,
      if d.state = .waiting ∧ u ∈ h.queue r then byte ((h.queue r).idxOf u + 1) else 0,
      match d.indication with
        | some i => byte (indications.idxOf i + 1)
        | none => 0,
      byte (left / 256), byte (left % 256), 0, 0, 0] ∧
    h.unitPlaced u = { h with
      floor.runs := tset h.floor.runs (u - 1) { d with
        indication := none
        window := if d.state = .granting then some 1440 else d.window }
      floor.dirty := tset h.floor.dirty (u - 1) false }) ∧
  (∀ (h : Hall) (n : Nat),
    let cell := fun (o : Option Nat) => match o with
      | some k => byte k
      | none => (0xFF : Byte)
    (n < 16 →
      let x := h.boothRun n
      (h.boothCell n).toList.take 14 = [1, byte (0xD0 + n), 0xFE, 0x83, 0,
        match h.effective n with
          | .off => 0
          | .ready => 1
          | .onAir => 2,
        match x.assignment with
          | .none => 0
          | .lead => 1
          | .stoodDown => 2
          | .unplanned => 3,
        byte (h.roomOfBooth n), cell x.outSlot, cell x.feedSlot,
        match x.relay with
          | .booth t => byte t
          | .floor => 0xFF,
        if x.selection = x.relay then 0 else 1, 0, 0]) ∧
    ∀ k < 9, n < 8 →
      let r := h.roomOfSection n
      let slot := cell (((List.range 88).find? (fun i => tget h.slots.pool i == some (.language r k))).map (40 + ·))
      (h.channelCell n k).toList.take 14 = [1, byte (0xE0 + n), 0xFE, 0x84, 0, byte n, byte r, byte k] ++
        (if k = 0 then [0, byte (32 + r), 0, 0xFF]
        else match (h.plan r)[k - 1]? with
          | none => [0, 0xFF, 3, 0xFF]
          | some l => match h.carrier r k with
            | some b => [byte l, slot, 1, byte b]
            | none => [byte l, slot, 2, 0xFF]) ++ [0, 0]) ∧
  (∀ (tag : Byte) (q : Qualifier) (x : Sense) (info : Nat) (d : Data),
    let senses : List (List Sense) := [
      [.unknownCommand, .fieldOutOfRange, .duplicateLanguage, .unitNotPresent, .notOperatorRoom, .presetEmpty],
      [.wrongMode, .tablesDamaged], [.unitNotIdle, .boothNotOff, .storeInProgress, .stopping],
      [.floorFull, .noMicSlot, .supervisionLocked], [.housePreset], [.recordDamaged], [.storeFailed], [.groupAbandoned]]
    let key := senses.findIdx (fun y => y.contains x)
    (Reply.cell ⟨tag, .good q info d⟩).toList.take 14 = [1, 0xF0, 0xFE, 0x81, tag, 0,
      match q with
        | .none => 0
        | .adjusted => 1
        | .partialRecall => 2,
      0, byte (info / 256), byte (info % 256), d.d0, d.d1, d.d2, d.d3] ∧
    (Reply.cell ⟨tag, .check x info⟩).toList.take 14 = [1, 0xF0, 0xFE, 0x81, tag, 1, byte (key + 1),
      byte ((senses.getD key []).idxOf x + 1), byte (info / 256), byte (info % 256), 0, 0, 0, 0]) ∧
  ∀ e : Event,
    let kinds : List EventKind := [.wallChanged, .repartitionStarted, .repartitionDone, .granted, .closed, .unresponsive,
      .chairPriority, .poolLow, .unknownUnit, .timeWarning, .timeUp, .languageDropped, .leadChanged, .relayLost, .claimWaiting,
      .claimServed, .integrityCorrected, .recordDamaged, .ringLost, .ringLocked, .supervisionExpired, .restarted, .eventsLost,
      .presetDone, .presetFailed]
    let time := e.ts.toNat
    e.cell.toList.take 14 = [1, 0xF0, 0xFE, 0x85, 0, byte (kinds.idxOf e.kind + 1), e.subject, byte (time / 2 ^ 24),
      byte (time / 2 ^ 16 % 256), byte (time / 2 ^ 8 % 256), byte (time % 256), e.d0, e.d1, e.d2]

/-! ## Steps of the chip's own time -/

/-- A row of a step that is not due changes nothing (the model's choice, log 2). -/
def Obligations.StepsNotDueChangeNothing : Prop :=
  ∀ s : State, Due.rampStep ∉ s.chip.due →
    exec .rampStep s = .next s ∧
    (Due.tick ∉ s.chip.due → exec .tick s = .next s) ∧
    (Due.second ∉ s.chip.due → exec .second s = .next s) ∧
    (Due.scan ∉ s.chip.due → exec .scan s = .next s) ∧
    (∀ w, Due.wallFlip w ∉ s.chip.due → exec (.wallChanged w) s = .next s) ∧
    (Due.partitionChange ∉ s.chip.due → exec .partitionChangeEvent s = .next s) ∧
    (Due.repartitionDone ∉ s.chip.due → exec .repartitionDone s = .next s) ∧
    (Due.stopping ∉ s.chip.due → exec .stoppingComplete s = .next s) ∧
    (∀ u, Due.closeEnd u ∉ s.chip.due → exec (.closeEnd u) s = .next s) ∧
    (∀ r, Due.gapExpiry r ∉ s.chip.due → exec (.gapExpiry r) s = .next s) ∧
    (∀ u, Due.window u ∉ s.chip.due → exec (.responseWindowExpiry u) s = .next s) ∧
    (Due.supervision ∉ s.chip.due → exec .supervisionExpired s = .next s)

/-- R93 and R94: a ramp step moves every gain point one index toward its target, and makes the reports due: the closes that
have arrived at mute, ascending, the end of a fade-out or fade-in, and the test of STOPPING. That the reports wait as due
steps, before those that waited and in this order, is the model's choice (logs 2 and 35). -/
def Obligations.RampStepMovesGains : Prop :=
  ∀ (s : State) (rest : List Due), s.chip.due = .rampStep :: rest →
    let c := s.chip
    let h := c.hall
    let toward := fun (_ : Nat) (x : GainPoint) => { x with
      current := if x.current < x.target then x.current + 1 else if x.target < x.current then x.current - 1 else x.current }
    let gains : GainPoints := ⟨tmapIdx h.gains.mics toward, tmapIdx h.gains.rooms toward, tmapIdx h.gains.booths toward⟩
    let closes := units.filter (fun u => (h.run u).state = .closing ∧
      ∃ k ∈ (h.run u).slot, (tget gains.mics k).current = 128)
    let stand := fun (a : Nat) (rs ss : List Nat) =>
      decide ((∀ r ∈ rs, ∀ k ∈ List.range 9, (tget gains.rooms (9 * r + k)).current = a) ∧
        ∀ b ∈ List.range 16, (h.booth b).home ∈ ss → (tget gains.booths b).current = a)
    exec .rampStep s = .next (s.withChip { c with
      hall.gains := gains
      due := closes.map Due.closeEnd ++
        (match h.part.repartition with
          | .idle => []
          | .fadingOut p ss => if stand 128 (changedRooms h.part.inForce p) ss then [.partitionChange] else []
          | .fadingIn _ ss =>
            if stand 0 ((roomIds h.part.inForce).filter (fun r => r ∈ ss)) ss then [.repartitionDone] else []) ++
        (if h.cmd.mode = .stopping then [.stopping] else []) ++ rest })

/-- R122, R1, R26 and R143: a tick counts toward the second and the scan, takes one from every running gap timer and from the
supervision window, and makes due what these counts complete. That these are due in the order supervision, scan, gap
expiries, second, and rooms without a queue last among the gap expiries, ascending, is the model's choice (log 35). -/
def Obligations.TickCounts : Prop :=
  ∀ (s : State) (rest : List Due), s.chip.due = .tick :: rest → Due.rampStep ∉ rest →
    let c := s.chip
    let h := c.hall
    let v := h.cmd.supervision
    let scans := h.part.scanInterval ≤ h.part.scanTicks + 1
    let seconds := 100 ≤ c.time.sinceSecond + 1
    let gaps := tmapIdx h.floor.gaps (fun _ g => g.map (· - 1))
    let ended := sections.filter (fun r => tget gaps r = some 0)
    exec .tick s = .next (s.withChip { c with
      time.sinceSecond := if seconds then 0 else c.time.sinceSecond + 1
      hall.part.scanTicks := if scans then 0 else h.part.scanTicks + 1
      hall.floor.gaps := gaps
      hall.cmd.supervision.window := if v.enabled then v.window - 1 else v.window
      due := (if v.enabled = true ∧ v.window = 1 then [.supervision] else []) ++ (if scans then [.scan] else []) ++
        (h.oldestHeadFirst ended ++ ended.filter (fun r => (h.queue r).isEmpty)).map Due.gapExpiry ++
        (if seconds then [.second] else []) ++ rest })

/-- R55 and R56: at a second every SPEAKING unit counts one more, and then those among them are tested, ascending, against
limit, lead and time action. That every unit is counted before the first is tested is the model's choice (log 35). -/
def Obligations.SecondCountsAndTests : Prop :=
  (∀ (s : State) (rest : List Due), s.chip.due = .second :: rest → Due.rampStep ∉ rest →
    let c := s.chip
    let h := c.hall
    let counted := { h with floor.runs := tmapIdx h.floor.runs (fun _ d =>
      if d.state = FloorState.speaking then { d with seconds := min (d.seconds + 1) 65535 } else d) }
    exec .second s = .next (s.withChip { c with
      due := rest
      hall := counted.each (units.filter (fun u => (h.run u).state = FloorState.speaking)) (Hall.secondTest reader) })) ∧
  ∀ (h : Hall) (u : Nat), h.mem.ReadsFindNothing → u ∈ units →
    let d := h.run u
    let l := h.timeClass (h.loaded u).timeClass
    let told := fun (i : Indication) (k : EventKind) (x : DelegateRun) =>
      let detail := min d.seconds 4095 * 4096 + l.limit
      { h with
        floor.runs := tset h.floor.runs (u - 1) { x with indication := some i }
        floor.dirty := if h.known u then tset h.floor.dirty (u - 1) true else h.floor.dirty
        events := h.events.push h.frameCounter
          ⟨k, h.frameCounter, byte u, byte (detail / 65536), byte (detail / 256), byte detail⟩ }
    l.limit < 4096 → h.secondTest reader u =
      if d.state ≠ .speaking ∨ h.isChair u = true ∨ l.limit = 0 then h
      else if d.seconds < l.limit then
        if 0 < l.lead ∧ d.warned = false ∧ l.limit - l.lead ≤ d.seconds then
          told .timeWarning .timeWarning { d with warned := true }
        else h
      else if (h.settings (h.roomOfUnit u)).timeAction = .close then h.closeWithConsequences reader .timeUp true [u]
      else if d.seconds = l.limit then told .timeUp .timeUp d
      else h

/-- R3, R4 and R7: a scan moves every wall's debounce and makes the flips due, ascending; a flip posts WALL CHANGED with the
capture timestamp; after the last flip, or after a scan without one, the effective walls are computed, and a change goes to
the start test. In CONFIG the order of the readers, the LANGUAGE claims held under the id of a new room, the order of several
RELAY LOST and of the new rooms' plans are the model's choice (logs 16, 17, 47 and 51), and so is that REPARTITION DONE of kind
IMMEDIATE is posted after the reactions of the readers (log 27, DEDUCED). -/
def Obligations.ScansDebounceWalls : Prop :=
  (∀ (s : State) (rest : List Due), s.chip.due = .scan :: rest → Due.rampStep ∉ rest →
    s.chip.hall.mem.ReadsFindNothing →
    let c := s.chip
    let h := c.hall
    let walls := tmapIdx h.part.walls (fun w x =>
      if (if c.pins.walls.getLsbD w then WallState.deployed else .stowed) = x.debounced then { x with run := 0 }
      else { x with run := x.run + 1, capture := if x.run = 0 then h.frameCounter else x.capture })
    let flips := (List.range 7).filter (fun w => 0 < (tget walls w).run ∧ h.part.debounceCount ≤ (tget walls w).run)
    let scanned := { h with part.walls := walls }
    exec .scan s = .next (s.withChip (
      if flips = [] then { c with
        due := rest
        hall := if scanned.wallsNow = h.part.effective then scanned
          else { scanned with part.effective := scanned.wallsNow }.startTaken }
      else { c with due := flips.map Due.wallFlip ++ rest, hall := scanned }))) ∧
  ∀ (s : State) (w : Nat) (rest : List Due), s.chip.due = .wallFlip w :: rest → Due.rampStep ∉ rest →
    s.chip.hall.mem.ReadsFindNothing →
    let c := s.chip
    let h := c.hall
    let x := tget h.part.walls w
    let now : WallState := if x.debounced = .stowed then .deployed else .stowed
    let flipped := { h with
      part.walls := tset h.part.walls w { x with debounced := now, run := 0 }
      events := h.events.push h.frameCounter
        ⟨.wallChanged, x.capture, byte w, if now = .deployed then 1 else 0, 0, 0⟩ }
    exec (.wallChanged w) s = .next (s.withChip { c with
      due := rest
      hall := if rest.any Chip.isFlip = true ∨ flipped.wallsNow = h.part.effective then flipped
        else { flipped with part.effective := flipped.wallsNow }.startTaken })

/-- R109, R110, R40, R41, R74, R80, R86, R96 and R101: the partition change event that ends a fade-out puts the target in
force and turns to FADING_IN. The queues of the new rooms are gathered oldest request first, cut at their limits, dropped in
OPEN and OVERRIDE rooms, and units whose position changed are marked; gap timers stop; positions beyond max speakers are
closed; arbiter and services follow, oldest head request first. The new rooms get their plans, the LANGUAGE claims of the
changed rooms are released and those of the new rooms made, the relay check and the assignments follow, and the notices of
every section and booth whose room changed are marked. The floor slots follow, the microphone targets are set again, the
fade points of the new rooms get target 0, those of room ids that cease 128, and the booths follow their rooms. These are
the model's choice: the order of the readers (log 16); that a LANGUAGE claim held under the id of a new room is released
with those of the changed rooms (log 17); the order of several RELAY LOST, booths ascending (log 47); and the order in which
the plans of the new rooms are computed, rooms ascending (log 51). -/
def Obligations.PartitionChangeRegroups : Prop :=
  ∀ (s : State) (rest : List Due), s.chip.due = .partitionChange :: rest → Due.rampStep ∉ rest →
    s.chip.hall.mem.ReadsFindNothing →
    let c := s.chip
    let h := c.hall
    (∀ p ss, h.part.repartition = .fadingOut p ss →
      let changed := h.partitionTaken p
      let new := (roomIds p).filter (fun r => !unchangedRoom p h.part.inForce r)
      let rooms := tmapIdx changed.gains.rooms (fun i x => if i / 9 ∈ new then { x with target := 0 } else x)
      exec .partitionChangeEvent s = .next (s.withChip { c with
        due := rest
        hall := { changed with
          part.repartition := .fadingIn p ss
          gains.rooms := rooms
          gains.booths := tmapIdx h.gains.booths (fun b x => { x with
            target := (tget rooms (9 * changed.roomOfBooth b)).target }) } })) ∧
    ((∀ p ss, h.part.repartition ≠ .fadingOut p ss) →
      exec .partitionChangeEvent s = .next (s.withChip { c with due := rest }))

/-- R111: the end of a repartition clears the record and posts REPARTITION DONE. Then, in LIVE and SAFE, a waiting request for
CONFIG brings STOPPING (R141, R101, R36: `Hall.StoppingEntered`, on the hall with record and event), and without one a
difference of the effective walls starts a new repartition. A row that finds no fade-in changes nothing. In STOPPING and CONFIG,
which no run reaches with a repartition in flight, the start test alone follows (what it leaves open in CONFIG is the model's
choice: logs 16, 17, 27, 36, 47 and 51). -/
def Obligations.RepartitionDoneEnds : Prop :=
  ∀ (s : State) (rest : List Due), s.chip.due = .repartitionDone :: rest → Due.rampStep ∉ rest →
    s.chip.hall.mem.ReadsFindNothing →
    let c := s.chip
    let h := c.hall
    (∀ p ss, h.part.repartition = .fadingIn p ss →
      let ended := { h with
        part.repartition := .idle
        events := h.events.push h.frameCounter
          ⟨.repartitionDone, h.frameCounter, 0, wallMap h.part.inForce, 0, sectionMap ss⟩ }
      let open' := h.cmd.mode = .live ∨ h.cmd.mode = .safe
      let q := h.part.effective
      let rs := changedRooms h.part.inForce q
      let ts := changedSections h.part.inForce q
      ∃ g, exec .repartitionDone s = .next (s.withChip { c with due := rest, hall := g }) ∧
        (open' ∧ h.cmd.requested ≠ .config ∧ q = h.part.inForce → g = ended) ∧
        (open' ∧ h.cmd.requested ≠ .config ∧ q ≠ h.part.inForce → g = { ended with
          part.repartition := .fadingOut q ts
          gains.rooms := h.roomFades 128 rs, gains.booths := h.boothFades 128 rs
          events := ended.events.push h.frameCounter
            ⟨.repartitionStarted, h.frameCounter, 0, wallMap h.part.inForce, wallMap q, sectionMap ts⟩ }) ∧
        (open' ∧ h.cmd.requested = .config → ended.StoppingEntered g) ∧
        (¬open' → g = ended.startTaken)) ∧
    ((∀ p ss, h.part.repartition ≠ .fadingIn p ss) →
      exec .repartitionDone s = .next (s.withChip { c with due := rest }))

/-- R141, R115 and R116: STOPPING ends in CONFIG when no unit holds the floor and every room and booth fade point stands at
mute; a difference of the effective walls then changes the partition in force at once, with the reactions of every reader and
REPARTITION DONE of kind IMMEDIATE. Otherwise STOPPING goes on. The order of the readers, the LANGUAGE claims held under the id
of a new room, the order of several RELAY LOST and of the new rooms' plans are the model's choice (logs 16, 17, 47 and 51), and
so is that REPARTITION DONE is posted after the reactions of the readers (log 27, DEDUCED). -/
def Obligations.StoppingEnds : Prop :=
  ∀ (s : State) (rest : List Due), s.chip.due = .stopping :: rest → Due.rampStep ∉ rest →
    rest.any Chip.isCloseEnd = false → s.chip.hall.mem.ReadsFindNothing →
    let c := s.chip
    let h := c.hall
    let done := h.cmd.mode = .stopping ∧ (∀ u ∈ units, (h.run u).state ∉ [FloorState.granting, .speaking, .closing]) ∧
      (∀ i < 72, (tget h.gains.rooms i).current = 128) ∧ (∀ b < 16, (tget h.gains.booths b).current = 128)
    (¬done → exec .stoppingComplete s = .next (s.withChip { c with due := rest })) ∧
    (done → ∃ g, exec .stoppingComplete s = .next (s.withChip { c with due := rest, hall := g }) ∧
      g.cmd = { h.cmd with mode := .config } ∧
      (h.part.effective = h.part.inForce ∨ h.part.repartition ≠ .idle → g = { h with cmd.mode := .config }) ∧
      (h.part.repartition = .idle → g.part = { h.part with inForce := h.part.effective }) ∧
      (h.part.effective ≠ h.part.inForce ∧ h.part.repartition = .idle →
        let p := h.part.effective
        let changed := { h with cmd.mode := .config }.partitionTaken p
        g = { changed with
          events := changed.events.push h.frameCounter
            ⟨.repartitionDone, h.frameCounter, 0, wallMap p, 1, sectionMap (changedSections h.part.inForce p)⟩ }))

/-- R52: at the end of a close the slot is free, the delegate IDLE and its unit marked, CLOSED is posted with the reason of
the first close and the speaking seconds; then come the arbiter, the service of the delegate's room, and the targets of the
room's speakers. -/
def Obligations.CloseEndsFreeTheSlot : Prop :=
  ∀ (s : State) (u : Nat) (rest : List Due), s.chip.due = .closeEnd u :: rest → Due.rampStep ∉ rest → u ∈ units →
    s.chip.hall.mem.ReadsFindNothing →
    let c := s.chip
    let h := c.hall
    let d := h.run u
    (d.state ≠ .closing → exec (.closeEnd u) s = .next (s.withChip { c with due := rest })) ∧
    (∀ k x, d.state = .closing → d.slot = some k → d.reason = some x →
      let ended := { h with
        slots.mics := tset h.slots.mics k none
        floor.runs := tset h.floor.runs (u - 1) { d with state := .idle, slot := none, grantTs := none, window := none }
        floor.dirty := if h.known u then tset h.floor.dirty (u - 1) true else h.floor.dirty
        events := h.events.push h.frameCounter
          ⟨.closed, h.frameCounter, byte u, x.code, byte (d.seconds / 256), byte (d.seconds % 256)⟩ }
      let served := (ended.arbiterRun reader).service reader (h.roomOfUnit u)
      exec (.closeEnd u) s = .next (s.withChip { c with due := rest, hall := served.aimSpeakers (h.roomOfUnit u) }))

/-- R48 and R49: a response window that has run down gives a further attempt, or after the third makes the delegate
unresponsive: IDLE, its slot free, UNRESPONSIVE posted, the slot handed on and the room served without a gap. -/
def Obligations.ResponseWindowsExpire : Prop :=
  ∀ (s : State) (u : Nat) (rest : List Due), s.chip.due = .window u :: rest → Due.rampStep ∉ rest → u ∈ units →
    s.chip.hall.mem.ReadsFindNothing →
    let c := s.chip
    let h := c.hall
    let d := h.run u
    let marks := if h.known u then tset h.floor.dirty (u - 1) true else h.floor.dirty
    let expired := d.state = .granting ∧ d.window = some 0
    (¬expired → exec (.responseWindowExpiry u) s = .next (s.withChip { c with due := rest })) ∧
    (expired → d.attempts < 3 → exec (.responseWindowExpiry u) s = .next (s.withChip { c with
      due := rest
      hall.floor.runs := tset h.floor.runs (u - 1) { d with attempts := d.attempts + 1, window := none }
      hall.floor.dirty := marks })) ∧
    (∀ k, expired → 3 ≤ d.attempts → d.slot = some k →
      let ended := { h with
        slots.mics := tset h.slots.mics k none
        floor.runs := tset h.floor.runs (u - 1)
          { d with unresponsive := true, state := .idle, slot := none, grantTs := none, window := none }
        floor.dirty := marks
        events := h.events.push h.frameCounter
          ⟨.unresponsive, h.frameCounter, byte u, byte d.grantId.toNat, byte (8 + k), 0⟩ }
      let handed := ended.arbiterRun reader
      exec (.responseWindowExpiry u) s = .next (s.withChip { c with
        due := rest, hall := if h.isChair u then handed else handed.service reader (h.roomOfUnit u) }))

/-- R143, R142 and R37: the expiry of the supervision window posts SUPERVISION EXPIRED in every mode and takes LIVE to SAFE,
where the OPERATOR rooms are served, oldest head first. That the settings of the rooms in force are read for this, once the
mode is SAFE and ascending, is the model's choice (log 44). -/
def Obligations.SupervisionExpires : Prop :=
  ∀ (s : State) (rest : List Due), s.chip.due = .supervision :: rest → Due.rampStep ∉ rest →
    let c := s.chip
    let h := c.hall
    let posted := fun (m : Mode) => h.events.push h.frameCounter
      ⟨.supervisionExpired, h.frameCounter, 0, byte m.code, 0, 0⟩
    let safe := { h with events := posted .safe, cmd.mode := .safe }.readAll reader.settings h.rooms
    exec .supervisionExpired s = .next (s.withChip { c with
      due := rest
      hall :=
        if h.cmd.mode = .live then
          safe.each (safe.oldestHeadFirst (safe.rooms.filter (fun r => (safe.settings r).floorMode = .operator)))
            (Hall.service reader)
        else { h with events := posted h.cmd.mode } })

/-! ## Cells from units and booths -/

/-- R27 to R30, R36, R51 and R53: a MIC press, or the PRIORITY press of a delegate, by the unit's record, floor state, role and
floor mode. A source that is no unit address is discarded and counted (R125). R23, R24, R29 and R32: a unit that joins a queue
takes its tail and a pool entry, with POOL LOW where that leaves 8 free entries or fewer and the flag is armed; one that leaves
gives the entry back, with the flag armed again at 24, and marks the units behind it; a chair joins the chair-pending list at
the place of its age and leaves it without either. -/
def Obligations.MicPressByState : Prop :=
  (∀ (s : State) (unit : Byte), s.chip.Quiet → s.chip.hall.mem.ReadsFindNothing →
    let c := s.chip
    let h := c.hall
    let u := unit.toNat
    let d := h.run u
    let r := h.roomOfUnit u
    let m := (h.settings r).floorMode
    let heard := { h with floor.runs := tset h.floor.runs (u - 1) { d with unresponsive := false } }
    let position := (h.positionHolders r).length < (h.settings r).maxSpeakers
    let slot := none ∈ h.slots.mics.toList
    let served := m = .queue ∨ (m = .operator ∧ h.cmd.mode = .safe)
    let join :=
      if (h.queue r).length < (h.settings r).queueLimit ∧ 0 < h.floor.poolFree then
        if h.queue r = [] then (heard.joinQueue u).service reader r else heard.joinQueue u
      else heard.indicate .queueFull u
    let idle :=
      if h.cmd.mode = .config ∨ h.cmd.mode = .stopping then heard.indicate .floorClosed u
      else if h.isChair u then if slot then heard.grant u else heard.indicate .denied u
      else if m = .queue ∨ m = .operator then
        if served ∧ h.queue r = [] ∧ position ∧ slot ∧ h.gap r = none then heard.grant u else join
      else if position ∧ slot then heard.grant u
      else if m = .override ∧ slot then
        match heard.oldestHolder r with
        | some v => ((heard.grant u).closeAll reader .override [v]).consequences reader true (heard.roomsFreed [v])
            (heard.slotsFreed [v])
        | none => heard.indicate .denied u
      else heard.indicate .denied u
    exec (.micPress unit) s = .next (s.withChip (
      if u = 0 ∨ 192 < u then { c with ring.laneErrors := min (c.ring.laneErrors + 1) 65535 }
      else if h.known u = false then
        if d.unknownReported then c
        else { c with
          hall.floor.runs := tset h.floor.runs (u - 1) { d with unknownReported := true }
          hall.events := h.events.push h.frameCounter ⟨.unknownUnit, h.frameCounter, byte u, 2, 0, 0⟩ }
      else { c with
        hall := match d.state with
          | .idle => idle
          | .waiting => heard.drop none u
          | .granting => heard.closeWithConsequences reader .unit true [u]
          | .speaking => heard.closeWithConsequences reader .unit true [u]
          | .closing => heard
          | .chairPending => heard.dropChair none u })) ∧
    (h.known u = false ∨ h.isChair u = false → exec (.priorityPress unit) s = exec (.micPress unit) s)) ∧
  ∀ (h : Hall) (u : Nat), u ∈ units →
    let d := h.run u
    let r := h.roomOfUnit u
    let q := h.queue r
    let marks := fun (us : List Nat) => tmapIdx h.floor.dirty (fun i m => m || (us.contains (i + 1) && h.known (i + 1)))
    let runs := fun (x : DelegateRun) => tset h.floor.runs (u - 1) x
    let free := h.floor.poolFree - 1
    let low := free ≤ 8 ∧ h.floor.poolArmed = true
    let asked := { h with floor.runs := runs { d with state := .chairPending, requestTs := some h.frameCounter } }
    let age := fun (v : Nat) => (h.frameCounter - (asked.run v).requestTs.getD 0).toNat
    let ahead := fun (v : Nat) => decide ¬(age v < age u ∨ (age v = age u ∧ u < v))
    h.joinQueue u = { h with
      floor.queues := tset h.floor.queues r (q ++ [u])
      floor.poolFree := free
      floor.poolArmed := h.floor.poolArmed && !decide low
      floor.runs := runs { d with state := .waiting, requestTs := some h.frameCounter }
      floor.dirty := marks [u]
      events := if low then h.events.push h.frameCounter ⟨.poolLow, h.frameCounter, 0, byte free, 0, 0⟩ else h.events } ∧
    h.joinChairs u = { asked with
      floor.chairs := h.floor.chairs.takeWhile ahead ++ u :: h.floor.chairs.dropWhile ahead
      floor.dirty := marks [u] } ∧
    ∀ i : Option Indication,
      let ended := runs { d with state := .idle, requestTs := none, indication := i.or d.indication }
      (u ∈ q → h.drop i u = { h with
        floor.queues := tset h.floor.queues r (q.erase u)
        floor.poolFree := h.floor.poolFree + 1
        floor.poolArmed := h.floor.poolArmed || decide (24 ≤ h.floor.poolFree + 1)
        floor.runs := ended
        floor.dirty := marks (u :: q.drop (q.idxOf u + 1)) }) ∧
      (u ∉ q → h.drop i u = { h with floor.runs := ended, floor.dirty := marks [u] }) ∧
      h.dropChair i u = { h with floor.chairs := h.floor.chairs.erase u, floor.runs := ended, floor.dirty := marks [u] }

/-- R30, R31 and R36: the PRIORITY press of a chair closes the positions of its room, drops the queue under CLEAR_ALL, stops
the gap, serves the chair, posts CHAIR PRIORITY and takes the consequences without a gap: the arbiter for the cancelled
grants' slots that the chair left, and a service attempt in the room. On a closed floor it does nothing but tell an IDLE
chair. -/
def Obligations.ChairPriorityActsInOrder : Prop :=
  ∀ (s : State) (unit : Byte), s.chip.Quiet → s.chip.hall.mem.ReadsFindNothing →
    1 ≤ unit.toNat → unit.toNat ≤ 192 → s.chip.hall.known unit.toNat = true → s.chip.hall.isChair unit.toNat = true →
    let c := s.chip
    let h := c.hall
    let u := unit.toNat
    let d := h.run u
    let r := h.roomOfUnit u
    let heard := { h with floor.runs := tset h.floor.runs (u - 1) { d with unresponsive := false } }
    let us := h.positionHolders r
    let closed := heard.closeAll reader .chair us
    let dropped := if (h.settings r).chairPolicy = .clearAll then closed.each (closed.queue r) (Hall.drop (some .dropped))
      else closed
    let still := { dropped with floor.gaps := tset dropped.floor.gaps r none }
    let served :=
      if (still.run u).state = .idle then
        if none ∈ still.slots.mics.toList then still.grant u else still.joinChairs u
      else still
    let event : Event := ⟨.chairPriority, h.frameCounter, byte u, 0, 0, 0⟩
    let posted := { served with events := served.events.push h.frameCounter event }
    let slots := us.filterMap (fun v => if (h.run v).state = .granting then (h.run v).slot else none)
    exec (.priorityPress unit) s = .next (s.withChip { c with
      hall :=
        if h.cmd.mode = .config ∨ h.cmd.mode = .stopping then
          if d.state = .idle then heard.indicate .floorClosed u else heard
        else posted.consequences reader false [r]
          (slots.filter (fun k => tget posted.slots.mics k = none)).length })

/-- R50, R51 and R53: a UNIT TAKEN that carries the grant id of a GRANTING delegate opens the microphone, sets the targets of
the room's speakers and posts GRANTED; any other marks the unit; one from an unknown unit is reported once. A grant id above
15 or a source that is no unit is discarded and counted (R125, R132). -/
def Obligations.UnitTakenOpensMicrophone : Prop :=
  ∀ (s : State) (unit id : Byte), s.chip.Quiet → s.chip.hall.mem.ReadsFindNothing →
    let c := s.chip
    let h := c.hall
    let u := unit.toNat
    let d := h.run u
    let marks := tset h.floor.dirty (u - 1) true
    let run := { d with unresponsive := false, window := none, state := .speaking, seconds := 0, warned := false }
    let opened := { h with floor.runs := tset h.floor.runs (u - 1) run }
    let r := h.roomOfUnit u
    let n := (opened.speakers r).length
    let aimed := (opened.speakers r).foldl (fun (x : Vector GainPoint 24) v =>
      match (opened.run v).slot with
      | some k => tmod x k (fun y => { y with target := min 127 ((h.loaded v).trim + nom n) })
      | none => x) h.gains.mics
    exec (.unitTaken unit id) s = .next (s.withChip (
      if u = 0 ∨ 192 < u ∨ 15 < id.toNat then { c with ring.laneErrors := min (c.ring.laneErrors + 1) 65535 }
      else if h.known u = false then
        if d.unknownReported then c
        else { c with
          hall.floor.runs := tset h.floor.runs (u - 1) { d with unknownReported := true }
          hall.events := h.events.push h.frameCounter ⟨.unknownUnit, h.frameCounter, byte u, 3, 0, 0⟩ }
      else if d.state = .granting ∧ d.grantId.toNat = id.toNat then { c with
        hall := { opened with
          floor.dirty := marks, gains.mics := aimed
          events := h.events.push h.frameCounter
            ⟨.granted, h.frameCounter, byte u, id, byte (8 + d.slot.getD 0), 0⟩ } }
      else { c with
        hall.floor.runs := tset h.floor.runs (u - 1) { d with unresponsive := false }
        hall.floor.dirty := marks }))

/-- R65 to R69 and R81 to R83: a BOOTH REPORT is stored; an effective state that enters or leaves OFF has the room's
assignments evaluated, one that moves between READY and ON_AIR marks its channel; the relay selection of an active booth is
accepted under the five conditions, one step deep; floor, walls, gains and tables stay. A report that moves neither effective
state nor relay nor relay-refused changes nothing else. A malformed report is discarded and counted (R125, R132). An
evaluation gives every booth of the room the assignment of R65, posts LEAD CHANGED with the marks of the language's channel where the
lead changed in that room, and reclasses, releases and makes the claims; a claim made takes the lowest FREE pool slot or waits at its place with CLAIM WAITING, a slot released serves the
first waiter with CLAIM SERVED. (The language in LEAD CHANGED of a booth that left LEAD, and the room where its home section
was written, are the model's choice, logs 21 and 39.) -/
def Obligations.BoothReportsAreHandled : Prop :=
  (∀ (s : State) (source state relay : Byte), s.chip.Quiet → s.chip.hall.mem.ReadsFindNothing →
    let c := s.chip
    let h := c.hall
    let b := source.toNat - 208
    let x := h.boothRun b
    let reported : BoothState := if state = 0 then .off else if state = 1 then .ready else .onAir
    let selection : Relay := if relay = 0xFF then .floor else .booth relay.toNat
    let good := 208 ≤ source.toNat ∧ source.toNat ≤ 223 ∧ state.toNat ≤ 2 ∧ (relay.toNat ≤ 15 ∨ relay = 0xFF)
    let active := (h.boothRecord b).damaged = false ∧ (h.booth b).language ≠ 0
    let accepts := fun (t : Nat) => t ≠ b ∧ (h.boothRecord t).damaged = false ∧ h.roomOfBooth t = h.roomOfBooth b ∧
      (h.boothRun t).relay = .floor ∧ ∀ y < 16, (h.boothRun y).relay ≠ .booth b
    let stored := { h with
      router.booths := tset h.router.booths b { x with reported := reported, selection := selection } }
    let moved := stored.stateMoved (fun y => ⟨h.roomOfBooth y, (h.booth y).language⟩) b (h.effective b)
    (¬good → exec (.boothReport source state relay) s =
      .next (s.withChip { c with ring.laneErrors := min (c.ring.laneErrors + 1) 65535 })) ∧
    (good → ∃ g, exec (.boothReport source state relay) s = .next (s.withChip { c with hall := g }) ∧
      h.SameBeyondRouter g ∧
      (let now := (g.boothRun b).relay
       g = { moved with
        router.booths := tset moved.router.booths b { moved.boothRun b with relay := now }
        router.boothDirty := if now ≠ x.relay ∨ decide (selection ≠ now) ≠ decide (x.selection ≠ x.relay) then
            tset moved.router.boothDirty b true
          else moved.router.boothDirty }) ∧
      (active → selection = .floor → (g.boothRun b).relay = .floor) ∧
      (∀ t, active → selection = .booth t → accepts t → (g.boothRun b).relay = .booth t) ∧
      (∀ t, selection = .booth t → ¬accepts t → (g.boothRun b).relay = x.relay) ∧
      (¬active → (g.boothRun b).relay = x.relay) ∧
      (∀ y < 16, y ≠ b → (g.boothRun y).relay = (h.boothRun y).relay) ∧
      (reported = x.reported → selection = x.selection → (g.boothRun b).relay = x.relay → g = h))) ∧
  (∀ (h : Hall) (led : Nat → Hall.Led) (r : Nat), h.mem.ReadsFindNothing →
    let was := fun (b : Nat) => (h.boothRun b).assignment
    let now := h.assignedTo
    let moved := boothNumbers.filter (fun b => h.roomOfBooth b = r ∧ was b ≠ now b)
    let held := { h with
      router.booths := tmapIdx h.router.booths (fun b x => if b ∈ moved then { x with assignment := now b } else x)
      router.boothDirty := tmapIdx h.router.boothDirty (fun b d => d || b ∈ moved) }
    let tell := fun (n l : Nat) (here : Bool) (b : Nat) (g : Hall) => { g with
      events := g.events.push g.frameCounter ⟨.leadChanged, g.frameCounter, byte b, byte r, byte l, byte n⟩
      router.channelDirty := if here then g.languageMarks r l else g.router.channelDirty }
    let left := held.each (moved.filter (fun b => was b = .lead))
      (fun b => tell 0 (led b).language (decide ((led b).room = r)) b)
    let entered := left.each (moved.filter (fun b => now b = .lead)) (fun b => tell 1 (h.booth b).language true b)
    let output := fun (a : Assignment) (b : Nat) => if a = .lead then Claim.leadOut b else .spareOut b
    let reclassed := entered.each (moved.filter (fun b => was b ≠ .none ∧ now b ≠ .none))
      (fun b => Hall.reclass (output (was b) b) (output (now b) b))
    let released := reclassed.each (moved.filter (fun b => now b = .none))
      (fun b g => ((g.releaseClaim (.leadOut b)).releaseClaim (.spareOut b)).releaseClaim (.feed b))
    h.evaluate reader led r = released.each (moved.filter (fun b => was b = .none))
      (fun b g => (g.makeClaim (output (now b) b)).makeClaim (.feed b))) ∧
  ∀ (h : Hall) (x : Claim),
    let subject := fun (y : Claim) => match y with
      | .leadOut b => ((3 : Byte), byte b)
      | .language r k => (4, halves r k)
      | .feed b => (5, byte b)
      | .spareOut b => (6, byte b)
    let leadMarks := fun (g : Hall) (b : Nat) =>
      if (g.boothRun b).assignment = .lead then g.languageMarks (g.roomOfBooth b) (g.booth b).language
      else g.router.channelDirty
    let output := fun (b : Nat) (n : Option Nat) (g : Hall) => { g with
      router.booths := tmod g.router.booths b (fun y => { y with outSlot := n })
      router.boothDirty := tset g.router.boothDirty b true
      router.channelDirty := leadMarks g b }
    let feed := fun (b : Nat) (n : Option Nat) (g : Hall) => { g with
      router.booths := tmod g.router.booths b (fun y => { y with feedSlot := n })
      router.boothDirty := tset g.router.boothDirty b true }
    let given := fun (y : Claim) (i : Nat) (g : Hall) => match y with
      | .leadOut b => output b (some (40 + i)) g
      | .spareOut b => output b (some (40 + i)) g
      | .feed b => feed b (some (40 + i)) g
      | .language r k => { g with router.channelDirty := tmapIdx g.router.channelDirty (fun j d =>
          d || sections.any (fun s => g.roomOfSection s == r && j == 9 * s + k)) }
    let taken := fun (y : Claim) (g : Hall) => match y with
      | .leadOut b => output b none g
      | .spareOut b => output b none g
      | .feed b => feed b none g
      | .language _ _ => g
    let joined := fun (y : Claim) (l : List Claim) =>
      l.takeWhile (fun z => z.rank ≤ y.rank) ++ y :: l.dropWhile (fun z => z.rank ≤ y.rank)
    let pool := fun (i : Nat) (y : Option Claim) (g : Hall) => { g with slots.pool := tset g.slots.pool i y }
    let lowest := fun (i : Nat) (y : Option Claim) =>
      i < 88 ∧ tget h.slots.pool i = y ∧ ∀ j < i, tget h.slots.pool j ≠ y
    (∀ i, lowest i none → h.makeClaim x = given x i (pool i (some x) h)) ∧
    ((∀ i < 88, tget h.slots.pool i ≠ none) → h.makeClaim x = { h with
      slots.waitList := joined x h.slots.waitList
      events := h.events.push h.frameCounter
        ⟨.claimWaiting, h.frameCounter, (subject x).1, (subject x).2, 0, 0⟩ }) ∧
    (∀ i, lowest i (some x) → h.releaseClaim x =
      match h.slots.waitList with
      | [] => pool i none (taken x h)
      | y :: rest =>
        let g := taken x h
        given y i { pool i (some y) g with
          slots.waitList := rest
          events := g.events.push g.frameCounter
            ⟨.claimServed, g.frameCounter, (subject y).1, (subject y).2, byte (40 + i), 0⟩ }) ∧
    ((∀ i < 88, tget h.slots.pool i ≠ some x) →
      h.releaseClaim x = { h with slots.waitList := h.slots.waitList.erase x }) ∧
    ∀ y,
      (∀ i, lowest i (some x) → h.reclass x y = pool i (some y) h) ∧
      ((∀ i < 88, tget h.slots.pool i ≠ some x) → h.reclass x y =
        if x ∈ h.slots.waitList then { h with slots.waitList := joined y (h.slots.waitList.erase x) } else h)

/-! ## Resets and damage -/

/-- R2, R11, R16, R59, R77, R80, R84, R93, R118, R148 to R151, R155 and R161: what a hard reset leaves, with the input lines
it finds: the tables at their reset contents or, where preset 0 is VALID, as the start-up recall writes them; the partition
in force as walls and overrides give it; the room plans, their LANGUAGE claims from slot 40, and the events of these, rooms
ascending (the model's choice, log 51); every other piece of state at its reset value. -/
def Obligations.HardResetSetsUp : Prop :=
  ∀ (s : State) (pins : Pins),
    let store := s.chip.hall.store.restarted
    let fresh : TableMemory :=
      ⟨.replicate 192 ⟨⟨false, 0, .delegate, 0, 0⟩, false, .sound⟩,
        .replicate 8 ⟨⟨.queue, 4, 16, 0, .muteOnly, .warnOnly, 0, 12, 128⟩, false, .sound⟩,
        .replicate 8 ⟨[], false, .sound⟩, .replicate 16 ⟨⟨0, 0, 0⟩, false, .sound⟩,
        .replicate 4 ⟨⟨0, 0⟩, false, .sound⟩, .replicate 7 ⟨.follow, false, .sound⟩⟩
    let mem : TableMemory := match tget store.presets 0 with
      | .valid x => { fresh with
        settings := tmake 8 (fun i => ⟨tget x.settings i, false, .sound⟩)
        plans := tmake 8 (fun i => ⟨tget x.plans i, false, .sound⟩)
        booths := tmake 16 (fun b => ⟨tget x.booths b, false, .sound⟩)
        classes := tmake 4 (fun k => ⟨tget x.classes k, false, .sound⟩)
        overrides := tmake 7 (fun w => ⟨tget x.overrides w, false, .sound⟩) }
      | _ => fresh
    let seeded : Partition := tmake 7 (wallReading pins.walls)
    let walls : Partition := tmake 7 (fun w => effectiveWall (tget mem.overrides w).value (wallReading pins.walls w))
    ∃ t, exec (.hardReset pins) s = .next t ∧ t.pending = s.pending ∧
      t.chip.ring = ⟨.searching, 0, none, 0, 0⟩ ∧ t.chip.time = ⟨0, 0, 0, 4⟩ ∧
      t.chip.outs = ⟨.replicate 72 0, .replicate 16 0, .replicate 72 false, .replicate 16 false⟩ ∧
      t.chip.pins = pins ∧ t.chip.due = [] ∧
      let g := t.chip.hall
      g.frameCounter = 0 ∧ g.mem = mem ∧ g.store = store ∧
      g.cmd = ⟨[], false, none, .config, .config, ⟨false, 255, false, 2550⟩⟩ ∧
      g.part = ⟨tmake 7 (fun w => ⟨wallReading pins.walls w, 0, 0⟩), 0, 2, 5, walls, walls, .idle⟩ ∧
      g.events = { g with events := ⟨[⟨.restarted, 0, 0, 0, 0, 0⟩], 0x7F, false, 0⟩ }.eventsAfter
        ((if walls = seeded then ([] : List Event) else
          [⟨.repartitionDone, 0, 0, wallMap walls, 1, sectionMap (changedSections seeded walls)⟩]) ++
            (roomIds walls).flatMap g.dropEvents) ∧
      g.floor = ⟨.replicate 192 {}, .replicate 8 [], 96, true, [], .replicate 8 none, .replicate 192 false⟩ ∧
      g.slots = ⟨.replicate 24 none, tmake 8 (isRoomId walls),
        tmake 88 (fun i => (g.languageClaims (roomIds walls))[i]?), [],
        tmake 8 (fun r => if r ∈ roomIds walls then (g.planOf r).length else 0)⟩ ∧
      g.gains = ⟨.replicate 24 {}, .replicate 72 {}, .replicate 16 {}⟩ ∧
      g.router = ⟨.replicate 16 {}, tmake 8 (fun r => if r ∈ roomIds walls then g.planOf r else []), .replicate 16 true,
        .replicate 72 true⟩

/-- R153: a read corrects a correctable error in place and reports it; an uncorrectable error marks the record damaged and
reports it with the new count, and the owner of the table reacts before the read goes on. Delegates (R42): a WAITING or
CHAIR_PENDING one leaves its queue or list, a GRANTING one loses its slot, a SPEAKING one is closed with reason DAMAGED,
indication and mark go, and the consequences of R19 follow. Section settings: R39 with the defaults that act now. Home plans
(R76): the room plan again. Booths (R75): claims released, relay check, assignments, notice. Time classes: R57. Overrides: R7.
After each but the delegates', LIVE becomes SAFE (R142). The last clause has no other error in memory. The order of the units of
a class (log 38), of several RELAY LOST (log 47) and what a partition changed at once leaves open (logs 16, 17 and 51, and log
27, DEDUCED: REPARTITION DONE of kind IMMEDIATE is posted after the reactions of the readers) are the model's choice. -/
def Obligations.ReadsFindErrors : Prop :=
  (∀ (s : State) (hd : Hdr) (unit part : Byte) (v : Delegate), s.chip.Ready → 1 ≤ unit.toNat → unit.toNat ≤ 192 →
    part.toNat ≤ 2 →
    let c := s.chip
    let h := c.hall
    let u := unit.toNat
    (h.record u = ⟨v, false, .correctable⟩ → exec (.readDelegate hd unit part) s = .next (s.withChip ({ c with
      hall.mem.delegates := tset h.mem.delegates (u - 1) ⟨v, false, .sound⟩
      hall.events := h.events.push h.frameCounter
        ⟨.integrityCorrected, h.frameCounter, 0, byte u, 0, 0⟩ }.answered hd (.good .none 0 (h.delegateData u part.toNat))))) ∧
    (h.record u = ⟨v, false, .uncorrectable⟩ → (h.run u).state = .idle →
      exec (.readDelegate hd unit part) s = .next (s.withChip ({ c with
        hall.mem.delegates := tset h.mem.delegates (u - 1) ⟨v, true, .uncorrectable⟩
        hall.floor.runs := tset h.floor.runs (u - 1) { h.run u with indication := none }
        hall.floor.dirty := tset h.floor.dirty (u - 1) false
        hall.events := h.events.push h.frameCounter ⟨.recordDamaged, h.frameCounter, 0, byte u,
          byte (min 255 (h.mem.damagedCount + 1)), 0⟩ }.answered hd (.check .recordDamaged 0))))) ∧
  (∀ (s : State) (hd : Hdr) (booth part : Byte) (v : Booth), s.chip.Ready → booth.toNat ≤ 15 → part.toNat ≤ 2 →
    s.chip.hall.cmd.mode = .live → s.chip.hall.boothRecord booth.toNat = ⟨v, false, .uncorrectable⟩ →
    ∃ t, exec (.readBooth hd booth part) s = .next t ∧
      t.chip.hall.cmd.mode = .safe ∧ t.chip.hall.cmd.requested = s.chip.hall.cmd.requested ∧
      (t.chip.hall.boothRecord booth.toNat).damaged = true ∧
      t.chip.hall.cmd.replies = s.chip.hall.cmd.replies ++ [⟨hd.tag, .check .recordDamaged 0⟩]) ∧
  ∀ (h : Hall) (n : Nat),
    let reported := fun (f : MemErr) (table : Byte) (m : TableMemory) => { h with
      mem := m
      events := h.events.push h.frameCounter (if f = .uncorrectable then
          ⟨.recordDamaged, h.frameCounter, table, byte n, byte (min 255 (h.mem.damagedCount + 1)), 0⟩
        else ⟨.integrityCorrected, h.frameCounter, table, byte n, 0, 0⟩) }
    (∀ v f, n ∈ units → h.record n = ⟨v, false, f⟩ → f ≠ .sound →
      let corrected := reported f 0 { h.mem with delegates := tset h.mem.delegates (n - 1) ⟨v, false, .sound⟩ }
      let marked := reported f 0 { h.mem with delegates := tset h.mem.delegates (n - 1) ⟨v, true, f⟩ }
      let d := h.run n
      let r := h.roomOfUnit n
      let position := (d.state = .granting ∨ d.state = .speaking) ∧ v.role ≠ .chair
      let gone := match d.state with
        | .idle => marked
        | .waiting => marked.drop none n
        | .granting => marked.closeOne .damaged n
        | .speaking => (marked.closeOne .damaged n).aimSpeakers r
        | .closing => marked
        | .chairPending => marked.dropChair none n
      let silent := { gone with
        floor.runs := tset gone.floor.runs (n - 1) { gone.run n with indication := none }
        floor.dirty := tset gone.floor.dirty (n - 1) false }
      let gapped := if position then silent.gapTested r else silent
      let handed := if d.state = .granting then gapped.arbiterRun reader else gapped
      (f = .correctable → reader.delegate n h = corrected) ∧
      (f = .uncorrectable → marked.mem.ReadsFindNothing →
        reader.delegate n h = if position then handed.service reader r else handed)) ∧
    (∀ v f, n < 8 → h.settingsRecord n = ⟨v, false, f⟩ → f ≠ .sound →
      let corrected := reported f 1 { h.mem with settings := tset h.mem.settings n ⟨v, false, .sound⟩ }
      let marked := reported f 1 { h.mem with settings := tset h.mem.settings n ⟨v, true, f⟩ }
      (f = .correctable → reader.settings n h = corrected) ∧
      (f = .uncorrectable → marked.mem.ReadsFindNothing → reader.settings n h = (marked.settingsTaken n v).safeTaken)) ∧
    (∀ v f, n < 8 → h.planRecord n = ⟨v, false, f⟩ → f ≠ .sound →
      let corrected := reported f 2 { h.mem with plans := tset h.mem.plans n ⟨v, false, .sound⟩ }
      let marked := reported f 2 { h.mem with plans := tset h.mem.plans n ⟨v, true, f⟩ }
      (f = .correctable → reader.plan n h = corrected) ∧
      (f = .uncorrectable → marked.mem.ReadsFindNothing →
        reader.plan n h = (marked.planTaken (h.roomOfSection n)).safeTaken)) ∧
    (∀ v f, n < 16 → h.boothRecord n = ⟨v, false, f⟩ → f ≠ .sound →
      let corrected := reported f 3 { h.mem with booths := tset h.mem.booths n ⟨v, false, .sound⟩ }
      let marked := reported f 3 { h.mem with booths := tset h.mem.booths n ⟨v, true, f⟩ }
      let released := ((marked.releaseClaim (.leadOut n)).releaseClaim (.spareOut n)).releaseClaim (.feed n)
      let settled := released.relaysChecked.evaluate reader (fun b => ⟨h.roomOfBooth b, (h.booth b).language⟩)
        (h.roomOfBooth n)
      (f = .correctable → reader.booth n h = corrected) ∧
      (f = .uncorrectable → marked.mem.ReadsFindNothing →
        reader.booth n h = { settled with router.boothDirty := tset settled.router.boothDirty n true }.safeTaken)) ∧
    (∀ v f, n < 4 → h.classRecord n = ⟨v, false, f⟩ → f ≠ .sound →
      let corrected := reported f 4 { h.mem with classes := tset h.mem.classes n ⟨v, false, .sound⟩ }
      let marked := reported f 4 { h.mem with classes := tset h.mem.classes n ⟨v, true, f⟩ }
      (f = .correctable → reader.timeClass n h = corrected) ∧
      (f = .uncorrectable → marked.mem.ReadsFindNothing → reader.timeClass n h = (marked.classTaken n v).safeTaken)) ∧
    ∀ v f, n < 7 → h.overrideRecord n = ⟨v, false, f⟩ → f ≠ .sound →
      let corrected := reported f 5 { h.mem with overrides := tset h.mem.overrides n ⟨v, false, .sound⟩ }
      let marked := reported f 5 { h.mem with overrides := tset h.mem.overrides n ⟨v, true, f⟩ }
      (f = .correctable → reader.override n h = corrected) ∧
      (f = .uncorrectable → marked.mem.ReadsFindNothing → reader.override n h = marked.wallsTaken.safeTaken)

/-! ## Events, rooms, mix -/

/-- R149 and R150: a posting that the mask lets through joins the list, is lost when the list is full, and after a loss waits
for two free places, which EVENTS LOST and the posting take. -/
def Obligations.EventsAreQueued : Prop :=
  ∀ (q : EventQueue) (now : FrameCount) (e : Event),
    let lost : Event := ⟨.eventsLost, now, 0, byte (q.lostCount / 256), byte (q.lostCount % 256), 0⟩
    let g := q.push now e
    g.mask = q.mask ∧
    (q.passes e.kind = false → g = q) ∧
    (q.passes e.kind = true → q.lost = false → q.events.length < 64 → g = { q with events := q.events ++ [e] }) ∧
    (q.passes e.kind = true → q.lost = false → 64 ≤ q.events.length → g = { q with lost := true, lostCount := 1 }) ∧
    (q.passes e.kind = true → q.lost = true → q.events.length ≤ 62 →
      g = { q with events := q.events ++ [lost, e], lost := false, lostCount := 0 }) ∧
    (q.passes e.kind = true → q.lost = true → 62 < q.events.length →
      g = { q with lostCount := min (q.lostCount + 1) 65535 })

/-- R9, R10 and R130: the room of a section, the room ids and their number, when a room is unchanged, the sections whose room
changed, and the one-byte maps. -/
def Obligations.RoomsOfPartitions : Prop :=
  (∀ (p : Partition) (r s : Nat), s < 8 → (roomOf p s = r ↔
    (r = 0 ∨ tget p (r - 1) = .deployed) ∧ r ≤ s ∧ ∀ w, r ≤ w → w < s → tget p w = .stowed)) ∧
  (∀ (p : Partition) (r : Nat), r ∈ roomIds p ↔ r = 0 ∨ (1 ≤ r ∧ r ≤ 7 ∧ tget p (r - 1) = .deployed)) ∧
  (∀ (p q : Partition) (r : Nat), r ∈ roomIds p → (unchangedRoom p q r = true ↔
    ∀ w < 7, roomOf p w = r ∨ roomOf p (w + 1) = r → tget q w = tget p w)) ∧
  (∀ p q : Partition, changedSections p q = (List.range 8).filter (fun s => unchangedRoom p q (roomOf p s) = false)) ∧
  (∀ p : Partition, (roomIds p).length = p.toList.count .deployed + 1) ∧
  (∀ (p : Partition) (w : Nat), w < 8 → (wallMap p).getLsbD w = decide (w < 7 ∧ tget p w = .deployed)) ∧
  ∀ (ss : List Nat) (s : Nat), s < 8 → (sectionMap ss).getLsbD s = decide (s ∈ ss)

/-- R91, R92 and R95: the coefficient is the nearest integer to 32,768 × 10^(−a/40), NOM the nearest to 20 × log10(n), and
scaling rounds the exact product to the nearest integer, halves upward. -/
def Obligations.GainsAreRounded : Prop :=
  (∀ a ≤ 127, (2 * coefficient a - 1) ^ 40 * 10 ^ a ≤ 65536 ^ 40 ∧ 65536 ^ 40 < (2 * coefficient a + 1) ^ 40 * 10 ^ a) ∧
  coefficient 128 = 0 ∧
  (∀ n, 1 ≤ n → n ≤ 24 → 10 ^ (2 * nom n) ≤ n ^ 40 * 10 ∧ n ^ 40 < 10 ^ (2 * nom n + 1)) ∧
  (∀ (v : Int) (a : Nat), a ≤ 128 → 32768 * sc v a ≤ v * coefficient a + 16384 ∧
    v * coefficient a + 16384 < 32768 * (sc v a + 1)) ∧
  (∀ v : Int, sc v 0 = v ∧ sc v 128 = 0) ∧
  ∀ (v : Int) (a : Nat), a ≤ 128 → (sc v a).natAbs ≤ v.natAbs

/-- R89, R90, R97 to R100 and R102: the outputs computed from a frame, each channel of a room from its floor sum or its
booth, each feed from its relay source or its room, through the fade and the clamp; markers set stay set. -/
def Obligations.MixComputesOutputs : Prop :=
  ∀ (h : Hall) (f : Frame) (o : Outputs),
    let sample := fun (i : Nat) => (tget f.slots i).toInt
    let voice := fun (b : Nat) =>
      sc (match (h.boothRun b).outSlot with | some i => sample i | none => 0) (h.booth b).gain
    let floor := fun (r : Nat) => ((List.range 24).map (fun k => match tget h.slots.mics k with
      | some u => if h.roomOfUnit u = r then sc (sample (8 + k)) (tget h.gains.mics k).current else 0
      | none => 0)).sum
    let y := fun (v : Int) (a : Nat) => max (-8388608) (min 8388607 (sc v a))
    let clips := fun (v : Int) (a : Nat) => decide (sc v a < -8388608 ∨ 8388607 < sc v a)
    let g := Hall.mix h f o
    (∀ r < 8, ∀ k < 9,
      let fade := (tget h.gains.rooms (9 * r + k)).current
      let v := if k = 0 then sc (floor r) (h.settings r).level
        else match h.carrier r k with
          | some b => voice b + sc (floor r) (h.settings r).underlay
          | none => sc (floor r) (h.settings r).fill
      if isRoomId h.part.inForce r = true ∧ k ≤ (h.plan r).length then
        tget g.rooms (9 * r + k) = y v fade ∧
          tget g.roomClips (9 * r + k) = (tget o.roomClips (9 * r + k) || clips v fade)
      else tget g.rooms (9 * r + k) = 0 ∧ tget g.roomClips (9 * r + k) = tget o.roomClips (9 * r + k)) ∧
    ∀ b < 16,
      let fade := (tget h.gains.booths b).current
      let own := sc (floor (h.roomOfBooth b)) (h.settings (h.roomOfBooth b)).level
      let v := match (h.boothRun b).relay with
        | .floor => own
        | .booth t => if h.effective t = .onAir ∧ (h.boothRun t).outSlot ≠ none then voice t else own
      if h.effective b ≠ .off then
        tget g.booths b = y v fade ∧ tget g.boothClips b = (tget o.boothClips b || clips v fade)
      else tget g.booths b = 0 ∧ tget g.boothClips b = tget o.boothClips b

/-! ## Encodings and invariants -/

/-- R125, R129, R131 and R132: the cell that spells a message carries its CRC and is read as that message, every field at
every value the cell can carry. -/
def Obligations.CellsDecodeToTheirMessages : Prop :=
  ∀ m : InCell, m.spelled = true → decodeCell (encodeCell m) = some m ∧ crcMatches (encodeCell m) = true

/-- Every step keeps the counters of Ring Port and Timebase in their ranges, the queues within their places, and the held
outputs in the sample range (Tables 8.1, 8.2, 9.1 and 10.1, R102, R125, R134, R149, R150). -/
def Obligations.StepKeepsBounds : Prop :=
  ∀ s t : State, step s = .next t →
    (s.chip.CountersInRange → t.chip.CountersInRange) ∧ (s.chip.QueuesBounded → t.chip.QueuesBounded) ∧
    (s.chip.OutputsInRange → t.chip.OutputsInRange)

/-- The state after reset satisfies the invariants. -/
def Obligations.InvariantsHoldAtReset : Prop :=
  State.reset.chip.CountersInRange ∧ State.reset.chip.QueuesBounded ∧ State.reset.chip.OutputsInRange
end

