-- ==== Sys2Proof/Laws/State.lean ====
section
/-! SUPPORT. What each update of the hall and of the chip leaves and sets, field by field: true by definition, for `simp`
to rewrite with, so that no proof unfolds a record update. -/

namespace Sys2Proof.Machine

namespace Hall

/-! `postAt` -/

@[simp] theorem postAt_frameCounter (ts : FrameCount) (k : EventKind) (a b c d : Byte) (h : Hall) : (h.postAt ts k a b c d).frameCounter = h.frameCounter := rfl
@[simp] theorem postAt_part (ts : FrameCount) (k : EventKind) (a b c d : Byte) (h : Hall) : (h.postAt ts k a b c d).part = h.part := rfl
@[simp] theorem postAt_floor (ts : FrameCount) (k : EventKind) (a b c d : Byte) (h : Hall) : (h.postAt ts k a b c d).floor = h.floor := rfl
@[simp] theorem postAt_router (ts : FrameCount) (k : EventKind) (a b c d : Byte) (h : Hall) : (h.postAt ts k a b c d).router = h.router := rfl
@[simp] theorem postAt_slots (ts : FrameCount) (k : EventKind) (a b c d : Byte) (h : Hall) : (h.postAt ts k a b c d).slots = h.slots := rfl
@[simp] theorem postAt_gains (ts : FrameCount) (k : EventKind) (a b c d : Byte) (h : Hall) : (h.postAt ts k a b c d).gains = h.gains := rfl
@[simp] theorem postAt_cmd (ts : FrameCount) (k : EventKind) (a b c d : Byte) (h : Hall) : (h.postAt ts k a b c d).cmd = h.cmd := rfl
@[simp] theorem postAt_mem (ts : FrameCount) (k : EventKind) (a b c d : Byte) (h : Hall) : (h.postAt ts k a b c d).mem = h.mem := rfl
@[simp] theorem postAt_store (ts : FrameCount) (k : EventKind) (a b c d : Byte) (h : Hall) : (h.postAt ts k a b c d).store = h.store := rfl

/-! `post` -/

@[simp] theorem post_frameCounter (k : EventKind) (a b c d : Byte) (h : Hall) : (h.post k a b c d).frameCounter = h.frameCounter := rfl
@[simp] theorem post_part (k : EventKind) (a b c d : Byte) (h : Hall) : (h.post k a b c d).part = h.part := rfl
@[simp] theorem post_floor (k : EventKind) (a b c d : Byte) (h : Hall) : (h.post k a b c d).floor = h.floor := rfl
@[simp] theorem post_router (k : EventKind) (a b c d : Byte) (h : Hall) : (h.post k a b c d).router = h.router := rfl
@[simp] theorem post_slots (k : EventKind) (a b c d : Byte) (h : Hall) : (h.post k a b c d).slots = h.slots := rfl
@[simp] theorem post_gains (k : EventKind) (a b c d : Byte) (h : Hall) : (h.post k a b c d).gains = h.gains := rfl
@[simp] theorem post_cmd (k : EventKind) (a b c d : Byte) (h : Hall) : (h.post k a b c d).cmd = h.cmd := rfl
@[simp] theorem post_mem (k : EventKind) (a b c d : Byte) (h : Hall) : (h.post k a b c d).mem = h.mem := rfl
@[simp] theorem post_store (k : EventKind) (a b c d : Byte) (h : Hall) : (h.post k a b c d).store = h.store := rfl

/-! `setRun` -/

@[simp] theorem setRun_frameCounter (u : Nat) (f : DelegateRun → DelegateRun) (h : Hall) : (h.setRun u f).frameCounter = h.frameCounter := rfl
@[simp] theorem setRun_part (u : Nat) (f : DelegateRun → DelegateRun) (h : Hall) : (h.setRun u f).part = h.part := rfl
@[simp] theorem setRun_router (u : Nat) (f : DelegateRun → DelegateRun) (h : Hall) : (h.setRun u f).router = h.router := rfl
@[simp] theorem setRun_slots (u : Nat) (f : DelegateRun → DelegateRun) (h : Hall) : (h.setRun u f).slots = h.slots := rfl
@[simp] theorem setRun_gains (u : Nat) (f : DelegateRun → DelegateRun) (h : Hall) : (h.setRun u f).gains = h.gains := rfl
@[simp] theorem setRun_cmd (u : Nat) (f : DelegateRun → DelegateRun) (h : Hall) : (h.setRun u f).cmd = h.cmd := rfl
@[simp] theorem setRun_events (u : Nat) (f : DelegateRun → DelegateRun) (h : Hall) : (h.setRun u f).events = h.events := rfl
@[simp] theorem setRun_mem (u : Nat) (f : DelegateRun → DelegateRun) (h : Hall) : (h.setRun u f).mem = h.mem := rfl
@[simp] theorem setRun_store (u : Nat) (f : DelegateRun → DelegateRun) (h : Hall) : (h.setRun u f).store = h.store := rfl
@[simp] theorem setRun_queues (u : Nat) (f : DelegateRun → DelegateRun) (h : Hall) :
    (h.setRun u f).floor.queues = h.floor.queues := rfl
@[simp] theorem setRun_poolFree (u : Nat) (f : DelegateRun → DelegateRun) (h : Hall) :
    (h.setRun u f).floor.poolFree = h.floor.poolFree := rfl
@[simp] theorem setRun_poolArmed (u : Nat) (f : DelegateRun → DelegateRun) (h : Hall) :
    (h.setRun u f).floor.poolArmed = h.floor.poolArmed := rfl
@[simp] theorem setRun_chairs (u : Nat) (f : DelegateRun → DelegateRun) (h : Hall) :
    (h.setRun u f).floor.chairs = h.floor.chairs := rfl
@[simp] theorem setRun_gaps (u : Nat) (f : DelegateRun → DelegateRun) (h : Hall) :
    (h.setRun u f).floor.gaps = h.floor.gaps := rfl
@[simp] theorem setRun_dirty (u : Nat) (f : DelegateRun → DelegateRun) (h : Hall) :
    (h.setRun u f).floor.dirty = h.floor.dirty := rfl
@[simp] theorem setRun_sets (u : Nat) (f : DelegateRun → DelegateRun) (h : Hall) :
    (h.setRun u f).floor.runs = tmod h.floor.runs (unitIndex u) f := rfl

/-! `setQueue` -/

@[simp] theorem setQueue_frameCounter (r : Nat) (q : List Nat) (h : Hall) : (h.setQueue r q).frameCounter = h.frameCounter := rfl
@[simp] theorem setQueue_part (r : Nat) (q : List Nat) (h : Hall) : (h.setQueue r q).part = h.part := rfl
@[simp] theorem setQueue_router (r : Nat) (q : List Nat) (h : Hall) : (h.setQueue r q).router = h.router := rfl
@[simp] theorem setQueue_slots (r : Nat) (q : List Nat) (h : Hall) : (h.setQueue r q).slots = h.slots := rfl
@[simp] theorem setQueue_gains (r : Nat) (q : List Nat) (h : Hall) : (h.setQueue r q).gains = h.gains := rfl
@[simp] theorem setQueue_cmd (r : Nat) (q : List Nat) (h : Hall) : (h.setQueue r q).cmd = h.cmd := rfl
@[simp] theorem setQueue_events (r : Nat) (q : List Nat) (h : Hall) : (h.setQueue r q).events = h.events := rfl
@[simp] theorem setQueue_mem (r : Nat) (q : List Nat) (h : Hall) : (h.setQueue r q).mem = h.mem := rfl
@[simp] theorem setQueue_store (r : Nat) (q : List Nat) (h : Hall) : (h.setQueue r q).store = h.store := rfl
@[simp] theorem setQueue_runs (r : Nat) (q : List Nat) (h : Hall) :
    (h.setQueue r q).floor.runs = h.floor.runs := rfl
@[simp] theorem setQueue_poolFree (r : Nat) (q : List Nat) (h : Hall) :
    (h.setQueue r q).floor.poolFree = h.floor.poolFree := rfl
@[simp] theorem setQueue_poolArmed (r : Nat) (q : List Nat) (h : Hall) :
    (h.setQueue r q).floor.poolArmed = h.floor.poolArmed := rfl
@[simp] theorem setQueue_chairs (r : Nat) (q : List Nat) (h : Hall) :
    (h.setQueue r q).floor.chairs = h.floor.chairs := rfl
@[simp] theorem setQueue_gaps (r : Nat) (q : List Nat) (h : Hall) :
    (h.setQueue r q).floor.gaps = h.floor.gaps := rfl
@[simp] theorem setQueue_dirty (r : Nat) (q : List Nat) (h : Hall) :
    (h.setQueue r q).floor.dirty = h.floor.dirty := rfl
@[simp] theorem setQueue_sets (r : Nat) (q : List Nat) (h : Hall) :
    (h.setQueue r q).floor.queues = tset h.floor.queues r q := rfl

/-! `setGap` -/

@[simp] theorem setGap_frameCounter (r : Nat) (g : Option Nat) (h : Hall) : (h.setGap r g).frameCounter = h.frameCounter := rfl
@[simp] theorem setGap_part (r : Nat) (g : Option Nat) (h : Hall) : (h.setGap r g).part = h.part := rfl
@[simp] theorem setGap_router (r : Nat) (g : Option Nat) (h : Hall) : (h.setGap r g).router = h.router := rfl
@[simp] theorem setGap_slots (r : Nat) (g : Option Nat) (h : Hall) : (h.setGap r g).slots = h.slots := rfl
@[simp] theorem setGap_gains (r : Nat) (g : Option Nat) (h : Hall) : (h.setGap r g).gains = h.gains := rfl
@[simp] theorem setGap_cmd (r : Nat) (g : Option Nat) (h : Hall) : (h.setGap r g).cmd = h.cmd := rfl
@[simp] theorem setGap_events (r : Nat) (g : Option Nat) (h : Hall) : (h.setGap r g).events = h.events := rfl
@[simp] theorem setGap_mem (r : Nat) (g : Option Nat) (h : Hall) : (h.setGap r g).mem = h.mem := rfl
@[simp] theorem setGap_store (r : Nat) (g : Option Nat) (h : Hall) : (h.setGap r g).store = h.store := rfl
@[simp] theorem setGap_runs (r : Nat) (g : Option Nat) (h : Hall) :
    (h.setGap r g).floor.runs = h.floor.runs := rfl
@[simp] theorem setGap_queues (r : Nat) (g : Option Nat) (h : Hall) :
    (h.setGap r g).floor.queues = h.floor.queues := rfl
@[simp] theorem setGap_poolFree (r : Nat) (g : Option Nat) (h : Hall) :
    (h.setGap r g).floor.poolFree = h.floor.poolFree := rfl
@[simp] theorem setGap_poolArmed (r : Nat) (g : Option Nat) (h : Hall) :
    (h.setGap r g).floor.poolArmed = h.floor.poolArmed := rfl
@[simp] theorem setGap_chairs (r : Nat) (g : Option Nat) (h : Hall) :
    (h.setGap r g).floor.chairs = h.floor.chairs := rfl
@[simp] theorem setGap_dirty (r : Nat) (g : Option Nat) (h : Hall) :
    (h.setGap r g).floor.dirty = h.floor.dirty := rfl
@[simp] theorem setGap_sets (r : Nat) (g : Option Nat) (h : Hall) :
    (h.setGap r g).floor.gaps = tset h.floor.gaps r g := rfl

/-! `mark` -/

@[simp] theorem mark_frameCounter (u : Nat) (h : Hall) : (h.mark u).frameCounter = h.frameCounter := rfl
@[simp] theorem mark_part (u : Nat) (h : Hall) : (h.mark u).part = h.part := rfl
@[simp] theorem mark_router (u : Nat) (h : Hall) : (h.mark u).router = h.router := rfl
@[simp] theorem mark_slots (u : Nat) (h : Hall) : (h.mark u).slots = h.slots := rfl
@[simp] theorem mark_gains (u : Nat) (h : Hall) : (h.mark u).gains = h.gains := rfl
@[simp] theorem mark_cmd (u : Nat) (h : Hall) : (h.mark u).cmd = h.cmd := rfl
@[simp] theorem mark_events (u : Nat) (h : Hall) : (h.mark u).events = h.events := rfl
@[simp] theorem mark_mem (u : Nat) (h : Hall) : (h.mark u).mem = h.mem := rfl
@[simp] theorem mark_store (u : Nat) (h : Hall) : (h.mark u).store = h.store := rfl
@[simp] theorem mark_runs (u : Nat) (h : Hall) :
    (h.mark u).floor.runs = h.floor.runs := rfl
@[simp] theorem mark_queues (u : Nat) (h : Hall) :
    (h.mark u).floor.queues = h.floor.queues := rfl
@[simp] theorem mark_poolFree (u : Nat) (h : Hall) :
    (h.mark u).floor.poolFree = h.floor.poolFree := rfl
@[simp] theorem mark_poolArmed (u : Nat) (h : Hall) :
    (h.mark u).floor.poolArmed = h.floor.poolArmed := rfl
@[simp] theorem mark_chairs (u : Nat) (h : Hall) :
    (h.mark u).floor.chairs = h.floor.chairs := rfl
@[simp] theorem mark_gaps (u : Nat) (h : Hall) :
    (h.mark u).floor.gaps = h.floor.gaps := rfl

/-! `unmark` -/

@[simp] theorem unmark_frameCounter (u : Nat) (h : Hall) : (h.unmark u).frameCounter = h.frameCounter := rfl
@[simp] theorem unmark_part (u : Nat) (h : Hall) : (h.unmark u).part = h.part := rfl
@[simp] theorem unmark_router (u : Nat) (h : Hall) : (h.unmark u).router = h.router := rfl
@[simp] theorem unmark_slots (u : Nat) (h : Hall) : (h.unmark u).slots = h.slots := rfl
@[simp] theorem unmark_gains (u : Nat) (h : Hall) : (h.unmark u).gains = h.gains := rfl
@[simp] theorem unmark_cmd (u : Nat) (h : Hall) : (h.unmark u).cmd = h.cmd := rfl
@[simp] theorem unmark_events (u : Nat) (h : Hall) : (h.unmark u).events = h.events := rfl
@[simp] theorem unmark_mem (u : Nat) (h : Hall) : (h.unmark u).mem = h.mem := rfl
@[simp] theorem unmark_store (u : Nat) (h : Hall) : (h.unmark u).store = h.store := rfl
@[simp] theorem unmark_runs (u : Nat) (h : Hall) :
    (h.unmark u).floor.runs = h.floor.runs := rfl
@[simp] theorem unmark_queues (u : Nat) (h : Hall) :
    (h.unmark u).floor.queues = h.floor.queues := rfl
@[simp] theorem unmark_poolFree (u : Nat) (h : Hall) :
    (h.unmark u).floor.poolFree = h.floor.poolFree := rfl
@[simp] theorem unmark_poolArmed (u : Nat) (h : Hall) :
    (h.unmark u).floor.poolArmed = h.floor.poolArmed := rfl
@[simp] theorem unmark_chairs (u : Nat) (h : Hall) :
    (h.unmark u).floor.chairs = h.floor.chairs := rfl
@[simp] theorem unmark_gaps (u : Nat) (h : Hall) :
    (h.unmark u).floor.gaps = h.floor.gaps := rfl
@[simp] theorem unmark_sets (u : Nat) (h : Hall) :
    (h.unmark u).floor.dirty = tset h.floor.dirty (unitIndex u) false := rfl

/-! `leaveChairs` -/

@[simp] theorem leaveChairs_frameCounter (u : Nat) (h : Hall) : (h.leaveChairs u).frameCounter = h.frameCounter := rfl
@[simp] theorem leaveChairs_part (u : Nat) (h : Hall) : (h.leaveChairs u).part = h.part := rfl
@[simp] theorem leaveChairs_router (u : Nat) (h : Hall) : (h.leaveChairs u).router = h.router := rfl
@[simp] theorem leaveChairs_slots (u : Nat) (h : Hall) : (h.leaveChairs u).slots = h.slots := rfl
@[simp] theorem leaveChairs_gains (u : Nat) (h : Hall) : (h.leaveChairs u).gains = h.gains := rfl
@[simp] theorem leaveChairs_cmd (u : Nat) (h : Hall) : (h.leaveChairs u).cmd = h.cmd := rfl
@[simp] theorem leaveChairs_events (u : Nat) (h : Hall) : (h.leaveChairs u).events = h.events := rfl
@[simp] theorem leaveChairs_mem (u : Nat) (h : Hall) : (h.leaveChairs u).mem = h.mem := rfl
@[simp] theorem leaveChairs_store (u : Nat) (h : Hall) : (h.leaveChairs u).store = h.store := rfl
@[simp] theorem leaveChairs_runs (u : Nat) (h : Hall) :
    (h.leaveChairs u).floor.runs = h.floor.runs := rfl
@[simp] theorem leaveChairs_queues (u : Nat) (h : Hall) :
    (h.leaveChairs u).floor.queues = h.floor.queues := rfl
@[simp] theorem leaveChairs_poolFree (u : Nat) (h : Hall) :
    (h.leaveChairs u).floor.poolFree = h.floor.poolFree := rfl
@[simp] theorem leaveChairs_poolArmed (u : Nat) (h : Hall) :
    (h.leaveChairs u).floor.poolArmed = h.floor.poolArmed := rfl
@[simp] theorem leaveChairs_gaps (u : Nat) (h : Hall) :
    (h.leaveChairs u).floor.gaps = h.floor.gaps := rfl
@[simp] theorem leaveChairs_dirty (u : Nat) (h : Hall) :
    (h.leaveChairs u).floor.dirty = h.floor.dirty := rfl
@[simp] theorem leaveChairs_sets (u : Nat) (h : Hall) :
    (h.leaveChairs u).floor.chairs = h.floor.chairs.erase u := rfl

/-! `setBoothRun` -/

@[simp] theorem setBoothRun_frameCounter (b : Nat) (f : BoothRun → BoothRun) (h : Hall) : (h.setBoothRun b f).frameCounter = h.frameCounter := rfl
@[simp] theorem setBoothRun_part (b : Nat) (f : BoothRun → BoothRun) (h : Hall) : (h.setBoothRun b f).part = h.part := rfl
@[simp] theorem setBoothRun_floor (b : Nat) (f : BoothRun → BoothRun) (h : Hall) : (h.setBoothRun b f).floor = h.floor := rfl
@[simp] theorem setBoothRun_slots (b : Nat) (f : BoothRun → BoothRun) (h : Hall) : (h.setBoothRun b f).slots = h.slots := rfl
@[simp] theorem setBoothRun_gains (b : Nat) (f : BoothRun → BoothRun) (h : Hall) : (h.setBoothRun b f).gains = h.gains := rfl
@[simp] theorem setBoothRun_cmd (b : Nat) (f : BoothRun → BoothRun) (h : Hall) : (h.setBoothRun b f).cmd = h.cmd := rfl
@[simp] theorem setBoothRun_events (b : Nat) (f : BoothRun → BoothRun) (h : Hall) : (h.setBoothRun b f).events = h.events := rfl
@[simp] theorem setBoothRun_mem (b : Nat) (f : BoothRun → BoothRun) (h : Hall) : (h.setBoothRun b f).mem = h.mem := rfl
@[simp] theorem setBoothRun_store (b : Nat) (f : BoothRun → BoothRun) (h : Hall) : (h.setBoothRun b f).store = h.store := rfl
@[simp] theorem setBoothRun_plans (b : Nat) (f : BoothRun → BoothRun) (h : Hall) :
    (h.setBoothRun b f).router.plans = h.router.plans := rfl
@[simp] theorem setBoothRun_boothDirty (b : Nat) (f : BoothRun → BoothRun) (h : Hall) :
    (h.setBoothRun b f).router.boothDirty = h.router.boothDirty := rfl
@[simp] theorem setBoothRun_channelDirty (b : Nat) (f : BoothRun → BoothRun) (h : Hall) :
    (h.setBoothRun b f).router.channelDirty = h.router.channelDirty := rfl
@[simp] theorem setBoothRun_sets (b : Nat) (f : BoothRun → BoothRun) (h : Hall) :
    (h.setBoothRun b f).router.booths = tmod h.router.booths b f := rfl

/-! `markBooth` -/

@[simp] theorem markBooth_frameCounter (b : Nat) (h : Hall) : (h.markBooth b).frameCounter = h.frameCounter := rfl
@[simp] theorem markBooth_part (b : Nat) (h : Hall) : (h.markBooth b).part = h.part := rfl
@[simp] theorem markBooth_floor (b : Nat) (h : Hall) : (h.markBooth b).floor = h.floor := rfl
@[simp] theorem markBooth_slots (b : Nat) (h : Hall) : (h.markBooth b).slots = h.slots := rfl
@[simp] theorem markBooth_gains (b : Nat) (h : Hall) : (h.markBooth b).gains = h.gains := rfl
@[simp] theorem markBooth_cmd (b : Nat) (h : Hall) : (h.markBooth b).cmd = h.cmd := rfl
@[simp] theorem markBooth_events (b : Nat) (h : Hall) : (h.markBooth b).events = h.events := rfl
@[simp] theorem markBooth_mem (b : Nat) (h : Hall) : (h.markBooth b).mem = h.mem := rfl
@[simp] theorem markBooth_store (b : Nat) (h : Hall) : (h.markBooth b).store = h.store := rfl
@[simp] theorem markBooth_booths (b : Nat) (h : Hall) :
    (h.markBooth b).router.booths = h.router.booths := rfl
@[simp] theorem markBooth_plans (b : Nat) (h : Hall) :
    (h.markBooth b).router.plans = h.router.plans := rfl
@[simp] theorem markBooth_channelDirty (b : Nat) (h : Hall) :
    (h.markBooth b).router.channelDirty = h.router.channelDirty := rfl
@[simp] theorem markBooth_sets (b : Nat) (h : Hall) :
    (h.markBooth b).router.boothDirty = tset h.router.boothDirty b true := rfl

/-! `unmarkBooth` -/

@[simp] theorem unmarkBooth_frameCounter (b : Nat) (h : Hall) : (h.unmarkBooth b).frameCounter = h.frameCounter := rfl
@[simp] theorem unmarkBooth_part (b : Nat) (h : Hall) : (h.unmarkBooth b).part = h.part := rfl
@[simp] theorem unmarkBooth_floor (b : Nat) (h : Hall) : (h.unmarkBooth b).floor = h.floor := rfl
@[simp] theorem unmarkBooth_slots (b : Nat) (h : Hall) : (h.unmarkBooth b).slots = h.slots := rfl
@[simp] theorem unmarkBooth_gains (b : Nat) (h : Hall) : (h.unmarkBooth b).gains = h.gains := rfl
@[simp] theorem unmarkBooth_cmd (b : Nat) (h : Hall) : (h.unmarkBooth b).cmd = h.cmd := rfl
@[simp] theorem unmarkBooth_events (b : Nat) (h : Hall) : (h.unmarkBooth b).events = h.events := rfl
@[simp] theorem unmarkBooth_mem (b : Nat) (h : Hall) : (h.unmarkBooth b).mem = h.mem := rfl
@[simp] theorem unmarkBooth_store (b : Nat) (h : Hall) : (h.unmarkBooth b).store = h.store := rfl
@[simp] theorem unmarkBooth_booths (b : Nat) (h : Hall) :
    (h.unmarkBooth b).router.booths = h.router.booths := rfl
@[simp] theorem unmarkBooth_plans (b : Nat) (h : Hall) :
    (h.unmarkBooth b).router.plans = h.router.plans := rfl
@[simp] theorem unmarkBooth_channelDirty (b : Nat) (h : Hall) :
    (h.unmarkBooth b).router.channelDirty = h.router.channelDirty := rfl

/-! `markChannel` -/

@[simp] theorem markChannel_frameCounter (r c : Nat) (h : Hall) : (h.markChannel r c).frameCounter = h.frameCounter := rfl
@[simp] theorem markChannel_part (r c : Nat) (h : Hall) : (h.markChannel r c).part = h.part := rfl
@[simp] theorem markChannel_floor (r c : Nat) (h : Hall) : (h.markChannel r c).floor = h.floor := rfl
@[simp] theorem markChannel_slots (r c : Nat) (h : Hall) : (h.markChannel r c).slots = h.slots := rfl
@[simp] theorem markChannel_gains (r c : Nat) (h : Hall) : (h.markChannel r c).gains = h.gains := rfl
@[simp] theorem markChannel_cmd (r c : Nat) (h : Hall) : (h.markChannel r c).cmd = h.cmd := rfl
@[simp] theorem markChannel_events (r c : Nat) (h : Hall) : (h.markChannel r c).events = h.events := rfl
@[simp] theorem markChannel_mem (r c : Nat) (h : Hall) : (h.markChannel r c).mem = h.mem := rfl
@[simp] theorem markChannel_store (r c : Nat) (h : Hall) : (h.markChannel r c).store = h.store := rfl
@[simp] theorem markChannel_booths (r c : Nat) (h : Hall) :
    (h.markChannel r c).router.booths = h.router.booths := rfl
@[simp] theorem markChannel_plans (r c : Nat) (h : Hall) :
    (h.markChannel r c).router.plans = h.router.plans := rfl
@[simp] theorem markChannel_boothDirty (r c : Nat) (h : Hall) :
    (h.markChannel r c).router.boothDirty = h.router.boothDirty := rfl

/-! `unmarkChannel` -/

@[simp] theorem unmarkChannel_frameCounter (i : Nat) (h : Hall) : (h.unmarkChannel i).frameCounter = h.frameCounter := rfl
@[simp] theorem unmarkChannel_part (i : Nat) (h : Hall) : (h.unmarkChannel i).part = h.part := rfl
@[simp] theorem unmarkChannel_floor (i : Nat) (h : Hall) : (h.unmarkChannel i).floor = h.floor := rfl
@[simp] theorem unmarkChannel_slots (i : Nat) (h : Hall) : (h.unmarkChannel i).slots = h.slots := rfl
@[simp] theorem unmarkChannel_gains (i : Nat) (h : Hall) : (h.unmarkChannel i).gains = h.gains := rfl
@[simp] theorem unmarkChannel_cmd (i : Nat) (h : Hall) : (h.unmarkChannel i).cmd = h.cmd := rfl
@[simp] theorem unmarkChannel_events (i : Nat) (h : Hall) : (h.unmarkChannel i).events = h.events := rfl
@[simp] theorem unmarkChannel_mem (i : Nat) (h : Hall) : (h.unmarkChannel i).mem = h.mem := rfl
@[simp] theorem unmarkChannel_store (i : Nat) (h : Hall) : (h.unmarkChannel i).store = h.store := rfl
@[simp] theorem unmarkChannel_booths (i : Nat) (h : Hall) :
    (h.unmarkChannel i).router.booths = h.router.booths := rfl
@[simp] theorem unmarkChannel_plans (i : Nat) (h : Hall) :
    (h.unmarkChannel i).router.plans = h.router.plans := rfl
@[simp] theorem unmarkChannel_boothDirty (i : Nat) (h : Hall) :
    (h.unmarkChannel i).router.boothDirty = h.router.boothDirty := rfl

/-! `markSection` -/

@[simp] theorem markSection_frameCounter (s : Nat) (h : Hall) : (h.markSection s).frameCounter = h.frameCounter := rfl
@[simp] theorem markSection_part (s : Nat) (h : Hall) : (h.markSection s).part = h.part := rfl
@[simp] theorem markSection_floor (s : Nat) (h : Hall) : (h.markSection s).floor = h.floor := rfl
@[simp] theorem markSection_slots (s : Nat) (h : Hall) : (h.markSection s).slots = h.slots := rfl
@[simp] theorem markSection_gains (s : Nat) (h : Hall) : (h.markSection s).gains = h.gains := rfl
@[simp] theorem markSection_cmd (s : Nat) (h : Hall) : (h.markSection s).cmd = h.cmd := rfl
@[simp] theorem markSection_events (s : Nat) (h : Hall) : (h.markSection s).events = h.events := rfl
@[simp] theorem markSection_mem (s : Nat) (h : Hall) : (h.markSection s).mem = h.mem := rfl
@[simp] theorem markSection_store (s : Nat) (h : Hall) : (h.markSection s).store = h.store := rfl
@[simp] theorem markSection_booths (s : Nat) (h : Hall) :
    (h.markSection s).router.booths = h.router.booths := rfl
@[simp] theorem markSection_plans (s : Nat) (h : Hall) :
    (h.markSection s).router.plans = h.router.plans := rfl
@[simp] theorem markSection_boothDirty (s : Nat) (h : Hall) :
    (h.markSection s).router.boothDirty = h.router.boothDirty := rfl

/-! `markAllNotices` -/

@[simp] theorem markAllNotices_frameCounter (h : Hall) : h.markAllNotices.frameCounter = h.frameCounter := rfl
@[simp] theorem markAllNotices_part (h : Hall) : h.markAllNotices.part = h.part := rfl
@[simp] theorem markAllNotices_floor (h : Hall) : h.markAllNotices.floor = h.floor := rfl
@[simp] theorem markAllNotices_slots (h : Hall) : h.markAllNotices.slots = h.slots := rfl
@[simp] theorem markAllNotices_gains (h : Hall) : h.markAllNotices.gains = h.gains := rfl
@[simp] theorem markAllNotices_cmd (h : Hall) : h.markAllNotices.cmd = h.cmd := rfl
@[simp] theorem markAllNotices_events (h : Hall) : h.markAllNotices.events = h.events := rfl
@[simp] theorem markAllNotices_mem (h : Hall) : h.markAllNotices.mem = h.mem := rfl
@[simp] theorem markAllNotices_store (h : Hall) : h.markAllNotices.store = h.store := rfl
@[simp] theorem markAllNotices_booths (h : Hall) :
    h.markAllNotices.router.booths = h.router.booths := rfl
@[simp] theorem markAllNotices_plans (h : Hall) :
    h.markAllNotices.router.plans = h.router.plans := rfl

/-! `setMic` -/

@[simp] theorem setMic_frameCounter (k : Nat) (x : Option Nat) (h : Hall) : (h.setMic k x).frameCounter = h.frameCounter := rfl
@[simp] theorem setMic_part (k : Nat) (x : Option Nat) (h : Hall) : (h.setMic k x).part = h.part := rfl
@[simp] theorem setMic_floor (k : Nat) (x : Option Nat) (h : Hall) : (h.setMic k x).floor = h.floor := rfl
@[simp] theorem setMic_router (k : Nat) (x : Option Nat) (h : Hall) : (h.setMic k x).router = h.router := rfl
@[simp] theorem setMic_gains (k : Nat) (x : Option Nat) (h : Hall) : (h.setMic k x).gains = h.gains := rfl
@[simp] theorem setMic_cmd (k : Nat) (x : Option Nat) (h : Hall) : (h.setMic k x).cmd = h.cmd := rfl
@[simp] theorem setMic_events (k : Nat) (x : Option Nat) (h : Hall) : (h.setMic k x).events = h.events := rfl
@[simp] theorem setMic_mem (k : Nat) (x : Option Nat) (h : Hall) : (h.setMic k x).mem = h.mem := rfl
@[simp] theorem setMic_store (k : Nat) (x : Option Nat) (h : Hall) : (h.setMic k x).store = h.store := rfl
@[simp] theorem setMic_floorActive (k : Nat) (x : Option Nat) (h : Hall) :
    (h.setMic k x).slots.floorActive = h.slots.floorActive := rfl
@[simp] theorem setMic_pool (k : Nat) (x : Option Nat) (h : Hall) :
    (h.setMic k x).slots.pool = h.slots.pool := rfl
@[simp] theorem setMic_waitList (k : Nat) (x : Option Nat) (h : Hall) :
    (h.setMic k x).slots.waitList = h.slots.waitList := rfl
@[simp] theorem setMic_planLength (k : Nat) (x : Option Nat) (h : Hall) :
    (h.setMic k x).slots.planLength = h.slots.planLength := rfl
@[simp] theorem setMic_sets (k : Nat) (x : Option Nat) (h : Hall) :
    (h.setMic k x).slots.mics = tset h.slots.mics k x := rfl

/-! `setPool` -/

@[simp] theorem setPool_frameCounter (i : Nat) (c : Option Claim) (h : Hall) : (h.setPool i c).frameCounter = h.frameCounter := rfl
@[simp] theorem setPool_part (i : Nat) (c : Option Claim) (h : Hall) : (h.setPool i c).part = h.part := rfl
@[simp] theorem setPool_floor (i : Nat) (c : Option Claim) (h : Hall) : (h.setPool i c).floor = h.floor := rfl
@[simp] theorem setPool_router (i : Nat) (c : Option Claim) (h : Hall) : (h.setPool i c).router = h.router := rfl
@[simp] theorem setPool_gains (i : Nat) (c : Option Claim) (h : Hall) : (h.setPool i c).gains = h.gains := rfl
@[simp] theorem setPool_cmd (i : Nat) (c : Option Claim) (h : Hall) : (h.setPool i c).cmd = h.cmd := rfl
@[simp] theorem setPool_events (i : Nat) (c : Option Claim) (h : Hall) : (h.setPool i c).events = h.events := rfl
@[simp] theorem setPool_mem (i : Nat) (c : Option Claim) (h : Hall) : (h.setPool i c).mem = h.mem := rfl
@[simp] theorem setPool_store (i : Nat) (c : Option Claim) (h : Hall) : (h.setPool i c).store = h.store := rfl
@[simp] theorem setPool_mics (i : Nat) (c : Option Claim) (h : Hall) :
    (h.setPool i c).slots.mics = h.slots.mics := rfl
@[simp] theorem setPool_floorActive (i : Nat) (c : Option Claim) (h : Hall) :
    (h.setPool i c).slots.floorActive = h.slots.floorActive := rfl
@[simp] theorem setPool_waitList (i : Nat) (c : Option Claim) (h : Hall) :
    (h.setPool i c).slots.waitList = h.slots.waitList := rfl
@[simp] theorem setPool_planLength (i : Nat) (c : Option Claim) (h : Hall) :
    (h.setPool i c).slots.planLength = h.slots.planLength := rfl
@[simp] theorem setPool_sets (i : Nat) (c : Option Claim) (h : Hall) :
    (h.setPool i c).slots.pool = tset h.slots.pool i c := rfl

/-! `wait` -/

@[simp] theorem wait_frameCounter (c : Claim) (h : Hall) : (h.wait c).frameCounter = h.frameCounter := rfl
@[simp] theorem wait_part (c : Claim) (h : Hall) : (h.wait c).part = h.part := rfl
@[simp] theorem wait_floor (c : Claim) (h : Hall) : (h.wait c).floor = h.floor := rfl
@[simp] theorem wait_router (c : Claim) (h : Hall) : (h.wait c).router = h.router := rfl
@[simp] theorem wait_gains (c : Claim) (h : Hall) : (h.wait c).gains = h.gains := rfl
@[simp] theorem wait_cmd (c : Claim) (h : Hall) : (h.wait c).cmd = h.cmd := rfl
@[simp] theorem wait_events (c : Claim) (h : Hall) : (h.wait c).events = h.events := rfl
@[simp] theorem wait_mem (c : Claim) (h : Hall) : (h.wait c).mem = h.mem := rfl
@[simp] theorem wait_store (c : Claim) (h : Hall) : (h.wait c).store = h.store := rfl
@[simp] theorem wait_mics (c : Claim) (h : Hall) :
    (h.wait c).slots.mics = h.slots.mics := rfl
@[simp] theorem wait_floorActive (c : Claim) (h : Hall) :
    (h.wait c).slots.floorActive = h.slots.floorActive := rfl
@[simp] theorem wait_pool (c : Claim) (h : Hall) :
    (h.wait c).slots.pool = h.slots.pool := rfl
@[simp] theorem wait_planLength (c : Claim) (h : Hall) :
    (h.wait c).slots.planLength = h.slots.planLength := rfl

/-! `unwait` -/

@[simp] theorem unwait_frameCounter (c : Claim) (h : Hall) : (h.unwait c).frameCounter = h.frameCounter := rfl
@[simp] theorem unwait_part (c : Claim) (h : Hall) : (h.unwait c).part = h.part := rfl
@[simp] theorem unwait_floor (c : Claim) (h : Hall) : (h.unwait c).floor = h.floor := rfl
@[simp] theorem unwait_router (c : Claim) (h : Hall) : (h.unwait c).router = h.router := rfl
@[simp] theorem unwait_gains (c : Claim) (h : Hall) : (h.unwait c).gains = h.gains := rfl
@[simp] theorem unwait_cmd (c : Claim) (h : Hall) : (h.unwait c).cmd = h.cmd := rfl
@[simp] theorem unwait_events (c : Claim) (h : Hall) : (h.unwait c).events = h.events := rfl
@[simp] theorem unwait_mem (c : Claim) (h : Hall) : (h.unwait c).mem = h.mem := rfl
@[simp] theorem unwait_store (c : Claim) (h : Hall) : (h.unwait c).store = h.store := rfl
@[simp] theorem unwait_mics (c : Claim) (h : Hall) :
    (h.unwait c).slots.mics = h.slots.mics := rfl
@[simp] theorem unwait_floorActive (c : Claim) (h : Hall) :
    (h.unwait c).slots.floorActive = h.slots.floorActive := rfl
@[simp] theorem unwait_pool (c : Claim) (h : Hall) :
    (h.unwait c).slots.pool = h.slots.pool := rfl
@[simp] theorem unwait_planLength (c : Claim) (h : Hall) :
    (h.unwait c).slots.planLength = h.slots.planLength := rfl
@[simp] theorem unwait_sets (c : Claim) (h : Hall) :
    (h.unwait c).slots.waitList = h.slots.waitList.erase c := rfl

/-! `setPlanLength` -/

@[simp] theorem setPlanLength_frameCounter (r n : Nat) (h : Hall) : (h.setPlanLength r n).frameCounter = h.frameCounter := rfl
@[simp] theorem setPlanLength_part (r n : Nat) (h : Hall) : (h.setPlanLength r n).part = h.part := rfl
@[simp] theorem setPlanLength_floor (r n : Nat) (h : Hall) : (h.setPlanLength r n).floor = h.floor := rfl
@[simp] theorem setPlanLength_router (r n : Nat) (h : Hall) : (h.setPlanLength r n).router = h.router := rfl
@[simp] theorem setPlanLength_gains (r n : Nat) (h : Hall) : (h.setPlanLength r n).gains = h.gains := rfl
@[simp] theorem setPlanLength_cmd (r n : Nat) (h : Hall) : (h.setPlanLength r n).cmd = h.cmd := rfl
@[simp] theorem setPlanLength_events (r n : Nat) (h : Hall) : (h.setPlanLength r n).events = h.events := rfl
@[simp] theorem setPlanLength_mem (r n : Nat) (h : Hall) : (h.setPlanLength r n).mem = h.mem := rfl
@[simp] theorem setPlanLength_store (r n : Nat) (h : Hall) : (h.setPlanLength r n).store = h.store := rfl
@[simp] theorem setPlanLength_mics (r n : Nat) (h : Hall) :
    (h.setPlanLength r n).slots.mics = h.slots.mics := rfl
@[simp] theorem setPlanLength_floorActive (r n : Nat) (h : Hall) :
    (h.setPlanLength r n).slots.floorActive = h.slots.floorActive := rfl
@[simp] theorem setPlanLength_pool (r n : Nat) (h : Hall) :
    (h.setPlanLength r n).slots.pool = h.slots.pool := rfl
@[simp] theorem setPlanLength_waitList (r n : Nat) (h : Hall) :
    (h.setPlanLength r n).slots.waitList = h.slots.waitList := rfl
@[simp] theorem setPlanLength_sets (r n : Nat) (h : Hall) :
    (h.setPlanLength r n).slots.planLength = tset h.slots.planLength r n := rfl

/-! `setFloorSlots` -/

@[simp] theorem setFloorSlots_frameCounter (h : Hall) : h.setFloorSlots.frameCounter = h.frameCounter := rfl
@[simp] theorem setFloorSlots_part (h : Hall) : h.setFloorSlots.part = h.part := rfl
@[simp] theorem setFloorSlots_floor (h : Hall) : h.setFloorSlots.floor = h.floor := rfl
@[simp] theorem setFloorSlots_router (h : Hall) : h.setFloorSlots.router = h.router := rfl
@[simp] theorem setFloorSlots_gains (h : Hall) : h.setFloorSlots.gains = h.gains := rfl
@[simp] theorem setFloorSlots_cmd (h : Hall) : h.setFloorSlots.cmd = h.cmd := rfl
@[simp] theorem setFloorSlots_events (h : Hall) : h.setFloorSlots.events = h.events := rfl
@[simp] theorem setFloorSlots_mem (h : Hall) : h.setFloorSlots.mem = h.mem := rfl
@[simp] theorem setFloorSlots_store (h : Hall) : h.setFloorSlots.store = h.store := rfl
@[simp] theorem setFloorSlots_mics (h : Hall) :
    h.setFloorSlots.slots.mics = h.slots.mics := rfl
@[simp] theorem setFloorSlots_pool (h : Hall) :
    h.setFloorSlots.slots.pool = h.slots.pool := rfl
@[simp] theorem setFloorSlots_waitList (h : Hall) :
    h.setFloorSlots.slots.waitList = h.slots.waitList := rfl
@[simp] theorem setFloorSlots_planLength (h : Hall) :
    h.setFloorSlots.slots.planLength = h.slots.planLength := rfl

/-! `setMicTarget` -/

@[simp] theorem setMicTarget_frameCounter (k a : Nat) (h : Hall) : (h.setMicTarget k a).frameCounter = h.frameCounter := rfl
@[simp] theorem setMicTarget_part (k a : Nat) (h : Hall) : (h.setMicTarget k a).part = h.part := rfl
@[simp] theorem setMicTarget_floor (k a : Nat) (h : Hall) : (h.setMicTarget k a).floor = h.floor := rfl
@[simp] theorem setMicTarget_router (k a : Nat) (h : Hall) : (h.setMicTarget k a).router = h.router := rfl
@[simp] theorem setMicTarget_slots (k a : Nat) (h : Hall) : (h.setMicTarget k a).slots = h.slots := rfl
@[simp] theorem setMicTarget_cmd (k a : Nat) (h : Hall) : (h.setMicTarget k a).cmd = h.cmd := rfl
@[simp] theorem setMicTarget_events (k a : Nat) (h : Hall) : (h.setMicTarget k a).events = h.events := rfl
@[simp] theorem setMicTarget_mem (k a : Nat) (h : Hall) : (h.setMicTarget k a).mem = h.mem := rfl
@[simp] theorem setMicTarget_store (k a : Nat) (h : Hall) : (h.setMicTarget k a).store = h.store := rfl
@[simp] theorem setMicTarget_rooms (k a : Nat) (h : Hall) :
    (h.setMicTarget k a).gains.rooms = h.gains.rooms := rfl
@[simp] theorem setMicTarget_booths (k a : Nat) (h : Hall) :
    (h.setMicTarget k a).gains.booths = h.gains.booths := rfl
@[simp] theorem setMicTarget_sets (k a : Nat) (h : Hall) :
    (h.setMicTarget k a).gains.mics = tmod h.gains.mics k (fun g => { g with target := a }) := rfl

/-! `setRoomFades` -/

@[simp] theorem setRoomFades_frameCounter (a r : Nat) (h : Hall) : (h.setRoomFades a r).frameCounter = h.frameCounter := rfl
@[simp] theorem setRoomFades_part (a r : Nat) (h : Hall) : (h.setRoomFades a r).part = h.part := rfl
@[simp] theorem setRoomFades_floor (a r : Nat) (h : Hall) : (h.setRoomFades a r).floor = h.floor := rfl
@[simp] theorem setRoomFades_router (a r : Nat) (h : Hall) : (h.setRoomFades a r).router = h.router := rfl
@[simp] theorem setRoomFades_slots (a r : Nat) (h : Hall) : (h.setRoomFades a r).slots = h.slots := rfl
@[simp] theorem setRoomFades_cmd (a r : Nat) (h : Hall) : (h.setRoomFades a r).cmd = h.cmd := rfl
@[simp] theorem setRoomFades_events (a r : Nat) (h : Hall) : (h.setRoomFades a r).events = h.events := rfl
@[simp] theorem setRoomFades_mem (a r : Nat) (h : Hall) : (h.setRoomFades a r).mem = h.mem := rfl
@[simp] theorem setRoomFades_store (a r : Nat) (h : Hall) : (h.setRoomFades a r).store = h.store := rfl
@[simp] theorem setRoomFades_mics (a r : Nat) (h : Hall) :
    (h.setRoomFades a r).gains.mics = h.gains.mics := rfl
@[simp] theorem setRoomFades_booths (a r : Nat) (h : Hall) :
    (h.setRoomFades a r).gains.booths = h.gains.booths := rfl

/-! `syncBoothFades` -/

@[simp] theorem syncBoothFades_frameCounter (h : Hall) : h.syncBoothFades.frameCounter = h.frameCounter := rfl
@[simp] theorem syncBoothFades_part (h : Hall) : h.syncBoothFades.part = h.part := rfl
@[simp] theorem syncBoothFades_floor (h : Hall) : h.syncBoothFades.floor = h.floor := rfl
@[simp] theorem syncBoothFades_router (h : Hall) : h.syncBoothFades.router = h.router := rfl
@[simp] theorem syncBoothFades_slots (h : Hall) : h.syncBoothFades.slots = h.slots := rfl
@[simp] theorem syncBoothFades_cmd (h : Hall) : h.syncBoothFades.cmd = h.cmd := rfl
@[simp] theorem syncBoothFades_events (h : Hall) : h.syncBoothFades.events = h.events := rfl
@[simp] theorem syncBoothFades_mem (h : Hall) : h.syncBoothFades.mem = h.mem := rfl
@[simp] theorem syncBoothFades_store (h : Hall) : h.syncBoothFades.store = h.store := rfl
@[simp] theorem syncBoothFades_mics (h : Hall) :
    h.syncBoothFades.gains.mics = h.gains.mics := rfl
@[simp] theorem syncBoothFades_rooms (h : Hall) :
    h.syncBoothFades.gains.rooms = h.gains.rooms := rfl

/-! `setMode` -/

@[simp] theorem setMode_frameCounter (m : Mode) (h : Hall) : (h.setMode m).frameCounter = h.frameCounter := rfl
@[simp] theorem setMode_part (m : Mode) (h : Hall) : (h.setMode m).part = h.part := rfl
@[simp] theorem setMode_floor (m : Mode) (h : Hall) : (h.setMode m).floor = h.floor := rfl
@[simp] theorem setMode_router (m : Mode) (h : Hall) : (h.setMode m).router = h.router := rfl
@[simp] theorem setMode_slots (m : Mode) (h : Hall) : (h.setMode m).slots = h.slots := rfl
@[simp] theorem setMode_gains (m : Mode) (h : Hall) : (h.setMode m).gains = h.gains := rfl
@[simp] theorem setMode_events (m : Mode) (h : Hall) : (h.setMode m).events = h.events := rfl
@[simp] theorem setMode_mem (m : Mode) (h : Hall) : (h.setMode m).mem = h.mem := rfl
@[simp] theorem setMode_store (m : Mode) (h : Hall) : (h.setMode m).store = h.store := rfl
@[simp] theorem setMode_replies (m : Mode) (h : Hall) :
    (h.setMode m).cmd.replies = h.cmd.replies := rfl
@[simp] theorem setMode_groupFailed (m : Mode) (h : Hall) :
    (h.setMode m).cmd.groupFailed = h.cmd.groupFailed := rfl
@[simp] theorem setMode_deferred (m : Mode) (h : Hall) :
    (h.setMode m).cmd.deferred = h.cmd.deferred := rfl
@[simp] theorem setMode_requested (m : Mode) (h : Hall) :
    (h.setMode m).cmd.requested = h.cmd.requested := rfl
@[simp] theorem setMode_supervision (m : Mode) (h : Hall) :
    (h.setMode m).cmd.supervision = h.cmd.supervision := rfl
@[simp] theorem setMode_sets (m : Mode) (h : Hall) :
    (h.setMode m).cmd.mode = m := rfl

/-! `setRequested` -/

@[simp] theorem setRequested_frameCounter (m : ReqMode) (h : Hall) : (h.setRequested m).frameCounter = h.frameCounter := rfl
@[simp] theorem setRequested_part (m : ReqMode) (h : Hall) : (h.setRequested m).part = h.part := rfl
@[simp] theorem setRequested_floor (m : ReqMode) (h : Hall) : (h.setRequested m).floor = h.floor := rfl
@[simp] theorem setRequested_router (m : ReqMode) (h : Hall) : (h.setRequested m).router = h.router := rfl
@[simp] theorem setRequested_slots (m : ReqMode) (h : Hall) : (h.setRequested m).slots = h.slots := rfl
@[simp] theorem setRequested_gains (m : ReqMode) (h : Hall) : (h.setRequested m).gains = h.gains := rfl
@[simp] theorem setRequested_events (m : ReqMode) (h : Hall) : (h.setRequested m).events = h.events := rfl
@[simp] theorem setRequested_mem (m : ReqMode) (h : Hall) : (h.setRequested m).mem = h.mem := rfl
@[simp] theorem setRequested_store (m : ReqMode) (h : Hall) : (h.setRequested m).store = h.store := rfl
@[simp] theorem setRequested_replies (m : ReqMode) (h : Hall) :
    (h.setRequested m).cmd.replies = h.cmd.replies := rfl
@[simp] theorem setRequested_groupFailed (m : ReqMode) (h : Hall) :
    (h.setRequested m).cmd.groupFailed = h.cmd.groupFailed := rfl
@[simp] theorem setRequested_deferred (m : ReqMode) (h : Hall) :
    (h.setRequested m).cmd.deferred = h.cmd.deferred := rfl
@[simp] theorem setRequested_mode (m : ReqMode) (h : Hall) :
    (h.setRequested m).cmd.mode = h.cmd.mode := rfl
@[simp] theorem setRequested_supervision (m : ReqMode) (h : Hall) :
    (h.setRequested m).cmd.supervision = h.cmd.supervision := rfl
@[simp] theorem setRequested_sets (m : ReqMode) (h : Hall) :
    (h.setRequested m).cmd.requested = m := rfl

/-! `setSupervision` -/

@[simp] theorem setSupervision_frameCounter (v : Supervision) (h : Hall) : (h.setSupervision v).frameCounter = h.frameCounter := rfl
@[simp] theorem setSupervision_part (v : Supervision) (h : Hall) : (h.setSupervision v).part = h.part := rfl
@[simp] theorem setSupervision_floor (v : Supervision) (h : Hall) : (h.setSupervision v).floor = h.floor := rfl
@[simp] theorem setSupervision_router (v : Supervision) (h : Hall) : (h.setSupervision v).router = h.router := rfl
@[simp] theorem setSupervision_slots (v : Supervision) (h : Hall) : (h.setSupervision v).slots = h.slots := rfl
@[simp] theorem setSupervision_gains (v : Supervision) (h : Hall) : (h.setSupervision v).gains = h.gains := rfl
@[simp] theorem setSupervision_events (v : Supervision) (h : Hall) : (h.setSupervision v).events = h.events := rfl
@[simp] theorem setSupervision_mem (v : Supervision) (h : Hall) : (h.setSupervision v).mem = h.mem := rfl
@[simp] theorem setSupervision_store (v : Supervision) (h : Hall) : (h.setSupervision v).store = h.store := rfl
@[simp] theorem setSupervision_replies (v : Supervision) (h : Hall) :
    (h.setSupervision v).cmd.replies = h.cmd.replies := rfl
@[simp] theorem setSupervision_groupFailed (v : Supervision) (h : Hall) :
    (h.setSupervision v).cmd.groupFailed = h.cmd.groupFailed := rfl
@[simp] theorem setSupervision_deferred (v : Supervision) (h : Hall) :
    (h.setSupervision v).cmd.deferred = h.cmd.deferred := rfl
@[simp] theorem setSupervision_requested (v : Supervision) (h : Hall) :
    (h.setSupervision v).cmd.requested = h.cmd.requested := rfl
@[simp] theorem setSupervision_mode (v : Supervision) (h : Hall) :
    (h.setSupervision v).cmd.mode = h.cmd.mode := rfl
@[simp] theorem setSupervision_sets (v : Supervision) (h : Hall) :
    (h.setSupervision v).cmd.supervision = v := rfl

/-! `popReply` -/

@[simp] theorem popReply_frameCounter (h : Hall) : h.popReply.frameCounter = h.frameCounter := rfl
@[simp] theorem popReply_part (h : Hall) : h.popReply.part = h.part := rfl
@[simp] theorem popReply_floor (h : Hall) : h.popReply.floor = h.floor := rfl
@[simp] theorem popReply_router (h : Hall) : h.popReply.router = h.router := rfl
@[simp] theorem popReply_slots (h : Hall) : h.popReply.slots = h.slots := rfl
@[simp] theorem popReply_gains (h : Hall) : h.popReply.gains = h.gains := rfl
@[simp] theorem popReply_events (h : Hall) : h.popReply.events = h.events := rfl
@[simp] theorem popReply_mem (h : Hall) : h.popReply.mem = h.mem := rfl
@[simp] theorem popReply_store (h : Hall) : h.popReply.store = h.store := rfl
@[simp] theorem popReply_groupFailed (h : Hall) :
    h.popReply.cmd.groupFailed = h.cmd.groupFailed := rfl
@[simp] theorem popReply_deferred (h : Hall) :
    h.popReply.cmd.deferred = h.cmd.deferred := rfl
@[simp] theorem popReply_requested (h : Hall) :
    h.popReply.cmd.requested = h.cmd.requested := rfl
@[simp] theorem popReply_mode (h : Hall) :
    h.popReply.cmd.mode = h.cmd.mode := rfl
@[simp] theorem popReply_supervision (h : Hall) :
    h.popReply.cmd.supervision = h.cmd.supervision := rfl
@[simp] theorem popReply_sets (h : Hall) :
    h.popReply.cmd.replies = h.cmd.replies.tail := rfl

/-! `popEvent` -/

@[simp] theorem popEvent_frameCounter (h : Hall) : h.popEvent.frameCounter = h.frameCounter := rfl
@[simp] theorem popEvent_part (h : Hall) : h.popEvent.part = h.part := rfl
@[simp] theorem popEvent_floor (h : Hall) : h.popEvent.floor = h.floor := rfl
@[simp] theorem popEvent_router (h : Hall) : h.popEvent.router = h.router := rfl
@[simp] theorem popEvent_slots (h : Hall) : h.popEvent.slots = h.slots := rfl
@[simp] theorem popEvent_gains (h : Hall) : h.popEvent.gains = h.gains := rfl
@[simp] theorem popEvent_cmd (h : Hall) : h.popEvent.cmd = h.cmd := rfl
@[simp] theorem popEvent_mem (h : Hall) : h.popEvent.mem = h.mem := rfl
@[simp] theorem popEvent_store (h : Hall) : h.popEvent.store = h.store := rfl

/-! `setPartition` -/

@[simp] theorem setPartition_frameCounter (p : Partition) (h : Hall) : (h.setPartition p).frameCounter = h.frameCounter := rfl
@[simp] theorem setPartition_floor (p : Partition) (h : Hall) : (h.setPartition p).floor = h.floor := rfl
@[simp] theorem setPartition_router (p : Partition) (h : Hall) : (h.setPartition p).router = h.router := rfl
@[simp] theorem setPartition_slots (p : Partition) (h : Hall) : (h.setPartition p).slots = h.slots := rfl
@[simp] theorem setPartition_gains (p : Partition) (h : Hall) : (h.setPartition p).gains = h.gains := rfl
@[simp] theorem setPartition_cmd (p : Partition) (h : Hall) : (h.setPartition p).cmd = h.cmd := rfl
@[simp] theorem setPartition_events (p : Partition) (h : Hall) : (h.setPartition p).events = h.events := rfl
@[simp] theorem setPartition_mem (p : Partition) (h : Hall) : (h.setPartition p).mem = h.mem := rfl
@[simp] theorem setPartition_store (p : Partition) (h : Hall) : (h.setPartition p).store = h.store := rfl
@[simp] theorem setPartition_walls (p : Partition) (h : Hall) :
    (h.setPartition p).part.walls = h.part.walls := rfl
@[simp] theorem setPartition_scanTicks (p : Partition) (h : Hall) :
    (h.setPartition p).part.scanTicks = h.part.scanTicks := rfl
@[simp] theorem setPartition_scanInterval (p : Partition) (h : Hall) :
    (h.setPartition p).part.scanInterval = h.part.scanInterval := rfl
@[simp] theorem setPartition_debounceCount (p : Partition) (h : Hall) :
    (h.setPartition p).part.debounceCount = h.part.debounceCount := rfl
@[simp] theorem setPartition_effective (p : Partition) (h : Hall) :
    (h.setPartition p).part.effective = h.part.effective := rfl
@[simp] theorem setPartition_repartition (p : Partition) (h : Hall) :
    (h.setPartition p).part.repartition = h.part.repartition := rfl
@[simp] theorem setPartition_sets (p : Partition) (h : Hall) :
    (h.setPartition p).part.inForce = p := rfl

/-! `setEffective` -/

@[simp] theorem setEffective_frameCounter (p : Partition) (h : Hall) : (h.setEffective p).frameCounter = h.frameCounter := rfl
@[simp] theorem setEffective_floor (p : Partition) (h : Hall) : (h.setEffective p).floor = h.floor := rfl
@[simp] theorem setEffective_router (p : Partition) (h : Hall) : (h.setEffective p).router = h.router := rfl
@[simp] theorem setEffective_slots (p : Partition) (h : Hall) : (h.setEffective p).slots = h.slots := rfl
@[simp] theorem setEffective_gains (p : Partition) (h : Hall) : (h.setEffective p).gains = h.gains := rfl
@[simp] theorem setEffective_cmd (p : Partition) (h : Hall) : (h.setEffective p).cmd = h.cmd := rfl
@[simp] theorem setEffective_events (p : Partition) (h : Hall) : (h.setEffective p).events = h.events := rfl
@[simp] theorem setEffective_mem (p : Partition) (h : Hall) : (h.setEffective p).mem = h.mem := rfl
@[simp] theorem setEffective_store (p : Partition) (h : Hall) : (h.setEffective p).store = h.store := rfl
@[simp] theorem setEffective_walls (p : Partition) (h : Hall) :
    (h.setEffective p).part.walls = h.part.walls := rfl
@[simp] theorem setEffective_scanTicks (p : Partition) (h : Hall) :
    (h.setEffective p).part.scanTicks = h.part.scanTicks := rfl
@[simp] theorem setEffective_scanInterval (p : Partition) (h : Hall) :
    (h.setEffective p).part.scanInterval = h.part.scanInterval := rfl
@[simp] theorem setEffective_debounceCount (p : Partition) (h : Hall) :
    (h.setEffective p).part.debounceCount = h.part.debounceCount := rfl
@[simp] theorem setEffective_inForce (p : Partition) (h : Hall) :
    (h.setEffective p).part.inForce = h.part.inForce := rfl
@[simp] theorem setEffective_repartition (p : Partition) (h : Hall) :
    (h.setEffective p).part.repartition = h.part.repartition := rfl
@[simp] theorem setEffective_sets (p : Partition) (h : Hall) :
    (h.setEffective p).part.effective = p := rfl

/-! `setRepartition` -/

@[simp] theorem setRepartition_frameCounter (x : Repartition) (h : Hall) : (h.setRepartition x).frameCounter = h.frameCounter := rfl
@[simp] theorem setRepartition_floor (x : Repartition) (h : Hall) : (h.setRepartition x).floor = h.floor := rfl
@[simp] theorem setRepartition_router (x : Repartition) (h : Hall) : (h.setRepartition x).router = h.router := rfl
@[simp] theorem setRepartition_slots (x : Repartition) (h : Hall) : (h.setRepartition x).slots = h.slots := rfl
@[simp] theorem setRepartition_gains (x : Repartition) (h : Hall) : (h.setRepartition x).gains = h.gains := rfl
@[simp] theorem setRepartition_cmd (x : Repartition) (h : Hall) : (h.setRepartition x).cmd = h.cmd := rfl
@[simp] theorem setRepartition_events (x : Repartition) (h : Hall) : (h.setRepartition x).events = h.events := rfl
@[simp] theorem setRepartition_mem (x : Repartition) (h : Hall) : (h.setRepartition x).mem = h.mem := rfl
@[simp] theorem setRepartition_store (x : Repartition) (h : Hall) : (h.setRepartition x).store = h.store := rfl
@[simp] theorem setRepartition_walls (x : Repartition) (h : Hall) :
    (h.setRepartition x).part.walls = h.part.walls := rfl
@[simp] theorem setRepartition_scanTicks (x : Repartition) (h : Hall) :
    (h.setRepartition x).part.scanTicks = h.part.scanTicks := rfl
@[simp] theorem setRepartition_scanInterval (x : Repartition) (h : Hall) :
    (h.setRepartition x).part.scanInterval = h.part.scanInterval := rfl
@[simp] theorem setRepartition_debounceCount (x : Repartition) (h : Hall) :
    (h.setRepartition x).part.debounceCount = h.part.debounceCount := rfl
@[simp] theorem setRepartition_effective (x : Repartition) (h : Hall) :
    (h.setRepartition x).part.effective = h.part.effective := rfl
@[simp] theorem setRepartition_inForce (x : Repartition) (h : Hall) :
    (h.setRepartition x).part.inForce = h.part.inForce := rfl
@[simp] theorem setRepartition_sets (x : Repartition) (h : Hall) :
    (h.setRepartition x).part.repartition = x := rfl

/-! `setWallDebounce` -/

@[simp] theorem setWallDebounce_frameCounter (w : Nat) (x : WallDebounce) (h : Hall) : (h.setWallDebounce w x).frameCounter = h.frameCounter := rfl
@[simp] theorem setWallDebounce_floor (w : Nat) (x : WallDebounce) (h : Hall) : (h.setWallDebounce w x).floor = h.floor := rfl
@[simp] theorem setWallDebounce_router (w : Nat) (x : WallDebounce) (h : Hall) : (h.setWallDebounce w x).router = h.router := rfl
@[simp] theorem setWallDebounce_slots (w : Nat) (x : WallDebounce) (h : Hall) : (h.setWallDebounce w x).slots = h.slots := rfl
@[simp] theorem setWallDebounce_gains (w : Nat) (x : WallDebounce) (h : Hall) : (h.setWallDebounce w x).gains = h.gains := rfl
@[simp] theorem setWallDebounce_cmd (w : Nat) (x : WallDebounce) (h : Hall) : (h.setWallDebounce w x).cmd = h.cmd := rfl
@[simp] theorem setWallDebounce_events (w : Nat) (x : WallDebounce) (h : Hall) : (h.setWallDebounce w x).events = h.events := rfl
@[simp] theorem setWallDebounce_mem (w : Nat) (x : WallDebounce) (h : Hall) : (h.setWallDebounce w x).mem = h.mem := rfl
@[simp] theorem setWallDebounce_store (w : Nat) (x : WallDebounce) (h : Hall) : (h.setWallDebounce w x).store = h.store := rfl
@[simp] theorem setWallDebounce_scanTicks (w : Nat) (x : WallDebounce) (h : Hall) :
    (h.setWallDebounce w x).part.scanTicks = h.part.scanTicks := rfl
@[simp] theorem setWallDebounce_scanInterval (w : Nat) (x : WallDebounce) (h : Hall) :
    (h.setWallDebounce w x).part.scanInterval = h.part.scanInterval := rfl
@[simp] theorem setWallDebounce_debounceCount (w : Nat) (x : WallDebounce) (h : Hall) :
    (h.setWallDebounce w x).part.debounceCount = h.part.debounceCount := rfl
@[simp] theorem setWallDebounce_effective (w : Nat) (x : WallDebounce) (h : Hall) :
    (h.setWallDebounce w x).part.effective = h.part.effective := rfl
@[simp] theorem setWallDebounce_inForce (w : Nat) (x : WallDebounce) (h : Hall) :
    (h.setWallDebounce w x).part.inForce = h.part.inForce := rfl
@[simp] theorem setWallDebounce_repartition (w : Nat) (x : WallDebounce) (h : Hall) :
    (h.setWallDebounce w x).part.repartition = h.part.repartition := rfl
@[simp] theorem setWallDebounce_sets (w : Nat) (x : WallDebounce) (h : Hall) :
    (h.setWallDebounce w x).part.walls = tset h.part.walls w x := rfl

/-! `writeDelegate` -/

@[simp] theorem writeDelegate_frameCounter (u : Nat) (d : Delegate) (h : Hall) : (h.writeDelegate u d).frameCounter = h.frameCounter := rfl
@[simp] theorem writeDelegate_part (u : Nat) (d : Delegate) (h : Hall) : (h.writeDelegate u d).part = h.part := rfl
@[simp] theorem writeDelegate_floor (u : Nat) (d : Delegate) (h : Hall) : (h.writeDelegate u d).floor = h.floor := rfl
@[simp] theorem writeDelegate_router (u : Nat) (d : Delegate) (h : Hall) : (h.writeDelegate u d).router = h.router := rfl
@[simp] theorem writeDelegate_slots (u : Nat) (d : Delegate) (h : Hall) : (h.writeDelegate u d).slots = h.slots := rfl
@[simp] theorem writeDelegate_gains (u : Nat) (d : Delegate) (h : Hall) : (h.writeDelegate u d).gains = h.gains := rfl
@[simp] theorem writeDelegate_cmd (u : Nat) (d : Delegate) (h : Hall) : (h.writeDelegate u d).cmd = h.cmd := rfl
@[simp] theorem writeDelegate_events (u : Nat) (d : Delegate) (h : Hall) : (h.writeDelegate u d).events = h.events := rfl
@[simp] theorem writeDelegate_store (u : Nat) (d : Delegate) (h : Hall) : (h.writeDelegate u d).store = h.store := rfl
@[simp] theorem writeDelegate_settings (u : Nat) (d : Delegate) (h : Hall) :
    (h.writeDelegate u d).mem.settings = h.mem.settings := rfl
@[simp] theorem writeDelegate_plans (u : Nat) (d : Delegate) (h : Hall) :
    (h.writeDelegate u d).mem.plans = h.mem.plans := rfl
@[simp] theorem writeDelegate_booths (u : Nat) (d : Delegate) (h : Hall) :
    (h.writeDelegate u d).mem.booths = h.mem.booths := rfl
@[simp] theorem writeDelegate_classes (u : Nat) (d : Delegate) (h : Hall) :
    (h.writeDelegate u d).mem.classes = h.mem.classes := rfl
@[simp] theorem writeDelegate_overrides (u : Nat) (d : Delegate) (h : Hall) :
    (h.writeDelegate u d).mem.overrides = h.mem.overrides := rfl
@[simp] theorem writeDelegate_sets (u : Nat) (d : Delegate) (h : Hall) :
    (h.writeDelegate u d).mem.delegates = tset h.mem.delegates (unitIndex u) (fresh d) := rfl

/-! `writeSettings` -/

@[simp] theorem writeSettings_frameCounter (s : Nat) (v : Settings) (h : Hall) : (h.writeSettings s v).frameCounter = h.frameCounter := rfl
@[simp] theorem writeSettings_part (s : Nat) (v : Settings) (h : Hall) : (h.writeSettings s v).part = h.part := rfl
@[simp] theorem writeSettings_floor (s : Nat) (v : Settings) (h : Hall) : (h.writeSettings s v).floor = h.floor := rfl
@[simp] theorem writeSettings_router (s : Nat) (v : Settings) (h : Hall) : (h.writeSettings s v).router = h.router := rfl
@[simp] theorem writeSettings_slots (s : Nat) (v : Settings) (h : Hall) : (h.writeSettings s v).slots = h.slots := rfl
@[simp] theorem writeSettings_gains (s : Nat) (v : Settings) (h : Hall) : (h.writeSettings s v).gains = h.gains := rfl
@[simp] theorem writeSettings_cmd (s : Nat) (v : Settings) (h : Hall) : (h.writeSettings s v).cmd = h.cmd := rfl
@[simp] theorem writeSettings_events (s : Nat) (v : Settings) (h : Hall) : (h.writeSettings s v).events = h.events := rfl
@[simp] theorem writeSettings_store (s : Nat) (v : Settings) (h : Hall) : (h.writeSettings s v).store = h.store := rfl
@[simp] theorem writeSettings_delegates (s : Nat) (v : Settings) (h : Hall) :
    (h.writeSettings s v).mem.delegates = h.mem.delegates := rfl
@[simp] theorem writeSettings_plans (s : Nat) (v : Settings) (h : Hall) :
    (h.writeSettings s v).mem.plans = h.mem.plans := rfl
@[simp] theorem writeSettings_booths (s : Nat) (v : Settings) (h : Hall) :
    (h.writeSettings s v).mem.booths = h.mem.booths := rfl
@[simp] theorem writeSettings_classes (s : Nat) (v : Settings) (h : Hall) :
    (h.writeSettings s v).mem.classes = h.mem.classes := rfl
@[simp] theorem writeSettings_overrides (s : Nat) (v : Settings) (h : Hall) :
    (h.writeSettings s v).mem.overrides = h.mem.overrides := rfl
@[simp] theorem writeSettings_sets (s : Nat) (v : Settings) (h : Hall) :
    (h.writeSettings s v).mem.settings = tset h.mem.settings s (fresh v) := rfl

/-! `writePlan` -/

@[simp] theorem writePlan_frameCounter (s : Nat) (v : List Nat) (h : Hall) : (h.writePlan s v).frameCounter = h.frameCounter := rfl
@[simp] theorem writePlan_part (s : Nat) (v : List Nat) (h : Hall) : (h.writePlan s v).part = h.part := rfl
@[simp] theorem writePlan_floor (s : Nat) (v : List Nat) (h : Hall) : (h.writePlan s v).floor = h.floor := rfl
@[simp] theorem writePlan_router (s : Nat) (v : List Nat) (h : Hall) : (h.writePlan s v).router = h.router := rfl
@[simp] theorem writePlan_slots (s : Nat) (v : List Nat) (h : Hall) : (h.writePlan s v).slots = h.slots := rfl
@[simp] theorem writePlan_gains (s : Nat) (v : List Nat) (h : Hall) : (h.writePlan s v).gains = h.gains := rfl
@[simp] theorem writePlan_cmd (s : Nat) (v : List Nat) (h : Hall) : (h.writePlan s v).cmd = h.cmd := rfl
@[simp] theorem writePlan_events (s : Nat) (v : List Nat) (h : Hall) : (h.writePlan s v).events = h.events := rfl
@[simp] theorem writePlan_store (s : Nat) (v : List Nat) (h : Hall) : (h.writePlan s v).store = h.store := rfl
@[simp] theorem writePlan_delegates (s : Nat) (v : List Nat) (h : Hall) :
    (h.writePlan s v).mem.delegates = h.mem.delegates := rfl
@[simp] theorem writePlan_settings (s : Nat) (v : List Nat) (h : Hall) :
    (h.writePlan s v).mem.settings = h.mem.settings := rfl
@[simp] theorem writePlan_booths (s : Nat) (v : List Nat) (h : Hall) :
    (h.writePlan s v).mem.booths = h.mem.booths := rfl
@[simp] theorem writePlan_classes (s : Nat) (v : List Nat) (h : Hall) :
    (h.writePlan s v).mem.classes = h.mem.classes := rfl
@[simp] theorem writePlan_overrides (s : Nat) (v : List Nat) (h : Hall) :
    (h.writePlan s v).mem.overrides = h.mem.overrides := rfl
@[simp] theorem writePlan_sets (s : Nat) (v : List Nat) (h : Hall) :
    (h.writePlan s v).mem.plans = tset h.mem.plans s (fresh v) := rfl

/-! `writeBooth` -/

@[simp] theorem writeBooth_frameCounter (b : Nat) (v : Booth) (h : Hall) : (h.writeBooth b v).frameCounter = h.frameCounter := rfl
@[simp] theorem writeBooth_part (b : Nat) (v : Booth) (h : Hall) : (h.writeBooth b v).part = h.part := rfl
@[simp] theorem writeBooth_floor (b : Nat) (v : Booth) (h : Hall) : (h.writeBooth b v).floor = h.floor := rfl
@[simp] theorem writeBooth_router (b : Nat) (v : Booth) (h : Hall) : (h.writeBooth b v).router = h.router := rfl
@[simp] theorem writeBooth_slots (b : Nat) (v : Booth) (h : Hall) : (h.writeBooth b v).slots = h.slots := rfl
@[simp] theorem writeBooth_gains (b : Nat) (v : Booth) (h : Hall) : (h.writeBooth b v).gains = h.gains := rfl
@[simp] theorem writeBooth_cmd (b : Nat) (v : Booth) (h : Hall) : (h.writeBooth b v).cmd = h.cmd := rfl
@[simp] theorem writeBooth_events (b : Nat) (v : Booth) (h : Hall) : (h.writeBooth b v).events = h.events := rfl
@[simp] theorem writeBooth_store (b : Nat) (v : Booth) (h : Hall) : (h.writeBooth b v).store = h.store := rfl
@[simp] theorem writeBooth_delegates (b : Nat) (v : Booth) (h : Hall) :
    (h.writeBooth b v).mem.delegates = h.mem.delegates := rfl
@[simp] theorem writeBooth_settings (b : Nat) (v : Booth) (h : Hall) :
    (h.writeBooth b v).mem.settings = h.mem.settings := rfl
@[simp] theorem writeBooth_plans (b : Nat) (v : Booth) (h : Hall) :
    (h.writeBooth b v).mem.plans = h.mem.plans := rfl
@[simp] theorem writeBooth_classes (b : Nat) (v : Booth) (h : Hall) :
    (h.writeBooth b v).mem.classes = h.mem.classes := rfl
@[simp] theorem writeBooth_overrides (b : Nat) (v : Booth) (h : Hall) :
    (h.writeBooth b v).mem.overrides = h.mem.overrides := rfl
@[simp] theorem writeBooth_sets (b : Nat) (v : Booth) (h : Hall) :
    (h.writeBooth b v).mem.booths = tset h.mem.booths b (fresh v) := rfl

/-! `writeClass` -/

@[simp] theorem writeClass_frameCounter (c : Nat) (v : TimeClass) (h : Hall) : (h.writeClass c v).frameCounter = h.frameCounter := rfl
@[simp] theorem writeClass_part (c : Nat) (v : TimeClass) (h : Hall) : (h.writeClass c v).part = h.part := rfl
@[simp] theorem writeClass_floor (c : Nat) (v : TimeClass) (h : Hall) : (h.writeClass c v).floor = h.floor := rfl
@[simp] theorem writeClass_router (c : Nat) (v : TimeClass) (h : Hall) : (h.writeClass c v).router = h.router := rfl
@[simp] theorem writeClass_slots (c : Nat) (v : TimeClass) (h : Hall) : (h.writeClass c v).slots = h.slots := rfl
@[simp] theorem writeClass_gains (c : Nat) (v : TimeClass) (h : Hall) : (h.writeClass c v).gains = h.gains := rfl
@[simp] theorem writeClass_cmd (c : Nat) (v : TimeClass) (h : Hall) : (h.writeClass c v).cmd = h.cmd := rfl
@[simp] theorem writeClass_events (c : Nat) (v : TimeClass) (h : Hall) : (h.writeClass c v).events = h.events := rfl
@[simp] theorem writeClass_store (c : Nat) (v : TimeClass) (h : Hall) : (h.writeClass c v).store = h.store := rfl
@[simp] theorem writeClass_delegates (c : Nat) (v : TimeClass) (h : Hall) :
    (h.writeClass c v).mem.delegates = h.mem.delegates := rfl
@[simp] theorem writeClass_settings (c : Nat) (v : TimeClass) (h : Hall) :
    (h.writeClass c v).mem.settings = h.mem.settings := rfl
@[simp] theorem writeClass_plans (c : Nat) (v : TimeClass) (h : Hall) :
    (h.writeClass c v).mem.plans = h.mem.plans := rfl
@[simp] theorem writeClass_booths (c : Nat) (v : TimeClass) (h : Hall) :
    (h.writeClass c v).mem.booths = h.mem.booths := rfl
@[simp] theorem writeClass_overrides (c : Nat) (v : TimeClass) (h : Hall) :
    (h.writeClass c v).mem.overrides = h.mem.overrides := rfl
@[simp] theorem writeClass_sets (c : Nat) (v : TimeClass) (h : Hall) :
    (h.writeClass c v).mem.classes = tset h.mem.classes c (fresh v) := rfl

/-! `writeOverride` -/

@[simp] theorem writeOverride_frameCounter (w : Nat) (v : Override) (h : Hall) : (h.writeOverride w v).frameCounter = h.frameCounter := rfl
@[simp] theorem writeOverride_part (w : Nat) (v : Override) (h : Hall) : (h.writeOverride w v).part = h.part := rfl
@[simp] theorem writeOverride_floor (w : Nat) (v : Override) (h : Hall) : (h.writeOverride w v).floor = h.floor := rfl
@[simp] theorem writeOverride_router (w : Nat) (v : Override) (h : Hall) : (h.writeOverride w v).router = h.router := rfl
@[simp] theorem writeOverride_slots (w : Nat) (v : Override) (h : Hall) : (h.writeOverride w v).slots = h.slots := rfl
@[simp] theorem writeOverride_gains (w : Nat) (v : Override) (h : Hall) : (h.writeOverride w v).gains = h.gains := rfl
@[simp] theorem writeOverride_cmd (w : Nat) (v : Override) (h : Hall) : (h.writeOverride w v).cmd = h.cmd := rfl
@[simp] theorem writeOverride_events (w : Nat) (v : Override) (h : Hall) : (h.writeOverride w v).events = h.events := rfl
@[simp] theorem writeOverride_store (w : Nat) (v : Override) (h : Hall) : (h.writeOverride w v).store = h.store := rfl
@[simp] theorem writeOverride_delegates (w : Nat) (v : Override) (h : Hall) :
    (h.writeOverride w v).mem.delegates = h.mem.delegates := rfl
@[simp] theorem writeOverride_settings (w : Nat) (v : Override) (h : Hall) :
    (h.writeOverride w v).mem.settings = h.mem.settings := rfl
@[simp] theorem writeOverride_plans (w : Nat) (v : Override) (h : Hall) :
    (h.writeOverride w v).mem.plans = h.mem.plans := rfl
@[simp] theorem writeOverride_booths (w : Nat) (v : Override) (h : Hall) :
    (h.writeOverride w v).mem.booths = h.mem.booths := rfl
@[simp] theorem writeOverride_classes (w : Nat) (v : Override) (h : Hall) :
    (h.writeOverride w v).mem.classes = h.mem.classes := rfl
@[simp] theorem writeOverride_sets (w : Nat) (v : Override) (h : Hall) :
    (h.writeOverride w v).mem.overrides = tset h.mem.overrides w (fresh v) := rfl

/-! `setPreset` -/

@[simp] theorem setPreset_frameCounter (p : Nat) (x : Preset) (h : Hall) : (h.setPreset p x).frameCounter = h.frameCounter := rfl
@[simp] theorem setPreset_part (p : Nat) (x : Preset) (h : Hall) : (h.setPreset p x).part = h.part := rfl
@[simp] theorem setPreset_floor (p : Nat) (x : Preset) (h : Hall) : (h.setPreset p x).floor = h.floor := rfl
@[simp] theorem setPreset_router (p : Nat) (x : Preset) (h : Hall) : (h.setPreset p x).router = h.router := rfl
@[simp] theorem setPreset_slots (p : Nat) (x : Preset) (h : Hall) : (h.setPreset p x).slots = h.slots := rfl
@[simp] theorem setPreset_gains (p : Nat) (x : Preset) (h : Hall) : (h.setPreset p x).gains = h.gains := rfl
@[simp] theorem setPreset_cmd (p : Nat) (x : Preset) (h : Hall) : (h.setPreset p x).cmd = h.cmd := rfl
@[simp] theorem setPreset_events (p : Nat) (x : Preset) (h : Hall) : (h.setPreset p x).events = h.events := rfl
@[simp] theorem setPreset_mem (p : Nat) (x : Preset) (h : Hall) : (h.setPreset p x).mem = h.mem := rfl
@[simp] theorem setPreset_programming (p : Nat) (x : Preset) (h : Hall) :
    (h.setPreset p x).store.programming = h.store.programming := rfl
@[simp] theorem setPreset_houseWrite (p : Nat) (x : Preset) (h : Hall) :
    (h.setPreset p x).store.houseWrite = h.store.houseWrite := rfl
@[simp] theorem setPreset_sets (p : Nat) (x : Preset) (h : Hall) :
    (h.setPreset p x).store.presets = tset h.store.presets p x := rfl

/-! `setProgramming` -/

@[simp] theorem setProgramming_frameCounter (x : Option Programming) (h : Hall) : (h.setProgramming x).frameCounter = h.frameCounter := rfl
@[simp] theorem setProgramming_part (x : Option Programming) (h : Hall) : (h.setProgramming x).part = h.part := rfl
@[simp] theorem setProgramming_floor (x : Option Programming) (h : Hall) : (h.setProgramming x).floor = h.floor := rfl
@[simp] theorem setProgramming_router (x : Option Programming) (h : Hall) : (h.setProgramming x).router = h.router := rfl
@[simp] theorem setProgramming_slots (x : Option Programming) (h : Hall) : (h.setProgramming x).slots = h.slots := rfl
@[simp] theorem setProgramming_gains (x : Option Programming) (h : Hall) : (h.setProgramming x).gains = h.gains := rfl
@[simp] theorem setProgramming_cmd (x : Option Programming) (h : Hall) : (h.setProgramming x).cmd = h.cmd := rfl
@[simp] theorem setProgramming_events (x : Option Programming) (h : Hall) : (h.setProgramming x).events = h.events := rfl
@[simp] theorem setProgramming_mem (x : Option Programming) (h : Hall) : (h.setProgramming x).mem = h.mem := rfl
@[simp] theorem setProgramming_presets (x : Option Programming) (h : Hall) :
    (h.setProgramming x).store.presets = h.store.presets := rfl
@[simp] theorem setProgramming_houseWrite (x : Option Programming) (h : Hall) :
    (h.setProgramming x).store.houseWrite = h.store.houseWrite := rfl
@[simp] theorem setProgramming_sets (x : Option Programming) (h : Hall) :
    (h.setProgramming x).store.programming = x := rfl

end Hall

namespace Chip

/-! `onlyHall` -/

@[simp] theorem onlyHall_ring (f : Hall → Hall) (c : Chip) : (c.onlyHall f).ring = c.ring := rfl
@[simp] theorem onlyHall_time (f : Hall → Hall) (c : Chip) : (c.onlyHall f).time = c.time := rfl
@[simp] theorem onlyHall_outs (f : Hall → Hall) (c : Chip) : (c.onlyHall f).outs = c.outs := rfl
@[simp] theorem onlyHall_pins (f : Hall → Hall) (c : Chip) : (c.onlyHall f).pins = c.pins := rfl
@[simp] theorem onlyHall_due (f : Hall → Hall) (c : Chip) : (c.onlyHall f).due = c.due := rfl
@[simp] theorem onlyHall_ringOut (f : Hall → Hall) (c : Chip) : (c.onlyHall f).ringOut = c.ringOut := rfl

/-! `restartWindow` -/

@[simp] theorem restartWindow_ring (c : Chip) : c.restartWindow.ring = c.ring := rfl
@[simp] theorem restartWindow_time (c : Chip) : c.restartWindow.time = c.time := rfl
@[simp] theorem restartWindow_outs (c : Chip) : c.restartWindow.outs = c.outs := rfl
@[simp] theorem restartWindow_pins (c : Chip) : c.restartWindow.pins = c.pins := rfl
@[simp] theorem restartWindow_due (c : Chip) : c.restartWindow.due = c.due := rfl
@[simp] theorem restartWindow_ringOut (c : Chip) : c.restartWindow.ringOut = c.ringOut := rfl
@[simp] theorem restartWindow_hall_frameCounter (c : Chip) : c.restartWindow.hall.frameCounter = c.hall.frameCounter := rfl
@[simp] theorem restartWindow_hall_part (c : Chip) : c.restartWindow.hall.part = c.hall.part := rfl
@[simp] theorem restartWindow_hall_floor (c : Chip) : c.restartWindow.hall.floor = c.hall.floor := rfl
@[simp] theorem restartWindow_hall_router (c : Chip) : c.restartWindow.hall.router = c.hall.router := rfl
@[simp] theorem restartWindow_hall_slots (c : Chip) : c.restartWindow.hall.slots = c.hall.slots := rfl
@[simp] theorem restartWindow_hall_gains (c : Chip) : c.restartWindow.hall.gains = c.hall.gains := rfl
@[simp] theorem restartWindow_hall_events (c : Chip) : c.restartWindow.hall.events = c.hall.events := rfl
@[simp] theorem restartWindow_hall_mem (c : Chip) : c.restartWindow.hall.mem = c.hall.mem := rfl
@[simp] theorem restartWindow_hall_store (c : Chip) : c.restartWindow.hall.store = c.hall.store := rfl

/-! `answer` -/

@[simp] theorem answer_ring (x : Hdr) (a : Answer) (c : Chip) : (c.answer x a).ring = c.ring := rfl
@[simp] theorem answer_time (x : Hdr) (a : Answer) (c : Chip) : (c.answer x a).time = c.time := rfl
@[simp] theorem answer_outs (x : Hdr) (a : Answer) (c : Chip) : (c.answer x a).outs = c.outs := rfl
@[simp] theorem answer_pins (x : Hdr) (a : Answer) (c : Chip) : (c.answer x a).pins = c.pins := rfl
@[simp] theorem answer_due (x : Hdr) (a : Answer) (c : Chip) : (c.answer x a).due = c.due := rfl
@[simp] theorem answer_ringOut (x : Hdr) (a : Answer) (c : Chip) : (c.answer x a).ringOut = c.ringOut := rfl
@[simp] theorem answer_hall_frameCounter (x : Hdr) (a : Answer) (c : Chip) : (c.answer x a).hall.frameCounter = c.hall.frameCounter := rfl
@[simp] theorem answer_hall_part (x : Hdr) (a : Answer) (c : Chip) : (c.answer x a).hall.part = c.hall.part := rfl
@[simp] theorem answer_hall_floor (x : Hdr) (a : Answer) (c : Chip) : (c.answer x a).hall.floor = c.hall.floor := rfl
@[simp] theorem answer_hall_router (x : Hdr) (a : Answer) (c : Chip) : (c.answer x a).hall.router = c.hall.router := rfl
@[simp] theorem answer_hall_slots (x : Hdr) (a : Answer) (c : Chip) : (c.answer x a).hall.slots = c.hall.slots := rfl
@[simp] theorem answer_hall_gains (x : Hdr) (a : Answer) (c : Chip) : (c.answer x a).hall.gains = c.hall.gains := rfl
@[simp] theorem answer_hall_events (x : Hdr) (a : Answer) (c : Chip) : (c.answer x a).hall.events = c.hall.events := rfl
@[simp] theorem answer_hall_mem (x : Hdr) (a : Answer) (c : Chip) : (c.answer x a).hall.mem = c.hall.mem := rfl
@[simp] theorem answer_hall_store (x : Hdr) (a : Answer) (c : Chip) : (c.answer x a).hall.store = c.hall.store := rfl

/-! `clearDeferred` -/

@[simp] theorem clearDeferred_ring (c : Chip) : c.clearDeferred.ring = c.ring := rfl
@[simp] theorem clearDeferred_time (c : Chip) : c.clearDeferred.time = c.time := rfl
@[simp] theorem clearDeferred_outs (c : Chip) : c.clearDeferred.outs = c.outs := rfl
@[simp] theorem clearDeferred_pins (c : Chip) : c.clearDeferred.pins = c.pins := rfl
@[simp] theorem clearDeferred_due (c : Chip) : c.clearDeferred.due = c.due := rfl
@[simp] theorem clearDeferred_ringOut (c : Chip) : c.clearDeferred.ringOut = c.ringOut := rfl
@[simp] theorem clearDeferred_hall_frameCounter (c : Chip) : c.clearDeferred.hall.frameCounter = c.hall.frameCounter := rfl
@[simp] theorem clearDeferred_hall_part (c : Chip) : c.clearDeferred.hall.part = c.hall.part := rfl
@[simp] theorem clearDeferred_hall_floor (c : Chip) : c.clearDeferred.hall.floor = c.hall.floor := rfl
@[simp] theorem clearDeferred_hall_router (c : Chip) : c.clearDeferred.hall.router = c.hall.router := rfl
@[simp] theorem clearDeferred_hall_slots (c : Chip) : c.clearDeferred.hall.slots = c.hall.slots := rfl
@[simp] theorem clearDeferred_hall_gains (c : Chip) : c.clearDeferred.hall.gains = c.hall.gains := rfl
@[simp] theorem clearDeferred_hall_events (c : Chip) : c.clearDeferred.hall.events = c.hall.events := rfl
@[simp] theorem clearDeferred_hall_mem (c : Chip) : c.clearDeferred.hall.mem = c.hall.mem := rfl
@[simp] theorem clearDeferred_hall_store (c : Chip) : c.clearDeferred.hall.store = c.hall.store := rfl

/-! `laneError` -/

@[simp] theorem laneError_hall (c : Chip) : c.laneError.hall = c.hall := rfl
@[simp] theorem laneError_time (c : Chip) : c.laneError.time = c.time := rfl
@[simp] theorem laneError_outs (c : Chip) : c.laneError.outs = c.outs := rfl
@[simp] theorem laneError_pins (c : Chip) : c.laneError.pins = c.pins := rfl
@[simp] theorem laneError_due (c : Chip) : c.laneError.due = c.due := rfl
@[simp] theorem laneError_ringOut (c : Chip) : c.laneError.ringOut = c.ringOut := rfl

/-! `setRing` -/

@[simp] theorem setRing_hall (r : RingPort) (c : Chip) : (c.setRing r).hall = c.hall := rfl
@[simp] theorem setRing_time (r : RingPort) (c : Chip) : (c.setRing r).time = c.time := rfl
@[simp] theorem setRing_outs (r : RingPort) (c : Chip) : (c.setRing r).outs = c.outs := rfl
@[simp] theorem setRing_pins (r : RingPort) (c : Chip) : (c.setRing r).pins = c.pins := rfl
@[simp] theorem setRing_due (r : RingPort) (c : Chip) : (c.setRing r).due = c.due := rfl
@[simp] theorem setRing_ringOut (r : RingPort) (c : Chip) : (c.setRing r).ringOut = c.ringOut := rfl

/-! `makeDue` -/

@[simp] theorem makeDue_hall (ds : List Due) (c : Chip) : (c.makeDue ds).hall = c.hall := rfl
@[simp] theorem makeDue_ring (ds : List Due) (c : Chip) : (c.makeDue ds).ring = c.ring := rfl
@[simp] theorem makeDue_time (ds : List Due) (c : Chip) : (c.makeDue ds).time = c.time := rfl
@[simp] theorem makeDue_outs (ds : List Due) (c : Chip) : (c.makeDue ds).outs = c.outs := rfl
@[simp] theorem makeDue_pins (ds : List Due) (c : Chip) : (c.makeDue ds).pins = c.pins := rfl
@[simp] theorem makeDue_ringOut (ds : List Due) (c : Chip) : (c.makeDue ds).ringOut = c.ringOut := rfl

@[simp] theorem onlyHall_hall (f : Hall → Hall) (c : Chip) : (c.onlyHall f).hall = f c.hall := rfl
@[simp] theorem makeDue_due (ds : List Due) (c : Chip) : (c.makeDue ds).due = ds ++ c.due := rfl
@[simp] theorem setRing_ring (r : RingPort) (c : Chip) : (c.setRing r).ring = r := rfl
@[simp] theorem answer_mode (x : Hdr) (a : Answer) (c : Chip) : (c.answer x a).hall.cmd.mode = c.hall.cmd.mode := rfl
@[simp] theorem restartWindow_mode (c : Chip) : c.restartWindow.hall.cmd.mode = c.hall.cmd.mode := rfl
@[simp] theorem restartWindow_groupFailed (c : Chip) :
    c.restartWindow.hall.cmd.groupFailed = c.hall.cmd.groupFailed := rfl
@[simp] theorem restartWindow_deferred (c : Chip) : c.restartWindow.hall.cmd.deferred = c.hall.cmd.deferred := rfl
@[simp] theorem restartWindow_replies (c : Chip) : c.restartWindow.hall.cmd.replies = c.hall.cmd.replies := rfl

end Chip

@[simp] theorem State.onChip_chip (f : Chip → Chip) (s : State) : (s.onChip f).chip = f s.chip := rfl
@[simp] theorem State.onChip_pending (f : Chip → Chip) (s : State) : (s.onChip f).pending = s.pending := rfl

end Sys2Proof.Machine
end

