-- ==== Sys2Proof/Laws/Words.lean ====
section
/-! SUPPORT. Laws of the fixed-length tables: reading after writing, making and mapping. -/

namespace Sys2Proof

theorem tget_eq_getElem {α : Type} [Inhabited α] {n : Nat} (t : Vector α n) {i : Nat} (h : i < n) :
    tget t i = t[i] := by
  simp [tget, List.getD, h]

theorem tget_of_le {α : Type} [Inhabited α] {n : Nat} (t : Vector α n) {i : Nat} (h : n ≤ i) :
    tget t i = default := by
  simp [tget, List.getD, h]

theorem tget_tset {α : Type} [Inhabited α] {n : Nat} (t : Vector α n) (i j : Nat) (a : α) :
    tget (tset t i a) j = if i = j ∧ i < n then a else tget t j := by
  by_cases hj : j < n
  · by_cases hij : i = j
    · subst hij
      simp [tget, tset, List.getD, hj]
    · simp [tget, tset, List.getD, hij]
  · have hn : n ≤ j := Nat.le_of_not_lt hj
    rw [tget_of_le _ hn, tget_of_le _ hn]
    by_cases hij : i = j
    · subst hij; simp [hj]
    · simp [hij]

@[simp] theorem tget_tset_self {α : Type} [Inhabited α] {n : Nat} (t : Vector α n) {i : Nat} (a : α) (h : i < n) :
    tget (tset t i a) i = a := by
  simp [tget_tset, h]

@[simp] theorem tget_tset_of_ne {α : Type} [Inhabited α] {n : Nat} (t : Vector α n) {i j : Nat} (a : α) (h : i ≠ j) :
    tget (tset t i a) j = tget t j := by
  simp [tget_tset, h]

/-- A write outside the table leaves it as it is. -/
theorem tset_of_le {α : Type} {n : Nat} (t : Vector α n) {i : Nat} (a : α) (h : n ≤ i) : tset t i a = t := by
  apply Vector.toList_inj.mp
  simp [tset, List.set_eq_of_length_le, h]

theorem tget_tmod {α : Type} [Inhabited α] {n : Nat} (t : Vector α n) (i j : Nat) (f : α → α) :
    tget (tmod t i f) j = if i = j ∧ i < n then f (tget t i) else tget t j := tget_tset t i j _

theorem tget_tmake {α : Type} [Inhabited α] (n : Nat) (f : Nat → α) (i : Nat) :
    tget (tmake n f) i = if i < n then f i else default := by
  by_cases h : i < n
  · simp [tget, tmake, List.getD, h]
  · simp [tget, tmake, List.getD, h]

@[simp] theorem tget_tmake_of_lt {α : Type} [Inhabited α] {n : Nat} (f : Nat → α) {i : Nat} (h : i < n) :
    tget (tmake n f) i = f i := by
  simp [tget_tmake, h]

@[simp] theorem tget_tmapIdx_of_lt {α : Type} [Inhabited α] {n : Nat} (t : Vector α n) (f : Nat → α → α) {i : Nat}
    (h : i < n) : tget (tmapIdx t f) i = f i (tget t i) := by
  simp [tmapIdx, h]

/-- Tables with equal entries are equal. -/
theorem table_ext {α : Type} [Inhabited α] {n : Nat} {s t : Vector α n} (h : ∀ i < n, tget s i = tget t i) : s = t := by
  apply Vector.ext
  intro i hi
  have := h i hi
  rwa [tget_eq_getElem _ hi, tget_eq_getElem _ hi] at this

/-- Writing the entry that stands changes nothing. -/
theorem tset_tget {α : Type} [Inhabited α] {n : Nat} (t : Vector α n) (i : Nat) : tset t i (tget t i) = t := by
  apply table_ext
  intro j hj
  rw [tget_tset]
  split
  · next h => rw [h.1]
  · rfl

/-- The entry of a table is one of its members, or the default outside it. -/
theorem tget_mem_or_default {α : Type} [Inhabited α] {n : Nat} (t : Vector α n) (i : Nat) :
    tget t i ∈ t ∨ tget t i = default := by
  by_cases h : i < n
  · left
    rw [tget_eq_getElem _ h]
    exact Vector.getElem_mem h
  · exact Or.inr (tget_of_le _ (Nat.le_of_not_lt h))

end Sys2Proof
end

