-- ==== Sys2Proof/Laws/Reads.lean ====
section
/-! SUPPORT. Reads of Table Memory that find nothing change nothing (R153). -/

namespace Sys2Proof.Machine

theorem finding_tget {α : Type} [Inhabited α] {n : Nat} {t : Vector (Protected α) n}
    (h : ∀ p ∈ t, p.finding = .none) (i : Nat) : (tget t i).finding = .none := by
  rcases tget_mem_or_default t i with hm | hd
  · exact h _ hm
  · rw [hd]; rfl

namespace Hall

variable {h : Hall}

theorem record_finding (hm : h.mem.ReadsFindNothing) (u : Nat) : (h.record u).finding = .none := finding_tget hm.1 _
theorem settingsRecord_finding (hm : h.mem.ReadsFindNothing) (s : Nat) : (h.settingsRecord s).finding = .none :=
  finding_tget hm.2.1 _
theorem planRecord_finding (hm : h.mem.ReadsFindNothing) (s : Nat) : (h.planRecord s).finding = .none :=
  finding_tget hm.2.2.1 _
theorem boothRecord_finding (hm : h.mem.ReadsFindNothing) (b : Nat) : (h.boothRecord b).finding = .none :=
  finding_tget hm.2.2.2.1 _
theorem classRecord_finding (hm : h.mem.ReadsFindNothing) (c : Nat) : (h.classRecord c).finding = .none :=
  finding_tget hm.2.2.2.2.1 _
theorem overrideRecord_finding (hm : h.mem.ReadsFindNothing) (w : Nat) : (h.overrideRecord w).finding = .none :=
  finding_tget hm.2.2.2.2.2 _

end Hall

/-- Reads that change no hall in which they would find nothing. -/
def Reader.Idle (rd : Reader) : Prop :=
  ∀ (n : Nat) (h : Hall), h.mem.ReadsFindNothing →
    rd.delegate n h = h ∧ rd.settings n h = h ∧ rd.plan n h = h ∧ rd.booth n h = h ∧ rd.timeClass n h = h ∧
      rd.override n h = h

theorem notes_idle : Reader.notes.Idle := by
  intro n h hm
  refine ⟨?_, ?_, ?_, ?_, ?_, ?_⟩
  · simp [Reader.notes, Hall.noteDelegate, Hall.record_finding hm]
  · simp [Reader.notes, Hall.noteSettings, Hall.settingsRecord_finding hm]
  · simp [Reader.notes, Hall.notePlan, Hall.planRecord_finding hm]
  · simp [Reader.notes, Hall.noteBooth, Hall.boothRecord_finding hm]
  · simp [Reader.notes, Hall.noteClass, Hall.classRecord_finding hm]
  · simp [Reader.notes, Hall.noteOverride, Hall.overrideRecord_finding hm]

theorem next_idle (rd : Reader) : rd.next.Idle := by
  intro n h hm
  have hn := notes_idle n h hm
  simp only [Reader.notes] at hn
  refine ⟨?_, ?_, ?_, ?_, ?_, ?_⟩
  · simp [Reader.next, Hall.record_finding hm, hn.1]
  · simp [Reader.next, Hall.settingsRecord_finding hm, hn.2.1]
  · simp [Reader.next, Hall.planRecord_finding hm, hn.2.2.1]
  · simp [Reader.next, Hall.boothRecord_finding hm, hn.2.2.2.1]
  · simp [Reader.next, Hall.classRecord_finding hm, hn.2.2.2.2.1]
  · simp [Reader.next, Hall.overrideRecord_finding hm, hn.2.2.2.2.2]

theorem readerAt_idle (n : Nat) : (readerAt n).Idle := by
  cases n with
  | zero => exact notes_idle
  | succ n => exact next_idle _

/-- The reads change nothing where they find nothing. -/
theorem reader_idle : reader.Idle := readerAt_idle _

namespace Hall

variable {rd : Reader} {h : Hall}

theorem idle_delegate (hr : rd.Idle) (hm : h.mem.ReadsFindNothing) (n : Nat) : rd.delegate n h = h := (hr n h hm).1
theorem idle_settings (hr : rd.Idle) (hm : h.mem.ReadsFindNothing) (n : Nat) : rd.settings n h = h := (hr n h hm).2.1
theorem idle_plan (hr : rd.Idle) (hm : h.mem.ReadsFindNothing) (n : Nat) : rd.plan n h = h := (hr n h hm).2.2.1
theorem idle_booth (hr : rd.Idle) (hm : h.mem.ReadsFindNothing) (n : Nat) : rd.booth n h = h := (hr n h hm).2.2.2.1
theorem idle_timeClass (hr : rd.Idle) (hm : h.mem.ReadsFindNothing) (n : Nat) : rd.timeClass n h = h :=
  (hr n h hm).2.2.2.2.1
theorem idle_override (hr : rd.Idle) (hm : h.mem.ReadsFindNothing) (n : Nat) : rd.override n h = h :=
  (hr n h hm).2.2.2.2.2

/-- A series of reads that leave the hall as it is leaves it as it is. -/
theorem readAll_eq {read : Nat → Hall → Hall} (hr : ∀ n, read n h = h) (ns : List Nat) : h.readAll read ns = h := by
  unfold readAll each
  induction ns with
  | nil => rfl
  | cons n ns ih => simp only [List.foldl_cons, hr n]; exact ih

theorem idle_readDelegates (hr : rd.Idle) (hm : h.mem.ReadsFindNothing) (ns : List Nat) :
    h.readAll rd.delegate ns = h := readAll_eq (idle_delegate hr hm) ns
theorem idle_readSettings (hr : rd.Idle) (hm : h.mem.ReadsFindNothing) (ns : List Nat) :
    h.readAll rd.settings ns = h := readAll_eq (idle_settings hr hm) ns
theorem idle_readPlans (hr : rd.Idle) (hm : h.mem.ReadsFindNothing) (ns : List Nat) :
    h.readAll rd.plan ns = h := readAll_eq (idle_plan hr hm) ns
theorem idle_readBooths (hr : rd.Idle) (hm : h.mem.ReadsFindNothing) (ns : List Nat) :
    h.readAll rd.booth ns = h := readAll_eq (idle_booth hr hm) ns
theorem idle_readClasses (hr : rd.Idle) (hm : h.mem.ReadsFindNothing) (ns : List Nat) :
    h.readAll rd.timeClass ns = h := readAll_eq (idle_timeClass hr hm) ns
theorem idle_readOverrides (hr : rd.Idle) (hm : h.mem.ReadsFindNothing) (ns : List Nat) :
    h.readAll rd.override ns = h := readAll_eq (idle_override hr hm) ns

theorem idle_readAllBooths (hr : rd.Idle) (hm : h.mem.ReadsFindNothing) : h.readBooths rd = h :=
  idle_readBooths hr hm _
theorem idle_readRoomPlans (hr : rd.Idle) (hm : h.mem.ReadsFindNothing) (r : Nat) : h.readPlans rd r = h :=
  idle_readPlans hr hm _
theorem idle_readPositions (hr : rd.Idle) (hm : h.mem.ReadsFindNothing) (r : Nat) : h.readPositions rd r = h :=
  idle_readDelegates hr hm _
theorem idle_readHolders (hr : rd.Idle) (hm : h.mem.ReadsFindNothing) (f : Hall → Nat → Bool) : h.readHolders rd f = h :=
  idle_readDelegates hr hm _
theorem idle_readLevels (hr : rd.Idle) (hm : h.mem.ReadsFindNothing) : h.readLevels rd = h := by
  rw [readLevels, idle_readSettings hr hm, idle_readAllBooths hr hm]

theorem idle_dropQueue (hr : rd.Idle) (hm : h.mem.ReadsFindNothing) (r : Nat) :
    h.dropQueue rd r = h.each (h.queue r) (drop (some .dropped)) := by
  rw [dropQueue, idle_readDelegates hr hm]

theorem idle_cutQueue (hr : rd.Idle) (hm : h.mem.ReadsFindNothing) (r : Nat) :
    h.cutQueue rd r = h.each (h.beyondLimit r) (drop (some .dropped)) := by
  rw [cutQueue, idle_readDelegates hr hm]

theorem idle_dropChairs (hr : rd.Idle) (hm : h.mem.ReadsFindNothing) (i : Indication) (f : Hall → Nat → Bool) :
    h.dropChairs rd i f = h.each (h.floor.chairs.filter (f h)) (dropChair (some i)) := by
  rw [dropChairs, idle_readDelegates hr hm]

theorem idle_closeExcess (hr : rd.Idle) (hm : h.mem.ReadsFindNothing) (r : Nat) :
    h.closeExcess rd r = if h.excess r = [] then h else h.closeWithConsequences rd .resize true (h.excess r) := by
  rw [closeExcess, idle_readPositions hr hm]

theorem idle_relayCheckOf (hr : rd.Idle) (hm : h.mem.ReadsFindNothing) (b : Nat) : h.relayCheckOf rd b = h.relayTest b := by
  unfold relayCheckOf
  split
  · next hf => rw [relayTest, hf]
  · rw [idle_booth hr hm, idle_booth hr hm]

theorem idle_replan (hr : rd.Idle) (hm : h.mem.ReadsFindNothing) (r : Nat) :
    h.replan rd r = if (h.computePlan r).plan r = h.plan r then h.computePlan r
      else (h.computePlan r).planChanged rd r (h.plan r) := by
  rw [replan, idle_readRoomPlans hr hm]

theorem idle_planNewRoom (hr : rd.Idle) (hm : h.mem.ReadsFindNothing) (r : Nat) :
    h.planNewRoom rd r = h.computePlan r := by
  rw [planNewRoom, idle_readRoomPlans hr hm]

theorem idle_recomputeMics (hr : rd.Idle) (hm : h.mem.ReadsFindNothing) (r : Nat) :
    h.recomputeMics rd r = h.aimSpeakers r := by
  rw [recomputeMics, idle_readDelegates hr hm]

end Hall

end Sys2Proof.Machine
end

