-- ==== Sys2Proof/Laws/Taking.lean ====
section
/-! SUPPORT. How a COMMAND cell that the part is ready for is taken: the row runs the command's own rule and answers
(R126, R133, R137). -/

namespace Sys2Proof.Machine

namespace Chip

theorem answer_restartWindow (x : Hdr) (a : Answer) (c : Chip) (hg : c.hall.cmd.groupFailed = false) :
    c.restartWindow.answer x a = c.answered x a := by
  simp [answer, answered, restartWindow, hg]

theorem settle_of_quiet {c : Chip} (hq : c.due = []) : c.settle = c := by
  simp [settle, settleRamp, hq]

theorem arbiter_eq_offered (x : Cell) (c : Chip) : c.arbiter x = c.offered x := rfl

/-- A cell that the port takes is handled at once when no step waits. -/
theorem cellRow_of_quiet {m : InCell} {c : Chip} (hq : c.Quiet) (hs : m.spelled = true) (hg : m.good = true)
    (hl : c.leftInLane m = false) : c.cellRow m = c.deliver m := by
  simp [cellRow, locked, hq.1, hg, hs, hl, settle_of_quiet hq.2]

/-- A command that the part is ready for comes to step 4 of R133. -/
theorem commandRow_of_ready {h : Hdr} {x : Command} {c : Chip} (hr : c.Ready) (hs : x.spelled = true) :
    c.commandRow h x = c.restartWindow.execute h x := by
  have hl : c.leftInLane (.command h x) = false := by
    exact decide_eq_false (Nat.not_le.mpr hr.2.1)
  rw [commandRow, cellRow_of_quiet (m := .command h x) hr.1 hs rfl hl]
  have hd : c.restartWindow.hall.cmd.deferred = none := hr.2.2.1
  have hg : c.restartWindow.hall.cmd.groupFailed = false := hr.2.2.2
  simp only [deliver, deliverCommand, hd, hg]
  simp

/-- A taken command other than ENGINE RESET runs by its own rule on the chip with its window restarted. -/
theorem execute_of_taken {h : Hdr} {x : Command} {c : Chip} (ht : Command.taken c.hall.cmd.mode x = true)
    (he : x ≠ .engineReset) : c.execute h x = (c.run reader x).1.answer h (c.run reader x).2 := by
  unfold execute
  rw [if_pos ht]
  split
  · exact absurd rfl he
  · rfl

/-- The row of a command that is taken and answered. -/
theorem commandRow_of_taken {h : Hdr} {x : Command} {c : Chip} (hr : c.Ready) (hs : x.spelled = true)
    (ht : Command.taken c.hall.cmd.mode x = true) (he : x ≠ .engineReset) :
    c.commandRow h x = (c.restartWindow.run reader x).1.answer h (c.restartWindow.run reader x).2 := by
  rw [commandRow_of_ready hr hs, execute_of_taken (c := c.restartWindow) ht he]

/-- A command not taken in the mode in force is answered WRONG MODE. -/
theorem commandRow_of_wrongMode {h : Hdr} {x : Command} {c : Chip} (hr : c.Ready) (hs : x.spelled = true)
    (ht : Command.taken c.hall.cmd.mode x = false) :
    c.commandRow h x = c.answered h (.check .wrongMode c.hall.cmd.mode.code) := by
  rw [commandRow_of_ready hr hs, ← answer_restartWindow _ _ _ hr.2.2.2]
  unfold execute
  rw [if_neg (by simp [ht])]
  rfl

end Chip

end Sys2Proof.Machine
end

