-- ==== Sys2Proof/Laws/Answers.lean ====
section
/-! SUPPORT. The shared manner of checking fields (R136), one rewrite for each field. -/

namespace Sys2Proof.Machine

@[simp] theorem fieldAbove_nil : fieldAbove [] = none := rfl

@[simp] theorem fieldAbove_cons (n v m : Nat) (fs : List FieldLimit) :
    fieldAbove ((n, v, m) :: fs) = if m < v then some n else fieldAbove fs := by
  by_cases h : m < v <;> simp [fieldAbove, h]

@[simp] theorem goodWrite_nil : goodWrite [] = .good .none 0 {} := rfl

@[simp] theorem goodWrite_cons (n v w : Nat) (fs : List ClampedField) :
    goodWrite ((n, v, w) :: fs) = if v = w then goodWrite fs else .good .adjusted n {} := by
  by_cases h : v = w <;> simp [goodWrite, h]

theorem clampTo_eq {lo hi : Nat} (h : lo ≤ hi) (v : Nat) : clampTo lo hi v = max lo (min hi v) := by
  unfold clampTo
  split
  · omega
  · split <;> omega

@[simp] theorem isCheck_good (q : Qualifier) (n : Nat) (d : Data) : (Answer.good q n d).isCheck = false := rfl
@[simp] theorem isCheck_check (x : Sense) (n : Nat) : (Answer.check x n).isCheck = true := rfl

/-- An answer after a rule that has left group mark and supervision as the window's restart left them. -/
theorem Chip.answer_eq_answered {c : Chip} (x : Hdr) (a : Answer) (hg : c.hall.cmd.groupFailed = false)
    (hw : c.hall.cmd.supervision.window = 10 * c.hall.cmd.supervision.timeout) : c.answer x a = c.answered x a := by
  simp [answer, answered, hg, ← hw]

end Sys2Proof.Machine
end

