-- ==== Sys2Proof/Laws/Closed.lean ====
section
/-! SUPPORT. What the operations of the hall can do, said once: a property that the primitive updates and the reads keep
is kept by every operation built of them. Invariants and frames of whole commands come from these. -/

namespace Sys2Proof.Machine

/-- The reads keep property `P`. -/
structure Reader.Keeps (rd : Reader) (P : Hall → Prop) : Prop where
  delegate  : ∀ n h, P h → P (rd.delegate n h)
  settings  : ∀ n h, P h → P (rd.settings n h)
  plan      : ∀ n h, P h → P (rd.plan n h)
  booth     : ∀ n h, P h → P (rd.booth n h)
  timeClass : ∀ n h, P h → P (rd.timeClass n h)
  override  : ∀ n h, P h → P (rd.override n h)

/-- Property `P` is kept by postings of events. -/
structure ClosedEvents (P : Hall → Prop) : Prop where
  post : ∀ ts k a b c d h, P h → P (Hall.postAt ts k a b c d h)

/-- Property `P` is kept by the primitive updates of floor, microphone slots and targets, and events. An update of a unit's
runtime part keeps its speaking seconds; a target is an index. -/
structure ClosedFloor (P : Hall → Prop) : Prop extends ClosedEvents P where
  run   : ∀ u f h, (∀ d, (f d).seconds = d.seconds) → P h → P (Hall.setRun u f h)
  floor : ∀ h x, x.runs = h.floor.runs → P h → P { h with floor := x }
  slot  : ∀ h x, P h → P { h with slots.mics := x }
  mic   : ∀ k a h, a ≤ 128 → P h → P (Hall.setMicTarget k a h)

/-- Property `P` is kept by the updates of the slot map, the notices, the booths' held fields and the events; these keep a
booth's report and relay. -/
structure ClosedSlots (P : Hall → Prop) : Prop extends ClosedEvents P where
  held    : ∀ b f h, (∀ x, (f x).reported = x.reported ∧ (f x).selection = x.selection ∧ (f x).relay = x.relay) → P h →
    P (Hall.setBoothRun b f h)
  notices : ∀ h x y, P h → P { h with router.boothDirty := x, router.channelDirty := y }
  slots   : ∀ h x, x.mics = h.slots.mics → P h → P { h with slots := x }

/-- Property `P` is kept by all these, and by changes of room plans, booths and fade targets. -/
structure ClosedRooms (P : Hall → Prop) : Prop extends ClosedFloor P, ClosedSlots P where
  plans : ∀ h x, P h → P { h with router.plans := x }
  booth : ∀ b f h, P h → P (Hall.setBoothRun b f h)
  fades : ∀ a r h, a ≤ 128 → P h → P (Hall.setRoomFades a r h)
  sync  : ∀ h, P h → P (Hall.syncBoothFades h)

/-- Property `P` is moreover kept by changes of the partition in force, the effective walls and the repartition. -/
structure ClosedPart (P : Hall → Prop) : Prop extends ClosedRooms P where
  partition   : ∀ p h, P h → P (Hall.setPartition p h)
  effective   : ∀ p h, P h → P (Hall.setEffective p h)
  repartition : ∀ x h, P h → P (Hall.setRepartition x h)

/-- Property `P` is moreover kept by SAFE in place of LIVE. -/
structure ClosedSafe (P : Hall → Prop) : Prop extends ClosedPart P where
  safe : ∀ h, h.cmd.mode = .live → P h → P (Hall.setMode .safe h)

namespace Hall

variable {P : Hall → Prop} {rd : Reader} {h : Hall}

theorem keeps_ite {c : Prop} {_ : Decidable c} {a b : Hall} (ha : P a) (hb : P b) : P (if c then a else b) := by
  split
  · exact ha
  · exact hb

/-- A series of steps that keep `P` keeps it. -/
theorem each_keeps {α : Type} {l : List α} {f : α → Hall → Hall} (hf : ∀ a h, P h → P (f a h)) (hp : P h) :
    P (h.each l f) := by
  unfold each
  induction l generalizing h with
  | nil => exact hp
  | cons a l ih => exact ih (hf a h hp)

theorem readAll_keeps {read : Nat → Hall → Hall} {ns : List Nat} (hr : ∀ n h, P h → P (read n h)) (hp : P h) :
    P (h.readAll read ns) := each_keeps hr hp

theorem keeps_post (C : ClosedEvents P) {k : EventKind} {a b c d : Byte} (hp : P h) : P (h.post k a b c d) :=
  C.post _ _ _ _ _ _ _ hp

section closed
variable (C : ClosedFloor P)
include C

theorem keeps_setQueue {r : Nat} {q : List Nat} (hp : P h) : P (h.setQueue r q) := C.floor h _ rfl hp
theorem keeps_setGap {r : Nat} {g : Option Nat} (hp : P h) : P (h.setGap r g) := C.floor h _ rfl hp
theorem keeps_mark {u : Nat} (hp : P h) : P (h.mark u) := C.floor h _ rfl hp
theorem keeps_unmark {u : Nat} (hp : P h) : P (h.unmark u) := C.floor h _ rfl hp
theorem keeps_leaveChairs {u : Nat} (hp : P h) : P (h.leaveChairs u) := C.floor h _ rfl hp
theorem keeps_setMic {k : Nat} {x : Option Nat} (hp : P h) : P (h.setMic k x) := C.slot h _ hp

theorem keeps_indicate {i : Indication} {u : Nat} (hp : P h) : P (h.indicate i u) :=
  keeps_mark C (C.run _ _ _ (fun _ => rfl) hp)

theorem keeps_signal {i : Option Indication} {u : Nat} (hp : P h) : P (h.signal i u) := by
  cases i with
  | none => exact keeps_mark C hp
  | some i => exact keeps_indicate C hp

theorem keeps_poolTake (hp : P h) : P h.poolTake := by
  unfold poolTake
  dsimp only
  split
  · exact keeps_post C.toClosedEvents (C.floor h _ rfl hp)
  · exact C.floor h _ rfl hp

theorem keeps_poolGive {n : Nat} (hp : P h) : P (h.poolGive n) := C.floor h _ rfl hp

/-! ## The floor -/

theorem keeps_leaveQueue {u : Nat} (hp : P h) : P (h.leaveQueue u) := by
  unfold leaveQueue
  dsimp only
  split
  · exact each_keeps (fun _ _ => keeps_mark C) (keeps_poolGive C (keeps_setQueue C hp))
  · exact hp

theorem keeps_endRequest {u : Nat} (hp : P h) : P (h.endRequest u) := C.run _ _ _ (fun _ => rfl) hp

theorem keeps_drop {i : Option Indication} {u : Nat} (hp : P h) : P (h.drop i u) :=
  keeps_signal C (keeps_endRequest C (keeps_leaveQueue C hp))

theorem keeps_joinQueue {u : Nat} (hp : P h) : P (h.joinQueue u) :=
  keeps_mark C (C.run _ _ _ (fun _ => rfl) (keeps_poolTake C (keeps_setQueue C hp)))

theorem keeps_joinChairs {u : Nat} (hp : P h) : P (h.joinChairs u) :=
  keeps_mark C (C.floor _ _ rfl (C.run u _ h (fun _ => rfl) hp))

theorem keeps_dropChair {i : Option Indication} {u : Nat} (hp : P h) : P (h.dropChair i u) :=
  keeps_signal C (keeps_endRequest C (keeps_leaveChairs C hp))

theorem keeps_grant {u : Nat} (hp : P h) : P (h.grant u) := by
  unfold grant
  split
  · exact hp
  · exact keeps_mark C (C.run _ _ _ (fun _ => rfl)
      (C.mic _ _ _ (by decide) (keeps_setMic C (keeps_leaveChairs C (keeps_leaveQueue C hp)))))

theorem keeps_releaseMic {u : Nat} (hp : P h) : P (h.releaseMic u) := by
  unfold releaseMic
  split
  · exact hp
  · exact keeps_setMic C hp

theorem keeps_endHold {u : Nat} (hp : P h) : P (h.endHold u) := C.run _ _ _ (fun _ => rfl) (keeps_releaseMic C hp)

theorem keeps_aimMic {u a : Nat} (ha : a ≤ 128) (hp : P h) : P (h.aimMic u a) := by
  unfold aimMic
  split
  · exact hp
  · exact C.mic _ _ _ ha hp

theorem keeps_closeOne {c : CloseReason} {u : Nat} (hp : P h) : P (h.closeOne c u) := by
  unfold closeOne
  split
  · exact keeps_signal C (keeps_endHold C hp)
  · exact keeps_signal C (C.run _ _ _ (fun _ => rfl) (keeps_aimMic C (by decide) hp))
  · exact hp

theorem keeps_aimSpeakers {r : Nat} (hp : P h) : P (h.aimSpeakers r) :=
  each_keeps (fun _ _ => keeps_aimMic C (Nat.le_trans (Nat.min_le_left _ _) (by decide))) hp

end closed

section reads
variable (C : ClosedFloor P) (K : rd.Keeps P)
include C K

theorem keeps_recomputeMics {r : Nat} (hp : P h) : P (h.recomputeMics rd r) :=
  keeps_aimSpeakers C (readAll_keeps K.delegate hp)

theorem keeps_closeAll {c : CloseReason} {us : List Nat} (hp : P h) : P (h.closeAll rd c us) :=
  each_keeps (fun _ _ => keeps_recomputeMics C K) (each_keeps (fun _ _ => keeps_closeOne C) hp)

theorem keeps_serviceLoop {r n : Nat} (hp : P h) : P (serviceLoop rd r n h) := by
  induction n generalizing h with
  | zero => exact hp
  | succ n ih =>
    unfold serviceLoop
    split
    · exact hp
    · split
      · dsimp only
        apply ih
        split
        · exact keeps_grant C (K.delegate _ _ hp)
        · exact K.delegate _ _ hp
      · exact hp

theorem keeps_service {r : Nat} (hp : P h) : P (h.service rd r) := by
  unfold service
  split
  · exact keeps_serviceLoop C K (K.settings _ _ hp)
  · exact hp

theorem keeps_gapTest {r : Nat} (hp : P h) : P (h.gapTest rd r) := by
  unfold gapTest
  dsimp only
  split
  · exact keeps_setGap C (K.settings _ _ hp)
  · exact K.settings _ _ hp

theorem keeps_serveChairs {n : Nat} (hp : P h) : P (serveChairs rd n h) := by
  induction n generalizing h with
  | zero => exact hp
  | succ n ih =>
    unfold serveChairs
    split
    · exact hp
    · split
      · dsimp only
        apply ih
        split
        · exact keeps_grant C (K.delegate _ _ hp)
        · exact K.delegate _ _ hp
      · exact hp

theorem keeps_serveRooms (hp : P h) : P (h.serveRooms rd) := by
  unfold serveRooms
  split
  · exact each_keeps (fun _ _ => keeps_service C K) (readAll_keeps K.settings hp)
  · exact hp

theorem keeps_arbiterRun (hp : P h) : P (h.arbiterRun rd) := keeps_serveRooms C K (keeps_serveChairs C K hp)

theorem keeps_arbiterRuns {n : Nat} (hp : P h) : P (arbiterRuns rd n h) := by
  induction n generalizing h with
  | zero => exact hp
  | succ n ih => exact ih (keeps_arbiterRun C K hp)

theorem keeps_consequences {gaps : Bool} {freed : List Nat} {slots : Nat} (hp : P h) :
    P (h.consequences rd gaps freed slots) := by
  unfold consequences
  refine each_keeps (fun _ _ => keeps_service C K) ?_
  apply keeps_arbiterRuns C K
  split
  · exact each_keeps (fun _ _ => keeps_gapTest C K) hp
  · exact hp

theorem keeps_closeWithConsequences {c : CloseReason} {gaps : Bool} {us : List Nat} (hp : P h) :
    P (h.closeWithConsequences rd c gaps us) := keeps_consequences C K (keeps_closeAll C K hp)

theorem keeps_dropQueue {r : Nat} (hp : P h) : P (h.dropQueue rd r) :=
  each_keeps (fun _ _ => keeps_drop C) (readAll_keeps K.delegate hp)

theorem keeps_cutQueue {r : Nat} (hp : P h) : P (h.cutQueue rd r) :=
  each_keeps (fun _ _ => keeps_drop C) (readAll_keeps K.delegate hp)

omit C in
theorem keeps_readPositions {r : Nat} (hp : P h) : P (h.readPositions rd r) := readAll_keeps K.delegate hp

omit C in
theorem keeps_readHolders {f : Hall → Nat → Bool} (hp : P h) : P (h.readHolders rd f) := readAll_keeps K.delegate hp

theorem keeps_dropChairs {i : Indication} {f : Hall → Nat → Bool} (hp : P h) : P (h.dropChairs rd i f) :=
  each_keeps (fun _ _ => keeps_dropChair C) (readAll_keeps K.delegate hp)

theorem keeps_closeExcess {r : Nat} (hp : P h) : P (h.closeExcess rd r) :=
  keeps_ite (keeps_readPositions K hp) (keeps_closeWithConsequences C K (keeps_readPositions K hp))

theorem keeps_settingsChanged {s : Nat} {old : Settings} (hp : P h) : P (settingsChanged rd s old h) := by
  unfold settingsChanged
  refine keeps_ite (keeps_service C K (keeps_closeExcess C K (keeps_cutQueue C K ?_))) hp
  exact keeps_ite (keeps_setGap C (keeps_dropQueue C K hp)) hp

theorem keeps_trimQueue {r : Nat} (hp : P h) : P (h.trimQueue rd r) := by
  have hc : P ((rd.settings r h).cutQueue rd r) := keeps_cutQueue C K (K.settings _ _ hp)
  exact keeps_ite hc (keeps_dropQueue C K hc)

theorem keeps_regroup {old : Partition} {before : Nat → Nat} (hp : P h) : P (h.regroup rd old before) := by
  unfold regroup
  dsimp only
  refine each_keeps (fun _ _ => keeps_service C K) ?_
  apply keeps_arbiterRuns C K
  apply keeps_closeAll C K
  refine each_keeps (fun _ _ => keeps_readPositions K) ?_
  refine each_keeps (fun _ _ => keeps_setGap C) ?_
  refine each_keeps (fun _ _ => keeps_mark C) ?_
  refine each_keeps (fun _ _ => keeps_trimQueue C K) ?_
  refine each_keeps (fun _ _ => readAll_keeps K.delegate) ?_
  refine each_keeps (fun _ _ => keeps_setQueue C) ?_
  exact each_keeps (fun _ _ => keeps_setQueue C) hp

theorem keeps_delegateDamaged {u : Nat} (hp : P h) : P (h.delegateDamaged rd u) := by
  unfold delegateDamaged
  dsimp only
  apply keeps_consequences C K
  apply keeps_unmark C
  refine C.run _ _ _ (fun _ => rfl) ?_
  split
  · exact keeps_endRequest C (keeps_leaveQueue C hp)
  · exact keeps_endRequest C (keeps_leaveChairs C hp)
  · exact keeps_closeAll C K hp

theorem keeps_closeFloor (hp : P h) : P (h.closeFloor rd) := by
  unfold closeFloor
  dsimp only
  refine keeps_closeWithConsequences C K (keeps_readHolders K ?_)
  refine each_keeps (fun _ _ => keeps_setGap C) ?_
  exact each_keeps (fun _ _ => keeps_dropQueue C K) (keeps_dropChairs C K hp)

/-! ## Units -/

omit K in
theorem keeps_warn {u l w : Nat} (hp : P h) : P (h.warn u l w) := by
  unfold warn
  dsimp only
  split
  · exact keeps_post C.toClosedEvents (keeps_indicate C (C.run _ _ _ (fun _ => rfl) hp))
  · exact hp

theorem keeps_timeUp {u l : Nat} {tell : Bool} (hp : P h) : P (h.timeUp rd u l tell) := by
  unfold timeUp
  dsimp only
  have hs := K.settings (h.roomOfUnit u) _ hp
  split
  · split
    · exact keeps_closeWithConsequences C K hs
    · split
      · exact keeps_post C.toClosedEvents (keeps_indicate C hs)
      · exact hs
  · exact hs

theorem keeps_secondTest {u : Nat} (hp : P h) : P (h.secondTest rd u) := by
  unfold secondTest
  dsimp only
  have hs := K.delegate u _ hp
  split
  · split
    · split
      · exact keeps_timeUp C K (K.timeClass _ _ hs)
      · exact keeps_warn C (K.timeClass _ _ hs)
    · exact K.timeClass _ _ hs
  · exact hs

theorem keeps_limitChanged {u : Nat} (hp : P h) : P (h.limitChanged rd u) := by
  unfold limitChanged
  refine keeps_ite ?_ (K.delegate u _ hp)
  have hm : P ((rd.delegate u h).mark u) := keeps_mark C (K.delegate u _ hp)
  have ht : ∀ g : Hall, P g → P (if g.isSpeaking u then rd.timeClass (g.loaded u).timeClass g else g) :=
    fun g hg => keeps_ite (K.timeClass _ _ hg) hg
  have hr : ∀ g f, P g → (∀ d, (f d).seconds = d.seconds) → P (setRun u f g) := fun g f hg hf => C.run u f g hf hg
  refine keeps_ite (keeps_ite (hr _ _ (ht _ hm) fun _ => rfl) (keeps_ite ?_ ?_)) (ht _ hm)
  · exact keeps_timeUp C K (hr _ _ (ht _ hm) fun _ => rfl)
  · exact keeps_warn C (hr _ _ (ht _ hm) fun _ => rfl)

theorem keeps_classChanged {c : Nat} {old : TimeClass} (hp : P h) : P (classChanged rd c old h) := by
  unfold classChanged
  split
  · exact hp
  · exact each_keeps (fun _ _ => keeps_limitChanged C K) hp

omit K in
theorem keeps_unknownUnit {t : Byte} {u : Nat} (hp : P h) : P (unknownUnit t u h) := by
  unfold unknownUnit
  split
  · exact hp
  · exact keeps_post C.toClosedEvents (C.run _ _ _ (fun _ => rfl) hp)

theorem keeps_fromUnit {t : Byte} {act : Nat → Hall → Hall} {u : Nat} (ha : ∀ u h, P h → P (act u h)) (hp : P h) :
    P (fromUnit rd t act u h) := by
  unfold fromUnit
  dsimp only
  split
  · exact ha _ _ (C.run _ _ _ (fun _ => rfl) (K.delegate _ _ hp))
  · exact keeps_unknownUnit C (K.delegate _ _ hp)

theorem keeps_requestFloor {u : Nat} (hp : P h) : P (h.requestFloor rd u) := by
  unfold requestFloor
  dsimp only
  split
  · split
    · exact keeps_service C K (keeps_joinQueue C hp)
    · exact keeps_joinQueue C hp
  · exact keeps_indicate C hp

theorem keeps_takeOldest {r u : Nat} (hp : P h) : P (h.takeOldest rd r u) := by
  unfold takeOldest
  split
  · exact keeps_consequences C K (keeps_closeAll C K (keeps_grant C hp))
  · exact keeps_indicate C hp

theorem keeps_overridePress {r u : Nat} (hp : P h) : P (h.overridePress rd r u) := by
  have hq : P (if h.micFree && !h.freePosition r then h.readPositions rd r else h) :=
    keeps_ite (keeps_readPositions K hp) hp
  exact keeps_ite (keeps_ite (keeps_grant C hq) (keeps_takeOldest C K hq)) (keeps_indicate C hq)

theorem keeps_idlePress {u : Nat} (hp : P h) : P (h.idlePress rd u) := by
  unfold idlePress
  dsimp only
  have hs := K.settings (h.roomOfUnit u) _ hp
  split
  · split
    · exact keeps_grant C hs
    · exact keeps_indicate C hs
  · exact keeps_overridePress C K hs
  · split
    · exact keeps_grant C hs
    · exact keeps_requestFloor C K hs
  · split
    · exact keeps_grant C hs
    · exact keeps_requestFloor C K hs

theorem keeps_micPress {u : Nat} (hp : P h) : P (h.micPress rd u) := by
  unfold micPress
  split
  · split
    · exact keeps_indicate C hp
    · split
      · split
        · exact keeps_grant C hp
        · exact keeps_indicate C hp
      · exact keeps_idlePress C K hp
  · exact keeps_drop C hp
  · exact keeps_closeWithConsequences C K hp
  · exact keeps_closeWithConsequences C K hp
  · exact hp
  · exact keeps_dropChair C hp

omit K in
theorem keeps_serveChair {u : Nat} (hp : P h) : P (h.serveChair u) := by
  unfold serveChair
  split
  · split
    · exact keeps_grant C hp
    · exact keeps_joinChairs C hp
  · exact hp

theorem keeps_chairPriority {u : Nat} (hp : P h) : P (h.chairPriority rd u) := by
  unfold chairPriority
  dsimp only
  have hs : P ((rd.settings (h.roomOfUnit u) h).readPositions rd (h.roomOfUnit u)) :=
    keeps_readPositions K (K.settings _ _ hp)
  apply keeps_consequences C K
  apply keeps_post C.toClosedEvents
  apply keeps_serveChair C
  apply keeps_setGap C
  split
  · exact keeps_dropQueue C K (keeps_closeAll C K hs)
  · exact keeps_closeAll C K hs

theorem keeps_priorityPress {u : Nat} (hp : P h) : P (h.priorityPress rd u) := by
  unfold priorityPress
  split
  · split
    · exact keeps_chairPriority C K hp
    · split
      · exact keeps_indicate C hp
      · exact hp
  · exact keeps_micPress C K hp

theorem keeps_windowExpiry {u : Nat} (hp : P h) : P (h.windowExpiry rd u) := by
  unfold windowExpiry
  have hp := K.delegate u _ hp
  dsimp only
  split
  · split
    · exact keeps_mark C (C.run _ _ _ (fun _ => rfl) hp)
    · exact keeps_consequences C K (keeps_post C.toClosedEvents (keeps_mark C (keeps_endHold C (C.run _ _ _ (fun _ => rfl) hp))))
  · exact hp

theorem keeps_closeEnd {u : Nat} (hp : P h) : P (h.closeEnd rd u) := by
  unfold closeEnd
  have hp := K.delegate u _ hp
  dsimp only
  split
  · exact keeps_recomputeMics C K (keeps_service C K (keeps_arbiterRun C K
      (keeps_post C.toClosedEvents (keeps_mark C (keeps_endHold C hp)))))
  · exact hp

theorem keeps_gapExpiry {r : Nat} (hp : P h) : P (h.gapExpiry rd r) := by
  unfold gapExpiry
  split
  · exact keeps_service C K (keeps_setGap C hp)
  · exact hp

theorem keeps_operatorClose {u : Nat} (hp : P h) : P (h.operatorClose rd u) := by
  unfold operatorClose
  split
  · exact hp
  · exact keeps_drop C hp
  · exact keeps_closeWithConsequences C K hp
  · exact keeps_closeWithConsequences C K hp
  · exact hp
  · exact keeps_dropChair C hp

theorem keeps_clearQueue {r : Nat} (hp : P h) : P (h.clearQueue rd r) := keeps_setGap C (keeps_dropQueue C K hp)

theorem keeps_clearAll {r : Nat} (hp : P h) : P (h.clearAll rd r) :=
  keeps_consequences C K (keeps_dropChairs C K (keeps_closeAll C K (keeps_readHolders K (keeps_clearQueue C K hp))))

theorem keeps_clearFloor {r scope : Nat} (hp : P h) : P (h.clearFloor rd r scope) :=
  keeps_ite (keeps_closeWithConsequences C K (keeps_readPositions K hp))
    (keeps_ite (keeps_clearQueue C K hp) (keeps_clearAll C K hp))

/-! ## Reads of several records -/

omit C in
theorem keeps_readBooths (hp : P h) : P (h.readBooths rd) := readAll_keeps K.booth hp

omit C in
theorem keeps_readPlans {r : Nat} (hp : P h) : P (h.readPlans rd r) := readAll_keeps K.plan hp

end reads

/-! ## Slots and the Router -/

section slots
variable (C : ClosedSlots P)
include C

theorem keeps_markBooth {b : Nat} (hp : P h) : P (h.markBooth b) := C.notices h _ h.router.channelDirty hp
theorem keeps_markChannel {r c : Nat} (hp : P h) : P (h.markChannel r c) := C.notices h h.router.boothDirty _ hp
theorem keeps_markSection {s : Nat} (hp : P h) : P (h.markSection s) := C.notices h h.router.boothDirty _ hp
theorem keeps_markAllNotices (hp : P h) : P h.markAllNotices := C.notices h _ _ hp

theorem keeps_markLanguage {r l : Nat} (hp : P h) : P (h.markLanguage r l) :=
  each_keeps (fun _ _ => keeps_markChannel C) hp

theorem keeps_markLed {b : Nat} (hp : P h) : P (h.markLed b) := by
  unfold markLed
  split
  · exact keeps_markLanguage C hp
  · exact hp

theorem keeps_tellOutput {b : Nat} {s : Option Nat} (hp : P h) : P (h.tellOutput b s) :=
  keeps_markLed C (keeps_markBooth C (C.held _ _ _ (fun _ => ⟨rfl, rfl, rfl⟩) hp))

theorem keeps_tellFeed {b : Nat} {s : Option Nat} (hp : P h) : P (h.tellFeed b s) :=
  keeps_markBooth C (C.held _ _ _ (fun _ => ⟨rfl, rfl, rfl⟩) hp)

theorem keeps_tellGiven {c : Claim} {i : Nat} (hp : P h) : P (h.tellGiven c i) := by
  cases c
  · exact keeps_tellOutput C hp
  · exact keeps_markChannel C hp
  · exact keeps_tellFeed C hp
  · exact keeps_tellOutput C hp

theorem keeps_tellReleased {c : Claim} (hp : P h) : P (h.tellReleased c) := by
  cases c
  · exact keeps_tellOutput C hp
  · exact hp
  · exact keeps_tellFeed C hp
  · exact keeps_tellOutput C hp

theorem keeps_makeClaim {c : Claim} (hp : P h) : P (h.makeClaim c) := by
  unfold makeClaim
  split
  · exact keeps_tellGiven C (C.slots _ _ rfl hp)
  · exact keeps_post C.toClosedEvents (C.slots _ _ rfl hp)

theorem keeps_servePool {i : Nat} (hp : P h) : P (h.servePool i) := by
  unfold servePool
  split
  · exact C.slots _ _ rfl hp
  · exact keeps_tellGiven C (keeps_post C.toClosedEvents (C.slots _ _ rfl (C.slots _ _ rfl hp)))

theorem keeps_releaseClaim {c : Claim} (hp : P h) : P (h.releaseClaim c) := by
  unfold releaseClaim
  split
  · exact keeps_servePool C (keeps_tellReleased C hp)
  · exact C.slots _ _ rfl hp

theorem keeps_reclass {a b : Claim} (hp : P h) : P (h.reclass a b) := by
  unfold reclass
  split
  · exact C.slots _ _ rfl hp
  · split
    · exact C.slots _ _ rfl (C.slots _ _ rfl hp)
    · exact hp

theorem keeps_claimBooth {b : Nat} (hp : P h) : P (h.claimBooth b) := keeps_makeClaim C (keeps_makeClaim C hp)

theorem keeps_releaseBooth {b : Nat} (hp : P h) : P (h.releaseBooth b) :=
  keeps_releaseClaim C (keeps_releaseClaim C (keeps_releaseClaim C hp))

theorem keeps_planHanded {r : Nat} (hp : P h) : P (h.planHanded r) := by
  unfold planHanded
  dsimp only
  exact C.slots _ _ rfl (each_keeps (fun _ _ => keeps_makeClaim C) (each_keeps (fun _ _ => keeps_releaseClaim C) hp))

theorem keeps_claimLanguages {r : Nat} (hp : P h) : P (h.claimLanguages r) :=
  C.slots _ _ rfl (each_keeps (fun _ _ => keeps_makeClaim C) hp)

theorem keeps_regroupClaims {gone new : List Nat} (hp : P h) : P (h.regroupClaims gone new) := by
  unfold regroupClaims
  dsimp only
  exact each_keeps (fun _ _ => keeps_claimLanguages C) (each_keeps (fun _ h => C.slots h _ rfl)
    (each_keeps (fun _ _ => keeps_releaseClaim C) (C.slots h _ rfl hp)))

theorem keeps_hold {x : Reassigned} (hp : P h) : P (h.hold x) :=
  keeps_markBooth C (C.held _ _ _ (fun _ => ⟨rfl, rfl, rfl⟩) hp)

theorem keeps_leadLeft {r b : Nat} {led : Led} (hp : P h) : P (h.leadLeft r b led) :=
  keeps_ite (keeps_markLanguage C (keeps_post C.toClosedEvents hp)) (keeps_post C.toClosedEvents hp)

theorem keeps_leadEntered {r b : Nat} (hp : P h) : P (h.leadEntered r b) :=
  keeps_markLanguage C (keeps_post C.toClosedEvents hp)

theorem keeps_evaluate (K : rd.Keeps P) {led : Nat → Led} {r : Nat} (hp : P h) : P (h.evaluate rd led r) := by
  unfold evaluate
  dsimp only
  refine each_keeps (fun _ _ => keeps_claimBooth C) ?_
  refine each_keeps (fun _ _ => keeps_releaseBooth C) ?_
  refine each_keeps (fun _ _ => keeps_reclass C) ?_
  refine each_keeps (fun _ _ => keeps_leadEntered C) ?_
  refine each_keeps (fun _ _ => keeps_leadLeft C) ?_
  refine each_keeps (fun _ _ => keeps_hold C) ?_
  exact keeps_readBooths K hp

theorem keeps_reassess (K : rd.Keeps P) {r : Nat} (hp : P h) : P (h.reassess rd r) := keeps_evaluate C K hp

theorem keeps_planChanged (K : rd.Keeps P) {r : Nat} {old : List Nat} (hp : P h) : P (h.planChanged rd r old) := by
  unfold planChanged
  dsimp only
  exact keeps_reassess C K (keeps_planHanded C (each_keeps (fun _ _ => keeps_markChannel C) hp))

theorem keeps_stateChanged (K : rd.Keeps P) {led : Nat → Led} {b : Nat} {old : BoothState} (hp : P h) :
    P (h.stateChanged rd led b old) := by
  unfold stateChanged
  split
  · exact hp
  · split
    · exact keeps_markBooth C (keeps_evaluate C K hp)
    · exact keeps_markBooth C (keeps_markLed C hp)

theorem keeps_markMovedLead {b : Nat} {x : BoothBefore} (hp : P h) : P (h.markMovedLead b x) := by
  unfold markMovedLead
  exact keeps_ite hp (keeps_markLed C (keeps_ite (keeps_markLanguage C hp) hp))

end slots

section rooms
variable (C : ClosedRooms P)
include C

theorem keeps_computePlan {r : Nat} (hp : P h) : P (h.computePlan r) := by
  unfold computePlan
  dsimp only
  exact C.plans _ _ (each_keeps (fun _ _ => keeps_post C.toClosedEvents) hp)

theorem keeps_replan (K : rd.Keeps P) {r : Nat} (hp : P h) : P (h.replan rd r) := by
  have h1 : P ((h.readPlans rd r).computePlan r) := keeps_computePlan C (keeps_readPlans K hp)
  exact keeps_ite h1 (keeps_planChanged C.toClosedSlots K h1)

theorem keeps_planNewRoom (K : rd.Keeps P) {r : Nat} (hp : P h) : P (h.planNewRoom rd r) :=
  keeps_computePlan C (keeps_readPlans K hp)

theorem keeps_loseRelay {b s : Nat} {x : Byte} (hp : P h) : P (h.loseRelay b s x) :=
  keeps_markBooth C.toClosedSlots (keeps_post C.toClosedEvents (C.booth _ _ _ hp))

theorem keeps_relayTest {b : Nat} (hp : P h) : P (h.relayTest b) := by
  unfold relayTest
  split
  · exact hp
  · exact keeps_ite (keeps_loseRelay C hp) (keeps_ite (keeps_loseRelay C hp) hp)

theorem keeps_relayCheckOf (K : rd.Keeps P) {b : Nat} (hp : P h) : P (h.relayCheckOf rd b) := by
  unfold relayCheckOf
  split
  · exact hp
  · exact keeps_relayTest C (K.booth _ _ (K.booth _ _ hp))

theorem keeps_relayCheck (K : rd.Keeps P) (hp : P h) : P (h.relayCheck rd) :=
  each_keeps (fun _ _ => keeps_relayCheckOf C K) hp

theorem keeps_selectRelay (K : rd.Keeps P) {b : Nat} (hp : P h) : P (h.selectRelay rd b) := by
  unfold selectRelay
  dsimp only
  split
  · exact hp
  · split
    · exact C.booth _ _ _ hp
    · split
      · exact C.booth _ _ _ (K.booth _ _ hp)
      · exact K.booth _ _ hp

theorem keeps_boothReport (K : rd.Keeps P) {b : Nat} {x : BoothState} {s : Relay} (hp : P h) :
    P (boothReport rd b x s h) := by
  unfold boothReport
  dsimp only
  have h1 := C.booth b (fun y => { y with reported := x, selection := s }) _ (K.booth b _ hp)
  refine keeps_ite (keeps_markBooth C.toClosedSlots ?_) ?_ <;> refine keeps_ite ?_ (keeps_selectRelay C K ?_) <;>
    exact keeps_stateChanged C.toClosedSlots K h1

theorem keeps_boothWritten (K : rd.Keeps P) {led : Nat → Led} {b : Nat} {x : BoothBefore} (hp : P h) :
    P (h.boothWritten rd led b x) := by
  unfold boothWritten
  refine keeps_ite hp (keeps_markBooth C.toClosedSlots (keeps_markMovedLead C.toClosedSlots ?_))
  refine keeps_ite ?_ (keeps_evaluate C.toClosedSlots K ?_) <;>
    exact keeps_evaluate C.toClosedSlots K (keeps_relayCheck C K (keeps_stateChanged C.toClosedSlots K hp))

theorem keeps_boothDamaged (K : rd.Keeps P) {b : Nat} (hp : P h) : P (h.boothDamaged rd b) :=
  keeps_markBooth C.toClosedSlots (keeps_reassess C.toClosedSlots K (keeps_relayCheck C K (keeps_releaseBooth C.toClosedSlots hp)))

end rooms

/-! ## The Partition Unit -/

section part
variable (C : ClosedRooms P)
include C

theorem keeps_fadeRooms {a : Nat} {rs : List Nat} (ha : a ≤ 128) (hp : P h) : P (h.fadeRooms a rs) :=
  C.sync _ (each_keeps (fun _ _ => C.fades _ _ _ ha) hp)

theorem keeps_setFloorSlots (hp : P h) : P h.setFloorSlots := C.slots _ _ rfl hp

/-- Entry into STOPPING keeps `P` when the change of mode does. -/
theorem keeps_enterStopping (K : rd.Keeps P) (hm : P (h.setMode .stopping)) : P (h.enterStopping rd) :=
  keeps_fadeRooms C (by decide) (keeps_closeFloor C.toClosedFloor K hm)

theorem keeps_regroupRouter (K : rd.Keeps P) {old : Partition} (hp : P h) :
    P (h.regroupRouter rd old) := by
  unfold regroupRouter
  dsimp only
  refine each_keeps (fun _ _ => keeps_markSection C.toClosedSlots) ?_
  refine each_keeps (fun _ _ => keeps_markBooth C.toClosedSlots) ?_
  refine each_keeps (fun _ _ => keeps_reassess C.toClosedSlots K) ?_
  refine keeps_relayCheck C K (keeps_regroupClaims C.toClosedSlots ?_)
  refine each_keeps (fun _ _ => keeps_planNewRoom C K) ?_
  refine each_keeps (fun _ h => C.plans h _) ?_
  exact keeps_readBooths K hp

theorem keeps_regroupMix (K : rd.Keeps P) {old : Partition} (hp : P h) : P (h.regroupMix rd old) :=
  keeps_fadeRooms C (by decide) (each_keeps (fun _ _ => keeps_recomputeMics C.toClosedFloor K) hp)

/-- The partition change event keeps `P` when the new partition does. -/
theorem keeps_changePartition (K : rd.Keeps P) {p : Partition}
    (hp : P (h.setPartition p)) : P (h.changePartition rd p) :=
  keeps_regroupMix C K (keeps_setFloorSlots C (keeps_regroupRouter C K (keeps_regroup C.toClosedFloor K hp)))

end part

section walls
variable (C : ClosedPart P) (K : rd.Keeps P)
include C K

theorem keeps_startTest (hp : P h) : P (h.startTest rd) := by
  have h1 : P h.startRepartition := keeps_post C.toClosedEvents (keeps_fadeRooms C.toClosedRooms (by decide) (C.repartition _ _ hp))
  unfold startTest
  refine keeps_ite hp ?_
  split
  · exact h1
  · exact h1
  · exact keeps_post C.toClosedEvents (keeps_changePartition C.toClosedRooms K (C.partition _ _ hp))
  · exact hp

theorem keeps_computeWalls (hp : P h) : P (h.computeWalls rd) := by
  have hr : P (h.readAll rd.override (List.range 7)) := readAll_keeps K.override hp
  unfold computeWalls
  dsimp only
  exact keeps_ite hr (keeps_startTest C K (C.effective _ _ hr))

theorem keeps_partitionChange (hp : P h) : P (h.partitionChange rd) := by
  unfold partitionChange
  split
  · exact keeps_fadeRooms C.toClosedRooms (by decide)
      (C.repartition _ _ (keeps_changePartition C.toClosedRooms K (C.partition _ _ hp)))
  · exact hp

/-- The end of a repartition keeps `P` when entry into STOPPING does. -/
theorem keeps_repartitionDone (hm : ∀ h, P h → P (setMode .stopping h)) (hp : P h) : P (h.repartitionDone rd) := by
  unfold repartitionDone
  split
  · refine keeps_startTest C K ?_
    have h1 : ∀ ss, P ((h.setRepartition .idle).post .repartitionDone 0 (wallMap (h.setRepartition .idle).part.inForce) 0
        (sectionMap ss)) := fun ss => keeps_post C.toClosedEvents (C.repartition _ _ hp)
    exact keeps_ite (keeps_enterStopping C.toClosedRooms K (hm _ (h1 _))) (h1 _)
  · exact hp

theorem keeps_stoppingComplete (hm : ∀ h, P h → P (setMode .config h)) (hp : P h) : P (h.stoppingComplete rd) := by
  unfold stoppingComplete
  exact keeps_ite (keeps_startTest C K (hm _ hp)) hp

end walls

/-! ## The reads -/

theorem keeps_enterSafe (C : ClosedSafe P) (K : rd.Keeps P) (hp : P h) : P (h.enterSafe rd) := by
  unfold enterSafe
  split
  · exact each_keeps (fun _ _ => keeps_service C.toClosedFloor K) (readAll_keeps K.settings (C.safe _ (by assumption) hp))
  · exact hp

theorem keeps_safeAfter (C : ClosedSafe P) (K : rd.Keeps P) {f : Hall → Hall} (hf : ∀ h, P h → P (f h)) (hp : P h) :
    P (h.safeAfter rd f) := keeps_enterSafe C K (hf _ hp)

end Hall

/-- A level of reads keeps what the level below and the plain checks keep. -/
theorem next_keeps {P : Hall → Prop} (C : ClosedSafe P) (N : Reader.notes.Keeps P) {rd : Reader} (K : rd.Keeps P) :
    rd.next.Keeps P where
  delegate n h hp :=
    Hall.keeps_ite (Hall.keeps_delegateDamaged C.toClosedFloor K (N.delegate n h hp)) (N.delegate n h hp)
  settings n h hp :=
    Hall.keeps_ite (Hall.keeps_safeAfter C K (fun _ => Hall.keeps_settingsChanged C.toClosedFloor K) (N.settings n h hp))
      (N.settings n h hp)
  plan n h hp :=
    Hall.keeps_ite (Hall.keeps_safeAfter C K (fun _ => Hall.keeps_replan C.toClosedRooms K) (N.plan n h hp))
      (N.plan n h hp)
  booth n h hp :=
    Hall.keeps_ite (Hall.keeps_safeAfter C K (fun _ => Hall.keeps_boothDamaged C.toClosedRooms K) (N.booth n h hp))
      (N.booth n h hp)
  timeClass n h hp :=
    Hall.keeps_ite (Hall.keeps_safeAfter C K (fun _ => Hall.keeps_classChanged C.toClosedFloor K) (N.timeClass n h hp))
      (N.timeClass n h hp)
  override n h hp :=
    Hall.keeps_ite (Hall.keeps_safeAfter C K (fun _ => Hall.keeps_computeWalls C.toClosedPart K) (N.override n h hp))
      (N.override n h hp)

theorem readerAt_keeps {P : Hall → Prop} (C : ClosedSafe P) (N : Reader.notes.Keeps P) (n : Nat) :
    (readerAt n).Keeps P := by
  induction n with
  | zero => exact N
  | succ n ih => exact next_keeps C N ih

/-- The reads with their reactions keep what the primitive updates and the plain checks keep. -/
theorem reader_keeps {P : Hall → Prop} (C : ClosedSafe P) (N : Reader.notes.Keeps P) : reader.Keeps P :=
  readerAt_keeps C N _

/-- Where the reads find nothing they keep whatever holds there. -/
theorem idle_keeps {P : Hall → Prop} {rd : Reader} (I : rd.Idle) (hm : ∀ h, P h → h.mem.ReadsFindNothing) :
    rd.Keeps P where
  delegate n h hp := by rw [Hall.idle_delegate I (hm h hp)]; exact hp
  settings n h hp := by rw [Hall.idle_settings I (hm h hp)]; exact hp
  plan n h hp := by rw [Hall.idle_plan I (hm h hp)]; exact hp
  booth n h hp := by rw [Hall.idle_booth I (hm h hp)]; exact hp
  timeClass n h hp := by rw [Hall.idle_timeClass I (hm h hp)]; exact hp
  override n h hp := by rw [Hall.idle_override I (hm h hp)]; exact hp

end Sys2Proof.Machine
end

