-- ==== Sys2Proof/Laws/Fades.lean ====
section
/-! SUPPORT. Rooms and fade targets: a section's room id exists (R9), and what setting the targets of some rooms leaves
(R101). -/

namespace Sys2Proof.Machine

/-- The room of a section is a room of the partition (R9). -/
theorem isRoomId_roomOf (p : Partition) (s : Nat) : isRoomId p (roomOf p s) = true := by
  induction s with
  | zero => simp [roomOf, isRoomId]
  | succ n ih =>
    unfold roomOf
    split
    · exact ih
    · next h =>
      have hn : n < 7 := by
        by_contra hc
        exact h (by rw [tget_of_le _ (Nat.le_of_not_lt hc)]; rfl)
      have : tget p n = .deployed := by
        cases hh : tget p n with
        | stowed => exact absurd hh h
        | deployed => rfl
      simp [isRoomId, this]; omega

theorem mem_roomIds {p : Partition} {r : Nat} : r ∈ roomIds p ↔ isRoomId p r = true := by
  simp only [roomIds, sections, List.mem_filter, List.mem_range, and_iff_right_iff_imp]
  intro h
  simp [isRoomId] at h
  exact h.1

theorem roomOf_lt (p : Partition) (s : Nat) : roomOf p s < 8 := by
  have := isRoomId_roomOf p s
  simp [isRoomId] at this
  exact this.1

namespace Hall

/-- The fade points after some rooms were given a target (R101). -/
theorem each_setRoomFades (a : Nat) (rs : List Nat) (h : Hall) :
    h.each rs (setRoomFades a) = { h with
      gains.rooms := tmapIdx h.gains.rooms (fun i g => if i / 9 ∈ rs then { g with target := a } else g) } := by
  induction rs generalizing h with
  | nil =>
    have : tmapIdx h.gains.rooms (fun _ g => g) = h.gains.rooms := table_ext (fun i hi => by simp [hi])
    simp [each, this]
  | cons r rs ih =>
    have : h.each (r :: rs) (setRoomFades a) = (h.setRoomFades a r).each rs (setRoomFades a) := rfl
    rw [this, ih]
    simp only [setRoomFades]
    congr 2
    apply table_ext
    intro i hi
    simp only [tget_tmapIdx_of_lt _ _ hi, List.mem_cons]
    by_cases h1 : i / 9 = r <;> by_cases h2 : i / 9 ∈ rs <;> simp [h1, h2]

/-- The fade points after some rooms and the booths with them were given a target (R101). -/
theorem fadeRooms_eq (a : Nat) (rs : List Nat) (h : Hall) :
    h.fadeRooms a rs = { h with
      gains.rooms := tmapIdx h.gains.rooms (fun i g => if i / 9 ∈ rs then { g with target := a } else g)
      gains.booths := tmapIdx h.gains.booths (fun b g => { g with
        target := if h.roomOfBooth b ∈ rs then a else (tget h.gains.rooms (9 * h.roomOfBooth b)).target }) } := by
  unfold fadeRooms
  rw [each_setRoomFades]
  unfold syncBoothFades
  dsimp only
  congr 2
  apply table_ext
  intro b hb
  rw [tget_tmapIdx_of_lt _ _ hb, tget_tmapIdx_of_lt _ _ hb]
  have hlt : h.roomOfBooth b < 8 := roomOf_lt _ _
  have h9 : 9 * h.roomOfBooth b / 9 = h.roomOfBooth b := by omega
  congr 1
  show (tget (tmapIdx h.gains.rooms _) (9 * h.roomOfBooth b)).target = _
  rw [tget_tmapIdx_of_lt _ _ (by omega), h9]
  split <;> rfl

end Hall

end Sys2Proof.Machine
end

