-- ==== Sys2Proof/Laws/Still.lean ====
section
/-! SUPPORT. Where the reads of Table Memory find nothing, every operation of the hall acts as with reads that do nothing, one
lemma for each operation that reads. So a reaction, which reads one level down (R153), acts there as it does under `reader`. -/

namespace Sys2Proof.Machine

/-- Reads that do nothing. -/
def Reader.still : Reader where
  delegate _ h := h
  settings _ h := h
  plan _ h := h
  booth _ h := h
  timeClass _ h := h
  override _ h := h

/-- The reads of the hall's records would find nothing. -/
def Hall.Clean (h : Hall) : Prop := h.mem.ReadsFindNothing

theorem still_idle : Reader.still.Idle := fun _ _ _ => ⟨rfl, rfl, rfl, rfl, rfl, rfl⟩

/-- No operation of the hall writes a record but by a read or by a command's own write. -/
theorem clean_closed : ClosedSafe Hall.Clean where
  post _ _ _ _ _ _ _ hp := hp
  run _ _ _ _ hp := hp
  floor _ _ _ hp := hp
  slot _ _ hp := hp
  mic _ _ _ _ hp := hp
  held _ _ _ _ hp := hp
  notices _ _ _ hp := hp
  slots _ _ _ hp := hp
  plans _ _ hp := hp
  booth _ _ _ hp := hp
  fades _ _ _ _ hp := hp
  sync _ hp := hp
  partition _ _ hp := hp
  effective _ _ hp := hp
  repartition _ _ hp := hp
  safe _ _ hp := hp

theorem still_keeps {P : Hall → Prop} : Reader.still.Keeps P :=
  ⟨fun _ _ hp => hp, fun _ _ hp => hp, fun _ _ hp => hp, fun _ _ hp => hp, fun _ _ hp => hp, fun _ _ hp => hp⟩

/-- Memory in which reads find nothing has no damage that is not marked. -/
theorem TableMemory.undamaged_of_clean {m : TableMemory} (hm : m.ReadsFindNothing) : m.undamaged = true := by
  obtain ⟨h1, h2, h3, h4, h5, h6⟩ := hm
  simp only [TableMemory.undamaged, Bool.and_eq_true, Vector.all_iff_forall]
  refine ⟨⟨⟨⟨⟨?_, ?_⟩, ?_⟩, ?_⟩, ?_⟩, ?_⟩ <;> intro i hi
  · simp [h1 _ (Vector.getElem_mem hi)]
  · simp [h2 _ (Vector.getElem_mem hi)]
  · simp [h3 _ (Vector.getElem_mem hi)]
  · simp [h4 _ (Vector.getElem_mem hi)]
  · simp [h5 _ (Vector.getElem_mem hi)]
  · simp [h6 _ (Vector.getElem_mem hi)]

/-- The reads are one level of reads over those that the reactions use. -/
theorem reader_eq_next : reader = (readerAt 234).next := rfl

namespace Hall

variable {rd : Reader} {h : Hall}

/-- Series of steps that agree where the reads find nothing agree there. -/
theorem each_agree {α : Type} {f g : α → Hall → Hall} (l : List α) (hf : ∀ a h, h.Clean → f a h = g a h)
    (hg : ∀ a h, h.Clean → (g a h).Clean) (hm : h.Clean) : h.each l f = h.each l g := by
  unfold each
  induction l generalizing h with
  | nil => rfl
  | cons a l ih =>
    simp only [List.foldl_cons]
    rw [hf a h hm]
    exact ih (hg a h hm)

/-! ## The floor -/

section floor
variable (I : rd.Idle)
include I

theorem recomputeMics_still {r : Nat} (hm : h.Clean) : h.recomputeMics rd r = h.recomputeMics .still r := by
  rw [idle_recomputeMics I hm, idle_recomputeMics still_idle hm]

theorem closeAll_still {c : CloseReason} {us : List Nat} (hm : h.Clean) : h.closeAll rd c us = h.closeAll .still c us :=
  each_agree _ (fun _ _ hc => recomputeMics_still I hc)
    (fun _ _ hc => keeps_recomputeMics clean_closed.toClosedFloor still_keeps hc)
    (each_keeps (fun _ _ hc => keeps_closeOne clean_closed.toClosedFloor hc) hm)

theorem serviceLoop_still {r n : Nat} (hm : h.Clean) : serviceLoop rd r n h = serviceLoop .still r n h := by
  induction n generalizing h with
  | zero => rfl
  | succ n ih =>
    unfold serviceLoop
    split
    · rfl
    · split
      · dsimp only
        rw [idle_delegate I hm, idle_delegate still_idle hm]
        apply ih
        split
        · exact keeps_grant clean_closed.toClosedFloor hm
        · exact hm
      · rfl

theorem service_still {r : Nat} (hm : h.Clean) : h.service rd r = h.service .still r := by
  unfold service
  split
  · dsimp only
    rw [idle_settings I hm, idle_settings still_idle hm]
    exact serviceLoop_still I hm
  · rfl

theorem gapTest_still {r : Nat} (hm : h.Clean) : h.gapTest rd r = h.gapTest .still r := by
  unfold gapTest
  rw [idle_settings I hm, idle_settings still_idle hm]

theorem serveChairs_still {n : Nat} (hm : h.Clean) : serveChairs rd n h = serveChairs .still n h := by
  induction n generalizing h with
  | zero => rfl
  | succ n ih =>
    unfold serveChairs
    split
    · rfl
    · split
      · dsimp only
        rw [idle_delegate I hm, idle_delegate still_idle hm]
        apply ih
        split
        · exact keeps_grant clean_closed.toClosedFloor hm
        · exact hm
      · rfl

theorem services_still {rs : List Nat} (hm : h.Clean) : h.each rs (service rd) = h.each rs (service .still) :=
  each_agree _ (fun _ _ hc => service_still I hc) (fun _ _ hc => keeps_service clean_closed.toClosedFloor still_keeps hc) hm

theorem serveRooms_still (hm : h.Clean) : h.serveRooms rd = h.serveRooms .still := by
  unfold serveRooms
  split
  · dsimp only
    rw [idle_readSettings I hm, idle_readSettings still_idle hm]
    exact services_still I hm
  · rfl

theorem arbiterRun_still (hm : h.Clean) : h.arbiterRun rd = h.arbiterRun .still := by
  unfold arbiterRun
  rw [serveChairs_still I hm]
  exact serveRooms_still I (keeps_serveChairs clean_closed.toClosedFloor still_keeps hm)

theorem arbiterRuns_still {n : Nat} (hm : h.Clean) : arbiterRuns rd n h = arbiterRuns .still n h := by
  induction n generalizing h with
  | zero => rfl
  | succ n ih =>
    unfold arbiterRuns
    rw [arbiterRun_still I hm]
    exact ih (keeps_arbiterRun clean_closed.toClosedFloor still_keeps hm)

theorem consequences_still {gaps : Bool} {freed : List Nat} {slots : Nat} (hm : h.Clean) :
    h.consequences rd gaps freed slots = h.consequences .still gaps freed slots := by
  unfold consequences
  have hg : (if gaps then h.each freed (gapTest rd) else h) = if gaps then h.each freed (gapTest .still) else h := by
    rw [each_agree freed (fun _ _ hc => gapTest_still I hc)
      (fun _ _ hc => keeps_gapTest clean_closed.toClosedFloor still_keeps hc) hm]
  have hc : Clean (if gaps then h.each freed (gapTest .still) else h) :=
    keeps_ite (each_keeps (fun _ _ hc => keeps_gapTest clean_closed.toClosedFloor still_keeps hc) hm) hm
  rw [hg, arbiterRuns_still I hc]
  exact services_still I (keeps_arbiterRuns clean_closed.toClosedFloor still_keeps hc)

theorem closeWithConsequences_still {c : CloseReason} {gaps : Bool} {us : List Nat} (hm : h.Clean) :
    h.closeWithConsequences rd c gaps us = h.closeWithConsequences .still c gaps us := by
  unfold closeWithConsequences
  rw [closeAll_still I hm]
  exact consequences_still I (keeps_closeAll clean_closed.toClosedFloor still_keeps hm)

theorem enterSafe_still (hm : h.Clean) : h.enterSafe rd = h.enterSafe .still := by
  have hs : (h.setMode .safe).Clean := hm
  unfold enterSafe
  split
  · dsimp only
    rw [idle_readSettings I hs, idle_readSettings still_idle hs]
    exact services_still I hs
  · rfl

theorem dropQueue_still {r : Nat} (hm : h.Clean) : h.dropQueue rd r = h.dropQueue .still r := by
  rw [idle_dropQueue I hm, idle_dropQueue still_idle hm]

theorem cutQueue_still {r : Nat} (hm : h.Clean) : h.cutQueue rd r = h.cutQueue .still r := by
  rw [idle_cutQueue I hm, idle_cutQueue still_idle hm]

theorem closeExcess_still {r : Nat} (hm : h.Clean) : h.closeExcess rd r = h.closeExcess .still r := by
  rw [idle_closeExcess I hm, idle_closeExcess still_idle hm, closeWithConsequences_still I hm]

theorem settingsChanged_still {s : Nat} {old : Settings} (hm : h.Clean) :
    settingsChanged rd s old h = settingsChanged .still s old h := by
  unfold settingsChanged
  split
  · dsimp only
    rw [dropQueue_still I hm]
    have h1 : Clean (if keepsQueue old.floorMode && !keepsQueue (h.settings s).floorMode then
        (h.dropQueue .still s).setGap s none else h) :=
      keeps_ite (keeps_setGap clean_closed.toClosedFloor (keeps_dropQueue clean_closed.toClosedFloor still_keeps hm)) hm
    have h2 := keeps_cutQueue clean_closed.toClosedFloor still_keeps (r := s) h1
    rw [cutQueue_still I h1, closeExcess_still I h2]
    exact service_still I (keeps_closeExcess clean_closed.toClosedFloor still_keeps h2)
  · rfl

theorem trimQueue_still {r : Nat} (hm : h.Clean) : h.trimQueue rd r = h.trimQueue .still r := by
  unfold trimQueue
  rw [idle_settings I hm, idle_settings still_idle hm, cutQueue_still I hm]
  dsimp only
  rw [dropQueue_still I (keeps_cutQueue clean_closed.toClosedFloor still_keeps hm)]

theorem delegateDamaged_still {u : Nat} (hm : h.Clean) : h.delegateDamaged rd u = h.delegateDamaged .still u := by
  have C := clean_closed.toClosedFloor
  unfold delegateDamaged
  dsimp only
  split
  · exact consequences_still I (keeps_unmark C (C.run _ _ _ (fun _ => rfl) (keeps_endRequest C (keeps_leaveQueue C hm))))
  · exact consequences_still I (keeps_unmark C (C.run _ _ _ (fun _ => rfl) (keeps_endRequest C (keeps_leaveChairs C hm))))
  · rw [closeAll_still I hm]
    exact consequences_still I (keeps_unmark C (C.run _ _ _ (fun _ => rfl) (keeps_closeAll C still_keeps hm)))

theorem timeUp_still {u l : Nat} {tell : Bool} (hm : h.Clean) : h.timeUp rd u l tell = h.timeUp .still u l tell := by
  unfold timeUp
  rw [idle_settings I hm, idle_settings still_idle hm]
  dsimp only
  rw [closeWithConsequences_still I hm]

theorem limitChanged_still {u : Nat} (hm : h.Clean) : h.limitChanged rd u = h.limitChanged .still u := by
  have h1 : (h.mark u).Clean := hm
  have h2 : ∀ f l tell, ((h.mark u).setRun u f).timeUp rd u l tell = ((h.mark u).setRun u f).timeUp .still u l tell :=
    fun _ _ _ => timeUp_still I h1
  unfold limitChanged
  rw [idle_delegate I hm, idle_delegate still_idle hm]
  dsimp only
  rw [idle_timeClass I h1, idle_timeClass still_idle h1, ite_self]
  simp only [h2]

theorem classChanged_still {c : Nat} {old : TimeClass} (hm : h.Clean) :
    classChanged rd c old h = classChanged .still c old h := by
  unfold classChanged
  rw [each_agree _ (fun _ _ hc => limitChanged_still I hc)
    (fun _ _ hc => keeps_limitChanged clean_closed.toClosedFloor still_keeps hc) hm]

end floor

/-! ## The Router -/

section router
variable (I : rd.Idle)
include I

theorem evaluate_still {led : Nat → Led} {r : Nat} (hm : h.Clean) : h.evaluate rd led r = h.evaluate .still led r := by
  unfold evaluate
  rw [idle_readAllBooths I hm, idle_readAllBooths still_idle hm]

theorem reassess_still {r : Nat} (hm : h.Clean) : h.reassess rd r = h.reassess .still r := evaluate_still I hm

theorem replan_still {r : Nat} (hm : h.Clean) : h.replan rd r = h.replan .still r := by
  have C := clean_closed.toClosedRooms
  rw [idle_replan I hm, idle_replan still_idle hm]
  refine if_congr Iff.rfl rfl ?_
  exact reassess_still I (keeps_planHanded C.toClosedSlots
    (each_keeps (fun _ _ hc => keeps_markChannel C.toClosedSlots hc) (keeps_computePlan C hm)))

theorem relayCheck_still (hm : h.Clean) : h.relayCheck rd = h.relayCheck .still :=
  each_agree _ (fun _ _ hc => by rw [idle_relayCheckOf I hc, idle_relayCheckOf still_idle hc])
    (fun _ _ hc => keeps_relayCheckOf clean_closed.toClosedRooms still_keeps hc) hm

theorem boothDamaged_still {b : Nat} (hm : h.Clean) : h.boothDamaged rd b = h.boothDamaged .still b := by
  have C := clean_closed.toClosedRooms
  have h1 : (h.releaseBooth b).Clean := keeps_releaseBooth C.toClosedSlots hm
  unfold boothDamaged
  rw [relayCheck_still I h1, reassess_still I (keeps_relayCheck C still_keeps h1)]

end router

/-! ## The partition in force -/

section part
variable (I : rd.Idle)
include I

theorem regroup_still {old : Partition} {before : Nat → Nat} (hm : h.Clean) :
    h.regroup rd old before = h.regroup .still old before := by
  have C := clean_closed.toClosedFloor
  unfold regroup
  dsimp only
  have h1 : Clean ((h.each (changedRooms old h.part.inForce) (fun r h => h.setQueue r [])).each
      ((roomIds h.part.inForce).filter (fun r => !unchangedRoom h.part.inForce old r)) gatherQueue) :=
    each_keeps (fun _ _ hc => keeps_setQueue C hc) (each_keeps (fun _ _ hc => keeps_setQueue C hc) hm)
  rw [each_agree (f := fun r h => h.readAll rd.delegate (h.queue r)) (g := fun r h => h.readAll Reader.still.delegate (h.queue r))
    _ (fun _ _ hc => by rw [idle_readDelegates I hc, idle_readDelegates still_idle hc])
    (fun _ _ hc => readAll_keeps (fun _ _ hp => hp) hc) h1]
  have h2 := each_keeps (l := (roomIds h.part.inForce).filter (fun r => !unchangedRoom h.part.inForce old r))
    (f := fun r h => h.readAll Reader.still.delegate (h.queue r)) (fun _ _ hc => readAll_keeps (fun _ _ hp => hp) hc) h1
  rw [each_agree (f := trimQueue rd) (g := trimQueue .still) _ (fun _ _ hc => trimQueue_still I hc)
    (fun _ _ hc => keeps_trimQueue C still_keeps hc) h2]
  have h3 := each_keeps (l := (roomIds h.part.inForce).filter (fun r => !unchangedRoom h.part.inForce old r))
    (f := trimQueue .still) (fun _ _ hc => keeps_trimQueue C still_keeps hc) h2
  have h4 := fun us (f : Nat → Bool) => each_keeps (l := us) (f := fun r h => h.setGap r none)
    (fun _ _ hc => keeps_setGap C hc) (each_keeps (l := units.filter f) (f := mark) (fun _ _ hc => keeps_mark C hc) h3)
  rw [each_agree (f := readPositions rd) (g := readPositions .still) _
    (fun _ _ hc => by rw [idle_readPositions I hc, idle_readPositions still_idle hc])
    (fun _ _ hc => keeps_readPositions still_keeps hc) (h4 _ _)]
  have h5 := fun us f => each_keeps (l := (roomIds h.part.inForce).filter (fun r => !unchangedRoom h.part.inForce old r))
    (f := readPositions .still) (fun _ _ hc => keeps_readPositions still_keeps hc) (h4 us f)
  rw [closeAll_still I (h5 _ _), arbiterRuns_still I (keeps_closeAll C still_keeps (h5 _ _))]
  exact services_still I (keeps_arbiterRuns C still_keeps (keeps_closeAll C still_keeps (h5 _ _)))

theorem regroupRouter_still {old : Partition} (hm : h.Clean) : h.regroupRouter rd old = h.regroupRouter .still old := by
  have C := clean_closed.toClosedRooms
  unfold regroupRouter
  dsimp only
  rw [idle_readAllBooths I hm, idle_readAllBooths still_idle hm]
  have h1 := each_keeps (l := (changedRooms old h.part.inForce).filter (fun r => !isRoomId h.part.inForce r))
    (f := fun r h => { h with router.plans := tset h.router.plans r [] }) (fun _ _ hc => C.plans _ _ hc) hm
  rw [each_agree (f := planNewRoom rd) (g := planNewRoom .still) _
    (fun _ _ hc => by rw [idle_planNewRoom I hc, idle_planNewRoom still_idle hc])
    (fun _ _ hc => keeps_planNewRoom C still_keeps hc) h1]
  have h2 := keeps_regroupClaims C.toClosedSlots (gone := changedRooms old h.part.inForce ++
      (h.newRooms old).filter (fun r => !(changedRooms old h.part.inForce).contains r)) (new := h.newRooms old)
    (each_keeps (l := h.newRooms old) (f := planNewRoom .still) (fun _ _ hc => keeps_planNewRoom C still_keeps hc) h1)
  rw [relayCheck_still I h2]
  rw [each_agree (f := reassess rd) (g := reassess .still) _ (fun _ _ hc => reassess_still I hc)
    (fun _ _ hc => keeps_reassess C.toClosedSlots still_keeps hc) (keeps_relayCheck C still_keeps h2)]

theorem regroupMix_still {old : Partition} (hm : h.Clean) : h.regroupMix rd old = h.regroupMix .still old := by
  unfold regroupMix
  rw [each_agree (f := recomputeMics rd) (g := recomputeMics .still) _ (fun _ _ hc => recomputeMics_still I hc)
    (fun _ _ hc => keeps_recomputeMics clean_closed.toClosedFloor still_keeps hc) hm]

theorem changePartition_still {p : Partition} (hm : h.Clean) : h.changePartition rd p = h.changePartition .still p := by
  have C := clean_closed.toClosedRooms
  unfold changePartition
  dsimp only
  have h0 : (h.setPartition p).Clean := hm
  have h1 := keeps_regroup C.toClosedFloor still_keeps (old := h.part.inForce) (before := h.queuePosition) h0
  have h2 := keeps_regroupRouter C still_keeps (old := h.part.inForce) h1
  rw [regroup_still I h0, regroupRouter_still I h1]
  exact regroupMix_still I (keeps_setFloorSlots C h2)

theorem startTest_still (hm : h.Clean) : h.startTest rd = h.startTest .still := by
  unfold startTest changeAtOnce
  simp only [changePartition_still I hm]

theorem computeWalls_still (hm : h.Clean) : h.computeWalls rd = h.computeWalls .still := by
  have h1 : (h.setEffective h.wallsNow).Clean := hm
  unfold computeWalls
  rw [idle_readOverrides I hm, idle_readOverrides still_idle hm]
  dsimp only
  rw [startTest_still I h1]

end part

end Hall

end Sys2Proof.Machine
end

