-- ==== Sys2Proof/Tests/Slice0.lean ====
section
/-! SUPPORT. Tests of the model: the checks of well-formedness, the bytes of cells, the spec's worked values, each row at the
boundary values of its operands, and for every obligation a state that meets its hypotheses. -/

namespace Sys2Proof.Tests

open Sys2Proof.Machine

set_option maxRecDepth 100000

set_option Elab.async false

/-! ## Helpers -/

/-- The state that a command leaves. -/
def run (i : Instr) (s : State) : State :=
  match exec i s with
  | .next t => t
  | _ => s

def hallAfter (i : Instr) (s : State) : Hall := (run i s).chip.hall

/-- The answers that commands get, each in state `s`. -/
def answers (s : State) (is : List Instr) : List (Option Answer) :=
  is.map (fun i => (hallAfter i s).cmd.replies.getLast?.map (·.answer))

def hd : Hdr := ⟨0x41, false⟩

def ok : Option Answer := some (.good .none 0 {})
def adjusted (n : Nat) : Option Answer := some (.good .adjusted n {})
def field (n : Nat) : Option Answer := some (.check .fieldOutOfRange n)
def check (x : Sense) : Option Answer := some (.check x 0)
def data (a b c d : Byte) : Option Answer := some (.good .none 0 ⟨a, b, c, d⟩)

/-- LOCKED in CONFIG. -/
def config : State := { State.reset with chip.ring := ⟨.locked, 0, some 0, 0, 0⟩ }

/-- The hall with units 1 and 2 (delegates) and 3 (chair) in section 0, and unit 4 in section 7. -/
def seated : State := { config with
  chip.hall.mem.delegates :=
    tset (tset (tset (tset config.chip.hall.mem.delegates 0 ⟨⟨true, 0, .delegate, 5, 0⟩, false, .sound⟩)
      1 ⟨⟨true, 0, .delegate, 0, 1⟩, false, .sound⟩) 2 ⟨⟨true, 0, .chair, 0, 0⟩, false, .sound⟩)
      3 ⟨⟨true, 7, .delegate, 0, 0⟩, false, .sound⟩ }

def inMode (m : Mode) (s : State) : State := { s with chip.hall.cmd.mode := m }

def live : State := { seated with chip.hall.cmd.mode := .live, chip.hall.cmd.requested := .live }

/-- The runtime part of a unit set, with microphone slot 0 held by it. -/
def holding (u : Nat) (st : FloorState) (s : State) : State := { s with
  chip.hall.floor.runs := tset s.chip.hall.floor.runs (u - 1) { state := st, slot := some 0, grantTs := some 0 }
  chip.hall.slots.mics := tset s.chip.hall.slots.mics 0 (some u) }

/-- Unit 2 in the queue of room 0. -/
def queued (s : State) : State := { s with
  chip.hall.floor.runs := tset s.chip.hall.floor.runs 1 { state := .waiting, requestTs := some 0 }
  chip.hall.floor.queues := tset s.chip.hall.floor.queues 0 [2]
  chip.hall.floor.poolFree := 95 }

/-- Section 0 with a floor mode and a maximum of speakers. -/
def withMode (m : FloorMode) (n : Nat) (s : State) : State := { s with
  chip.hall.mem.settings :=
    tset s.chip.hall.mem.settings 0 ⟨{ floorMode := m, maxSpeakers := n }, false, .sound⟩ }

/-- Every microphone slot held. -/
def slotsFull (s : State) : State := { s with chip.hall.slots.mics := .replicate 24 (some 99) }

/-- Booth 0 for language 1 in section 0, reported READY. -/
def booths (s : State) : State := { s with
  chip.hall.mem.booths := tset s.chip.hall.mem.booths 0 ⟨⟨1, 0, 0⟩, false, .sound⟩
  chip.hall.router.booths := tset s.chip.hall.router.booths 0 { reported := .ready } }

def due (ds : List Due) (s : State) : State := { s with chip.due := ds }

def contents : PresetContents :=
  ⟨.replicate 7 .follow, .replicate 8 {}, .replicate 8 [], .replicate 16 {}, .replicate 4 {}⟩

/-- Preset 0 VALID. -/
def stored (s : State) : State := { s with chip.hall.store.presets := tset s.chip.hall.store.presets 0 (.valid contents) }

/-- The store busy with preset 3. -/
def busy (op : ProgramOp) (s : State) : State := { s with
  chip.hall.store.presets := tset s.chip.hall.store.presets 3 .writing
  chip.hall.store.programming := some ⟨3, op, 100⟩ }

def arrival (x : Cell) : Arrival := { frame := ⟨.replicate 128 0, x⟩ }

/-- Section 0's settings, and class 1, with an error that a read finds and does not correct. -/
def badSettings (s : State) : State := { s with chip.hall.mem.settings := tset s.chip.hall.mem.settings 0 ⟨{}, false, .uncorrectable⟩ }
def badClass (s : State) : State := { s with chip.hall.mem.classes := tset s.chip.hall.mem.classes 1 ⟨⟨10, 0⟩, false, .uncorrectable⟩ }

/-- A cell of another node. -/
def foreign : Cell := tset (tset (encodeCell (.micPress 1)) 1 5) 2 7

/-- Reads of Table Memory that find nothing, by evaluation. -/
def sound (m : TableMemory) : Bool :=
  m.delegates.toList.all (fun p => p.finding == .none) && m.settings.toList.all (fun p => p.finding == .none) &&
    m.plans.toList.all (fun p => p.finding == .none) && m.booths.toList.all (fun p => p.finding == .none) &&
    m.classes.toList.all (fun p => p.finding == .none) && m.overrides.toList.all (fun p => p.finding == .none)

theorem reads_of_sound {m : TableMemory} (h : sound m = true) : m.ReadsFindNothing := by
  simp only [sound, Bool.and_eq_true, List.all_eq_true, Vector.mem_toList_iff, beq_iff_eq] at h
  exact ⟨h.1.1.1.1.1, h.1.1.1.1.2, h.1.1.1.2, h.1.1.2, h.1.2, h.2⟩

theorem config_ready : config.chip.Ready := ⟨⟨rfl, rfl⟩, by decide, rfl, rfl⟩
theorem live_ready : live.chip.Ready := ⟨⟨rfl, rfl⟩, by decide, rfl, rfl⟩
theorem config_reads : config.chip.hall.mem.ReadsFindNothing := reads_of_sound (by decide +kernel)
theorem live_reads : live.chip.hall.mem.ReadsFindNothing := reads_of_sound (by decide +kernel)

/-! ## Well-formedness: each check refuses an ill-formed term -/

theorem test_wellFormed_upset_unit :
    Instr.wellFormed (.frameArrival { arrival foreign with upsets := [⟨.delegate, 0, .correctable⟩] }) = false := by decide
theorem test_wellFormed_upset_settings :
    Instr.wellFormed (.frameArrival { arrival foreign with upsets := [⟨.settings, 8, .correctable⟩] }) = false := by decide
theorem test_wellFormed_upset_plan :
    Instr.wellFormed (.frameArrival { arrival foreign with upsets := [⟨.plan, 8, .correctable⟩] }) = false := by decide
theorem test_wellFormed_upset_booth :
    Instr.wellFormed (.frameArrival { arrival foreign with upsets := [⟨.booth, 16, .correctable⟩] }) = false := by decide
theorem test_wellFormed_upset_class :
    Instr.wellFormed (.frameArrival { arrival foreign with upsets := [⟨.timeClass, 4, .correctable⟩] }) = false := by decide
theorem test_wellFormed_upset_override :
    Instr.wellFormed (.frameArrival { arrival foreign with upsets := [⟨.override, 7, .correctable⟩] }) = false := by decide
theorem test_wellFormed_wall : Instr.wellFormed (.wallChanged 7) = false := by decide
theorem test_wellFormed_closeEnd : Instr.wellFormed (.closeEnd 193) = false := by decide
theorem test_wellFormed_gap : Instr.wellFormed (.gapExpiry 8) = false := by decide
theorem test_wellFormed_window : Instr.wellFormed (.responseWindowExpiry 0) = false := by decide
theorem test_wellFormed_press : Instr.wellFormed (.micPress 0) = false ∧ Instr.wellFormed (.priorityPress 193) = false := by
  decide
theorem test_wellFormed_taken : Instr.wellFormed (.unitTaken 1 16) = false := by decide
theorem test_wellFormed_report :
    Instr.wellFormed (.boothReport 224 0 0) = false ∧ Instr.wellFormed (.boothReport 208 3 0) = false ∧
      Instr.wellFormed (.boothReport 208 0 16) = false := by decide
theorem test_wellFormed_unknown : Instr.wellFormed (.unknownCommand hd 0x01) = false := by decide
theorem test_wellFormed_setMode : Instr.wellFormed (.setModeLive hd 0) = false := by decide
theorem test_wellFormed_good : ([.wallChanged 6, .closeEnd 192, .gapExpiry 7, .micPress 192, .unitTaken 1 15,
    .boothReport 223 2 255, .unknownCommand hd 0x44, .setModeLive hd 2] : List Instr).all Instr.wellFormed = true := by decide

/-! ## Cells and worked values of the spec -/

theorem test_crc_of_digits :
    ([0x31, 0x32, 0x33, 0x34, 0x35, 0x36, 0x37, 0x38, 0x39] : List Byte).foldl crcByte 0xFFFF = 0x29B1 := by decide +kernel
theorem test_cell_bytes_setTimeClass :
    ((encodeCell (.command ⟨0x41, true⟩ (.setTimeClass 2 3600 60))).toList.take 14) =
      [1, 0xFE, 0xF0, 0x01, 0x41, 0x93, 2, 0x0E, 0x10, 60, 0, 0, 0, 0] := by decide +kernel
theorem test_cell_bytes_setHomePlan :
    ((encodeCell (.command ⟨0x10, false⟩ (.setHomePlan 5 3 #v[1, 2, 3, 0, 0, 0, 0, 63]))).toList.take 14) =
      [1, 0xFE, 0xF0, 0x01, 0x10, 0x31, 0x53, 0x04, 0x20, 0xC0, 0, 0, 0x3F, 0] := by decide +kernel
theorem test_cell_decodes : decodeCell (encodeCell (.unitTaken 0xC0 15)) = some (.unitTaken 0xC0 15) := by decide +kernel
theorem test_cell_bad_crc : decodeCell (tset (encodeCell (.micPress 1)) 15 0) = none := by decide +kernel
theorem test_cell_bad_fields :
    decodeCell (sealCell [1, 0xFE, 5, 0x02, 0, 2]) = none ∧ decodeCell (sealCell [1, 0xFE, 5, 0x03, 16]) = none ∧
      decodeCell (sealCell [1, 0xFE, 0xC1, 0x02]) = none ∧ decodeCell (sealCell [1, 0xFE, 0xF1, 0x01]) = none ∧
      decodeCell (sealCell [1, 0xFE, 5, 0x05]) = none ∧ decodeCell (sealCell [2, 0xFE, 5, 0x02]) = none := by decide +kernel

/-- Table 1.5. -/
theorem test_rooms :
    roomIds (.replicate 7 .stowed) = [0] ∧ roomIds (.replicate 7 .deployed) = [0, 1, 2, 3, 4, 5, 6, 7] ∧
      roomIds #v[.deployed, .stowed, .stowed, .deployed, .deployed, .stowed, .deployed] = [0, 1, 4, 5, 7] ∧
      sectionsOf #v[.deployed, .stowed, .stowed, .deployed, .deployed, .stowed, .deployed] 5 = [5, 6] ∧
      wallMap #v[.deployed, .stowed, .stowed, .deployed, .deployed, .stowed, .deployed] = 0x59 := by decide +kernel
/-- Section 6.8.1 and Table 6.5. -/
theorem test_scaling :
    sc 1000000 6 = 707947 ∧ sc (-2000000) 10 = -1124695 ∧ sc (-416748) 12 = -208870 ∧ sc 2000000 4 = 1588684 ∧
      sc (-416748) 20 = -131785 ∧ sc 1456899 40 = 145699 ∧ clampSample 9000000 = 8388607 ∧ sc 9000000 12 = 4510712 := by
  decide +kernel
/-- Table 6.4: the targets of two speakers with trims 0 and 2. -/
theorem test_targets : speakingTarget 0 2 = 6 ∧ speakingTarget 2 2 = 8 ∧ speakingTarget 2 1 = 2 ∧ speakingTarget 120 24 = 127 := by
  decide
/-- Table 10.3. -/
theorem test_overflow :
    let e : Event := ⟨.granted, 5, 1, 0, 0, 0⟩
    let q : EventQueue := ⟨List.replicate 62 e, 0x7F, false, 0⟩
    let q4 := (((q.push 5 e).push 5 e).push 5 e).push 5 e
    let q5 := { q4 with events := q4.events.drop 2 }.push 9 e
    q4 = ⟨List.replicate 64 e, 0x7F, true, 2⟩ ∧
      q5 = ⟨List.replicate 62 e ++ [⟨.eventsLost, 9, 0, 0, 2, 0⟩, e], 0x7F, false, 0⟩ := by decide +kernel
/-- Table 9.3, the first three commands. -/
theorem test_group :
    let s0 : State := { config with chip.hall.cmd.deferred := some 3 }
    let s1 := run (.setSectionFloor ⟨0x40, true⟩ 1 1 4 16 0 0 0) s0
    let s2 := run (.setSectionLevels ⟨0x41, true⟩ 1 0 0 0) s1
    let s3 := run (.setHomePlan ⟨0x42, false⟩ 1 0 (.replicate 8 0)) s2
    s3.chip.hall.cmd.replies = [⟨0x40, .check .storeFailed 3⟩, ⟨0x41, .check .groupAbandoned 0⟩,
      ⟨0x42, .check .groupAbandoned 0⟩] ∧ s2.chip.hall.cmd.groupFailed = true ∧ s3.chip.hall.cmd.groupFailed = false := by
  decide +kernel

/-! ## Commands at the boundary values of their fields -/

theorem test_unknownCommand : answers config [.unknownCommand hd 0x44, .unknownCommand hd 0x7F] =
    [some (.check .unknownCommand 0x44), some (.check .unknownCommand 0x7F)] := by decide +kernel
theorem test_status : answers live [.status hd 0, .status hd 1, .status hd 2, .status hd 3, .status hd 4] =
    [data 0x11 0 0 0, data 0 0 0 255, data 0 1 0 0, data 4 2 5 0, field 1] := by decide +kernel
theorem test_setModeLive : answers config [.setModeLive hd 1, .setModeLive hd 2, .setModeLive hd 255] =
    [ok, field 1, field 1] ∧ answers (inMode .stopping config) [.setModeLive hd 1] = [check .stopping] := by decide +kernel
theorem test_setModeLive_writes : (hallAfter (.setModeLive hd 1) config).cmd.mode = .live ∧
    tget (hallAfter (.setModeLive hd 1) config).gains.rooms 8 = ⟨128, 0⟩ ∧
    (hallAfter (.setModeLive hd 1) (inMode .safe config)).cmd.mode = .live := by decide +kernel
theorem test_setModeConfig : (hallAfter (.setModeConfig hd) live).cmd.mode = .stopping ∧
    (hallAfter (.setModeConfig hd) config).cmd.mode = .config := by decide +kernel
theorem test_engineReset : (hallAfter (.engineReset hd) live).cmd.mode = .config ∧
    (hallAfter (.engineReset hd) live).events.events = [⟨.restarted, 0, 0, 1, 0, 0⟩] ∧
    tget (hallAfter (.engineReset hd) live).floor.dirty 3 = true := by decide +kernel
theorem test_supervise : answers config [.supervise hd 2 5 0, .supervise hd 1 5 2, .supervise hd 0 5 1, .supervise hd 1 0 0,
    .supervise hd 1 255 1] = [field 1, field 3, field 3, adjusted 2, ok] ∧
    answers (run (.supervise hd 1 1 1) config) [.supervise hd 0 5 0] = [check .supervisionLocked] := by decide +kernel
theorem test_setEvents : answers config [.setEvents hd 0x7F, .setEvents hd 0x80] = [ok, field 1] ∧
    (hallAfter (.setEvents hd 0x05) config).events.mask = 0x05 := by decide +kernel
theorem test_setTiming : answers config [.setTiming hd 0 1 2, .setTiming hd 1 0 2, .setTiming hd 1 1 1, .setTiming hd 1 1 2,
    .setTiming hd 32 8 15, .setTiming hd 33 9 16, .setTiming hd 32 9 16, .setTiming hd 32 8 16] =
    [adjusted 1, adjusted 2, adjusted 3, ok, ok, adjusted 1, adjusted 2, adjusted 3] ∧
    answers live [.setTiming hd 4 2 5] = [some (.check .wrongMode 1)] := by decide +kernel
theorem test_loadDelegate : answers live [.loadDelegate hd 0 0 0 0 0, .loadDelegate hd 193 0 0 0 0, .loadDelegate hd 192 8 0 0 0,
    .loadDelegate hd 192 7 2 0 0, .loadDelegate hd 192 7 1 41 3, .loadDelegate hd 192 7 1 40 4, .loadDelegate hd 1 7 1 40 3] =
    [field 1, field 1, field 2, field 3, adjusted 4, field 5, ok] := by decide +kernel
theorem test_loadDelegate_notIdle :
    answers (holding 1 .speaking live) [.loadDelegate hd 1 0 0 6 3, .loadDelegate hd 1 1 0 6 0, .loadDelegate hd 1 0 1 6 0] =
      [ok, check .unitNotIdle, check .unitNotIdle] ∧
    answers (inMode .safe live) [.loadDelegate hd 1 0 0 0 0] = [some (.check .wrongMode 3)] ∧
    (hallAfter (.loadDelegate hd 1 0 0 6 1) (badClass (holding 1 .speaking live))).cmd.mode = .safe := by decide +kernel
theorem test_removeDelegate : answers live [.removeDelegate hd 0, .removeDelegate hd 193, .removeDelegate hd 192,
    .removeDelegate hd 1] = [field 1, field 1, check .unitNotPresent, ok] ∧
    answers (holding 1 .speaking live) [.removeDelegate hd 1] = [check .unitNotIdle] := by decide +kernel
theorem test_readDelegate : answers live [.readDelegate hd 4 0, .readDelegate hd 3 0, .readDelegate hd 1 1, .readDelegate hd 1 2,
    .readDelegate hd 192 0, .readDelegate hd 1 3, .readDelegate hd 193 0] =
    [data 1 0x70 0 0, data 1 1 0 0, data 0 0xFF 0 1, data 0 0 0 0, data 0 0 0 0, field 2, field 1] := by decide +kernel
theorem test_setTimeClass : answers live [.setTimeClass hd 3 3600 120, .setTimeClass hd 0 3601 0, .setTimeClass hd 0 9 0,
    .setTimeClass hd 0 10 10, .setTimeClass hd 0 0 121, .setTimeClass hd 4 0 0] =
    [ok, adjusted 2, adjusted 2, adjusted 3, adjusted 3, field 1] ∧
    answers (inMode .safe live) [.setTimeClass hd 0 10 0] = [some (.check .wrongMode 3)] := by decide +kernel
theorem test_grantFloor : answers (withMode .operator 1 live) [.grantFloor hd 0, .grantFloor hd 193, .grantFloor hd 5,
    .grantFloor hd 1] = [field 1, field 1, check .unitNotPresent, ok] ∧
    answers live [.grantFloor hd 1] = [check .notOperatorRoom] ∧
    answers config [.grantFloor hd 1] = [some (.check .wrongMode 0)] := by decide +kernel
theorem test_grantFloor_full : answers (holding 1 .speaking (withMode .operator 1 live))
    [.grantFloor hd 1, .grantFloor hd 2, .grantFloor hd 3] = [ok, check .floorFull, ok] ∧
    answers (slotsFull (withMode .operator 1 live)) [.grantFloor hd 1] = [check .noMicSlot] ∧
    answers (holding 1 .closing (withMode .operator 1 live)) [.grantFloor hd 1] = [check .unitNotIdle] := by decide +kernel
theorem test_closeFloor : answers live [.closeFloor hd 0, .closeFloor hd 193, .closeFloor hd 5, .closeFloor hd 1] =
    [field 1, field 1, check .unitNotPresent, ok] ∧
    ((hallAfter (.closeFloor hd 1) (holding 1 .speaking live)).run 1).state = .closing ∧
    (hallAfter (.closeFloor hd 2) (queued live)).queue 0 = [] := by decide +kernel
theorem test_clearFloor : answers live [.clearFloor hd 1 0, .clearFloor hd 0 3, .clearFloor hd 0 1] = [field 1, field 2, ok] ∧
    ((hallAfter (.clearFloor hd 0 0) (holding 1 .speaking live)).run 1).state = .closing ∧
    ((hallAfter (.clearFloor hd 0 2) (holding 3 .granting live)).run 3).state = .idle := by decide +kernel
theorem test_setSectionFloor : answers live [.setSectionFloor hd 8 0 1 1 0 0 0, .setSectionFloor hd 7 4 1 1 0 0 0,
    .setSectionFloor hd 7 3 0 1 0 0 0, .setSectionFloor hd 7 3 8 33 0 0 0, .setSectionFloor hd 7 3 8 32 51 0 0,
    .setSectionFloor hd 7 3 8 32 50 2 0, .setSectionFloor hd 7 3 8 32 50 1 2, .setSectionFloor hd 7 3 8 32 50 1 1] =
    [field 1, field 2, adjusted 3, adjusted 4, adjusted 5, field 6, field 7, ok] := by decide +kernel
theorem test_setSectionLevels : answers live [.setSectionLevels hd 8 0 0 0, .setSectionLevels hd 7 128 128 128,
    .setSectionLevels hd 7 127 129 128, .setSectionLevels hd 7 127 128 129, .setSectionLevels hd 7 127 128 128] =
    [field 1, adjusted 2, adjusted 3, adjusted 4, ok] := by decide +kernel
theorem test_setWall : answers live [.setWall hd 7 0, .setWall hd 6 3, .setWall hd 6 0] = [field 1, field 2, ok] ∧
    (hallAfter (.setWall hd 3 1) live).part.repartition =
      .fadingOut (tset (.replicate 7 .stowed) 3 .deployed) [0, 1, 2, 3, 4, 5, 6, 7] ∧
    (hallAfter (.setWall hd 3 1) (inMode .stopping live)).part.repartition = .idle := by decide +kernel
theorem test_setWall_inConfig :
    (hallAfter (.setWall hd 6 1) config).part.inForce = tset (.replicate 7 .stowed) 6 .deployed := by decide +kernel
theorem test_readRoom : answers (queued (holding 1 .speaking live)) [.readRoom hd 0, .readRoom hd 1, .readRoom hd 255] =
    [data 0 0 0x10 1, field 1, field 1] := by decide +kernel
theorem test_setBooth : answers (booths live) [.setBooth hd 16 0 0 0, .setBooth hd 15 64 0 0, .setBooth hd 15 63 8 0,
    .setBooth hd 15 63 7 128, .setBooth hd 15 63 7 127, .setBooth hd 0 1 0 5, .setBooth hd 0 2 0 0] =
    [field 1, field 2, field 3, adjusted 4, ok, ok, check .boothNotOff] := by decide +kernel
/-- Wall 0 DEPLOYED, language 1 in the plans of rooms 0 and 1, booth 1 leading it in room 1 and booth 2 in room 0. -/
def twoLeads : State := { config with
  chip.hall.part.inForce := tset (.replicate 7 .stowed) 0 .deployed
  chip.hall.router.plans := tset (tset (.replicate 8 []) 0 [1]) 1 [1]
  chip.hall.router.channelDirty := .replicate 72 false
  chip.hall.mem.booths := tset (tset config.chip.hall.mem.booths 1 ⟨⟨1, 1, 0⟩, false, .sound⟩) 2 ⟨⟨1, 0, 0⟩, false, .sound⟩
  chip.hall.router.booths := tset (tset config.chip.hall.router.booths 1 { reported := .ready, assignment := .lead })
    2 { reported := .ready, assignment := .lead } }
/-- A lead that moves to another room leaves the channel of its language there as it is (R66). -/
theorem test_setBooth_movedLead :
    let h := hallAfter (.setBooth hd 2 1 1 0) twoLeads
    (h.boothRun 2).assignment = .stoodDown ∧ (h.boothRun 1).assignment = .lead ∧
      tget h.router.channelDirty 1 = true ∧ tget h.router.channelDirty 10 = false ∧
      h.events.events.getLast? = some ⟨.leadChanged, 0, 2, 1, 1, 0⟩ := by decide +kernel
theorem test_setHomePlan : answers live [.setHomePlan hd 8 0 (.replicate 8 0), .setHomePlan hd 7 9 #v[1, 2, 3, 4, 5, 6, 7, 63],
    .setHomePlan hd 7 8 #v[1, 2, 3, 4, 5, 6, 7, 0], .setHomePlan hd 7 2 #v[1, 1, 0, 0, 0, 0, 0, 0],
    .setHomePlan hd 7 1 #v[1, 1, 0, 0, 0, 0, 0, 0]] =
    [field 1, adjusted 2, field 10, some (.check .duplicateLanguage 4), ok] ∧
    (hallAfter (.setHomePlan hd 7 2 #v[5, 6, 0, 0, 0, 0, 0, 0]) live).plan 0 = [5, 6] := by decide +kernel
theorem test_readBooth : answers (booths live) [.readBooth hd 0 0, .readBooth hd 0 1, .readBooth hd 15 2, .readBooth hd 16 0,
    .readBooth hd 0 3] = [data 1 0 0 0, data 0x11 0 0xFF 0xFF, data 0 0xFF 0xFF 0, field 1, field 2] := by decide +kernel
theorem test_readSlot : answers (holding 1 .speaking live) [.readSlot hd 0 7, .readSlot hd 0 8, .readSlot hd 0 31,
    .readSlot hd 0 32, .readSlot hd 0 39, .readSlot hd 0 40, .readSlot hd 0 127, .readSlot hd 0 128] =
    [data 0 0 0 0, data 1 2 1 1, data 1 1 0 0, data 2 3 2 0, data 2 4 2 7, data 3 1 0 0, data 3 1 0 0, field 2] := by
  decide +kernel
theorem test_readSlot_lists : answers live [.readSlot hd 1 0, .readSlot hd 1 1, .readSlot hd 1 96, .readSlot hd 1 97,
    .readSlot hd 2 0, .readSlot hd 3 0] = [field 2, data 0 0 0 0, data 0 0 0 0, field 2, data 24 88 0 1, field 1] := by
  decide +kernel
theorem test_storePreset : answers config [.storePreset hd 11, .storePreset hd 12, .storePreset hd 15, .storePreset hd 16] =
    [ok, check .housePreset, check .housePreset, field 1] ∧
    answers (busy .erase config) [.storePreset hd 0] = [check .storeInProgress] ∧
    answers (inMode .safe config) [.storePreset hd 0] = [some (.check .wrongMode 3)] := by decide +kernel
theorem test_erasePreset : answers config [.erasePreset hd 11, .erasePreset hd 12, .erasePreset hd 16] =
    [ok, check .housePreset, field 1] ∧ answers (busy .erase config) [.erasePreset hd 0] = [check .storeInProgress] ∧
    (hallAfter (.erasePreset hd 5) config).store.programming = some ⟨5, .erase, 491520⟩ := by decide +kernel
theorem test_recallPreset : answers config [.recallPreset hd 15, .recallPreset hd 16] = [check .presetEmpty, field 1] ∧
    answers (busy .erase config) [.recallPreset hd 3] = [check .storeInProgress] ∧
    answers (inMode .safe config) [.recallPreset hd 0] = [some (.check .wrongMode 3)] := by decide +kernel
theorem test_recallPreset_valid : answers (stored config) [.recallPreset hd 0] = [ok] ∧
    answers (stored live) [.recallPreset hd 0] = [some (.good .partialRecall 0 {})] := by decide +kernel
theorem test_setHouseWrite : answers config [.setHouseWrite hd 0, .setHouseWrite hd 1, .setHouseWrite hd 2] =
    [ok, ok, field 1] ∧ (hallAfter (.setHouseWrite hd 1) config).store.houseWrite = true := by decide +kernel

/-! ## Rows of the ring, of the chip's own time and of units and booths -/

theorem test_hardReset : (run (.hardReset {}) live).chip.hall.cmd.mode = .config ∧
    (run (.hardReset ⟨0x40, true⟩) live).chip.hall.part.inForce = tset (.replicate 7 .stowed) 6 .deployed ∧
    (run (.hardReset {}) live).chip.hall.events.events = [⟨.restarted, 0, 0, 0, 0, 0⟩] := by decide +kernel
theorem test_frameArrival : ((run (.frameArrival (arrival (encodeCell (.micPress 1)))) live).chip.hall.run 1).state = .granting := by
  decide +kernel
/-- A due ramp step comes before a placement that finds its delegate damaged (R90, R42). -/
theorem test_frameArrival_rampFirst :
    let s0 := holding 1 .speaking live
    let s : State := { s0 with
      chip.time.rampInterval := 1
      chip.hall.gains.mics := tset s0.chip.hall.gains.mics 0 ⟨10, 10⟩
      chip.hall.floor.dirty := tset s0.chip.hall.floor.dirty 0 true }
    let t := run (.frameArrival { arrival (.replicate 16 0) with upsets := [⟨.delegate, 1, .uncorrectable⟩] }) s
    (t.chip.hall.run 1).state = .closing ∧ tget t.chip.hall.gains.mics 0 = ⟨10, 128⟩ ∧ Due.rampStep ∉ t.chip.due := by
  decide +kernel
theorem test_frameArrival_searching : (run (.frameArrival (arrival foreign)) State.reset).chip.ring = ⟨.searching, 1, some 0, 0, 0⟩ := by
  decide +kernel
theorem test_ringLost : (run .ringLost config).chip.ring = ⟨.lost, 0, some 1536, 0, 0⟩ := by decide +kernel
theorem test_runCountCleared :
    (run .runCountCleared { State.reset with chip.ring.run := 15 }).chip.ring.run = 0 := by decide +kernel
theorem test_tick : (run .tick (due [.tick] { config with chip.time.sinceSecond := 99 })).chip.time.sinceSecond = 0 ∧
    (run .tick (due [.tick] { config with chip.time.sinceSecond := 99 })).chip.due = [.second] ∧
    (run .tick config).chip.time.sinceSecond = 0 := by decide +kernel
theorem test_second : ((run .second (due [.second] (holding 1 .speaking live))).chip.hall.run 1).seconds = 1 := by decide +kernel
theorem test_rampStep : tget (run .rampStep (due [.rampStep] (run (.setModeLive hd 1) config))).chip.hall.gains.rooms 0 = ⟨127, 0⟩ := by
  decide +kernel
theorem test_scan : let s : State := due [.scan] { config with
      chip.pins.walls := 1, chip.hall.part.walls := tset config.chip.hall.part.walls 0 ⟨.stowed, 4, 7⟩ }
    (run .scan s).chip.due = [.wallFlip 0] := by decide +kernel
theorem test_wallChanged : let s : State := due [.wallFlip 0] { config with
      chip.hall.part.walls := tset config.chip.hall.part.walls 0 ⟨.stowed, 5, 7⟩ }
    (run (.wallChanged 0) s).chip.hall.part.inForce = tset (.replicate 7 .stowed) 0 .deployed ∧
      (run (.wallChanged 0) s).chip.hall.events.events[1]? = some ⟨.wallChanged, 7, 0, 1, 0, 0⟩ := by decide +kernel

/-- A fade-out to the partition with wall 6 DEPLOYED, and its fade-in. -/
def target : Partition := tset (.replicate 7 .stowed) 6 .deployed
def fadingOut (s : State) : State := { s with
  chip.hall.part.repartition := .fadingOut target [0, 1, 2, 3, 4, 5, 6, 7], chip.hall.part.effective := target }
def fadingIn (s : State) : State := { s with
  chip.hall.part.repartition := .fadingIn target [0, 1, 2, 3, 4, 5, 6, 7], chip.hall.part.effective := target
  chip.hall.part.inForce := target }

theorem test_partitionChange : (run .partitionChangeEvent (due [.partitionChange] (fadingOut live))).chip.hall.part.inForce = target := by
  decide +kernel
theorem test_repartitionDone : (run .repartitionDone (due [.repartitionDone] (fadingIn live))).chip.hall.part.repartition = .idle := by
  decide +kernel
theorem test_stoppingComplete : (run .stoppingComplete (due [.stopping] (inMode .stopping live))).chip.hall.cmd.mode = .config := by
  decide +kernel
theorem test_closeEnd : ((run (.closeEnd 1) (due [.closeEnd 1] (holding 1 .closing live))).chip.hall.run 1).state = .idle := by
  decide +kernel
theorem test_gapExpiry : let s : State := due [.gapExpiry 0] (queued live)
    ((run (.gapExpiry 0) { s with chip.hall.floor.gaps := tset s.chip.hall.floor.gaps 0 (some 0) }).chip.hall.run 2).state =
      .granting := by decide +kernel

/-- Unit 1 GRANTING, its window run down after `n` attempts. -/
def expired (n : Nat) (s : State) : State := { holding 1 .granting s with
  chip.hall.floor.runs := tset s.chip.hall.floor.runs 0
    { state := .granting, slot := some 0, attempts := n, grantTs := some 0, window := some 0 } }

theorem test_unitPlaced_restarts : (((expired 3 live).chip.hall.unitPlaced 1).run 1).window = some 1440 ∧
    let placed : State := { expired 3 live with chip.hall := (expired 3 live).chip.hall.unitPlaced 1 }
    ((run (.responseWindowExpiry 1) (due [.window 1] placed)).chip.hall.run 1).state = .granting := by decide +kernel
theorem test_window : ((run (.responseWindowExpiry 1) (due [.window 1] (expired 2 live))).chip.hall.run 1).attempts = 3 ∧
    ((run (.responseWindowExpiry 1) (due [.window 1] (expired 3 live))).chip.hall.run 1).state = .idle := by decide +kernel
theorem test_supervisionExpired : (run .supervisionExpired (due [.supervision] live)).chip.hall.cmd.mode = .safe ∧
    ((run .supervisionExpired (due [.supervision] (badSettings live))).chip.hall.settingsRecord 0).damaged = true := by
  decide +kernel
theorem test_storeComplete : (hallAfter (.storeComplete true) (busy (.store contents) config)).store.programming = none ∧
    tget (hallAfter (.storeComplete true) (busy (.store contents) config)).store.presets 3 = .valid contents ∧
    (hallAfter (.storeComplete false) (busy (.store contents) config)).cmd.deferred = some 3 := by decide +kernel
theorem test_eraseComplete : tget (hallAfter (.eraseComplete true) (busy .erase config)).store.presets 3 = .empty ∧
    (hallAfter (.eraseComplete false) (busy .erase config)).cmd.deferred = none := by decide +kernel
theorem test_micPress : ((run (.micPress 1) live).chip.hall.run 1).slot = some 0 ∧
    ((run (.micPress 2) (queued live)).chip.hall.run 2).state = .idle ∧
    ((run (.micPress 1) (holding 1 .speaking live)).chip.hall.run 1).state = .closing := by decide +kernel
theorem test_micPress_refused : ((run (.micPress 1) seated).chip.hall.run 1).indication = some .floorClosed ∧
    (run (.micPress 5) live).chip.hall.events.events[1]? = some ⟨.unknownUnit, 0, 5, 2, 0, 0⟩ ∧
    (run (.micPress 193) live).chip.ring.laneErrors = 1 := by decide +kernel
theorem test_priorityPress : ((run (.priorityPress 3) (holding 1 .speaking live)).chip.hall.run 1).state = .closing ∧
    ((run (.priorityPress 3) (holding 1 .speaking live)).chip.hall.run 3).state = .granting := by decide +kernel
theorem test_unitTaken : ((run (.unitTaken 1 0) (holding 1 .granting live)).chip.hall.run 1).state = .speaking ∧
    ((run (.unitTaken 1 1) (holding 1 .granting live)).chip.hall.run 1).state = .granting ∧
    (run (.unitTaken 1 16) live).chip.ring.laneErrors = 1 := by decide +kernel
theorem test_boothReport : ((run (.boothReport 208 2 255) (booths live)).chip.hall.boothRun 0).reported = .onAir ∧
    ((run (.boothReport 208 1 15) (booths live)).chip.hall.boothRun 0).relay = .booth 15 ∧
    (run (.boothReport 207 0 0) live).chip.ring.laneErrors = 1 ∧
    (run (.boothReport 208 0 16) live).chip.ring.laneErrors = 1 := by decide +kernel

/-! ## Hypotheses of the obligations, met -/

theorem witness_StepTakesFront :
    ({ config with pending := [.tick] } : State).pending = .tick :: [] ∧ config.pending = [] := ⟨rfl, rfl⟩
theorem witness_CommandsAreHandledInOrder :
    Instr.cell? (.grantFloor hd 1) = some (.command hd (.grantFloor 1)) ∧ Command.spelled (.grantFloor 1) = true ∧
      live.chip.Quiet ∧ live.chip.hall.cmd.replies.length < 8 := ⟨rfl, rfl, ⟨rfl, rfl⟩, by decide⟩
theorem witness_CommandsAreHandledInOrder_clauses :
    ({ live with chip.hall.cmd.deferred := some 15 } : State).chip.hall.cmd.deferred = some 15 ∧
      ({ live with chip.hall.cmd.groupFailed := true } : State).chip.hall.cmd.groupFailed = true ∧
      Command.code (.unknown 0x7F) ∉ catalogue ∧ Command.taken config.chip.hall.cmd.mode (.grantFloor 1) = false ∧
      Command.taken live.chip.hall.cmd.mode (.grantFloor 1) = true := by decide +kernel
theorem witness_CommandsAreTakenByMode :
    Instr.cell? (.grantFloor hd 1) = some (.command hd (.grantFloor 1)) ∧ Command.spelled (.grantFloor 1) = true ∧
      Command.code (.grantFloor 1) ∈ catalogue ∧ config.chip.Ready ∧ config.chip.hall.cmd.mode ∉ [Mode.live] := ⟨rfl, rfl, by decide, config_ready, by decide⟩
theorem witness_StatusReports :
    live.chip.Ready := live_ready
theorem witness_SetModeLiveByMode :
    config.chip.Ready ∧ (255 : Byte) ≠ 0 ∧ config.chip.hall.mem.damagedCount = 0 := ⟨config_ready, by decide, by decide +kernel⟩
theorem witness_SuperviseWrites :
    live.chip.Ready := live_ready
theorem witness_SetEventsWritesMask :
    live.chip.Ready := live_ready
theorem witness_SetTimingWrites :
    config.chip.Ready := config_ready
theorem witness_SetModeConfigByMode :
    live.chip.Ready ∧ live.chip.hall.mem.ReadsFindNothing := ⟨live_ready, live_reads⟩
theorem witness_SetModeConfigByMode_clauses :
    live.chip.hall.cmd.mode = .live ∧ live.chip.hall.part.repartition = .idle ∧ config.chip.hall.cmd.mode = .config := ⟨rfl, rfl, rfl⟩
theorem witness_SetModeConfigByMode_floor :
    0 ∈ (queued live).chip.hall.rooms ∧ (queued live).chip.hall.queue 0 = [2] ∧ (queued live).chip.hall.roomOfUnit 2 = 0 ∧
      ((holding 1 .granting live).chip.hall.run 1).state = .granting ∧
      ((holding 1 .speaking live).chip.hall.run 1).slot = some 0 ∧ live.chip.hall.known 1 = true := by decide +kernel
theorem witness_SetModeConfigByMode_pool :
    let low : State := { queued live with chip.hall.floor.poolFree := 23, chip.hall.floor.poolArmed := false }
    low.chip.hall.known 2 = true ∧ 1 ∉ low.chip.hall.rooms ∧
      (hallAfter (.setModeConfig hd) low).floor.poolFree = 24 ∧ (hallAfter (.setModeConfig hd) low).floor.poolArmed = true ∧
      (hallAfter (.setModeConfig hd) { low with chip.hall.floor.poolFree := 22 }).floor.poolArmed = false := by decide +kernel
theorem witness_EngineResetSetsUp :
    live.chip.Ready ∧ live.chip.hall.mem.ReadsFindNothing := ⟨live_ready, live_reads⟩
theorem witness_LoadDelegateWrites :
    (holding 1 .speaking live).chip.Ready ∧ (holding 1 .speaking live).chip.hall.mem.ReadsFindNothing := ⟨⟨⟨rfl, rfl⟩, by decide, rfl, rfl⟩, live_reads⟩
theorem witness_LoadDelegateWrites_inPlace :
    let h := (holding 1 .speaking live).chip.hall
    h.cmd.mode ≠ .safe ∧ (h.run 1).state ≠ .idle ∧ (h.record 1).damaged = false ∧ (h.record 1).value.sect = 0 ∧
      (h.record 1).value.role = .delegate ∧ (h.record 1).value.timeClass = 0 := by decide +kernel
theorem witness_RemoveDelegateClears :
    live.chip.Ready ∧ live.chip.hall.mem.ReadsFindNothing := ⟨live_ready, live_reads⟩
theorem witness_ReadsReport :
    live.chip.Ready ∧ live.chip.hall.mem.ReadsFindNothing := ⟨live_ready, live_reads⟩
theorem witness_ReadRoomReports :
    live.chip.Ready ∧ isRoomId live.chip.hall.part.inForce 0 = true ∧ isRoomId live.chip.hall.part.inForce 1 = false := ⟨live_ready, by decide, by decide⟩
theorem witness_SetTimeClassWrites :
    live.chip.Ready ∧ live.chip.hall.mem.ReadsFindNothing := ⟨live_ready, live_reads⟩
theorem witness_SetTimeClassWrites_clauses :
    live.chip.hall.cmd.mode ≠ .safe ∧ (3 : Byte).toNat ≤ 3 ∧ 3 < (4 : Byte).toNat ∧ live.chip.hall.timeClass 3 = ⟨0, 0⟩ := by decide +kernel
theorem witness_SetTimeClassWrites_test :
    let h := (holding 1 .speaking (badClass live)).chip.hall
    live.chip.hall.mem.ReadsFindNothing ∧ 1 ∈ units ∧ (h.run 1).state = .speaking ∧ h.known 1 = true ∧ h.isChair 1 = false ∧
      (h.timeClass 1).limit = 10 ∧ (h.timeClass 0).limit = 0 ∧ h.isChair 3 = true :=
  ⟨live_reads, by decide +kernel, by decide +kernel, by decide +kernel, by decide +kernel, by decide +kernel,
    by decide +kernel, by decide +kernel⟩
theorem witness_GrantFloorByCheck :
    live.chip.Ready ∧ live.chip.hall.mem.ReadsFindNothing := ⟨live_ready, live_reads⟩
theorem witness_GrantTakesLowestFreeSlot :
    let h : Hall := { live.chip.hall with slots.mics := tset (.replicate 24 (some 9)) 23 none }
    192 ∈ units ∧ 23 < 24 ∧ tget h.slots.mics 23 = none ∧ ∀ j < 23, tget h.slots.mics j ≠ none := by decide +kernel
theorem witness_CloseByState :
    1 ∈ units ∧ ((holding 1 .granting live).chip.hall.run 1).slot = some 0 ∧
      ((holding 1 .granting live).chip.hall.run 1).state = .granting ∧
      ((holding 1 .speaking live).chip.hall.run 1).slot = some 0 ∧
      ((holding 1 .speaking live).chip.hall.run 1).state = .speaking ∧
      ((holding 1 .closing live).chip.hall.run 1).slot = some 0 ∧ ((holding 1 .closing live).chip.hall.run 1).state = .closing := by decide +kernel
theorem witness_CloseFloorByState :
    live.chip.Ready ∧ live.chip.hall.mem.ReadsFindNothing := ⟨live_ready, live_reads⟩
theorem witness_ClearFloorByScope :
    live.chip.Ready := live_ready
theorem witness_ServiceGrantsFromHead :
    (queued live).chip.hall.mem.ReadsFindNothing ∧ (queued live).chip.hall.queue 0 = 2 :: [] ∧ 2 ∈ units ∧
      (queued live).chip.hall.roomOfUnit 2 = 0 := ⟨live_reads, by decide +kernel, by decide +kernel, by decide +kernel⟩
theorem witness_ServiceGrantsFromHead_serves :
    let h := (queued live).chip.hall
    (h.settings 0).floorMode = .queue ∧ h.gap 0 = none ∧ (h.positionHolders 0).length < (h.settings 0).maxSpeakers ∧
      none ∈ h.slots.mics.toList ∧ h.queue 7 = [] := by decide +kernel
theorem witness_ServiceGrantsFromHead_expiry :
    (due [.gapExpiry 7] live).chip.due = .gapExpiry 7 :: [] ∧ Due.rampStep ∉ ([] : List Due) := ⟨rfl, by decide⟩
theorem witness_ServiceGrantsFromHead_arbiter :
    let h := live.chip.hall
    let chairs := [3, 192]
    (slotsFull live).chip.hall.mem.ReadsFindNothing ∧ none ∉ (slotsFull live).chip.hall.slots.mics.toList ∧
      ({ h with floor.chairs := chairs } : Hall).mem.ReadsFindNothing ∧ none ∈ h.slots.mics.toList ∧
      ({ h with floor.chairs := chairs } : Hall).floor.chairs = 3 :: [192] ∧ h.floor.chairs = [] :=
  ⟨live_reads, by decide +kernel, live_reads, by decide +kernel, rfl, rfl⟩
theorem witness_SetSectionFloorWrites :
    live.chip.Ready ∧ live.chip.hall.mem.ReadsFindNothing := ⟨live_ready, live_reads⟩
theorem witness_SetSectionFloorWrites_clauses :
    7 < (8 : Byte).toNat ∧ live.chip.hall.cmd.mode ≠ .safe ∧ isRoomId live.chip.hall.part.inForce 7 = false ∧
      isRoomId live.chip.hall.part.inForce 0 = true := by decide +kernel
theorem witness_SetSectionFloorWrites_excess :
    let h := (withMode .queue 0 (holding 1 .speaking (holding 2 .granting live))).chip.hall
    h.excess 0 = [2, 1] ∧ (withMode .queue 1 (holding 1 .speaking (holding 2 .granting live))).chip.hall.excess 0 = [2] := by
  decide +kernel
theorem witness_SetSectionLevelsWrites :
    live.chip.Ready ∧ live.chip.hall.mem.ReadsFindNothing := ⟨live_ready, live_reads⟩
theorem witness_SetWallWrites :
    live.chip.Ready ∧ live.chip.hall.mem.ReadsFindNothing := ⟨live_ready, live_reads⟩
theorem witness_SetWallWrites_clauses :
    let force := fun (s : State) (w : Nat) => (s.chip.hall.writeOverride w .forceDeployed).wallsNow
    6 < (7 : Byte).toNat ∧ (6 : Byte).toNat ≤ 6 ∧ live.chip.hall.wallsNow = live.chip.hall.part.effective ∧
      force live 6 ≠ live.chip.hall.part.effective ∧ force live 6 ≠ live.chip.hall.part.inForce ∧
      live.chip.hall.part.repartition = .idle ∧ (fadingOut live).chip.hall.part.repartition ≠ .idle ∧
      force config 6 ≠ config.chip.hall.part.inForce := by decide +kernel
theorem witness_SetWallWrites_start :
    live.chip.hall.mem.ReadsFindNothing ∧ config.chip.hall.cmd.mode = .config := ⟨live_reads, rfl⟩
theorem witness_SetBoothWrites :
    live.chip.Ready ∧ live.chip.hall.mem.ReadsFindNothing := ⟨live_ready, live_reads⟩
theorem witness_SetBoothWrites_clauses :
    15 < (16 : Byte).toNat ∧ (booths live).chip.hall.effective 0 ≠ .off ∧ (booths live).chip.hall.effective 15 = .off ∧
      ((booths live).chip.hall.boothRecord 0).value = ⟨1, 0, 0⟩ ∧ ((booths live).chip.hall.boothRecord 0).damaged = false := by decide +kernel
theorem witness_SetHomePlanWrites :
    live.chip.Ready ∧ live.chip.hall.mem.ReadsFindNothing := ⟨live_ready, live_reads⟩
theorem witness_SetHomePlanWrites_clauses :
    let codes : Vector (BitVec 6) 8 := #v[1, 2, 3, 4, 5, 6, 7, 7]
    let l := codes.toList.map BitVec.toNat
    (List.range 7).find? (fun i => l.getD i 0 == 0) = none ∧
      (List.range 7).find? (fun i => (l.take i).contains (l.getD i 0)) = none ∧
      (List.range 8).find? (fun i => (l.take i).contains (l.getD i 0)) = some 7 ∧
      live.chip.hall.planOf 0 = live.chip.hall.plan 0 := by decide +kernel
theorem witness_PresetsAreProgrammed :
    config.chip.Ready ∧ config.chip.hall.mem.ReadsFindNothing := ⟨config_ready, config_reads⟩
theorem witness_ProgrammingEnds :
    (busy (.store contents) config).chip.hall.store.programming = some ⟨3, .store contents, 100⟩ ∧
      (busy .erase config).chip.hall.store.programming = some ⟨3, .erase, 100⟩ ∧
      (∀ q x m, (busy .erase config).chip.hall.store.programming ≠ some ⟨q, .store x, m⟩) ∧
      (∀ q m, config.chip.hall.store.programming ≠ some ⟨q, .erase, m⟩) :=
  ⟨rfl, rfl, fun _ _ _ h => by simp [busy] at h, fun _ _ h => nomatch h⟩
theorem witness_RecallPresetRewrites :
    (stored config).chip.Ready ∧ (stored config).chip.hall.mem.ReadsFindNothing ∧
      tget (stored config).chip.hall.store.presets 0 = .valid contents ∧ tget (stored config).chip.hall.store.presets 15 = .empty := ⟨⟨⟨rfl, rfl⟩, by decide, rfl, rfl⟩, config_reads, by decide +kernel, by decide +kernel⟩
theorem witness_UnprocessedFramesPass :
    State.reset.chip.due = [] ∧ ¬State.reset.chip.Processes (arrival foreign) ∧
      ¬config.chip.Processes { arrival foreign with gap := 1537 } := by
  simp only [Chip.Processes]
  decide +kernel
theorem witness_RingIsLostAndLocked :
    let s : State := { State.reset with chip.ring := ⟨.lost, 15, some 0, 0, 0⟩ }
    let a := arrival foreign
    s.chip.due = [] ∧ s.chip.Processes a ∧ s.chip.ring.lock ≠ .locked ∧ s.chip.hall.mem.ReadsFindNothing ∧ a.upsets = [] ∧
      a.cellFirst = true ∧ tget a.frame.lane 0 ≠ 0 ∧ tget a.frame.lane 1 ≠ 0xFE ∧ tget a.frame.lane 2 ≠ 0xFE := 
  ⟨rfl, ⟨fun _ => by decide, Or.inr (by decide)⟩, by decide, config_reads, rfl, rfl, by decide +kernel, by decide +kernel,
    by decide +kernel⟩
theorem witness_ProcessedFramesCount :
    config.chip.Processes { arrival foreign with gap := 1536 } ∧
      ∀ hd, decodeCell (arrival foreign).frame.lane ≠ some (.command hd .engineReset) := by
  have h : decodeCell (arrival foreign).frame.lane = none := by decide +kernel
  exact ⟨⟨fun _ => by decide, Or.inl rfl⟩, fun hd => by rw [h]; exact fun x => nomatch x⟩
theorem witness_SlotsAreWritten :
    config.chip.due = [] ∧ config.chip.Processes (arrival foreign) := ⟨rfl, fun _ => by decide, Or.inl rfl⟩
theorem witness_LaneCellsByCase :
    config.chip.Processes (arrival foreign) ∧
      (tget foreign 0 ≠ 0 ∧ tget foreign 1 ≠ 0xFE ∧ tget foreign 2 ≠ 0xFE) ∧ tget (Vector.replicate 16 (0 : Byte)) 0 = 0 ∧
      tget (encodeCell (.micPress 1)) 1 = 0xFE ∧ decodeCell (tset (encodeCell (.micPress 1)) 15 0) = none ∧
      decodeCell (encodeCell (.command hd (.status 0))) = some (.command hd (.status 0)) ∧
      8 ≤ (List.replicate 8 (⟨0, .check .floorFull 0⟩ : Reply)).length := ⟨⟨fun _ => by decide, Or.inl rfl⟩, by decide +kernel, by decide, by decide +kernel, by decide +kernel, by decide +kernel,
    by decide⟩
theorem witness_LaneCellsByCase_frame :
    let a := arrival foreign
    config.chip.Processes a ∧ config.chip.due = [] ∧ a.upsets = [] ∧ config.chip.hall.mem.ReadsFindNothing :=
  ⟨⟨fun _ => by decide, Or.inl rfl⟩, rfl, rfl, config_reads⟩
theorem witness_LaneCellsByCase_good :
    decodeCell (encodeCell (.micPress 1)) = some (.micPress 1) ∧ Instr.cell? (.micPress 1) = some (.micPress 1) ∧
      ∃ t, exec (.micPress 1) (config.withChip (config.chip.processed (arrival foreign))) = .next t :=
  ⟨by decide +kernel, rfl, _, rfl⟩
theorem witness_ArbiterServesInOrder :
    live.chip.hall.mem.ReadsFindNothing ∧ ∀ u ∈ units, tget live.chip.hall.floor.dirty (u - 1) = false := ⟨live_reads, by decide +kernel⟩
theorem witness_ArbiterServesInOrder_clauses :
    let d : Vector Bool 192 := tset (tset (.replicate 192 false) 0 true) 191 true
    192 ∈ units ∧ tget d (192 - 1) = true ∧ (∀ v ∈ units, tget d (v - 1) = true → 1 < v → 192 ≤ v) ∧
      (∀ v ∈ units, tget d (v - 1) = true → v ≤ 192 ∧ 1 ≤ v) ∧ tget live.chip.hall.router.boothDirty 0 = true ∧
      tget live.chip.hall.router.channelDirty 0 = true ∧ live.chip.hall.events.events = restartedEvent 0 :: [] := by decide +kernel
theorem witness_ArbiterServesInOrder_cells : 1 ∈ units ∧ 192 ∈ units ∧ 15 < 16 ∧ 7 < 8 ∧ 8 < 9 := by decide +kernel
theorem witness_StepsNotDueChangeNothing :
    Due.rampStep ∉ config.chip.due ∧ Due.tick ∉ config.chip.due ∧ Due.wallFlip 6 ∉ config.chip.due := by decide
theorem witness_RampStepMovesGains :
    (due [.rampStep, .tick] live).chip.due = .rampStep :: [.tick] := rfl
theorem witness_TickCounts :
    (due [.tick] live).chip.due = .tick :: [] ∧ Due.rampStep ∉ ([] : List Due) := ⟨rfl, by decide⟩
theorem witness_SecondCountsAndTests :
    (due [.second] live).chip.due = .second :: [] ∧ Due.rampStep ∉ ([] : List Due) := ⟨rfl, by decide⟩
theorem witness_SecondCountsAndTests_test :
    live.chip.hall.mem.ReadsFindNothing ∧ 192 ∈ units ∧ (live.chip.hall.timeClass 0).limit < 4096 := ⟨live_reads, by decide +kernel, by decide +kernel⟩
theorem witness_ScansDebounceWalls :
    (due [.scan] live).chip.due = .scan :: [] ∧ (due [.wallFlip 6] live).chip.due = .wallFlip 6 :: [] ∧
      Due.rampStep ∉ ([] : List Due) ∧ (due [.scan] live).chip.hall.mem.ReadsFindNothing := ⟨rfl, rfl, by decide, live_reads⟩
theorem witness_PartitionChangeRegroups :
    (due [.partitionChange] (fadingOut live)).chip.due = .partitionChange :: [] ∧ Due.rampStep ∉ ([] : List Due) ∧
      (fadingOut live).chip.hall.mem.ReadsFindNothing ∧
      (fadingOut live).chip.hall.part.repartition = .fadingOut target [0, 1, 2, 3, 4, 5, 6, 7] := ⟨rfl, by decide, live_reads, rfl⟩
theorem witness_PartitionChangeRegroups_none :
    live.chip.hall.part.repartition = .idle := rfl
theorem witness_RepartitionDoneEnds :
    (due [.repartitionDone] (fadingIn live)).chip.due = .repartitionDone :: [] ∧ Due.rampStep ∉ ([] : List Due) ∧
      (fadingIn live).chip.hall.mem.ReadsFindNothing ∧
      (fadingIn live).chip.hall.part.repartition = .fadingIn target [0, 1, 2, 3, 4, 5, 6, 7] ∧
      (fadingIn live).chip.hall.cmd.requested = .live ∧ (fadingIn live).chip.hall.cmd.mode = .live := ⟨rfl, by decide, live_reads, rfl, rfl, rfl⟩
theorem witness_RepartitionDoneEnds_clauses :
    let asked : State := { fadingIn live with chip.hall.cmd.requested := .config }
    let moved : State := { fadingIn live with chip.hall.part.effective := live.chip.hall.part.inForce }
    asked.chip.hall.cmd.requested = .config ∧ asked.chip.hall.cmd.mode = .live ∧
      moved.chip.hall.part.effective ≠ moved.chip.hall.part.inForce ∧
      (fadingIn live).chip.hall.part.effective = (fadingIn live).chip.hall.part.inForce ∧
      (inMode .stopping (fadingIn live)).chip.hall.cmd.mode = .stopping ∧ live.chip.hall.part.repartition = .idle := by decide +kernel
theorem witness_StoppingEnds :
    (due [.stopping] (inMode .stopping live)).chip.due = .stopping :: [] ∧ Due.rampStep ∉ ([] : List Due) ∧
      ([] : List Due).any Chip.isCloseEnd = false ∧ (inMode .stopping live).chip.hall.mem.ReadsFindNothing := ⟨rfl, by decide, rfl, live_reads⟩
theorem witness_StoppingEnds_clauses :
    let h := (inMode .stopping live).chip.hall
    h.cmd.mode = .stopping ∧ (∀ u ∈ units, (h.run u).state ∉ [FloorState.granting, .speaking, .closing]) ∧
      (∀ i < 72, (tget h.gains.rooms i).current = 128) ∧ (∀ b < 16, (tget h.gains.booths b).current = 128) ∧
      ((holding 1 .closing live).chip.hall.run 1).state = .closing := by decide +kernel
theorem witness_StoppingEnds_change :
    let h : Hall := { (inMode .stopping live).chip.hall with part.effective := target }
    h.part.effective ≠ h.part.inForce ∧ h.part.repartition = .idle ∧ h.mem.ReadsFindNothing :=
  ⟨by decide +kernel, rfl, live_reads⟩
theorem witness_CloseEndsFreeTheSlot :
    let s : State := due [.closeEnd 192] { live with
      chip.hall.floor.runs := tset live.chip.hall.floor.runs 191 { state := .closing, slot := some 23, reason := some .unit } }
    s.chip.due = .closeEnd 192 :: [] ∧ Due.rampStep ∉ ([] : List Due) ∧ 192 ∈ units ∧ s.chip.hall.mem.ReadsFindNothing ∧
      (s.chip.hall.run 192).state = .closing ∧ (s.chip.hall.run 192).slot = some 23 ∧ (s.chip.hall.run 192).reason = some .unit ∧
      (live.chip.hall.run 192).state ≠ .closing := 
  ⟨rfl, by decide, by decide +kernel, live_reads, by decide +kernel, by decide +kernel, by decide +kernel, by decide +kernel⟩
theorem witness_ResponseWindowsExpire :
    let s := due [.window 1] (expired 3 live)
    s.chip.due = .window 1 :: [] ∧ Due.rampStep ∉ ([] : List Due) ∧ 1 ∈ units ∧ s.chip.hall.mem.ReadsFindNothing ∧
      (s.chip.hall.run 1).state = .granting ∧ (s.chip.hall.run 1).window = some 0 ∧ 3 ≤ (s.chip.hall.run 1).attempts ∧
      (s.chip.hall.run 1).slot = some 0 ∧ ((expired 2 live).chip.hall.run 1).attempts < 3 ∧ (live.chip.hall.run 1).window = none := 
  ⟨rfl, by decide, by decide +kernel, live_reads, by decide +kernel, by decide +kernel, by decide +kernel, by decide +kernel,
    by decide +kernel, by decide +kernel⟩
theorem witness_SupervisionExpires :
    (due [.supervision] live).chip.due = .supervision :: [] ∧ Due.rampStep ∉ ([] : List Due) := ⟨rfl, by decide⟩
theorem witness_MicPressByState :
    live.chip.Quiet ∧ live.chip.hall.mem.ReadsFindNothing ∧ live.chip.hall.known 1 = true ∧ live.chip.hall.known 192 = false ∧
      live.chip.hall.isChair 1 = false := ⟨⟨rfl, rfl⟩, live_reads, by decide +kernel, by decide +kernel, by decide +kernel⟩
theorem witness_MicPressByState_queue :
    1 ∈ units ∧ 192 ∈ units ∧ 2 ∈ (queued live).chip.hall.queue 0 ∧ (queued live).chip.hall.roomOfUnit 2 = 0 ∧
      192 ∉ (queued live).chip.hall.queue ((queued live).chip.hall.roomOfUnit 192) := by decide +kernel
theorem witness_ChairPriorityActsInOrder :
    live.chip.Quiet ∧ live.chip.hall.mem.ReadsFindNothing ∧ 1 ≤ (3 : Byte).toNat ∧ (3 : Byte).toNat ≤ 192 ∧
      live.chip.hall.known 3 = true ∧ live.chip.hall.isChair 3 = true := ⟨⟨rfl, rfl⟩, live_reads, by decide, by decide, by decide +kernel, by decide +kernel⟩
theorem witness_UnitTakenOpensMicrophone :
    (holding 1 .granting live).chip.Quiet ∧ (holding 1 .granting live).chip.hall.mem.ReadsFindNothing ∧
      ((holding 1 .granting live).chip.hall.run 1).grantId.toNat = (0 : Byte).toNat := ⟨⟨rfl, rfl⟩, live_reads, by decide +kernel⟩
theorem witness_BoothReportsAreHandled :
    (booths live).chip.Quiet ∧ (booths live).chip.hall.mem.ReadsFindNothing ∧
      ((booths live).chip.hall.boothRecord 15).damaged = false ∧ ((booths live).chip.hall.boothRun 15).relay = .floor ∧
      (booths live).chip.hall.roomOfBooth 15 = (booths live).chip.hall.roomOfBooth 0 ∧
      ((booths live).chip.hall.booth 0).language ≠ 0 ∧ ((booths live).chip.hall.booth 15).language = 0 := ⟨⟨rfl, rfl⟩, reads_of_sound (by decide +kernel), by decide +kernel, by decide +kernel, by decide +kernel, by decide +kernel,
    by decide +kernel⟩
theorem witness_BoothReportsAreHandled_claims :
    let h := live.chip.hall
    let full : Hall := { h with slots.pool := .replicate 88 (some (.feed 0)) }
    (0 < 88 ∧ tget h.slots.pool 0 = none) ∧ (∀ i < 88, tget full.slots.pool i ≠ none) ∧
      (0 < 88 ∧ tget full.slots.pool 0 = some (.feed 0)) ∧ (∀ i < 88, tget h.slots.pool i ≠ some (.feed 0)) ∧
      (tget (tset full.slots.pool 87 none) 87 = none ∧ ∀ j < 87, tget (tset full.slots.pool 87 none) j ≠ none) := by
  decide +kernel
theorem witness_ReadsFindErrors :
    let s := fun (e : MemErr) => ({ live with
      chip.hall.mem.delegates := tset live.chip.hall.mem.delegates 191 ⟨{}, false, e⟩ } : State)
    (s .correctable).chip.Ready ∧ (s .correctable).chip.hall.record 192 = ⟨{}, false, .correctable⟩ ∧
      (s .uncorrectable).chip.hall.record 192 = ⟨{}, false, .uncorrectable⟩ ∧
      ((s .uncorrectable).chip.hall.run 192).state = .idle := 
  ⟨⟨⟨rfl, rfl⟩, by decide, rfl, rfl⟩, by decide +kernel, by decide +kernel, by decide +kernel⟩
theorem witness_ReadsFindErrors_booth :
    let s : State := { live with chip.hall.mem.booths := tset live.chip.hall.mem.booths 15 ⟨{}, false, .uncorrectable⟩ }
    s.chip.Ready ∧ s.chip.hall.cmd.mode = .live ∧ s.chip.hall.boothRecord 15 = ⟨{}, false, .uncorrectable⟩ := 
  ⟨⟨⟨rfl, rfl⟩, by decide, rfl, rfl⟩, rfl, by decide +kernel⟩
/-- In every table a record with an error, and memory without another one once it is marked. -/
theorem witness_ReadsFindErrors_tables :
    let m := live.chip.hall.mem
    let h := fun (x : TableMemory) => ({ live.chip.hall with mem := x } : Hall)
    192 ∈ units ∧ 7 < 8 ∧ 15 < 16 ∧ 3 < 4 ∧ 6 < 7 ∧ MemErr.correctable ≠ .sound ∧ MemErr.uncorrectable ≠ .sound ∧
    (h { m with delegates := tset m.delegates 191 ⟨{}, false, .correctable⟩ }).record 192 = ⟨{}, false, .correctable⟩ ∧
    (h { m with settings := tset m.settings 7 ⟨{}, false, .uncorrectable⟩ }).settingsRecord 7 = ⟨{}, false, .uncorrectable⟩ ∧
    (h { m with plans := tset m.plans 7 ⟨[1], false, .uncorrectable⟩ }).planRecord 7 = ⟨[1], false, .uncorrectable⟩ ∧
    (h { m with booths := tset m.booths 15 ⟨{}, false, .uncorrectable⟩ }).boothRecord 15 = ⟨{}, false, .uncorrectable⟩ ∧
    (h { m with classes := tset m.classes 3 ⟨{}, false, .uncorrectable⟩ }).classRecord 3 = ⟨{}, false, .uncorrectable⟩ ∧
    (h { m with overrides := tset m.overrides 6 ⟨.follow, false, .uncorrectable⟩ }).overrideRecord 6 =
      ⟨.follow, false, .uncorrectable⟩ := by decide +kernel
theorem witness_ReadsFindErrors_marked :
    let m := live.chip.hall.mem
    ({ m with delegates := tset m.delegates 191 ⟨{}, true, .uncorrectable⟩ } : TableMemory).ReadsFindNothing ∧
    ({ m with settings := tset m.settings 7 ⟨{}, true, .uncorrectable⟩ } : TableMemory).ReadsFindNothing ∧
    ({ m with plans := tset m.plans 7 ⟨[1], true, .uncorrectable⟩ } : TableMemory).ReadsFindNothing ∧
    ({ m with booths := tset m.booths 15 ⟨{}, true, .uncorrectable⟩ } : TableMemory).ReadsFindNothing ∧
    ({ m with classes := tset m.classes 3 ⟨{}, true, .uncorrectable⟩ } : TableMemory).ReadsFindNothing ∧
    ({ m with overrides := tset m.overrides 6 ⟨.follow, true, .uncorrectable⟩ } : TableMemory).ReadsFindNothing :=
  ⟨reads_of_sound (by decide +kernel), reads_of_sound (by decide +kernel), reads_of_sound (by decide +kernel),
    reads_of_sound (by decide +kernel), reads_of_sound (by decide +kernel), reads_of_sound (by decide +kernel)⟩
theorem witness_EventsAreQueued :
    let q : EventQueue := ⟨[], 0x01, false, 0⟩
    q.passes .granted = true ∧ q.passes .closed = true ∧ q.passes .wallChanged = false ∧ q.passes .eventsLost = true ∧
      (List.replicate 63 (restartedEvent 0)).length < 64 ∧ (List.replicate 62 (restartedEvent 0)).length ≤ 62 := by decide
theorem witness_RoomsOfPartitions :
    7 ∈ roomIds target ∧ roomOf target 6 = 0 ∧ roomOf target 7 = 7 ∧ unchangedRoom target target 7 = true := by decide
theorem witness_CellsDecodeToTheirMessages :
    InCell.spelled (.boothReport 223 2 255) = true ∧ InCell.spelled (.command hd (.setModeLive 255)) = true := by decide
theorem witness_StepKeepsBounds :
    config.chip.CountersInRange ∧ config.chip.QueuesBounded ∧ config.chip.OutputsInRange ∧ step config = .next config :=
  ⟨by simp only [Chip.CountersInRange]; decide, by simp only [Chip.QueuesBounded]; decide,
    by simp only [Chip.OutputsInRange, IsSample]; decide +kernel, rfl⟩

end Sys2Proof.Tests
end

/-! SUPPORT. O55: the room of a section as a run of stowed walls, the room ids and their number (R9), when two partitions
have a room in common (R10), and the bits of the one-byte maps (R130). -/

namespace Sys2Proof.Machine

/-! ## The rooms of one partition (R9) -/

/-- A wall state is decided by whether it is STOWED. -/
theorem wallState_eq_of_stowed_iff {x y : WallState} (h : x = .stowed ↔ y = .stowed) : x = y := by
  cases x with
  | stowed => exact (h.mp rfl).symm
  | deployed =>
    cases y with
    | stowed => exact h.mpr rfl
    | deployed => rfl

/-- The section behind wall `w` starts a room exactly when the wall is DEPLOYED. -/
theorem isRoomId_succ (p : Partition) {w : Nat} (hw : w < 7) : isRoomId p (w + 1) = (tget p w == .deployed) := by
  simp [isRoomId]
  omega

theorem isRoomId_iff {p : Partition} {r : Nat} :
    isRoomId p r = true ↔ r = 0 ∨ (1 ≤ r ∧ r ≤ 7 ∧ tget p (r - 1) = .deployed) := by
  cases r with
  | zero => simp [isRoomId]
  | succ s =>
    simp [isRoomId]
    omega

@[simp] theorem roomOf_zero (p : Partition) : roomOf p 0 = 0 := rfl

theorem roomOf_succ_of_stowed {p : Partition} {s : Nat} (h : tget p s = .stowed) : roomOf p (s + 1) = roomOf p s :=
  if_pos h

theorem roomOf_succ_of_deployed {p : Partition} {s : Nat} (h : tget p s = .deployed) : roomOf p (s + 1) = s + 1 :=
  if_neg (by simp [h])

theorem roomOf_le (p : Partition) (s : Nat) : roomOf p s ≤ s := by
  induction s with
  | zero => simp
  | succ s ih =>
    cases h : tget p s with
    | stowed => rw [roomOf_succ_of_stowed h]; omega
    | deployed => rw [roomOf_succ_of_deployed h]

/-- The wall between two sections is STOWED exactly when they share a room. -/
theorem roomOf_succ_eq_roomOf_iff {p : Partition} {s : Nat} :
    roomOf p (s + 1) = roomOf p s ↔ tget p s = .stowed := by
  cases h : tget p s with
  | stowed => simp [roomOf_succ_of_stowed h]
  | deployed =>
    have := roomOf_le p s
    simp [roomOf_succ_of_deployed h]; omega

/-- A section starts a room exactly when the wall before it is DEPLOYED. -/
theorem roomOf_succ_eq_self_iff {p : Partition} {s : Nat} : roomOf p (s + 1) = s + 1 ↔ tget p s = .deployed := by
  cases h : tget p s with
  | stowed =>
    have := roomOf_le p s
    simp [roomOf_succ_of_stowed h]; omega
  | deployed => simp [roomOf_succ_of_deployed h]

/-- A section that is not the first of room `r` belongs to it by a STOWED wall from the section before. -/
theorem roomOf_succ_eq_iff_of_ne {p : Partition} {r s : Nat} (hr : r ≠ s + 1) :
    roomOf p (s + 1) = r ↔ tget p s = .stowed ∧ roomOf p s = r := by
  cases h : tget p s with
  | stowed => simp [roomOf_succ_of_stowed h]
  | deployed => simp [roomOf_succ_of_deployed h, hr.symm]

/-- A room id is the room of its own section. -/
theorem roomOf_self_of_isRoomId {p : Partition} {r : Nat} (h : isRoomId p r = true) : roomOf p r = r := by
  obtain rfl | ⟨h1, -, hd⟩ := isRoomId_iff.mp h
  · rfl
  · obtain ⟨s, rfl⟩ := Nat.exists_eq_add_of_le' h1
    exact roomOf_succ_of_deployed hd

/-- The room of `s` is the start of the run of STOWED walls that ends at `s`. -/
theorem roomOf_eq_iff (p : Partition) (r s : Nat) : roomOf p s = r ↔
    (r = 0 ∨ tget p (r - 1) = .deployed) ∧ r ≤ s ∧ ∀ w, r ≤ w → w < s → tget p w = .stowed := by
  induction s with
  | zero =>
    constructor
    · rintro rfl
      simp
    · rintro ⟨-, hr, -⟩
      simp; omega
  | succ s ih =>
    by_cases hr : r = s + 1
    · subst hr
      have none_between : ∀ w, s + 1 ≤ w → w < s + 1 → tget p w = .stowed := by omega
      rw [roomOf_succ_eq_self_iff]
      exact ⟨fun hd => ⟨.inr hd, le_rfl, none_between⟩, fun ⟨hid, _, _⟩ => hid.resolve_left (Nat.succ_ne_zero s)⟩
    · rw [roomOf_succ_eq_iff_of_ne hr, ih]
      constructor
      · rintro ⟨hs, hid, hle, hrun⟩
        refine ⟨hid, by omega, fun w hrw hws => ?_⟩
        obtain hlt | rfl : w < s ∨ w = s := by omega
        · exact hrun w hrw hlt
        · exact hs
      · rintro ⟨hid, hle, hrun⟩
        exact ⟨hrun s (by omega) (by omega), hid, by omega, fun w hrw hws => hrun w hrw (by omega)⟩

/-- The list of a table's entries, in the order of their numbers. -/
theorem toList_eq_map_tget {α : Type} [Inhabited α] {n : Nat} (t : Vector α n) :
    t.toList = (List.range n).map (tget t) := by
  have h : tmake n (tget t) = t := table_ext fun i hi => tget_tmake_of_lt (tget t) hi
  rw [← congrArg Vector.toList h]
  rfl

/-- A partition with k DEPLOYED walls has k + 1 rooms: one for section 0 and one for each of these walls. -/
theorem length_roomIds (p : Partition) : (roomIds p).length = p.toList.count .deployed + 1 := by
  have starts : ∀ w ∈ List.range 7, isRoomId p (w + 1) = (tget p w == .deployed) :=
    fun _ hw => isRoomId_succ p (List.mem_range.mp hw)
  calc (roomIds p).length
      = ((List.range 7).filter (fun w => isRoomId p (w + 1))).length + 1 := by
        rw [roomIds, sections, List.range_succ_eq_map, List.filter_cons_of_pos (by simp [isRoomId]), List.filter_map]
        simp [Function.comp_def]
    _ = ((List.range 7).filter (fun w => tget p w == .deployed)).length + 1 := by rw [List.filter_congr starts]
    _ = p.toList.count .deployed + 1 := by
        rw [toList_eq_map_tget, List.count, List.countP_map, List.countP_eq_length_filter]
        rfl

/-! ## Rooms of two partitions (R10) -/

/-- The sections of room `r` are the same in both partitions exactly when every section has this room in both or in none. -/
theorem sectionsOf_eq_iff {p q : Partition} {r : Nat} :
    sectionsOf p r = sectionsOf q r ↔ ∀ s < 8, (roomOf p s = r ↔ roomOf q s = r) := by
  constructor
  · intro h s hs
    have : s ∈ sectionsOf p r ↔ s ∈ sectionsOf q r := by rw [h]
    simpa [sectionsOf, sections, hs] using this
  · intro h
    refine List.filter_congr fun s hs => ?_
    simp [h s (List.mem_range.mp hs)]

theorem unchangedRoom_iff {p q : Partition} {r : Nat} : unchangedRoom p q r = true ↔
    isRoomId p r = true ∧ isRoomId q r = true ∧ ∀ s < 8, (roomOf p s = r ↔ roomOf q s = r) := by
  simp [unchangedRoom, sectionsOf_eq_iff, and_assoc]

/-- A wall at the room `r` is STOWED exactly when the sections on both its sides are of this room. -/
theorem stowed_iff_both_sides {p : Partition} {r w : Nat} (touches : roomOf p w = r ∨ roomOf p (w + 1) = r) :
    tget p w = .stowed ↔ roomOf p w = r ∧ roomOf p (w + 1) = r := by
  rw [← roomOf_succ_eq_roomOf_iff]
  omega

/-- A room with the same sections in both partitions has the same walls in both. -/
theorem walls_eq_of_same_sections {p q : Partition} {r : Nat} (same : ∀ s < 8, (roomOf p s = r ↔ roomOf q s = r))
    {w : Nat} (hw : w < 7) (touches : roomOf p w = r ∨ roomOf p (w + 1) = r) : tget q w = tget p w := by
  have left := same w (by omega)
  have right := same (w + 1) (by omega)
  apply wallState_eq_of_stowed_iff
  rw [stowed_iff_both_sides touches, stowed_iff_both_sides (left.or right |>.mp touches), left, right]

/-- Where the walls at room `r` of `p` are the same in `q`, `r` is a room id of `q` also. -/
theorem isRoomId_of_walls_eq {p q : Partition} {r : Nat} (hr : isRoomId p r = true)
    (walls : ∀ w < 7, roomOf p w = r ∨ roomOf p (w + 1) = r → tget q w = tget p w) : isRoomId q r = true := by
  obtain rfl | ⟨h1, h7, hd⟩ := isRoomId_iff.mp hr
  · rfl
  · have touches : roomOf p (r - 1 + 1) = r := by rw [Nat.sub_add_cancel h1, roomOf_self_of_isRoomId hr]
    exact isRoomId_iff.mpr (.inr ⟨h1, h7, (walls (r - 1) (by omega) (.inr touches)).trans hd⟩)

/-- Where the walls at room `r` of `p` are the same in `q`, it has the same sections in both: from its first section on,
each next section is joined or cut off by the same wall. -/
theorem same_sections_of_walls_eq {p q : Partition} {r : Nat} (hr : isRoomId p r = true)
    (walls : ∀ w < 7, roomOf p w = r ∨ roomOf p (w + 1) = r → tget q w = tget p w) :
    ∀ s < 8, (roomOf p s = r ↔ roomOf q s = r) := by
  intro s
  induction s with
  | zero => simp
  | succ s ih =>
    intro hs
    by_cases hrs : r = s + 1
    · subst hrs
      simp [roomOf_self_of_isRoomId hr, roomOf_self_of_isRoomId (isRoomId_of_walls_eq hr walls)]
    · rw [roomOf_succ_eq_iff_of_ne hrs, roomOf_succ_eq_iff_of_ne hrs, ← ih (by omega)]
      refine and_congr_left fun before => ?_
      rw [walls s (by omega) (.inl before)]

/-- A room is unchanged exactly when no wall within it or at its ends differs. -/
theorem unchangedRoom_iff_walls_eq {p q : Partition} {r : Nat} (hr : isRoomId p r = true) :
    unchangedRoom p q r = true ↔
      ∀ w < 7, roomOf p w = r ∨ roomOf p (w + 1) = r → tget q w = tget p w := by
  rw [unchangedRoom_iff]
  constructor
  · rintro ⟨-, -, same⟩ w hw
    exact walls_eq_of_same_sections same hw
  · intro walls
    exact ⟨hr, isRoomId_of_walls_eq hr walls, same_sections_of_walls_eq hr walls⟩

theorem changedSections_eq (p q : Partition) :
    changedSections p q = (List.range 8).filter (fun s => unchangedRoom p q (roomOf p s) = false) :=
  List.filter_congr fun s _ => by cases unchangedRoom p q (roomOf p s) <;> rfl

/-! ## The one-byte maps (R130) -/

/-- The byte of 2 to the power `w` has the bit `w` alone. -/
theorem getLsbD_ofNat_two_pow {w s : Nat} (hs : s < 8) : (BitVec.ofNat 8 (2 ^ w)).getLsbD s = decide (w = s) := by
  rw [BitVec.getLsbD_ofNat, Nat.testBit_two_pow, decide_eq_true hs, Bool.true_and]

/-- A byte with the bits of the listed numbers that meet `c` set. -/
theorem getLsbD_foldl_setBit (c : Nat → Prop) [DecidablePred c] (l : List Nat) (b : Byte) {s : Nat} (hs : s < 8) :
    (l.foldl (fun b w => if c w then b ||| BitVec.ofNat 8 (2 ^ w) else b) b).getLsbD s =
      (b.getLsbD s || decide (s ∈ l ∧ c s)) := by
  induction l generalizing b with
  | nil => simp
  | cons w l ih =>
    have first : (if c w then b ||| BitVec.ofNat 8 (2 ^ w) else b).getLsbD s =
        (b.getLsbD s || decide (s = w ∧ c s)) := by
      by_cases hc : c w
      · rw [if_pos hc, BitVec.getLsbD_or, getLsbD_ofNat_two_pow hs]
        obtain rfl | hsw := eq_or_ne s w
        · simp [hc]
        · simp [hsw, hsw.symm]
      · obtain rfl | hsw := eq_or_ne s w
        · simp [hc]
        · simp [hc, hsw]
    rw [List.foldl_cons, ih, first, Bool.or_assoc]
    simp [or_and_right]

theorem wallMap_getLsbD (p : Partition) {w : Nat} (hw : w < 8) :
    (wallMap p).getLsbD w = decide (w < 7 ∧ tget p w = .deployed) := by
  rw [wallMap, getLsbD_foldl_setBit (fun w => tget p w = .deployed) _ _ hw]
  simp

theorem sectionMap_getLsbD (ss : List Nat) {s : Nat} (hs : s < 8) :
    (sectionMap ss).getLsbD s = decide (s ∈ ss) := by
  rw [sectionMap, getLsbD_foldl_setBit (fun s => ss.contains s = true) _ _ hs]
  simp [sections, hs]

/-! ## The obligation -/

/-- Settles O55, from the laws of R9 (`roomOf_eq_iff`, `isRoomId_iff`, `length_roomIds`), of R10
(`unchangedRoom_iff_walls_eq`) and of R130. -/
theorem roomsOfPartitions : Obligations.RoomsOfPartitions :=
  ⟨fun p r s _ => roomOf_eq_iff p r s,
    fun _ _ => mem_roomIds.trans isRoomId_iff,
    fun _ _ _ hr => unchangedRoom_iff_walls_eq (mem_roomIds.mp hr),
    changedSections_eq,
    length_roomIds,
    fun p _ hw => wallMap_getLsbD p hw,
    fun ss _ hs => sectionMap_getLsbD ss hs⟩

end Sys2Proof.Machine

/-! SUPPORT. O13 and O17: what REMOVE DELEGATE (R21) and GRANT FLOOR (R33) do where reads find nothing. Both rules leave the
supervision window alone, so the row of either answers as if the rule ran on the hall before the window's restart (R143). -/

namespace Sys2Proof.Machine

/-! ## The supervision window (R143) -/

namespace Hall

/-- The hall with another supervision window. -/
def withWindow (w : Nat) (h : Hall) : Hall := { h with cmd.supervision.window := w }

@[simp] theorem withWindow_freeMic (w : Nat) (h : Hall) : (h.withWindow w).freeMic = h.freeMic := rfl

/-- A series of steps that do not see the window does not see it. -/
theorem each_withWindow {α : Type} {f : α → Hall → Hall} {w : Nat}
    (hf : ∀ a h, f a (h.withWindow w) = (f a h).withWindow w) (l : List α) (h : Hall) :
    (h.withWindow w).each l f = (h.each l f).withWindow w := by
  unfold each
  induction l generalizing h with
  | nil => rfl
  | cons a l ih => rw [List.foldl_cons, List.foldl_cons, hf, ih]

/-- A queued unit leaves its place to the units behind it, which are marked, and its pool entry (R23). -/
theorem leaveQueue_of_mem {u : Nat} {h : Hall} (hq : u ∈ h.queue (h.roomOfUnit u)) :
    h.leaveQueue u = ((h.setQueue (h.roomOfUnit u) ((h.queue (h.roomOfUnit u)).erase u)).poolGive 1).each
      ((h.queue (h.roomOfUnit u)).drop ((h.queue (h.roomOfUnit u)).idxOf u + 1)) mark := if_pos hq

theorem leaveQueue_of_notMem {u : Nat} {h : Hall} (hq : u ∉ h.queue (h.roomOfUnit u)) : h.leaveQueue u = h := if_neg hq

theorem leaveQueue_withWindow (w u : Nat) (h : Hall) :
    (h.withWindow w).leaveQueue u = (h.leaveQueue u).withWindow w := by
  by_cases hq : u ∈ h.queue (h.roomOfUnit u)
  · rw [leaveQueue_of_mem hq, ← each_withWindow (f := mark) (fun _ _ => rfl)]
    exact leaveQueue_of_mem (h := h.withWindow w) hq
  · rw [leaveQueue_of_notMem hq, leaveQueue_of_notMem (h := h.withWindow w) hq]

theorem leaveQueue_cmd (u : Nat) (h : Hall) : (h.leaveQueue u).cmd = h.cmd := by
  by_cases hq : u ∈ h.queue (h.roomOfUnit u)
  · rw [leaveQueue_of_mem hq]
    exact each_keeps (P := fun g => g.cmd = h.cmd) (fun _ _ hg => hg) rfl
  · rw [leaveQueue_of_notMem hq]

theorem grant_withWindow (w u : Nat) (h : Hall) : (h.withWindow w).grant u = (h.grant u).withWindow w := by
  simp only [grant, withWindow_freeMic]
  split
  · rfl
  · rw [leaveQueue_withWindow]
    rfl

/-- A grant leaves the Command Processor alone. -/
theorem grant_cmd (u : Nat) (h : Hall) : (h.grant u).cmd = h.cmd := by
  unfold grant
  split
  · rfl
  · exact leaveQueue_cmd u h

end Hall

/-- On hall `h` the rule `f` of a command leaves the Command Processor to the answer, and acts alike with any supervision
window. -/
structure Hall.WindowFree (f : Hall → Hall × Answer) (h : Hall) : Prop where
  cmd    : (f h).1.cmd = h.cmd
  window : ∀ w, f (h.withWindow w) = (f h).map (withWindow w) id

/-- The row of a taken command whose rule does not see the window: the rule acts on the hall as it stands, and its answer
restarts the window (R133, R143). -/
theorem Chip.commandRow_of_windowFree {hd : Hdr} {x : Command} {c : Chip} {f : Hall → Hall × Answer} (hr : c.Ready)
    (hs : x.spelled = true) (ht : Command.taken c.hall.cmd.mode x = true) (he : x ≠ .engineReset)
    (hx : c.restartWindow.run reader x = c.restartWindow.onHall f) (hf : Hall.WindowFree f c.hall) :
    c.commandRow hd x = { c with hall := (f c.hall).1 }.answered hd (f c.hall).2 := by
  have hw : f c.restartWindow.hall = (f c.hall).map (Hall.withWindow (10 * c.hall.cmd.supervision.timeout)) id :=
    hf.window _
  rw [commandRow_of_taken hr hs ht he, hx, onHall, hw]
  simp [answer, answered, Hall.withWindow, hf.cmd, hr.2.2.2]

/-! ## Checks of the delegate commands -/

/-- A unit address as the only field is refused outside 1 to 192, as field 1. -/
theorem unitField_nil (u : Nat) : Hall.unitField u [] = if u = 0 ∨ 192 < u then some 1 else none := by
  by_cases hu : u = 0
  · simp [Hall.unitField, hu]
  · simp [Hall.unitField, hu]

/-- A unit address above 0 has the table entry before it. -/
theorem unitIndex_of_ne_zero {u : Nat} (hu : u ≠ 0) : unitIndex u = u - 1 := if_neg hu

namespace Hall

variable {h : Hall}

theorem onFloor_iff {u : Nat} : h.onFloor u = true ↔ (h.run u).state = .granting ∨ (h.run u).state = .speaking := by
  simp [onFloor]

/-- A room is full when its position holders have reached its number of speakers (R17). -/
theorem freePosition_eq_false_iff {r : Nat} :
    h.freePosition r = false ↔ (h.settings r).maxSpeakers ≤ (h.positionHolders r).length := by
  simp [freePosition]

/-- No microphone slot is free exactly when every one has a holder (R78). -/
theorem micFree_eq_false_iff : h.micFree = false ↔ none ∉ h.slots.mics.toList := by
  simp [micFree, freeMic, toList_eq_map_tget]

/-! ## REMOVE DELEGATE (R21) -/

/-- What REMOVE DELEGATE clears: the record, the pending indication, the unknown-reported flag and the mark. -/
theorem clearUnit_eq {u : Nat} (hu : u ≠ 0) : h.clearUnit u = { h with
    mem.delegates := tset h.mem.delegates (u - 1) ⟨⟨false, 0, .delegate, 0, 0⟩, false, .sound⟩
    floor.runs := tset h.floor.runs (u - 1) { h.run u with indication := none, unknownReported := false }
    floor.dirty := tset h.floor.dirty (u - 1) false } := by
  rw [← unitIndex_of_ne_zero hu]
  rfl

/-- REMOVE DELEGATE where reads find nothing. -/
theorem removeDelegate_eq (hm : h.mem.ReadsFindNothing) (u : Nat) : h.removeDelegate reader u =
    if u = 0 ∨ 192 < u then (h, .check .fieldOutOfRange 1)
    else if (h.record u).value.present = false ∧ (h.record u).damaged = false then (h, .check .unitNotPresent 0)
    else if (h.run u).state ≠ .idle then (h, .check .unitNotIdle 0)
    else (h.clearUnit u, .good .none 0 {}) := by
  rw [removeDelegate, unitField_nil, idle_delegate reader_idle hm]
  by_cases hu : u = 0 ∨ 192 < u
  · rw [if_pos hu, if_pos hu]
    rfl
  · rw [if_neg hu, if_neg hu]
    rfl

@[simp] theorem clearUnit_cmd (u : Nat) : (h.clearUnit u).cmd = h.cmd := rfl

theorem removeDelegate_windowFree (hm : h.mem.ReadsFindNothing) (u : Nat) :
    WindowFree (removeDelegate reader u) h where
  cmd := by
    rw [removeDelegate_eq hm]
    simp only [apply_ite Prod.fst, apply_ite Hall.cmd, clearUnit_cmd, ite_self]
  window w := by
    rw [removeDelegate_eq hm, removeDelegate_eq (h := h.withWindow w) hm]
    simp only [apply_ite (Prod.map (withWindow w) id)]
    rfl

/-! ## GRANT FLOOR (R33) -/

/-- GRANT FLOOR where reads find nothing. -/
theorem grantFloor_eq (hm : h.mem.ReadsFindNothing) (u : Nat) : h.grantFloor reader u =
    if u = 0 ∨ 192 < u then (h, .check .fieldOutOfRange 1)
    else if h.known u = false then (h, .check .unitNotPresent 0)
    else if (h.settings (h.roomOfUnit u)).floorMode ≠ .operator then (h, .check .notOperatorRoom 0)
    else if (h.run u).state = .granting ∨ (h.run u).state = .speaking then (h, .good .none 0 {})
    else if (h.run u).state = .closing ∨ (h.run u).state = .chairPending then (h, .check .unitNotIdle 0)
    else if h.isChair u = false ∧
        (h.settings (h.roomOfUnit u)).maxSpeakers ≤ (h.positionHolders (h.roomOfUnit u)).length then
      (h, .check .floorFull 0)
    else if none ∉ h.slots.mics.toList then (h, .check .noMicSlot 0)
    else (h.grant u, .good .none 0 {}) := by
  rw [grantFloor, unitField_nil, idle_delegate reader_idle hm]
  dsimp only
  rw [idle_settings reader_idle hm]
  simp only [onFloor_iff, freePosition_eq_false_iff, micFree_eq_false_iff]
  by_cases hu : u = 0 ∨ 192 < u
  · rw [if_pos hu, if_pos hu]
    rfl
  · rw [if_neg hu, if_neg hu]
    rfl

theorem grantFloor_windowFree (hm : h.mem.ReadsFindNothing) (u : Nat) : WindowFree (grantFloor reader u) h where
  cmd := by
    rw [grantFloor_eq hm]
    simp only [apply_ite Prod.fst, apply_ite Hall.cmd, grant_cmd, ite_self]
  window w := by
    rw [grantFloor_eq hm, grantFloor_eq (h := h.withWindow w) hm, grant_withWindow]
    simp only [apply_ite (Prod.map (withWindow w) id)]
    rfl

end Hall

/-! ## The obligations -/

theorem exec_removeDelegate (hd : Hdr) (unit : Byte) (s : State) :
    exec (.removeDelegate hd unit) s = .next (s.withChip (s.chip.commandRow hd (.removeDelegate unit))) := rfl

theorem exec_grantFloor (hd : Hdr) (unit : Byte) (s : State) :
    exec (.grantFloor hd unit) s = .next (s.withChip (s.chip.commandRow hd (.grantFloor unit))) := rfl

/-- Settles O13: in SAFE the command is not taken (`commandRow_of_wrongMode`); in any other mode its checks come in the order
of `removeDelegate_eq`, and the last branch is `clearUnit_eq`. -/
theorem removeDelegateClears : Obligations.RemoveDelegateClears := by
  intro s hd unit hr hm c h u
  rw [exec_removeDelegate]
  congr 2
  by_cases hsafe : h.cmd.mode = .safe
  · have ht : Command.taken c.hall.cmd.mode (.removeDelegate unit) = false := by simpa [Command.taken] using hsafe
    have hcode : c.hall.cmd.mode.code = 3 := congrArg Mode.code hsafe
    rw [if_pos hsafe, Chip.commandRow_of_wrongMode hr rfl ht, hcode]
  · have ht : Command.taken c.hall.cmd.mode (.removeDelegate unit) = true := by simpa [Command.taken] using hsafe
    rw [if_neg hsafe, Chip.commandRow_of_windowFree hr rfl ht nofun rfl (Hall.removeDelegate_windowFree hm u),
      Hall.removeDelegate_eq hm]
    split_ifs with hrange habsent hbusy
    · rfl
    · rfl
    · rfl
    · rw [Hall.clearUnit_eq (fun hzero => hrange (.inl hzero))]

/-- Settles O17: outside LIVE the command is not taken (`commandRow_of_wrongMode`); in LIVE its checks come in the order of
`grantFloor_eq`, and a grant acts alike before and after the window's restart (`grant_withWindow`). -/
theorem grantFloorByCheck : Obligations.GrantFloorByCheck := by
  intro s hd unit hr hm c h u r
  rw [exec_grantFloor]
  congr 2
  by_cases hlive : h.cmd.mode = .live
  · have ht : Command.taken c.hall.cmd.mode (.grantFloor unit) = true := by simpa [Command.taken] using hlive
    rw [if_neg (not_not.mpr hlive), Chip.commandRow_of_windowFree hr rfl ht nofun rfl (Hall.grantFloor_windowFree hm u),
      Hall.grantFloor_eq hm]
    split_ifs <;> rfl
  · have ht : Command.taken c.hall.cmd.mode (.grantFloor unit) = false := by simpa [Command.taken] using hlive
    rw [if_pos hlive, Chip.commandRow_of_wrongMode hr rfl ht]

end Sys2Proof.Machine

/-! SUPPORT. O18: the units that move up in a queue and their marks (R23, R43), and a grant field by field (R17, R47, R78). -/

namespace Sys2Proof.Machine

theorem unitIndex_of_mem {u : Nat} (hu : u ∈ units) : unitIndex u = u - 1 ∧ u - 1 < 192 ∧ 0 < u := by
  simp only [units, List.mem_map, List.mem_range] at hu
  obtain ⟨i, hi, rfl⟩ := hu
  exact ⟨unitIndex_of_ne_zero (Nat.succ_ne_zero i), hi, Nat.succ_pos i⟩

/-- Two unit addresses have two places in the tables indexed by unit. -/
theorem unitIndex_ne {u v : Nat} (hu : u ∈ units) (hv : v ∈ units) (hne : v ≠ u) : unitIndex u ≠ unitIndex v := by
  obtain ⟨hui, -, hu0⟩ := unitIndex_of_mem hu
  obtain ⟨hvi, -, hv0⟩ := unitIndex_of_mem hv
  omega

/-- The members that come after `u` in a list stand in its part behind `u`. -/
theorem mem_drop_of_idxOf_lt {u v : Nat} {q : List Nat} (hv : v ∈ q) (behind : q.idxOf u < q.idxOf v) :
    v ∈ q.drop (q.idxOf u + 1) := by
  have hlt : q.idxOf v < q.length := List.idxOf_lt_length_iff.mpr hv
  refine List.mem_drop_iff_getElem.mpr ⟨q.idxOf v - (q.idxOf u + 1), by omega, ?_⟩
  simp only [Nat.add_sub_cancel' (show q.idxOf u + 1 ≤ q.idxOf v from behind), List.getElem_idxOf]

namespace Hall

variable {h : Hall}

/-! ## Marks of several units (R43) -/

/-- The unit dirty set with the marks of the known units of a list added. -/
def dirtyWith (us : List Nat) (h : Hall) : Vector Bool 192 :=
  us.foldl (fun d u => if h.known u then tset d (unitIndex u) true else d) h.floor.dirty

/-- To mark units in turn changes the dirty set alone. -/
theorem each_mark (us : List Nat) (h : Hall) : h.each us mark = { h with floor.dirty := h.dirtyWith us } := by
  induction us generalizing h with
  | nil => rfl
  | cons u us ih => exact ih (h.mark u)

theorem dirtyWith_concat (us : List Nat) (u : Nat) : h.dirtyWith (us ++ [u]) =
    if h.known u then tset (h.dirtyWith us) (unitIndex u) true else h.dirtyWith us := by
  simp only [dirtyWith, List.foldl_append, List.foldl_cons, List.foldl_nil]

/-- One mark more: an entry is set when it was before or is the entry of the marked unit. -/
theorem tget_markIf_iff {n i j : Nat} (d : Vector Bool n) (marked : Bool) :
    tget (if marked then tset d i true else d) j = true ↔
      tget d j = true ∨ j < n ∧ marked = true ∧ i = j := by
  cases marked with
  | false => simp
  | true =>
    rw [if_pos rfl, tget_tset]
    by_cases hij : i = j
    · subst hij
      by_cases hi : i < n <;> simp [hi]
    · simp [hij]

/-- A unit is marked when it was before or is a known unit of the list. -/
theorem dirtyWith_iff (us : List Nat) {i : Nat} : tget (h.dirtyWith us) i = true ↔
    tget h.floor.dirty i = true ∨ i < 192 ∧ ∃ v ∈ us, h.known v = true ∧ unitIndex v = i := by
  induction us using List.reverseRecOn with
  | nil => simp [dirtyWith]
  | append_singleton us u ih =>
    rw [dirtyWith_concat, tget_markIf_iff, ih]
    simp only [List.mem_append, List.mem_singleton, or_and_right, exists_or, exists_eq_left, and_or_left, or_assoc]

theorem dirtyWith_of_mem {us : List Nat} {v : Nat} (hv : v ∈ us) (hu : v ∈ units) (hk : h.known v = true) :
    tget (h.dirtyWith us) (v - 1) = true := by
  obtain ⟨hi, hlt, -⟩ := unitIndex_of_mem hu
  exact (dirtyWith_iff us).mpr (.inr ⟨hlt, v, hv, hk, hi⟩)

/-! ## Leaving the queue (R23) -/

/-- The units behind `u` in the queue of its room: those that move up when `u` leaves it. -/
def unitsBehind (u : Nat) (h : Hall) : List Nat :=
  (h.queue (h.roomOfUnit u)).drop ((h.queue (h.roomOfUnit u)).idxOf u + 1)

theorem unitsBehind_of_notMem {u : Nat} (hq : u ∉ h.queue (h.roomOfUnit u)) : h.unitsBehind u = [] := by
  rw [unitsBehind, List.idxOf_eq_length_iff.mpr hq]
  exact List.drop_eq_nil_of_le (Nat.le_succ _)

/-- What leaving a queue changes: the room's queue, the pool with its arming, and the marks of the units behind. -/
theorem leaveQueue_eq (u : Nat) (h : Hall) : h.leaveQueue u = { h with
    floor.queues := tset h.floor.queues (h.roomOfUnit u) ((h.queue (h.roomOfUnit u)).erase u)
    floor.poolFree := h.floor.poolFree + if u ∈ h.queue (h.roomOfUnit u) then 1 else 0
    floor.poolArmed := h.floor.poolArmed ||
      decide (u ∈ h.queue (h.roomOfUnit u) ∧ Config.poolRearm ≤ h.floor.poolFree + 1)
    floor.dirty := h.dirtyWith (h.unitsBehind u) } := by
  by_cases hq : u ∈ h.queue (h.roomOfUnit u)
  · rw [leaveQueue_of_mem hq, each_mark]
    simp only [hq, if_true, true_and]
    rfl
  · have same : tset h.floor.queues (h.roomOfUnit u) (h.queue (h.roomOfUnit u)) = h.floor.queues := tset_tget _ _
    rw [leaveQueue_of_notMem hq, unitsBehind_of_notMem hq, List.erase_of_not_mem hq, same]
    simp [hq, dirtyWith]

/-! ## Grants (R17, R47, R78) -/

theorem freeMic_eq_some_iff {k : Nat} : h.freeMic = some k ↔
    k < 24 ∧ tget h.slots.mics k = none ∧ ∀ j < k, tget h.slots.mics j ≠ none := by
  simp [freeMic, List.find?_range_eq_some, Option.isSome_iff_ne_none, and_left_comm]

/-- The runtime part `d` of a unit that is granted slot `k` at frame `t`, with the handshake at its first attempt. -/
def grantedRun (k : Nat) (t : FrameCount) (d : DelegateRun) : DelegateRun :=
  { d with
    state := .granting, slot := some k, grantId := d.grantId + 1, attempts := 1, requestTs := none
    grantTs := some t, window := none, reason := none }

theorem grant_of_freeMic {u k : Nat} (hk : h.freeMic = some k) : h.grant u =
    (((((h.leaveQueue u).leaveChairs u).setMic k (some u)).setMicTarget k Config.mute).setRun u
      (grantedRun k h.frameCounter)).mark u := by
  rw [grant, hk]
  rfl

/-- What a grant of slot `k` changes, block by block. -/
theorem grant_eq {u k : Nat} (hk : h.freeMic = some k) : h.grant u = { h with
    floor := {
      runs := tmod h.floor.runs (unitIndex u) (grantedRun k h.frameCounter)
      queues := tset h.floor.queues (h.roomOfUnit u) ((h.queue (h.roomOfUnit u)).erase u)
      poolFree := h.floor.poolFree + if u ∈ h.queue (h.roomOfUnit u) then 1 else 0
      poolArmed := h.floor.poolArmed ||
        decide (u ∈ h.queue (h.roomOfUnit u) ∧ Config.poolRearm ≤ h.floor.poolFree + 1)
      chairs := h.floor.chairs.erase u
      gaps := h.floor.gaps
      dirty := h.dirtyWith (h.unitsBehind u ++ [u]) }
    slots.mics := tset h.slots.mics k (some u)
    gains.mics := tmod h.gains.mics k (fun x => { x with target := Config.mute }) } := by
  rw [grant_of_freeMic hk, leaveQueue_eq, dirtyWith_concat]
  rfl

/-- The queues after one unit has left its room's. -/
theorem tget_queues_erase (u r : Nat) {x : Nat} (hx : x < 8) : tget (tset h.floor.queues r ((h.queue r).erase u)) x =
    if x = r then (h.queue r).erase u else h.queue x := by
  by_cases hxr : x = r
  · subst hxr
    rw [if_pos rfl, tget_tset_self _ _ hx]
  · rw [if_neg hxr, tget_tset_of_ne _ _ (Ne.symm hxr)]
    rfl

end Hall

/-! ## The obligation -/

/-- Settles O18: the hypotheses on the slots say that `k` is the slot the grant takes (`freeMic_eq_some_iff`), `grant_eq`
gives the hall after it, and each clause reads one table of that hall. -/
theorem grantTakesLowestFreeSlot : Obligations.GrantTakesLowestFreeSlot := by
  intro h u k hu hlt hfree hlowest g r d
  have hg := Hall.grant_eq (u := u) (Hall.freeMic_eq_some_iff.mpr ⟨hlt, hfree, hlowest⟩)
  have hfloor := congrArg Hall.floor hg
  have hdirty : g.floor.dirty = h.dirtyWith (h.unitsBehind u ++ [u]) := congrArg FloorController.dirty hfloor
  have hruns (v : Nat) : g.run v = tget (tmod h.floor.runs (unitIndex u) (Hall.grantedRun k h.frameCounter)) (unitIndex v) :=
    congrArg (fun f : FloorController => tget f.runs (unitIndex v)) hfloor
  refine ⟨?granted, ?others, ?queues, (congrArg FloorController.poolFree hfloor :),
    (congrArg FloorController.chairs hfloor :), (congrArg FloorController.gaps hfloor :), ?own, ?behind, ?kept, ?frame⟩
  case granted =>
    obtain ⟨hui, hlt, -⟩ := unitIndex_of_mem hu
    rw [hruns, tget_tmod, if_pos ⟨rfl, hui ▸ hlt⟩]
    rfl
  case others =>
    intro v hv hne
    rw [hruns, tget_tmod, if_neg (fun same => unitIndex_ne hu hv hne same.1)]
    rfl
  case queues =>
    intro x hx
    exact (congrArg (fun f : FloorController => tget f.queues x) hfloor).trans (Hall.tget_queues_erase u r hx)
  case own =>
    intro hk
    rw [hdirty]
    exact Hall.dirtyWith_of_mem (by simp) hu hk
  case behind =>
    intro v hv hbehind hunit hk
    rw [hdirty]
    exact Hall.dirtyWith_of_mem (List.mem_append_left _ (mem_drop_of_idxOf_lt hv hbehind)) hunit hk
  case kept =>
    intro v _ hv
    rw [hdirty]
    exact (Hall.dirtyWith_iff _).mpr (.inl hv)
  case frame =>
    rw [hfloor]
    exact hg

end Sys2Proof.Machine

/-! SUPPORT. O56: the tables G (R91) and NOM (R95) entry by entry, and scaling (R92) as rounding to the nearest integer. -/

namespace Sys2Proof.Machine

/-! ## The coefficients (R91) -/

/-- `c` is 32,768 × 10^(−a/40) rounded to the nearest integer, halves upward: 2c − 1 ≤ 65,536 × 10^(−a/40) < 2c + 1, raised
to the fortieth power so that only integers stand in it. -/
def IsNearestCoefficient (a c : Nat) : Prop :=
  (2 * c - 1) ^ 40 * 10 ^ a ≤ 65536 ^ 40 ∧ 65536 ^ 40 < (2 * c + 1) ^ 40 * 10 ^ a

/-- The 128 entries of the table, each compared with the power it rounds. -/
theorem coefficient_isNearest {a : Nat} (ha : a ≤ 127) : IsNearestCoefficient a (coefficient a) := by
  have table : ∀ i : Fin 128, IsNearestCoefficient i (coefficient i) := by
    unfold IsNearestCoefficient
    decide
  exact table ⟨a, by omega⟩

/-- A coefficient is at most that of 0 dB: no gain index amplifies. -/
theorem IsNearestCoefficient.le_unity {a c : Nat} (h : IsNearestCoefficient a c) : c ≤ 32768 := by
  obtain ⟨hlow, -⟩ := h
  have hpow : (2 * c - 1) ^ 40 ≤ 65536 ^ 40 := (Nat.le_mul_of_pos_right _ (by positivity)).trans hlow
  have hbase : 2 * c - 1 ≤ 65536 := (Nat.pow_le_pow_iff_left (by decide)).mp hpow
  omega

theorem coefficient_zero : coefficient 0 = 32768 := rfl

/-- Mute. -/
theorem coefficient_mute : coefficient 128 = 0 := rfl

theorem coefficient_le_unity {a : Nat} (ha : a ≤ 128) : coefficient a ≤ 32768 := by
  rcases Nat.lt_or_eq_of_le ha with hlt | rfl
  · exact (coefficient_isNearest (Nat.le_of_lt_succ hlt)).le_unity
  · exact coefficient_mute.trans_le (Nat.zero_le _)

/-! ## The gain of several speakers (R95) -/

/-- The 24 entries of Table 6.3: 2 NOM(n) − 1 ≤ 40 × log10(n) < 2 NOM(n) + 1, as powers of ten. -/
theorem nom_isNearest {n : Nat} (hpos : 1 ≤ n) (hle : n ≤ 24) :
    10 ^ (2 * nom n) ≤ n ^ 40 * 10 ∧ n ^ 40 < 10 ^ (2 * nom n + 1) := by
  have table : ∀ i : Fin 25, 1 ≤ (i : Nat) →
      10 ^ (2 * nom i) ≤ (i : Nat) ^ 40 * 10 ∧ (i : Nat) ^ 40 < 10 ^ (2 * nom i + 1) := by decide
  exact table ⟨n, by omega⟩ hpos

/-! ## Scaling (R92) -/

/-- The division toward minus infinity, after half the divisor is added, leaves the nearest integer, halves upward. -/
theorem sc_isNearest (v : Int) (a : Nat) : 32768 * sc v a ≤ v * coefficient a + 16384 ∧
    v * coefficient a + 16384 < 32768 * (sc v a + 1) := by
  unfold sc
  omega

theorem sc_zero (v : Int) : sc v 0 = v := by
  have h := sc_isNearest v 0
  rw [coefficient_zero] at h
  omega

theorem sc_mute (v : Int) : sc v 128 = 0 := by
  have h := sc_isNearest v 128
  rw [coefficient_mute] at h
  omega

/-- Scaling takes no value farther from 0: the exact product lies between 0 and 32,768 v, and so does its rounding. -/
theorem natAbs_sc_le (v : Int) {a : Nat} (ha : a ≤ 128) : (sc v a).natAbs ≤ v.natAbs := by
  obtain ⟨hlow, hhigh⟩ := sc_isNearest v a
  have hunity : (coefficient a : Int) ≤ 32768 := mod_cast coefficient_le_unity ha
  have hnonneg : (0 : Int) ≤ coefficient a := Int.natCast_nonneg _
  rcases le_total 0 v with hv | hv
  · have hproduct : 0 ≤ v * coefficient a := mul_nonneg hv hnonneg
    have hbound : v * coefficient a ≤ v * 32768 := mul_le_mul_of_nonneg_left hunity hv
    omega
  · have hproduct : v * coefficient a ≤ 0 := mul_nonpos_of_nonpos_of_nonneg hv hnonneg
    have hbound : v * 32768 ≤ v * coefficient a := mul_le_mul_of_nonpos_left hunity hv
    omega

/-! ## The obligation -/

/-- Settles O56: both tables entry by entry, and scaling by the two bounds of the division. -/
theorem gainsAreRounded : Obligations.GainsAreRounded :=
  ⟨fun _ ha => coefficient_isNearest ha, coefficient_mute, fun _ hpos hle => nom_isNearest hpos hle,
    fun v a _ => sc_isNearest v a, fun v => ⟨sc_zero v, sc_mute v⟩, fun v _ ha => natAbs_sc_le v ha⟩

end Sys2Proof.Machine

/-! SUPPORT. O4: every COMMAND row hands its command to the Command Processor, and Table 9.4 as a function of the code. -/

namespace Sys2Proof.Machine

/-- A row that is a COMMAND cell takes the command it carries (R126, R133). -/
theorem exec_of_command {i : Instr} {hd : Hdr} {x : Command} (hi : i.cell? = some (.command hd x)) (s : State) :
    exec i s = .next (s.withChip (s.chip.commandRow hd x)) := by
  cases i <;> cases hi <;> rfl

/-! ## The modes of a command (R139) -/

/-- The modes in force that Table 9.4 lists against a code of the catalogue. -/
def modesOfCode (code : BitVec 7) : List Mode :=
  if code = 0x06 then [.config]
  else if code = 0x14 then [.live]
  else if code = 0x41 then [.config, .live]
  else if code ∈ [0x10, 0x11, 0x13, 0x20, 0x23, 0x30, 0x31, 0x40, 0x42] then [.config, .live, .stopping]
  else [.config, .live, .stopping, .safe]

/-- Each command of the catalogue has one code, and is taken in the modes of that code; a command that is spelled as unknown
has none. -/
theorem taken_iff_mem_modesOfCode {x : Command} (hs : x.spelled = true) (hcode : x.code ∈ catalogue) (m : Mode) :
    Command.taken m x = true ↔ m ∈ modesOfCode x.code := by
  cases x with
  | unknown code => exact absurd hcode (by simpa [Command.spelled, Command.code] using hs)
  | _ => cases m <;> simp [Command.taken, Command.code, modesOfCode]

/-- Settles O4: Table 9.4 command by command (`taken_iff_mem_modesOfCode`), and the answer outside its modes
(`commandRow_of_wrongMode`). -/
theorem commandsAreTakenByMode : Obligations.CommandsAreTakenByMode := by
  intro s i hd x hi hs hcode hr c modes
  have htaken : Command.taken c.hall.cmd.mode x = true ↔ c.hall.cmd.mode ∈ modes :=
    taken_iff_mem_modesOfCode hs hcode _
  refine ⟨htaken, fun hmode => ?_⟩
  have hwrong : Command.taken c.hall.cmd.mode x = false := Bool.eq_false_iff.mpr (mt htaken.mp hmode)
  rw [exec_of_command hi, Chip.commandRow_of_wrongMode hr hs hwrong]

end Sys2Proof.Machine

/-! SUPPORT. O5, O6 and O9: the Command Processor's own commands STATUS (R146), SET MODE (R140) and SET TIMING (R145), and
what the two resets leave of the numbers of SET TIMING. -/

namespace Sys2Proof.Machine

/-- The row of a taken command whose rule, run on the chip with its window restarted, has left group mark and supervision
alone (R137, R143). As `answered` restarts the window itself, that of `d` does not show in the result. -/
theorem Chip.commandRow_of_run {hd : Hdr} {x : Command} {c d : Chip} {a : Answer} (hr : c.Ready) (hs : x.spelled = true)
    (ht : Command.taken c.hall.cmd.mode x = true) (he : x ≠ .engineReset) (hx : c.restartWindow.run reader x = (d, a))
    (hg : d.hall.cmd.groupFailed = c.hall.cmd.groupFailed)
    (hv : d.hall.cmd.supervision = c.restartWindow.hall.cmd.supervision) : c.commandRow hd x = d.answered hd a := by
  rw [commandRow_of_taken hr hs ht he, hx]
  exact answer_eq_answered hd a (hg.trans hr.2.2.2) (by rw [hv]; rfl)

/-- The row of a taken command of the hall's blocks whose rule has left group mark and supervision alone. -/
theorem Chip.commandRow_of_onHall {hd : Hdr} {x : Command} {c : Chip} {f : Hall → Hall × Answer} {g : Hall} {a : Answer}
    (hr : c.Ready) (hs : x.spelled = true) (ht : Command.taken c.hall.cmd.mode x = true) (he : x ≠ .engineReset)
    (hx : c.restartWindow.run reader x = c.restartWindow.onHall f) (hrule : f c.restartWindow.hall = (g, a))
    (hg : g.cmd.groupFailed = c.hall.cmd.groupFailed) (hv : g.cmd.supervision = c.restartWindow.hall.cmd.supervision) :
    c.commandRow hd x = { c with hall := g }.answered hd a :=
  commandRow_of_run (d := { c with hall := g }) hr hs ht he (by rw [hx, onHall, hrule]; rfl) hg hv

/-! ## STATUS (R146) -/

/-- STATUS changes nothing, and answers its data where the part exists. -/
theorem Chip.status_eq (part : Nat) (c : Chip) :
    c.status part = (c, if 3 < part then .check .fieldOutOfRange 1 else .good .none 0 (c.statusData part)) := by
  unfold Chip.status
  split <;> rfl

/-- Settles O5: STATUS is taken in every mode and changes nothing (`Chip.status_eq`), and each part reports one row of
Table 9.7 on the chip with its window restarted, so that the window is 0 only where the timeout is. -/
theorem statusReports : Obligations.StatusReports := by
  intro s hd part hr c h v
  rw [exec_of_command (x := .status part) rfl,
    Chip.commandRow_of_run (x := .status part) hr rfl rfl nofun (Chip.status_eq _ _) rfl rfl]
  congr 2
  show Chip.answered hd _ c = _
  congr 1
  refine ite_congr rfl (fun _ => rfl) fun hrange => ?_
  have hpart : part = 0 ∨ part = 1 ∨ part = 2 ∨ part = 3 := by bv_omega
  rcases hpart with rfl | rfl | rfl | rfl <;> rfl

/-! ## SET MODE with a mode other than 0 (R140) -/

namespace Hall

/-- LIVE from CONFIG: every room in force fades in, and with it every booth, whose room is in force (R101, R140). -/
theorem goLive_eq (h : Hall) : h.goLive = { h with
    cmd.requested := .live, cmd.mode := .live
    gains.rooms := tmapIdx h.gains.rooms
      (fun i g => if isRoomId h.part.inForce (i / 9) then { g with target := 0 } else g)
    gains.booths := tmapIdx h.gains.booths (fun _ g => { g with target := 0 }) } := by
  have inForce (b : Nat) : isRoomId h.part.inForce (h.roomOfBooth b) = true := isRoomId_roomOf _ _
  have booths : tmapIdx h.gains.booths (fun b g => { g with
      target := if isRoomId h.part.inForce (h.roomOfBooth b) then 0
        else (tget h.gains.rooms (9 * h.roomOfBooth b)).target }) =
      tmapIdx h.gains.booths (fun _ g => { g with target := 0 }) := by simp only [inForce, if_true]
  rw [goLive, fadeRooms_eq]
  simp only [rooms, mem_roomIds]
  rw [← booths]
  rfl

/-! The rule of SET MODE, one equation for each mode in force. -/

variable {h : Hall} {mode : Nat}

theorem setModeLive_of_lt (hrange : 1 < mode) : h.setModeLive mode = (h, .check .fieldOutOfRange 1) := if_pos hrange

theorem setModeLive_of_live (hrange : ¬ 1 < mode) (hmode : h.cmd.mode = .live) :
    h.setModeLive mode = (h.setRequested .live, .good .none 0 {}) := by
  rw [setModeLive, if_neg hrange, hmode]
  rfl

theorem setModeLive_of_stopping (hrange : ¬ 1 < mode) (hmode : h.cmd.mode = .stopping) :
    h.setModeLive mode = (h, .check .stopping 0) := by
  rw [setModeLive, if_neg hrange, hmode]

theorem setModeLive_of_config (hrange : ¬ 1 < mode) (hmode : h.cmd.mode = .config) (hmem : h.mem.damagedCount = 0) :
    h.setModeLive mode = (h.goLive, .good .none 0 {}) := by
  rw [setModeLive, if_neg hrange, hmode]
  exact if_pos hmem

theorem setModeLive_of_safe (hrange : ¬ 1 < mode) (hmode : h.cmd.mode = .safe) (hmem : h.mem.damagedCount = 0) :
    h.setModeLive mode = ((h.setRequested .live).setMode .live, .good .none 0 {}) := by
  rw [setModeLive, if_neg hrange, hmode]
  exact if_pos hmem

/-- Validation fails while a record is damaged. -/
theorem setModeLive_of_damaged (hrange : ¬ 1 < mode) (hmode : h.cmd.mode = .config ∨ h.cmd.mode = .safe)
    (hmem : h.mem.damagedCount ≠ 0) : h.setModeLive mode = (h, .check .tablesDamaged h.mem.damagedCount) := by
  rw [setModeLive, if_neg hrange]
  rcases hmode with hmode | hmode <;> rw [hmode] <;> exact if_neg hmem

end Hall

/-- Settles O6: one branch for the range and one for each mode in force, with `Hall.goLive_eq` for the entry from CONFIG. -/
theorem setModeLiveByMode : Obligations.SetModeLiveByMode := by
  intro s hd mode hr hzero c h good
  have hs : (Command.setModeLive mode).spelled = true := bne_iff_ne.mpr hzero
  let h' := c.restartWindow.hall
  have row {g : Hall} {a : Answer} (hrule : h'.setModeLive mode.toNat = (g, a)) :=
    Chip.commandRow_of_onHall (hd := hd) hr hs rfl nofun rfl hrule
  rw [exec_of_command (x := .setModeLive mode) rfl]
  congr 2
  by_cases hrange : 1 < mode.toNat
  · rw [if_pos hrange]
    exact (row (Hall.setModeLive_of_lt hrange) rfl rfl).trans rfl
  rw [if_neg hrange]
  split
  case h_1 hmode => exact (row (Hall.setModeLive_of_live (h := h') hrange hmode) rfl rfl).trans rfl
  case h_2 hmode => exact (row (Hall.setModeLive_of_stopping (h := h') hrange hmode) rfl rfl).trans rfl
  case h_3 hmode =>
    by_cases hmem : h.mem.damagedCount = 0
    · have hrule := Hall.setModeLive_of_config (h := h') hrange hmode hmem
      rw [Hall.goLive_eq] at hrule
      rw [if_pos hmem]
      exact (row hrule rfl rfl).trans rfl
    · rw [if_neg hmem]
      exact (row (Hall.setModeLive_of_damaged (h := h') hrange (.inl hmode) hmem) rfl rfl).trans rfl
  case h_4 hmode =>
    by_cases hmem : h.mem.damagedCount = 0
    · rw [if_pos hmem]
      exact (row (Hall.setModeLive_of_safe (h := h') hrange hmode hmem) rfl rfl).trans rfl
    · rw [if_neg hmem]
      exact (row (Hall.setModeLive_of_damaged (h := h') hrange (.inr hmode) hmem) rfl rfl).trans rfl

/-! ## SET TIMING (R145) -/

/-- SET TIMING: every number in its range, and one answer for the three. -/
theorem Chip.setTiming_eq (ramp scan debounce : Nat) (c : Chip) :
    let r := max 1 (min 32 ramp)
    let i := max 1 (min 8 scan)
    let d := max 2 (min 15 debounce)
    c.setTiming ramp scan debounce =
      ({ c with time.rampInterval := r, hall.part.scanInterval := i, hall.part.debounceCount := d },
        if ramp ≠ r then .good .adjusted 1 {}
        else if scan ≠ i then .good .adjusted 2 {}
        else if debounce ≠ d then .good .adjusted 3 {}
        else .good .none 0 {}) := by
  intro r i d
  have hr : clampTo 1 32 ramp = r := clampTo_eq (by decide) ramp
  have hi : clampTo 1 8 scan = i := clampTo_eq (by decide) scan
  have hd : clampTo 2 15 debounce = d := clampTo_eq (by decide) debounce
  simp only [setTiming, hr, hi, hd, goodWrite_cons, goodWrite_nil, ite_not]

/-! ## What the resets leave of the Partition Unit's numbers (R11, R145, R148) -/

namespace Hall

/-- A report is a posting, or none. -/
theorem keeps_report {P : Hall → Prop} {h : Hall} (C : ClosedEvents P) {f : Finding} {t : TableId} {n : Nat}
    (hp : P h) : P (h.report f t n) := by
  cases f with
  | none => exact hp
  | corrected => exact keeps_post C hp
  | damaged => exact keeps_post C hp

end Hall

/-- The plain checks keep what postings and changes of Table Memory keep. -/
theorem notes_keep {P : Hall → Prop} (C : ClosedEvents P) (M : ∀ h m, P h → P { h with mem := m }) :
    Reader.notes.Keeps P where
  delegate _ h hp := Hall.keeps_ite hp (Hall.keeps_report C (M h _ hp))
  settings _ h hp := Hall.keeps_ite hp (Hall.keeps_report C (M h _ hp))
  plan _ h hp := Hall.keeps_ite hp (Hall.keeps_report C (M h _ hp))
  booth _ h hp := Hall.keeps_ite hp (Hall.keeps_report C (M h _ hp))
  timeClass _ h hp := Hall.keeps_ite hp (Hall.keeps_report C (M h _ hp))
  override _ h hp := Hall.keeps_ite hp (Hall.keeps_report C (M h _ hp))

namespace Hall

section resets
variable {P : Hall → Prop} {h : Hall} (C : ClosedPart P) (M : ∀ h m, P h → P { h with mem := m })
include C M

theorem keeps_seed (hp : P h) : P h.seed :=
  C.partition _ _ (C.effective _ _ (readAll_keeps (notes_keep C.toClosedEvents M).override hp))

/-- The start-up recall writes records and then perhaps the walls (R161). -/
theorem keeps_startUpRecall (hp : P h) : P h.startUpRecall := by
  unfold startUpRecall
  split
  · next x _ =>
    have hwritten : P (((((h.writeClasses x).writeAllSettings x).writePlans x).writeBooths x).writeOverrides x) :=
      each_keeps (fun _ _ => M _ _) <| each_keeps (fun _ _ => M _ _) <| each_keeps (fun _ _ => M _ _) <|
        each_keeps (fun _ _ => M _ _) <| each_keeps (fun _ _ => M _ _) hp
    exact keeps_ite hwritten (keeps_post C.toClosedEvents (C.partition _ _ (C.effective _ _ hwritten)))
  · exact hp

theorem keeps_planAtReset {r : Nat} (hp : P h) : P (h.planAtReset r) :=
  each_keeps (fun _ _ => keeps_computePlan C.toClosedRooms)
    (keeps_readPlans (notes_keep C.toClosedEvents M) hp)

theorem keeps_setUp (hp : P h) : P h.setUp :=
  keeps_markAllNotices C.toClosedSlots
    (each_keeps (fun _ _ => keeps_claimLanguages C.toClosedSlots)
      (keeps_setFloorSlots C.toClosedRooms (each_keeps (fun _ _ => keeps_planAtReset C M) hp)))

end resets

theorem keeps_markKnown {P : Hall → Prop} {h : Hall} (C : ClosedFloor P) (hp : P h) : P h.markKnown :=
  each_keeps (fun _ _ => keeps_mark C) hp

/-- The Partition Unit's scan interval and debounce count (R145). -/
def ScansAt (interval count : Nat) (h : Hall) : Prop :=
  h.part.scanInterval = interval ∧ h.part.debounceCount = count

/-- The primitive updates of the hall leave both numbers as they are. -/
theorem scansAt_closed (interval count : Nat) : ClosedPart (ScansAt interval count) where
  post _ _ _ _ _ _ _ hp := hp
  run _ _ _ _ hp := hp
  floor _ _ _ hp := hp
  slot _ _ hp := hp
  mic _ _ _ _ hp := hp
  held _ _ _ _ hp := hp
  notices _ _ _ hp := hp
  slots _ _ _ hp := hp
  plans _ _ hp := hp
  booth _ _ _ hp := hp
  fades _ _ _ _ hp := hp
  sync _ hp := hp
  partition _ _ hp := hp
  effective _ _ hp := hp
  repartition _ _ hp := hp

/-- Table Memory holds neither number. -/
theorem scansAt_mem {interval count : Nat} (h : Hall) (m : TableMemory) (hp : h.ScansAt interval count) :
    Hall.ScansAt interval count { h with mem := m } := hp

end Hall

/-- A reset sets both numbers as its kind says. -/
theorem Hall.restarted_scansAt (k : Kept) (lines : BitVec 7) (store : PresetStore) :
    (Hall.restarted k lines store).ScansAt k.scanInterval k.debounceCount := ⟨rfl, rfl⟩

/-- A hard reset leaves scan interval 2 and debounce count 5 (R145). -/
theorem Chip.hardReset_scansAt (pins : Pins) (c : Chip) : (c.hardReset pins).hall.ScansAt 2 5 :=
  have C := Hall.scansAt_closed 2 5
  Hall.keeps_setUp C Hall.scansAt_mem
    (Hall.keeps_startUpRecall C Hall.scansAt_mem (Hall.keeps_seed C Hall.scansAt_mem (Hall.restarted_scansAt _ _ _)))

/-- An engine reset keeps scan interval and debounce count (R148). -/
theorem Chip.engineReset_scansAt (c : Chip) :
    c.engineReset.hall.ScansAt c.hall.part.scanInterval c.hall.part.debounceCount := by
  have C := Hall.scansAt_closed c.hall.part.scanInterval c.hall.part.debounceCount
  have hready := Hall.keeps_setUp C Hall.scansAt_mem (Hall.keeps_seed C Hall.scansAt_mem
    (Hall.restarted_scansAt c.keptByEngineReset c.pins.walls c.hall.store))
  simp only [engineReset, restarted]
  exact Hall.keeps_markKnown C.toClosedFloor hready

/-- The row of an ENGINE RESET that the part is ready for (R133, R148). -/
theorem Chip.commandRow_engineReset {hd : Hdr} {c : Chip} (hr : c.Ready) :
    c.commandRow hd .engineReset = c.restartWindow.engineReset := by
  rw [commandRow_of_ready hr rfl]
  rfl

/-- Settles O9: outside CONFIG the command is not taken (`commandRow_of_wrongMode`), in CONFIG its rule is
`Chip.setTiming_eq`; a reset sets up the hall by operations that leave the Partition Unit's numbers as they are
(`Hall.scansAt_closed`). -/
theorem setTimingWrites : Obligations.SetTimingWrites := by
  refine ⟨?command, ?hardReset, ?engineReset⟩
  case command =>
    intro s hd ramp scan debounce hr c r i d
    rw [exec_of_command (x := .setTiming ramp scan debounce) rfl]
    congr 2
    by_cases hconfig : c.hall.cmd.mode = .config
    · have ht : Command.taken c.hall.cmd.mode (.setTiming ramp scan debounce) = true := beq_iff_eq.mpr hconfig
      rw [if_neg (not_not.mpr hconfig)]
      exact (Chip.commandRow_of_run (x := .setTiming ramp scan debounce) hr rfl ht nofun
        (Chip.setTiming_eq _ _ _ c.restartWindow) rfl rfl).trans rfl
    · have ht : Command.taken c.hall.cmd.mode (.setTiming ramp scan debounce) = false := beq_eq_false_iff_ne.mpr hconfig
      rw [if_pos hconfig, Chip.commandRow_of_wrongMode hr rfl ht]
  case hardReset =>
    intro s pins
    exact ⟨_, rfl, rfl, Chip.hardReset_scansAt pins s.chip⟩
  case engineReset =>
    intro s hd hr
    have hexec := exec_of_command (i := .engineReset hd) (x := .engineReset) rfl s
    rw [Chip.commandRow_engineReset hr] at hexec
    exact ⟨_, hexec, rfl, Chip.engineReset_scansAt s.chip.restartWindow⟩

end Sys2Proof.Machine

/-! SUPPORT. O8: SET EVENTS (R152), and the mask bit under which an event of each kind is posted (R149, Table 10.2). -/

namespace Sys2Proof.Machine

/-! ## The command (R152) -/

/-- A mask with bit 7 set is refused, and the mask in force stands. -/
theorem Hall.setEvents_of_bit7 {mask : Byte} (hbit : mask.getLsbD 7 = true) (h : Hall) :
    h.setEvents mask = (h, .check .fieldOutOfRange 1) := if_pos hbit

/-- A mask of bits 0 to 6 alone is written. -/
theorem Hall.setEvents_of_not_bit7 {mask : Byte} (hbit : ¬ mask.getLsbD 7 = true) (h : Hall) :
    h.setEvents mask = ({ h with events.mask := mask.extractLsb' 0 7 }, .good .none 0 {}) := if_neg hbit

/-- The row of SET EVENTS, which every mode takes: what its rule makes of the hall, and its answer. -/
theorem Chip.commandRow_setEvents {hd : Hdr} {mask : Byte} {c : Chip} (hr : c.Ready) :
    c.commandRow hd (.setEvents mask) =
      if mask.getLsbD 7 then c.answered hd (.check .fieldOutOfRange 1)
      else { c with hall.events.mask := mask.extractLsb' 0 7 }.answered hd (.good .none 0 {}) := by
  by_cases hbit : mask.getLsbD 7 = true
  · rw [if_pos hbit]
    exact (commandRow_of_onHall (x := .setEvents mask) hr rfl rfl nofun rfl
      (Hall.setEvents_of_bit7 hbit c.restartWindow.hall) rfl rfl).trans rfl
  · rw [if_neg hbit]
    exact (commandRow_of_onHall (x := .setEvents mask) hr rfl rfl nofun rfl
      (Hall.setEvents_of_not_bit7 hbit c.restartWindow.hall) rfl rfl).trans rfl

/-! ## The mask bit of a kind (R149, Table 10.2) -/

/-- The 25 kinds by their classes, in the order of the mask's bits; the kinds of no other class are those of SYSTEM. -/
theorem EventKind.cls_bit_eq (k : EventKind) : k.cls.bit =
    if k ∈ [.granted, .closed, .unresponsive, .chairPriority, .poolLow, .unknownUnit] then 0
    else if k ∈ [.timeWarning, .timeUp] then 1
    else if k ∈ [.wallChanged, .repartitionStarted, .repartitionDone] then 2
    else if k ∈ [.languageDropped, .leadChanged, .relayLost] then 3
    else if k ∈ [.claimWaiting, .claimServed] then 4
    else if k ∈ [.integrityCorrected, .recordDamaged] then 5
    else 6 := by
  cases k <;> rfl

/-! ## The obligation -/

/-- Settles O8: the command by `Chip.commandRow_setEvents`, and the mask on postings by the class of each kind
(`EventKind.cls_bit_eq`). -/
theorem setEventsWritesMask : Obligations.SetEventsWritesMask := by
  refine ⟨fun s hd mask hr => ?command, fun q k => ?postings⟩
  case command => rw [exec_of_command (x := .setEvents mask) rfl, Chip.commandRow_setEvents hr]
  case postings => rw [EventQueue.passes, EventKind.cls_bit_eq]

end Sys2Proof.Machine

/-! SUPPORT. O28: STORE PRESET (R156), ERASE PRESET (R158) and SET HOUSE WRITE (R159). The rules do not see the
supervision window, so each row answers as if its rule ran on the hall before the window's restart (R143). -/

namespace Sys2Proof.Machine

/-! ## Damaged marks in the tables of a preset (R156, step 4) -/

/-- A table counts a damaged record exactly when one of its records is damaged. -/
theorem damagedIn_pos_iff {α : Type} {n : Nat} (t : Vector (Protected α) n) :
    0 < damagedIn t ↔ t.toList.any (·.damaged) = true := by
  rw [damagedIn, List.length_pos_iff, ne_eq, List.filter_eq_nil_iff, List.any_eq_true]
  push Not
  rfl

/-- The damaged records that STORE PRESET counts are those of every table but the delegate table. -/
theorem Hall.presetDamaged_pos_iff (h : Hall) : 0 < h.presetDamaged ↔
    h.mem.settings.toList.any (·.damaged) ∨ h.mem.plans.toList.any (·.damaged) ∨ h.mem.booths.toList.any (·.damaged) ∨
      h.mem.classes.toList.any (·.damaged) ∨ h.mem.overrides.toList.any (·.damaged) := by
  simp only [← damagedIn_pos_iff, Hall.presetDamaged, TableMemory.damagedCount]
  omega

/-! ## The rules of the three commands -/

namespace Hall

variable {h : Hall}

/-- The reads of step 4 change nothing where they find nothing. -/
theorem idle_readPreset {rd : Reader} (hr : rd.Idle) (hm : h.mem.ReadsFindNothing) : h.readPreset rd = h := by
  rw [readPreset, idle_readOverrides hr hm, idle_readSettings hr hm, idle_readPlans hr hm, idle_readBooths hr hm,
    idle_readClasses hr hm]

/-- Steps 1 to 3 of R156 in order: range, busy, house protection. -/
theorem programRefusal_eq (houseWp : Bool) (p : Nat) : h.programRefusal houseWp p =
    if 15 < p then some (.check .fieldOutOfRange 1)
    else if h.store.programming ≠ none then some (.check .storeInProgress 0)
    else if 12 ≤ p ∧ (houseWp = false ∨ h.store.houseWrite = false) then some (.check .housePreset 0)
    else none := by
  have hbusy : h.store.programming.isSome = true ↔ h.store.programming ≠ none := Option.isSome_iff_ne_none
  have hhouse : ¬(houseWp = true ∧ h.store.houseWrite = true) ↔ houseWp = false ∨ h.store.houseWrite = false := by
    rw [Classical.not_and_iff_not_or_not, Bool.not_eq_true, Bool.not_eq_true]
  simp only [programRefusal, hbusy, hhouse]
  rfl

/-- STORE PRESET where reads find nothing. -/
theorem storePreset_eq (hm : h.mem.ReadsFindNothing) (houseWp : Bool) (p : Nat) : h.storePreset reader houseWp p =
    if 15 < p then (h, .check .fieldOutOfRange 1)
    else if h.store.programming ≠ none then (h, .check .storeInProgress 0)
    else if 12 ≤ p ∧ (houseWp = false ∨ h.store.houseWrite = false) then (h, .check .housePreset 0)
    else if h.mem.settings.toList.any (·.damaged) ∨ h.mem.plans.toList.any (·.damaged) ∨
        h.mem.booths.toList.any (·.damaged) ∨ h.mem.classes.toList.any (·.damaged) ∨
        h.mem.overrides.toList.any (·.damaged) then (h, .check .recordDamaged 0)
    else (h.program p (.store h.copyTables) 1474560, .good .none 0 {}) := by
  simp only [storePreset, programRefusal_eq, idle_readPreset reader_idle hm, presetDamaged_pos_iff]
  split_ifs <;> rfl

/-- ERASE PRESET. -/
theorem erasePreset_eq (houseWp : Bool) (p : Nat) : h.erasePreset houseWp p =
    if 15 < p then (h, .check .fieldOutOfRange 1)
    else if h.store.programming ≠ none then (h, .check .storeInProgress 0)
    else if 12 ≤ p ∧ (houseWp = false ∨ h.store.houseWrite = false) then (h, .check .housePreset 0)
    else (h.program p .erase 491520, .good .none 0 {}) := by
  simp only [erasePreset, programRefusal_eq]
  split_ifs <;> rfl

/-! None of the three rules sees the supervision window, and none touches the Command Processor. -/

@[simp] theorem program_cmd (p : Nat) (op : ProgramOp) (periods : Nat) : (h.program p op periods).cmd = h.cmd := rfl

theorem storePreset_windowFree (hm : h.mem.ReadsFindNothing) (houseWp : Bool) (p : Nat) :
    WindowFree (storePreset reader houseWp p) h where
  cmd := by
    rw [storePreset_eq hm]
    simp only [apply_ite Prod.fst, apply_ite Hall.cmd, program_cmd, ite_self]
  window w := by
    rw [storePreset_eq hm, storePreset_eq (h := h.withWindow w) hm]
    simp only [apply_ite (Prod.map (withWindow w) id)]
    rfl

theorem erasePreset_windowFree (houseWp : Bool) (p : Nat) : WindowFree (erasePreset houseWp p) h where
  cmd := by
    rw [erasePreset_eq]
    simp only [apply_ite Prod.fst, apply_ite Hall.cmd, program_cmd, ite_self]
  window w := by
    rw [erasePreset_eq (h := h), erasePreset_eq (h := h.withWindow w)]
    simp only [apply_ite (Prod.map (withWindow w) id)]
    rfl

theorem setHouseWrite_windowFree (enable : Nat) : WindowFree (setHouseWrite enable) h where
  cmd := by
    unfold setHouseWrite
    split <;> rfl
  window w := by
    unfold setHouseWrite
    split <;> rfl

end Hall

/-! ## The rows -/

/-- The row of a command that every mode but SAFE takes, and whose rule does not see the window (R139, Table 9.4). -/
theorem Chip.commandRow_of_notSafe {hd : Hdr} {x : Command} {c : Chip} {f : Hall → Hall × Answer} (hr : c.Ready)
    (hs : x.spelled = true) (ht : ∀ m, Command.taken m x = (m != .safe)) (he : x ≠ .engineReset)
    (hx : c.restartWindow.run reader x = c.restartWindow.onHall f) (hf : Hall.WindowFree f c.hall) :
    c.commandRow hd x = if c.hall.cmd.mode = .safe then c.answered hd (.check .wrongMode 3)
      else { c with hall := (f c.hall).1 }.answered hd (f c.hall).2 := by
  by_cases hsafe : c.hall.cmd.mode = .safe
  · rw [if_pos hsafe, commandRow_of_wrongMode hr hs (by rw [ht, hsafe]; rfl), hsafe]
    rfl
  · rw [if_neg hsafe]
    exact commandRow_of_windowFree hr hs ((ht _).trans (bne_iff_ne.mpr hsafe)) he hx hf

/-- The row of SET HOUSE WRITE, which every mode takes (R159). -/
theorem Chip.commandRow_setHouseWrite {hd : Hdr} {enable : Byte} {c : Chip} (hr : c.Ready) :
    c.commandRow hd (.setHouseWrite enable) =
      if 1 < enable.toNat then c.answered hd (.check .fieldOutOfRange 1)
      else { c with hall.store.houseWrite := enable == 1 }.answered hd (.good .none 0 {}) := by
  have hflag : (enable.toNat == 1) = (enable == 1) := Bool.eq_iff_iff.mpr (by simp [BitVec.toNat_eq])
  rw [commandRow_of_windowFree (x := .setHouseWrite enable) hr rfl rfl nofun rfl
    (Hall.setHouseWrite_windowFree _), Hall.setHouseWrite, hflag]
  split_ifs <;> rfl

/-! ## The obligation -/

/-- Settles O28: STORE PRESET and ERASE PRESET are taken outside SAFE alone, and there their checks come in the order of
`Hall.storePreset_eq` and `Hall.erasePreset_eq`; SET HOUSE WRITE is taken in every mode. -/
theorem presetsAreProgrammed : Obligations.PresetsAreProgrammed := by
  refine ⟨?store, ?erase, ?houseWrite⟩
  case store =>
    intro s hd preset hr hm c h p m
    rw [exec_of_command (x := .storePreset preset) rfl,
      Chip.commandRow_of_notSafe (x := .storePreset preset) hr rfl (fun _ => rfl) nofun rfl
        (Hall.storePreset_windowFree hm _ _), Chip.restartWindow_pins, Hall.storePreset_eq hm]
    congr 2
    split_ifs <;> rfl
  case erase =>
    intro s hd preset hr c h p
    rw [exec_of_command (x := .erasePreset preset) rfl,
      Chip.commandRow_of_notSafe (x := .erasePreset preset) hr rfl (fun _ => rfl) nofun rfl
        (Hall.erasePreset_windowFree _ _), Chip.restartWindow_pins, Hall.erasePreset_eq]
    congr 2
    split_ifs <;> rfl
  case houseWrite =>
    intro s hd enable hr c
    rw [exec_of_command (x := .setHouseWrite enable) rfl, Chip.commandRow_setHouseWrite hr]

end Sys2Proof.Machine

/-! SUPPORT. Properties of the hall that every rule keeps: those that look at nothing but the reply queue and the events that
wait. Each due step, cell, command and placement is gone through once (R94, R126, R127, R133). -/

namespace Sys2Proof.Machine

/-- What a rule may do to the Command Processor: it moves the modes and the deferred record, or writes the supervision with its
window restarted (R138, R140, R141, R144). -/
def CommandProcessor.MovesTo (a b : CommandProcessor) : Prop :=
  b.replies = a.replies ∧ b.groupFailed = a.groupFailed ∧
    (b.supervision = a.supervision ∨ b.supervision.window = 10 * b.supervision.timeout)

/-- Property `P` is kept by every update of the hall that leaves the reply queue alone and changes the events by postings and
the class mask. -/
structure ClosedHall (P : Hall → Prop) : Prop extends ClosedSafe P where
  timed : ∀ u f h, P h → P (Hall.setRun u f h)
  plain : ∀ h p f g m s, P h →
    P { h with part := p, floor := f, gains := g, mem := m, store := s }
  cmd   : ∀ h x, h.cmd.MovesTo x → P h → P { h with cmd := x }
  mask  : ∀ h x, P h → P { h with events.mask := x }

theorem ClosedHall.table {P : Hall → Prop} (C : ClosedHall P) (h : Hall) (m : TableMemory) (hp : P h) :
    P { h with mem := m } := C.plain h _ _ _ m _ hp

namespace Hall

variable {P : Hall → Prop} {rd : Reader} {h : Hall}

section closed
variable (C : ClosedHall P)
include C

theorem keeps_mode {m : Mode} (hp : P h) : P (h.setMode m) := C.cmd h _ ⟨rfl, rfl, .inl rfl⟩ hp
theorem keeps_requested {m : ReqMode} (hp : P h) : P (h.setRequested m) :=
  C.cmd h _ ⟨rfl, rfl, .inl rfl⟩ hp
theorem keeps_writeBooth {b : Nat} {v : Booth} (hp : P h) : P (h.writeBooth b v) := C.plain h _ _ _ _ _ hp
theorem keeps_writeSettings {s : Nat} {v : Settings} (hp : P h) : P (h.writeSettings s v) := C.plain h _ _ _ _ _ hp
theorem keeps_flipWall {w : Nat} (hp : P h) : P (h.flipWall w) := C.post _ _ _ _ _ _ _ (C.plain h _ _ _ _ _ hp)

theorem keeps_debounce {w : Nat} {x : WallState} (hp : P h) : P (h.debounce w x) :=
  keeps_ite (C.plain h _ _ _ _ _ hp) (C.plain h _ _ _ _ _ hp)

theorem keeps_storeComplete {ok : Bool} (hp : P h) : P (h.storeComplete ok) := by
  have hstored : ∀ x y p, P (((h.setPreset p x).setProgramming y).postPreset ok p 0) := fun x y p =>
    keeps_post C.toClosedEvents (C.plain h _ _ _ _ _ hp)
  unfold storeComplete
  split
  · exact keeps_ite (hstored _ _ _) (C.cmd _ _ ⟨rfl, rfl, .inl rfl⟩ (hstored _ _ _))
  · exact hp

theorem keeps_eraseComplete {ok : Bool} (hp : P h) : P (h.eraseComplete ok) := by
  unfold eraseComplete
  split
  · exact keeps_post C.toClosedEvents (C.plain h _ _ _ _ _ hp)
  · exact hp

end closed

section reads
variable (C : ClosedHall P) (K : rd.Keeps P)
include C K

/-! ## Seconds and unit cells -/

theorem keeps_second (hp : P h) : P (h.second rd) :=
  each_keeps (fun _ _ => keeps_secondTest C.toClosedFloor K) (each_keeps (fun _ _ => C.timed _ _ _) hp)

theorem keeps_taken {g u : Nat} (hp : P h) : P (taken rd g u h) := by
  unfold taken
  split
  · exact keeps_post C.toClosedEvents
      (keeps_mark C.toClosedFloor (keeps_recomputeMics C.toClosedFloor K (C.timed _ _ _ hp)))
  · exact keeps_mark C.toClosedFloor hp

/-! ## Commands -/

omit K in
theorem keeps_setModeLive {m : Nat} (hp : P h) : P (h.setModeLive m).1 := by
  unfold setModeLive
  split
  · exact hp
  · split
    · exact keeps_requested C hp
    · exact hp
    · split
      · exact keeps_fadeRooms C.toClosedRooms (by decide) (keeps_mode C (keeps_requested C hp))
      · exact hp
    · split
      · exact keeps_mode C (keeps_requested C hp)
      · exact hp

theorem keeps_setModeConfig (hp : P h) : P (h.setModeConfig rd).1 := by
  have hrequested : P (h.setRequested .config) := keeps_requested C hp
  unfold setModeConfig
  split_ifs
  · exact keeps_ite hrequested (keeps_enterStopping C.toClosedRooms K (keeps_mode C hrequested))
  · exact hp

omit K in
theorem keeps_supervise {e t l : Nat} (hp : P h) : P (h.supervise e t l).1 := by
  unfold supervise
  dsimp only
  split
  · exact hp
  · split_ifs
    · exact hp
    · exact hp
    · exact C.cmd h _ ⟨rfl, rfl, .inr rfl⟩ hp

omit K in
theorem keeps_setEvents {m : Byte} (hp : P h) : P (h.setEvents m).1 := by
  unfold setEvents
  split_ifs
  · exact hp
  · exact C.mask h _ hp

theorem keeps_loadPart {u t k : Nat} (hp : P h) : P (h.loadPart rd u t k) := by
  have hwritten : P (((h.writeTrimClass u t k).setRun u (fun x => { x with unknownReported := false })).mark u) :=
    keeps_mark C.toClosedFloor (C.timed _ _ _ (C.plain h _ _ _ _ _ hp))
  have haimed : ∀ g : Hall, P g →
      P (if g.isSpeaking u then g.aimMic u (speakingTarget t (g.speakers (g.roomOfUnit u)).length) else g) := fun g hg =>
    keeps_ite (keeps_aimMic C.toClosedFloor (Nat.le_trans (Nat.min_le_left _ _) (by decide)) hg) hg
  exact keeps_ite (haimed _ hwritten) (keeps_limitChanged C.toClosedFloor K (haimed _ hwritten))

theorem keeps_loadDelegate {u s r t k : Nat} (hp : P h) : P (h.loadDelegate rd u s r t k).1 := by
  have hread := K.delegate u h hp
  unfold loadDelegate
  dsimp only
  split
  · exact hp
  · split_ifs
    · exact keeps_mark C.toClosedFloor (C.timed _ _ _ (C.plain _ _ _ _ _ _ hread))
    · exact keeps_loadPart C K hread
    · exact hread

theorem keeps_removeDelegate {u : Nat} (hp : P h) : P (h.removeDelegate rd u).1 := by
  have hread := K.delegate u h hp
  unfold removeDelegate
  dsimp only
  split
  · exact hp
  · split_ifs
    · exact hread
    · exact hread
    · exact keeps_unmark C.toClosedFloor (C.timed _ _ _ (C.plain _ _ _ _ _ _ hread))

omit C in
theorem keeps_readDelegate {u part : Nat} (hp : P h) : P (h.readDelegate rd u part).1 := by
  have hread := K.delegate u h hp
  unfold readDelegate
  dsimp only
  split
  · exact hp
  · split_ifs <;> exact hread

theorem keeps_setTimeClass {k l w : Nat} (hp : P h) : P (h.setTimeClass rd k l w).1 := by
  unfold setTimeClass
  dsimp only
  split
  · exact hp
  · exact keeps_classChanged C.toClosedFloor K (C.plain h _ _ _ _ _ hp)

theorem keeps_grantFloor {u : Nat} (hp : P h) : P (h.grantFloor rd u).1 := by
  have hread := K.settings ((rd.delegate u h).roomOfUnit u) _ (K.delegate u h hp)
  unfold grantFloor
  dsimp only
  split
  · exact hp
  · split_ifs
    · exact K.delegate u h hp
    · exact hread
    · exact hread
    · exact hread
    · exact hread
    · exact hread
    · exact keeps_grant C.toClosedFloor hread

theorem keeps_closeFloorOf {u : Nat} (hp : P h) : P (h.closeFloorOf rd u).1 := by
  have hread := K.delegate u h hp
  unfold closeFloorOf
  dsimp only
  split
  · exact hp
  · split_ifs
    · exact keeps_operatorClose C.toClosedFloor K hread
    · exact hread

theorem keeps_clearFloorOf {r scope : Nat} (hp : P h) : P (h.clearFloorOf rd r scope).1 := by
  unfold clearFloorOf
  split_ifs
  · exact hp
  · exact hp
  · exact keeps_clearFloor C.toClosedFloor K hp

theorem keeps_setSectionFloor {s m x q g k t : Nat} (hp : P h) : P (h.setSectionFloor rd s m x q g k t).1 := by
  unfold setSectionFloor
  dsimp only
  split
  · exact hp
  · exact keeps_settingsChanged C.toClosedFloor K (C.plain _ _ _ _ _ _ (K.settings _ _ hp))

theorem keeps_setSectionLevels {s l f w : Nat} (hp : P h) : P (h.setSectionLevels rd s l f w).1 := by
  unfold setSectionLevels
  split_ifs
  · exact hp
  · exact C.plain _ _ _ _ _ _ (K.settings _ _ hp)

theorem keeps_setWall {w o : Nat} (hp : P h) : P (h.setWall rd w o).1 := by
  unfold setWall
  split
  · exact hp
  · exact keeps_computeWalls C.toClosedPart K (C.plain h _ _ _ _ _ hp)

theorem keeps_setBooth {b l m g : Nat} (hp : P h) : P (h.setBooth rd b l m g).1 := by
  have hread := K.booth b h hp
  unfold setBooth
  dsimp only
  split
  · exact hp
  · split_ifs
    · exact hread
    · exact C.sync _ (keeps_boothWritten C.toClosedRooms K (C.plain _ _ _ _ _ _ hread))
    · exact C.sync _ (keeps_boothWritten C.toClosedRooms K (C.plain _ _ _ _ _ _ (keeps_readBooths K hread)))

theorem keeps_setHomePlan {s n : Nat} {codes : List Nat} (hp : P h) : P (h.setHomePlan rd s n codes).1 := by
  unfold setHomePlan
  dsimp only
  split_ifs
  · exact hp
  · split
    · exact hp
    · split
      · exact hp
      · exact keeps_replan C.toClosedRooms K (C.plain h _ _ _ _ _ hp)

omit C K in
theorem readSlot_hall (selector number : Nat) (h : Hall) : (h.readSlot selector number).1 = h := by
  unfold readSlot
  split_ifs <;> rfl

omit C K in
theorem keeps_readSlot {selector number : Nat} (hp : P h) : P (h.readSlot selector number).1 :=
  (readSlot_hall selector number h).symm ▸ hp

/-! ## Presets -/

omit C in
theorem keeps_readPreset (hp : P h) : P (h.readPreset rd) :=
  readAll_keeps K.timeClass (readAll_keeps K.booth (readAll_keeps K.plan (readAll_keeps K.settings
    (readAll_keeps K.override hp))))

theorem keeps_storePreset {wp : Bool} {p : Nat} (hp : P h) : P (h.storePreset rd wp p).1 := by
  have hread := keeps_readPreset K hp
  unfold storePreset
  split
  · exact hp
  · dsimp only
    split_ifs
    · exact hread
    · exact C.plain _ _ _ _ _ _ (C.plain _ _ _ _ _ _ hread)

omit K in
theorem keeps_erasePreset {wp : Bool} {p : Nat} (hp : P h) : P (h.erasePreset wp p).1 := by
  unfold erasePreset
  split
  · exact hp
  · exact C.plain h _ _ _ _ _ hp

omit K in
theorem keeps_setHouseWrite {e : Nat} (hp : P h) : P (h.setHouseWrite e).1 := by
  unfold setHouseWrite
  split_ifs
  · exact hp
  · exact C.plain h _ _ _ _ _ hp

theorem keeps_recallClasses {x : PresetContents} (hp : P h) : P (h.recallClasses rd x) :=
  each_keeps (fun _ _ => keeps_classChanged C.toClosedFloor K) (each_keeps (fun _ h => C.plain h _ _ _ _ _) hp)

theorem keeps_recallSettings {x : PresetContents} (hp : P h) : P (h.recallSettings rd x) :=
  each_keeps (fun _ _ => keeps_settingsChanged C.toClosedFloor K) (each_keeps (fun _ h => C.plain h _ _ _ _ _) hp)

theorem keeps_recallPlans {x : PresetContents} (hp : P h) : P (h.recallPlans rd x) :=
  each_keeps (fun _ _ => keeps_replan C.toClosedRooms K) (each_keeps (fun _ h => C.plain h _ _ _ _ _) hp)

theorem keeps_recallBooths {x : PresetContents} (hp : P h) : P (h.recallBooths rd x) :=
  C.sync _ (each_keeps (fun _ _ => keeps_boothWritten C.toClosedRooms K)
    (each_keeps (fun _ h => C.plain h _ _ _ _ _) (keeps_readBooths K hp)))

theorem keeps_recallOverrides {x : PresetContents} (hp : P h) : P (h.recallOverrides rd x) :=
  keeps_computeWalls C.toClosedPart K (each_keeps (fun _ h => C.plain h _ _ _ _ _) hp)

theorem keeps_recallPreset {p : Nat} (hp : P h) : P (h.recallPreset rd p).1 := by
  unfold recallPreset
  split_ifs
  · exact hp
  · split
    · exact hp
    · exact hp
    · next x _ =>
      have hplans : P (((h.recallClasses rd x).recallSettings rd x).recallPlans rd x) :=
        keeps_recallPlans C K (keeps_recallSettings C K (keeps_recallClasses C K hp))
      exact keeps_recallOverrides C K (keeps_ite hplans (keeps_recallBooths C K hplans))

/-! ## Placements -/

omit C in
theorem keeps_readUnit {u : Nat} (hp : P h) : P (h.readUnit rd u) :=
  keeps_ite (K.timeClass _ _ (K.delegate _ _ hp)) (K.delegate _ _ hp)

omit C in
theorem keeps_chooseUnit {pointer n : Nat} (hp : P h) : P (chooseUnit rd pointer n h).1 := by
  induction n generalizing h with
  | zero => exact hp
  | succ n ih =>
    unfold chooseUnit
    split
    · exact hp
    · dsimp only
      split_ifs
      · exact keeps_readUnit K hp
      · exact ih (keeps_readUnit K hp)

omit K in
theorem keeps_unitPlaced {u : Nat} (hp : P h) : P (h.unitPlaced u) := keeps_unmark C.toClosedFloor (C.timed _ _ _ hp)

end reads

end Hall

/-! ## The rows of the chip -/

namespace Chip

variable {P : Hall → Prop} {c : Chip}

section closed
variable (C : ClosedHall P) (K : reader.Keeps P)
include C K

omit K in
/-- A tick may also take one off the supervision window (R143). -/
theorem tick_keeps (W : ∀ h n, P h → P { h with cmd.supervision.window := n }) (hp : P c.hall) : P c.tick.hall := by
  have hsupervised : ∀ c : Chip, P c.hall → P c.superviseTick.hall := fun c hc => by
    unfold superviseTick
    dsimp only
    split
    · exact W c.hall _ hc
    · exact hc
  exact hsupervised _ (C.plain c.hall _ _ _ _ _ hp)

theorem scan_keeps (hp : P c.hall) : P c.scan.hall := by
  have hscanned : P (c.hall.each (List.range 7) fun w => Hall.debounce w (wallReading c.pins.walls w)) :=
    Hall.each_keeps (fun _ _ => Hall.keeps_debounce C) hp
  unfold scan
  dsimp only
  split
  · rw [onlyHall_hall]
    exact Hall.keeps_computeWalls C.toClosedPart K hscanned
  · exact hscanned

theorem wallFlip_keeps {w : Nat} (hp : P c.hall) : P (c.wallFlip w).hall := by
  have hflipped : P (c.hall.flipWall w) := Hall.keeps_flipWall C hp
  unfold wallFlip
  dsimp only
  split
  · exact hflipped
  · rw [onlyHall_hall]
    exact Hall.keeps_computeWalls C.toClosedPart K hflipped

theorem runDue_keeps (W : ∀ h n, P h → P { h with cmd.supervision.window := n }) {d : Due} (hp : P c.hall) : P (c.runDue d).hall := by
  cases d with
  | rampStep => exact C.plain _ _ _ _ _ _ hp
  | window u => exact Hall.keeps_windowExpiry C.toClosedFloor K hp
  | tick => exact tick_keeps C W hp
  | supervision => exact Hall.keeps_enterSafe C.toClosedSafe K (Hall.keeps_post C.toClosedEvents hp)
  | scan => exact scan_keeps C K hp
  | wallFlip w => exact wallFlip_keeps C K hp
  | gapExpiry r => exact Hall.keeps_gapExpiry C.toClosedFloor K hp
  | second => exact Hall.keeps_second C K hp
  | closeEnd u => exact Hall.keeps_closeEnd C.toClosedFloor K hp
  | partitionChange => exact Hall.keeps_partitionChange C.toClosedPart K hp
  | repartitionDone => exact Hall.keeps_repartitionDone C.toClosedPart K (fun _ => Hall.keeps_mode C) hp
  | stopping => exact Hall.keeps_stoppingComplete C.toClosedPart K (fun _ => Hall.keeps_mode C) hp

omit C in
theorem readBooth_keeps {b part : Nat} (hp : P c.hall) : P (c.readBooth reader b part).1.hall := by
  have hread := K.booth b c.hall hp
  unfold readBooth
  dsimp only
  split
  · exact hp
  · split_ifs <;> exact hread

theorem run_keeps {x : Command} (hp : P c.hall) : P (c.run reader x).1.hall := by
  cases x with
  | unknown code => exact hp
  | status p => unfold run status; dsimp only; split_ifs <;> exact hp
  | setModeLive m => exact Hall.keeps_setModeLive C hp
  | setModeConfig => exact Hall.keeps_setModeConfig C K hp
  | engineReset => exact hp
  | supervise e t l => exact Hall.keeps_supervise C hp
  | setEvents m => exact Hall.keeps_setEvents C hp
  | setTiming r s d => exact C.plain _ _ _ _ _ _ hp
  | loadDelegate u s r t k => exact Hall.keeps_loadDelegate C K hp
  | removeDelegate u => exact Hall.keeps_removeDelegate C K hp
  | readDelegate u p => exact Hall.keeps_readDelegate K hp
  | setTimeClass k l w => exact Hall.keeps_setTimeClass C K hp
  | grantFloor u => exact Hall.keeps_grantFloor C K hp
  | closeFloor u => exact Hall.keeps_closeFloorOf C K hp
  | clearFloor r s => exact Hall.keeps_clearFloorOf C K hp
  | setSectionFloor s m x q g k t => exact Hall.keeps_setSectionFloor C K hp
  | setWall w o => exact Hall.keeps_setWall C K hp
  | readRoom r => unfold run readRoom; dsimp only; split_ifs <;> exact hp
  | setSectionLevels s l f u => exact Hall.keeps_setSectionLevels C K hp
  | setBooth b l m g => exact Hall.keeps_setBooth C K hp
  | setHomePlan s n cs => exact Hall.keeps_setHomePlan C K hp
  | readBooth b p => exact readBooth_keeps K hp
  | readSlot s n => exact Hall.keeps_readSlot hp
  | storePreset p => exact Hall.keeps_storePreset C K hp
  | recallPreset p => exact Hall.keeps_recallPreset C K hp
  | erasePreset p => exact Hall.keeps_erasePreset C hp
  | setHouseWrite e => exact Hall.keeps_setHouseWrite C hp

omit K in
/-- The count of a frame also moves the frame counter (R118). -/
theorem count_keeps (W : ∀ h t, P h → P { h with frameCounter := t }) (hp : P c.hall) : P c.count.hall :=
  C.plain { c.hall with frameCounter := c.hall.frameCounter + 1 } _ _ _ _ _ (W _ _ hp)

omit K in
theorem latch_keeps {a : Arrival} (hp : P c.hall) : P (c.latch a).hall := C.plain c.hall _ _ _ _ _ hp

omit K in
theorem relock_keeps (hp : P c.hall) : P c.relock.hall :=
  Hall.keeps_post C.toClosedEvents (Hall.keeps_markAllNotices C.toClosedSlots (Hall.keeps_markKnown C.toClosedFloor hp))

/-- A cell that is no command is handled by its owner alone (R126). -/
theorem deliver_keeps {m : InCell} (hp : P c.hall) (hcommand : ∀ hd x, m = .command hd x → P (c.deliverCommand hd x).hall) :
    P (c.deliver m).hall := by
  cases m with
  | micPress u =>
    rw [deliver, onlyHall_hall]
    exact Hall.keeps_fromUnit C.toClosedFloor K (fun _ _ => Hall.keeps_micPress C.toClosedFloor K) hp
  | priorityPress u =>
    rw [deliver, onlyHall_hall]
    exact Hall.keeps_fromUnit C.toClosedFloor K (fun _ _ => Hall.keeps_priorityPress C.toClosedFloor K) hp
  | unitTaken u g =>
    rw [deliver, onlyHall_hall]
    exact Hall.keeps_fromUnit C.toClosedFloor K (fun _ _ => Hall.keeps_taken C K) hp
  | boothReport b s r =>
    rw [deliver, onlyHall_hall]
    exact Hall.keeps_boothReport C.toClosedRooms K hp
  | command hd x => exact hcommand hd x rfl

/-- A placement takes a reply or an event out of its queue, or marks off a unit or a notice (R127). -/
theorem arbiter_keeps (hreplies : ∀ h, P h → P { h with cmd.replies := h.cmd.replies.tail })
    (hevents : ∀ h, P h → P { h with events.events := h.events.events.tail }) {x : Cell} (hp : P c.hall) :
    P (c.arbiter x).1.hall := by
  have hchosen : P (c.hall.chooseUnit reader c.ring.pointer 192).1 := Hall.keeps_chooseUnit K hp
  have hother : ∀ h : Hall, P h → P (h.placeOther reader).1 := fun h hh => by
    unfold Hall.placeOther
    split
    · exact hreplies h hh
    · split
      · exact C.notices _ _ _ (K.booth _ _ hh)
      · split
        · exact C.notices _ _ _ (Hall.keeps_ite (Hall.keeps_readBooths K hh) hh)
        · split
          · exact hevents h hh
          · exact hh
  unfold arbiter Hall.place
  dsimp only
  split
  · exact Hall.keeps_unitPlaced C hchosen
  · exact hother _ hchosen

/-- The computation of a frame reads the levels, where a read may find damage after the ramp step (R90). -/
theorem compute_keeps (W : ∀ h n, P h → P { h with cmd.supervision.window := n }) {f : Frame} (hp : P c.hall) :
    P (c.compute f).hall := by
  have hramp : P c.settleRamp.hall := by
    unfold settleRamp
    split
    · exact runDue_keeps C K W hp
    · exact hp
  unfold compute
  simp only [onlyHall_hall]
  refine Hall.keeps_readBooths K (Hall.readAll_keeps K.settings ?_)
  split
  · exact hp
  · exact hramp

end closed

end Chip

end Sys2Proof.Machine

/-! SUPPORT. O59: the reply queue and the events that wait are bounded by how a reply is queued (R126, R134) and an event
posted (R149, R150). -/

namespace Sys2Proof.Machine

/-- A posting keeps the list at 64 events and the lost count at 65,535 (R149, R150). -/
theorem push_bounded {q : EventQueue} {now : FrameCount} {e : Event} (hq : q.events.length ≤ 64 ∧ q.lostCount ≤ 65535) :
    (q.push now e).events.length ≤ 64 ∧ (q.push now e).lostCount ≤ 65535 := by
  obtain ⟨hlength, hlost⟩ := hq
  unfold EventQueue.push
  split_ifs with _ _ hroom hplaces
  · exact ⟨hlength, hlost⟩
  · exact ⟨by rw [List.length_append]; exact hroom, hlost⟩
  · exact ⟨hlength, by simp⟩
  · exact ⟨by simpa [Config.eventPlaces] using hplaces, by simp⟩
  · exact ⟨hlength, Nat.min_le_right _ _⟩

namespace Hall

/-- A property of the reply queue and the Event Queue that postings and the class mask keep is kept by every rule. -/
theorem closedHall_of_queues {R : List Reply → EventQueue → Prop} (hpush : ∀ rs q now e, R rs q → R rs (q.push now e))
    (hmask : ∀ rs q m, R rs q → R rs { q with mask := m }) : ClosedHall (fun h => R h.cmd.replies h.events) where
  post _ _ _ _ _ _ _ hp := hpush _ _ _ _ hp
  run _ _ _ _ hp := hp
  floor _ _ _ hp := hp
  slot _ _ hp := hp
  mic _ _ _ _ hp := hp
  held _ _ _ _ hp := hp
  notices _ _ _ hp := hp
  slots _ _ _ hp := hp
  plans _ _ hp := hp
  booth _ _ _ hp := hp
  fades _ _ _ _ hp := hp
  sync _ hp := hp
  partition _ _ hp := hp
  effective _ _ hp := hp
  repartition _ _ hp := hp
  safe _ _ hp := hp
  timed _ _ _ hp := hp
  plain _ _ _ _ _ _ hp := hp
  cmd _ _ hx hp := hx.1 ▸ hp
  mask _ _ hp := hmask _ _ _ hp

/-- The reply queue is `rs`. -/
def RepliesAt (rs : List Reply) (h : Hall) : Prop := h.cmd.replies = rs

/-- At most `n` replies wait, and the events that wait and the lost count lie in their ranges (R134, R149, R150). -/
def QueuesWithin (n : Nat) (h : Hall) : Prop :=
  h.cmd.replies.length ≤ n ∧ h.events.events.length ≤ 64 ∧ h.events.lostCount ≤ 65535

theorem repliesAt_closed (rs : List Reply) : ClosedHall (RepliesAt rs) :=
  closedHall_of_queues (R := fun x _ => x = rs) (fun _ _ _ _ hp => hp) (fun _ _ _ hp => hp)

theorem queuesWithin_closed (n : Nat) : ClosedHall (QueuesWithin n) :=
  closedHall_of_queues (R := fun rs q => rs.length ≤ n ∧ q.events.length ≤ 64 ∧ q.lostCount ≤ 65535)
    (fun _ _ _ _ hp => hp.imp_right push_bounded) (fun _ _ _ hp => hp)

/-- The reads with their reactions keep what every rule keeps. -/
theorem closedHall_reader {P : Hall → Prop} (C : ClosedHall P) : reader.Keeps P :=
  reader_keeps C.toClosedSafe (notes_keep C.toClosedEvents C.table)

end Hall

end Sys2Proof.Machine

/-! SUPPORT. O59: what a row can do to the chip, said once as a list of moves; each of the three invariants of
StepKeepsBounds is then kept by every move. -/

namespace Sys2Proof.Machine

/-! ## The moves of the chip -/

/-- Property `Q` of the chip is kept by the taking of due steps. -/
structure Chip.Settled (Q : Chip → Prop) : Prop where
  due : ∀ ds c, Q c → Q { c with due := ds }
  run : ∀ d c, Q c → Q (c.runDue d)

/-- Property `Q` of the chip is kept by due steps, the lane error count, placements, and the delivery of the cells in `A`. -/
structure Chip.ClosedLane (A : InCell → Prop) (Q : Chip → Prop) : Prop extends Chip.Settled Q where
  deliver   : ∀ m c, A m → c.leftInLane m = false → Q c → Q (c.deliver m)
  arbiter   : ∀ x c, Q c → Q (c.arbiter x).1
  laneError : ∀ c, Q c → Q c.laneError

/-- Property `Q` of the chip is kept by each of the moves of which every row is made. -/
structure Chip.Closed (Q : Chip → Prop) : Prop extends Chip.ClosedLane (fun _ => True) Q where
  reset     : ∀ pins c, Q c → Q (hardReset pins c)
  program   : ∀ f c, (∃ ok, f = Hall.storeComplete ok ∨ f = Hall.eraseComplete ok) → Q c → Q (c.onlyHall f)
  latch     : ∀ a c, Q c → Q (c.latch a)
  loseRing  : ∀ c, Q c → Q c.loseRing
  relock    : ∀ c, Q c → Q c.relock
  ring      : ∀ l n m c, n < 16 ∨ n = c.ring.run → Q c → Q (c.setRing { c.ring with lock := l, run := n, sinceMarker := m })
  count     : ∀ c, Q c → Q c.count
  compute   : ∀ f c, Q c → Q (c.compute f)
  ringOut   : ∀ x c, Q c → Q { c with ringOut := x }

namespace Chip

variable {Q : Chip → Prop} {c : Chip}

theorem takeOff_keeps (C : Settled Q) {d : Due} (hq : Q c) : Q (c.takeOff d) := C.run _ _ (C.due _ _ hq)

theorem settleRamp_keeps (C : Settled Q) (hq : Q c) : Q c.settleRamp := by
  unfold settleRamp
  split
  · exact takeOff_keeps C hq
  · exact hq

theorem settle_keeps (C : Settled Q) (hq : Q c) : Q c.settle := by
  unfold settle
  dsimp only
  split
  · exact takeOff_keeps C (settleRamp_keeps C hq)
  · exact settleRamp_keeps C hq

theorem drain_keeps (C : Settled Q) {n : Nat} (hq : Q c) : Q (drain n c) := by
  induction n generalizing c with
  | zero => exact hq
  | succ n ih =>
    unfold drain
    split
    · exact hq
    · exact ih (takeOff_keeps C hq)

theorem finish_keeps (C : Settled Q) (hq : Q c) : Q c.finish := drain_keeps C hq

theorem takeRow_keeps (C : Settled Q) {d : Due} (hq : Q c) : Q (c.takeRow d) := by
  have htaken : ∀ c, Q c → Q (if inTurn d c then c.takeOff d else c) := fun c hc => by
    split
    · exact takeOff_keeps C hc
    · exact hc
  unfold takeRow
  split
  · exact htaken _ hq
  · exact htaken _ (settleRamp_keeps C hq)

/-- Settling a chip takes no step that touches the reply queue (R93, R143), so a cell is left in the lane before it exactly
when it is after it. -/
theorem settle_leftInLane (m : InCell) (c : Chip) : c.settle.leftInLane m = c.leftInLane m := by
  have htaken : ∀ d (c : Chip), (c.takeOff d).hall.cmd.replies = c.hall.cmd.replies := fun d c =>
    runDue_keeps (P := Hall.RepliesAt c.hall.cmd.replies) (Hall.repliesAt_closed _) (Hall.closedHall_reader (Hall.repliesAt_closed _))
      (fun _ _ hp => hp) rfl
  have hramp : c.settleRamp.hall.cmd.replies = c.hall.cmd.replies := by
    unfold settleRamp
    split
    · exact htaken _ _
    · rfl
  have hsettled : c.settle.hall.cmd.replies = c.hall.cmd.replies := by
    unfold settle
    dsimp only
    split
    · exact (htaken _ _).trans hramp
    · exact hramp
  cases m with
  | command hd x => simp only [leftInLane, hsettled]
  | _ => rfl

theorem cellRow_keeps {A : InCell → Prop} (C : ClosedLane A Q) {m : InCell} (hm : A m) (hq : Q c) : Q (c.cellRow m) := by
  unfold cellRow
  split
  · split
    · exact C.laneError _ hq
    · split
      · exact hq
      · next hl =>
        have hfree : c.leftInLane m = false := by simpa using (not_or.mp hl).2
        exact C.deliver _ _ hm ((settle_leftInLane m c).trans hfree) (settle_keeps C.toSettled hq)
  · exact hq

theorem lane_keeps {A : InCell → Prop} (C : ClosedLane A Q) {x : Cell} (hx : ∀ m, decodeCell x = some m → A m) (hq : Q c) : Q (c.lane x).1 := by
  unfold lane
  split
  · exact C.arbiter _ _ hq
  · split
    · split
      · exact C.arbiter _ _ hq
      · exact hq
    · split
      · exact C.arbiter _ _ (C.laneError _ hq)
      · next m hm =>
        split
        · exact hq
        · next hl =>
          have hd : Q (c.settle.deliver m) :=
            C.deliver _ _ (hx m hm) ((settle_leftInLane m c).trans (Bool.eq_false_iff.mpr hl)) (settle_keeps C.toSettled hq)
          dsimp only
          split
          · exact C.arbiter _ _ hd
          · exact hd

theorem marker_keeps (C : Closed Q) {gap : Nat} (hq : Q c) : Q (c.marker gap) := by
  unfold marker
  refine C.ring _ _ _ _ (.inr rfl) ?_
  split
  · split
    · exact C.loseRing _ hq
    · exact C.ring _ 0 _ _ (.inl (by decide)) hq
  · exact hq

theorem process_keeps (C : Closed Q) {a : Arrival} (hq : Q c) : Q (c.process a) := by
  have hc := C.compute a.frame c hq
  refine C.ringOut _ _ (lane_keeps C.toClosedLane (fun _ _ => trivial) ?_)
  split
  · exact hc
  · exact finish_keeps C.toSettled hc

theorem acquire_keeps (C : Closed Q) (hq : Q c) : Q c.acquire := by
  have hc : Q (count (c.setRing { c.ring with lock := .locked, run := 0 })) :=
    C.count _ (C.ring _ 0 _ _ (.inl (by decide)) hq)
  unfold acquire
  dsimp only
  split
  · exact C.relock _ hc
  · exact hc

theorem frameArrival_keeps (C : Closed Q) {a : Arrival} (hq : Q c) : Q (c.frameArrival a) := by
  have hm : Q ((c.finish.latch a).marker a.gap) := marker_keeps C (C.latch _ _ (finish_keeps C.toSettled hq))
  unfold frameArrival
  dsimp only
  split
  · exact process_keeps C (C.count _ hm)
  · split
    · exact process_keeps C (acquire_keeps C hm)
    · next hrun => exact C.ringOut _ _ (C.ring _ _ _ _ (.inl (Nat.not_le.mp hrun)) hm)

theorem ringLost_keeps (C : Closed Q) (hq : Q c) : Q c.ringLost := by
  unfold ringLost
  split
  · exact C.ring _ _ _ _ (.inr rfl) (C.loseRing _ (finish_keeps C.toSettled hq))
  · exact hq

theorem runCountCleared_keeps (C : Closed Q) (hq : Q c) : Q c.runCountCleared := by
  unfold runCountCleared
  split
  · exact hq
  · exact C.ring _ 0 _ _ (.inl (by decide)) hq

end Chip

/-- What a row that is no cell does to the chip. -/
def ownAct (i : Instr) : Chip → Chip :=
  match i with
  | .hardReset pins => Chip.hardReset pins
  | .frameArrival a => Chip.frameArrival a
  | .ringLost => Chip.ringLost
  | .runCountCleared => Chip.runCountCleared
  | .tick => Chip.takeRow .tick
  | .second => Chip.takeRow .second
  | .rampStep => Chip.takeRow .rampStep
  | .scan => Chip.takeRow .scan
  | .wallChanged w => Chip.takeRow (.wallFlip w)
  | .partitionChangeEvent => Chip.takeRow .partitionChange
  | .repartitionDone => Chip.takeRow .repartitionDone
  | .stoppingComplete => Chip.takeRow .stopping
  | .closeEnd u => Chip.takeRow (.closeEnd u)
  | .gapExpiry r => Chip.takeRow (.gapExpiry r)
  | .responseWindowExpiry u => Chip.takeRow (.window u)
  | .supervisionExpired => Chip.takeRow .supervision
  | .storeComplete ok => Chip.onlyHall (Hall.storeComplete ok)
  | .eraseComplete ok => Chip.onlyHall (Hall.eraseComplete ok)
  | _ => id

/-- What a row does to the chip: it delivers its cell, or is a row of the chip's own. -/
def rowAct (i : Instr) (c : Chip) : Chip :=
  match i.cell? with
  | some m => c.cellRow m
  | none => ownAct i c

/-- Every row answers a next state: it acts on the chip and leaves the waiting commands (logs 1 and 31). -/
theorem exec_eq_rowAct (i : Instr) (s : State) : exec i s = .next (s.onChip (rowAct i)) := by
  cases i <;> rfl

theorem ownAct_keeps {Q : Chip → Prop} (C : Chip.Closed Q) {i : Instr} {c : Chip} (hq : Q c) : Q (ownAct i c) := by
  unfold ownAct
  split
  case h_1 => exact C.reset _ _ hq
  case h_2 => exact Chip.frameArrival_keeps C hq
  case h_3 => exact Chip.ringLost_keeps C hq
  case h_4 => exact Chip.runCountCleared_keeps C hq
  case h_17 => exact C.program _ _ ⟨_, .inl rfl⟩ hq
  case h_18 => exact C.program _ _ ⟨_, .inr rfl⟩ hq
  case h_19 => exact hq
  all_goals exact Chip.takeRow_keeps C.toSettled hq

theorem rowAct_keeps {Q : Chip → Prop} (C : Chip.Closed Q) {i : Instr} {c : Chip} (hq : Q c) : Q (rowAct i c) := by
  unfold rowAct
  split
  · exact Chip.cellRow_keeps C.toClosedLane trivial hq
  · exact ownAct_keeps C hq

/-- A property that every move of the chip keeps is kept by every step. -/
theorem step_keeps {Q : Chip → Prop} (C : Chip.Closed Q) {s t : State} (h : step s = .next t) (hq : Q s.chip) :
    Q t.chip := by
  unfold step at h
  split at h
  · cases h; exact hq
  · rw [exec_eq_rowAct] at h
    exact Host.Outcome.next.inj h ▸ rowAct_keeps C hq

end Sys2Proof.Machine

/-! SUPPORT. O59: the three invariants, each kept by every move of the chip. -/

namespace Sys2Proof.Machine

namespace Chip

variable {c : Chip}

/-! ## What the due steps and the commands leave alone -/

theorem scan_eq (c : Chip) : ∃ h ds, c.scan = { c with hall := h, due := ds } := by
  unfold scan
  dsimp only
  split <;> exact ⟨_, _, rfl⟩

theorem wallFlip_eq (w : Nat) (c : Chip) : ∃ h, c.wallFlip w = { c with hall := h } := by
  unfold wallFlip
  dsimp only
  split <;> exact ⟨_, rfl⟩

theorem superviseTick_eq (c : Chip) : c.superviseTick = { c with hall := c.superviseTick.hall } := by
  unfold superviseTick
  dsimp only
  split <;> rfl

/-- A tick moves the second counter, and otherwise hall and due steps alone (R122). -/
theorem tick_eq (c : Chip) : ∃ h ds, c.tick = { c with
    hall := h, due := ds
    time.sinceSecond := if 100 ≤ c.time.sinceSecond + 1 then 0 else c.time.sinceSecond + 1 } := by
  unfold tick
  dsimp only
  rw [superviseTick_eq]
  simp only [decide_eq_true_eq]
  exact ⟨_, _, rfl⟩

/-- The count of a frame moves the tick and ramp counters, and otherwise hall and due steps alone (R118, R122, R123). -/
theorem count_eq (c : Chip) : ∃ h ds, c.count = { c with
    hall := h, due := ds
    time.sinceTick := if 480 ≤ c.time.sinceTick + 1 then 0 else c.time.sinceTick + 1
    time.sinceRamp := if c.time.rampInterval ≤ c.time.sinceRamp + 1 then 0 else c.time.sinceRamp + 1 } := by
  unfold count
  simp only [decide_eq_true_eq]
  exact ⟨_, _, rfl⟩

/-- A step that is not the tick moves hall and due steps alone. -/
theorem runDue_eq {d : Due} (hd : d ≠ .tick) (c : Chip) : ∃ h ds, c.runDue d = { c with hall := h, due := ds } := by
  cases d with
  | tick => exact absurd rfl hd
  | scan => exact scan_eq c
  | wallFlip w =>
    obtain ⟨h, hw⟩ := wallFlip_eq w c
    exact ⟨h, c.due, hw⟩
  | rampStep => exact ⟨_, _, rfl⟩
  | window | supervision | gapExpiry | second | closeEnd | partitionChange | repartitionDone | stopping =>
    exact ⟨_, c.due, rfl⟩

theorem settleRamp_eq (c : Chip) : ∃ h ds, c.settleRamp = { c with hall := h, due := ds } := by
  unfold settleRamp
  split
  · obtain ⟨h, ds, hstep⟩ := runDue_eq (d := .rampStep) nofun { c with due := c.due.erase .rampStep }
    exact ⟨h, ds, hstep⟩
  · exact ⟨_, _, rfl⟩

/-- The computation of a frame sets the outputs to a mix, and otherwise moves hall and due steps alone (R90). -/
theorem compute_eq (f : Frame) (c : Chip) : ∃ h ds g, c.compute f = { c with
    hall := h, due := ds, outs := Hall.mix g f c.outs } := by
  obtain ⟨h, ds, hramp⟩ := settleRamp_eq c
  unfold compute
  dsimp only
  rw [hramp]
  simp only [onlyHall]
  split <;> exact ⟨_, _, _, rfl⟩

/-- A command moves the hall, the ramp interval and clip markers alone. -/
theorem run_eq (x : Command) (c : Chip) : ∃ h n r b, (c.run reader x).1 = { c with
    hall := h, time.rampInterval := n, outs.roomClips := r, outs.boothClips := b } ∧
    (n = c.time.rampInterval ∨ 1 ≤ n ∧ n ≤ 32) := by
  cases x with
  | setTiming r s d =>
    refine ⟨_, clampTo 1 32 r.toNat, _, _, rfl, .inr ?_⟩
    rw [clampTo_eq (by decide)]
    omega
  | status p =>
    unfold run status
    dsimp only
    split <;> exact ⟨_, _, _, _, rfl, .inl rfl⟩
  | readRoom r =>
    unfold run readRoom
    dsimp only
    split <;> exact ⟨_, _, _, _, rfl, .inl rfl⟩
  | readBooth b p =>
    unfold run readBooth
    dsimp only
    split
    · exact ⟨_, _, _, _, rfl, .inl rfl⟩
    · split_ifs <;> exact ⟨_, _, _, _, rfl, .inl rfl⟩
  | _ => exact ⟨_, _, _, _, rfl, .inl rfl⟩

/-- A delivered command is answered, runs its own rule and is answered, or resets the engine (R133). -/
theorem deliverCommand_keeps {Q R : Chip → Prop} {hd : Hdr} {x : Command} (hwindow : ∀ c, Q c → Q c.restartWindow)
    (hdeferred : ∀ c, Q c → Q c.clearDeferred) (hrun : ∀ x c, Q c → Q (c.run reader x).1)
    (hanswer : ∀ a c, Q c → R (c.answer hd a)) (hreset : x = .engineReset → ∀ c, Q c → R c.engineReset) (hc : Q c) :
    R (c.deliverCommand hd x) := by
  have hstart := hwindow _ hc
  unfold deliverCommand execute
  dsimp only
  split
  · exact hanswer _ _ (hdeferred _ hstart)
  · split_ifs
    · exact hanswer _ _ hstart
    · split
      · exact hreset rfl _ hstart
      · exact hanswer _ _ (hrun _ _ hstart)
    · exact hanswer _ _ hstart

/-! ## Counters (Tables 8.1 and 8.2, R125) -/

/-- A move that leaves run count, lane errors and Timebase as they are keeps the counters. -/
theorem CountersInRange.of_eq {d : Chip} (hc : c.CountersInRange) (hrun : d.ring.run = c.ring.run)
    (herrors : d.ring.laneErrors = c.ring.laneErrors) (htime : d.time = c.time) : d.CountersInRange := by
  unfold CountersInRange
  rwa [hrun, herrors, htime]

/-- A reset leaves every counter at 0 (Tables 8.1 and 8.2). -/
theorem restarted_counters {h : Hall} {n : Nat} {pins : Pins} {out : Option Frame} (hn : 1 ≤ n ∧ n ≤ 32) :
    (restarted h n pins out).CountersInRange := by
  simpa [CountersInRange, restarted, RingPort.reset, Timebase.reset] using hn

theorem runDue_counters {d : Due} (hc : c.CountersInRange) : (c.runDue d).CountersInRange := by
  by_cases hd : d = .tick
  · obtain ⟨h, ds, htick⟩ := tick_eq c
    obtain ⟨hrun, herrors, hticks, hsecond, hramp⟩ := hc
    rw [hd, runDue, htick]
    refine ⟨hrun, herrors, hticks, ?_, hramp⟩
    dsimp only
    split <;> omega
  · obtain ⟨h, ds, hstep⟩ := runDue_eq hd c
    rw [hstep]
    exact hc

/-- The ramp counter stays below the ramp interval, the tick counter counts to 480 (R122, R123). -/
theorem count_counters (hc : c.CountersInRange) : c.count.CountersInRange := by
  obtain ⟨h, ds, hcount⟩ := count_eq c
  obtain ⟨hrun, herrors, htick, hsecond, hramp, hlow, hhigh⟩ := hc
  rw [hcount]
  refine ⟨hrun, herrors, ?_, hsecond, ?_, hlow, hhigh⟩ <;> dsimp only <;> split <;> omega

theorem run_counters {x : Command} (hc : c.CountersInRange) : (c.run reader x).1.CountersInRange := by
  obtain ⟨h, n, r, b, hrun, hn⟩ := run_eq x c
  obtain ⟨hruns, herrors, htick, hsecond, hramp, hlow, hhigh⟩ := hc
  rw [hrun]
  refine ⟨hruns, herrors, htick, hsecond, hramp, ?_, ?_⟩ <;> dsimp only <;> omega

/-- Every move of the chip keeps the counters in their ranges. -/
theorem counters_closed : Closed CountersInRange where
  reset _ _ _ := restarted_counters (by decide)
  due _ _ hc := hc
  run _ _ hc := runDue_counters hc
  program _ _ _ hc := hc.of_eq rfl rfl rfl
  deliver m c _ _ hc := by
    cases m with
    | command hd x =>
      exact deliverCommand_keeps (fun _ hc => hc.of_eq rfl rfl rfl) (fun _ hc => hc.of_eq rfl rfl rfl)
        (fun _ _ hc => run_counters hc) (fun _ _ hc => hc.of_eq rfl rfl rfl)
        (fun _ _ ⟨_, _, _, _, _, hramp⟩ => restarted_counters hramp) hc
    | _ => exact hc.of_eq rfl rfl rfl
  arbiter _ _ hc := hc.of_eq rfl rfl rfl
  laneError _ hc := by
    obtain ⟨hrun, -, hrest⟩ := hc
    exact ⟨hrun, Nat.min_le_right _ _, hrest⟩
  latch _ _ hc := hc.of_eq rfl rfl rfl
  loseRing _ hc := by
    obtain ⟨-, hrest⟩ := hc
    exact ⟨Nat.succ_pos 15, hrest⟩
  relock _ hc := hc.of_eq rfl rfl (onlyHall_time _ _)
  ring _ n _ c hn hc := by
    obtain ⟨hrun, hrest⟩ := hc
    exact ⟨hn.elim id (fun h => h ▸ hrun), hrest⟩
  count _ hc := count_counters hc
  compute f c hc := by
    obtain ⟨h, ds, g, hcompute⟩ := compute_eq f c
    rw [hcompute]
    exact hc
  ringOut _ _ hc := hc

/-! ## Outputs (R90, R102) -/

theorem clampSample_isSample (y : Int) : IsSample (clampSample y) := by
  unfold clampSample IsSample
  split_ifs <;> omega

theorem faded_isSample (s : Int) (a : Nat) : IsSample (faded s a).value := clampSample_isSample _

/-- A mix holds values of the sample range: a faded value is clamped, and what is not computed is held 0 (R90, R102). -/
theorem mix_outputs (g : Hall) (f : Frame) (o : Outputs) : { c with outs := Hall.mix g f o }.OutputsInRange := by
  have hzero : IsSample (Level.value {}) := by simp [IsSample]
  refine ⟨fun i hi => ?_, fun b hb => ?_⟩
  · show IsSample (tget (Hall.mix g f o).rooms i)
    simp only [Hall.mix, tget_tmake_of_lt _ hi, Hall.roomOutput]
    split
    · exact faded_isSample _ _
    · exact hzero
  · show IsSample (tget (Hall.mix g f o).booths b)
    simp only [Hall.mix, tget_tmake_of_lt _ hb, Hall.boothOutput]
    split
    · exact hzero
    · exact faded_isSample _ _

theorem OutputsInRange.of_eq {d : Chip} (hc : c.OutputsInRange) (hrooms : d.outs.rooms = c.outs.rooms)
    (hbooths : d.outs.booths = c.outs.booths) : d.OutputsInRange := by
  unfold OutputsInRange
  rwa [hrooms, hbooths]

theorem runDue_outputs {d : Due} (hc : c.OutputsInRange) : (c.runDue d).OutputsInRange := by
  by_cases hd : d = .tick
  · obtain ⟨h, ds, htick⟩ := tick_eq c
    rw [hd, runDue, htick]
    exact hc
  · obtain ⟨h, ds, hstep⟩ := runDue_eq hd c
    rw [hstep]
    exact hc

/-- A reset holds 0 at every output (R90). -/
theorem restarted_outputs {h : Hall} {n : Nat} {pins : Pins} {out : Option Frame} :
    (restarted h n pins out).OutputsInRange := by
  refine ⟨fun i hi => ?_, fun b hb => ?_⟩
  · simp [restarted, Outputs.reset, tget_eq_getElem _ hi, IsSample]
  · simp [restarted, Outputs.reset, tget_eq_getElem _ hb, IsSample]

theorem run_outputs {x : Command} (hc : c.OutputsInRange) : (c.run reader x).1.OutputsInRange := by
  obtain ⟨h, n, r, b, hrun, -⟩ := run_eq x c
  rw [hrun]
  exact hc.of_eq rfl rfl

/-- Every move of the chip keeps the held outputs in the sample range. -/
theorem outputs_closed : Closed OutputsInRange where
  reset _ _ _ := restarted_outputs
  due _ _ hc := hc
  run _ _ hc := runDue_outputs hc
  program _ _ _ hc := hc.of_eq rfl rfl
  deliver m c _ _ hc := by
    cases m with
    | command hd x =>
      exact deliverCommand_keeps (fun _ hc => hc) (fun _ hc => hc) (fun _ _ hc => run_outputs hc) (fun _ _ hc => hc)
        (fun _ _ _ => restarted_outputs) hc
    | _ => exact hc.of_eq rfl rfl
  arbiter _ _ hc := hc.of_eq rfl rfl
  laneError _ hc := hc
  latch _ _ hc := hc.of_eq rfl rfl
  loseRing _ hc := hc.of_eq rfl rfl
  relock _ hc := by
    unfold relock
    exact hc.of_eq rfl rfl
  ring _ _ _ _ _ hc := hc
  count c hc := by
    obtain ⟨h, ds, hcount⟩ := count_eq c
    rw [hcount]
    exact hc
  compute f c hc := by
    obtain ⟨h, ds, g, hcompute⟩ := compute_eq f c
    rw [hcompute]
    exact mix_outputs (c := { c with hall := h, due := ds }) g f c.outs
  ringOut _ _ hc := hc

/-! ## Queues (R134, R149, R150) -/

/-- A reset posts its events behind RESTARTED, in an empty list, and leaves the reply queue empty (R11, R148, R151). -/
theorem restarted_queues {k : Kept} {lines : BitVec 7} {store : PresetStore} :
    (Hall.restarted k lines store).QueuesWithin 8 :=
  ⟨Nat.zero_le _, Nat.le_add_left 1 63, Nat.zero_le _⟩

theorem hardReset_queues {pins : Pins} : (c.hardReset pins).hall.QueuesWithin 8 :=
  have C := (Hall.queuesWithin_closed 8).toClosedPart
  have M := (Hall.queuesWithin_closed 8).table
  Hall.keeps_setUp C M (Hall.keeps_startUpRecall C M (Hall.keeps_seed C M restarted_queues))

theorem engineReset_queues : c.engineReset.hall.QueuesWithin 8 := by
  have C := (Hall.queuesWithin_closed 8).toClosedPart
  have M := (Hall.queuesWithin_closed 8).table
  simp only [engineReset, restarted]
  exact Hall.keeps_markKnown C.toClosedFloor (Hall.keeps_setUp C M (Hall.keeps_seed C M restarted_queues))

/-- A command that is not left in the lane finds fewer than eight replies, and its own is queued behind them (R126, R134). -/
theorem deliver_queues {m : InCell} (hm : c.leftInLane m = false) (hc : c.hall.QueuesWithin 8) :
    (c.deliver m).hall.QueuesWithin 8 := by
  have C := Hall.queuesWithin_closed 8
  refine deliver_keeps C (Hall.closedHall_reader C) hc fun hd x hcommand => ?_
  subst hcommand
  have hroom : c.hall.QueuesWithin 7 := ⟨Nat.lt_succ_iff.mp (Nat.not_le.mp (of_decide_eq_false hm)), hc.2⟩
  have C := Hall.queuesWithin_closed 7
  refine deliverCommand_keeps (Q := fun c => c.hall.QueuesWithin 7) (R := fun c => c.hall.QueuesWithin 8)
    (fun _ hc => hc) (fun _ hc => hc) (fun _ _ => run_keeps C (Hall.closedHall_reader C)) (fun a c hc => ?_)
    (fun _ _ _ => engineReset_queues) hroom
  exact ⟨by simpa [answer] using Nat.lt_succ_of_le hc.1, hc.2⟩

theorem arbiter_queues {x : Cell} : c.hall.QueuesWithin 8 → (c.arbiter x).1.hall.QueuesWithin 8 := by
  have C := Hall.queuesWithin_closed 8
  refine arbiter_keeps C (Hall.closedHall_reader C) (fun h hh => ?_) (fun h hh => ?_)
  · exact ⟨(List.length_tail ▸ Nat.sub_le _ _).trans hh.1, hh.2⟩
  · obtain ⟨hreplies, hevents, hlost⟩ := hh
    exact ⟨hreplies, (List.length_tail ▸ Nat.sub_le _ _).trans hevents, hlost⟩

/-- Every move of the chip keeps the queues within their places. -/
theorem queues_closed : Closed (fun c => c.hall.QueuesWithin 8) :=
  have C := Hall.queuesWithin_closed 8
  have K := Hall.closedHall_reader C
  { reset := fun _ _ _ => hardReset_queues
    due := fun _ _ hc => hc
    run := fun _ _ => runDue_keeps C K (fun _ _ hp => hp)
    program := fun _ c ⟨_, hf⟩ hc => by
      rw [onlyHall_hall]
      rcases hf with rfl | rfl
      · exact Hall.keeps_storeComplete C hc
      · exact Hall.keeps_eraseComplete C hc
    deliver := fun _ _ _ => deliver_queues
    arbiter := fun _ _ => arbiter_queues
    laneError := fun _ hc => hc
    latch := fun _ _ => latch_keeps C
    loseRing := fun _ hc => Hall.keeps_post C.toClosedEvents hc
    relock := fun _ => relock_keeps C
    ring := fun _ _ _ _ _ hc => hc
    count := fun _ => count_keeps C (fun _ _ hp => hp)
    compute := fun _ _ => compute_keeps C K (fun _ _ hp => hp)
    ringOut := fun _ _ hc => hc }

end Chip

/-- Settles O59: every row is made of the moves of `Chip.Closed`, and each invariant is kept by each of them. -/
theorem stepKeepsBounds : Obligations.StepKeepsBounds := fun _ _ h =>
  ⟨step_keeps Chip.counters_closed h, step_keeps Chip.queues_closed h, step_keeps Chip.outputs_closed h⟩

end Sys2Proof.Machine

/-! SUPPORT. O1, O2, O37 and O60: a step, a row, a row whose step is not due, and the state after reset. -/

namespace Sys2Proof.Machine

/-- Settles O1: `step` by the two shapes of the queue of waiting commands. -/
theorem stepTakesFront : Obligations.StepTakesFront := by
  refine ⟨fun s i rest h => ?_, fun s h => ?_⟩
  · rw [step, h]
  · rw [step, h]

/-- Settles O2: every row acts on the chip alone (`exec_eq_rowAct`). -/
theorem everyCommandCompletes : Obligations.EveryCommandCompletes := fun s i => ⟨_, exec_eq_rowAct i s, rfl⟩

/-- A row finds its step not due, and no ramp step before it: nothing is taken (log 2). -/
theorem Chip.takeRow_of_notDue {d : Due} {c : Chip} (hramp : Due.rampStep ∉ c.due) (hd : d ∉ c.due) : c.takeRow d = c := by
  have hsettled : c.settleRamp = c := if_neg (by simpa using hramp)
  have hturn : c.inTurn d = false := by simp [inTurn, hd]
  unfold takeRow
  rw [hsettled, ite_self]
  exact if_neg (by simp [hturn])

/-- The row of a step that is not due leaves the state as it is. -/
theorem next_takeRow_of_notDue {d : Due} {s : State} (hramp : Due.rampStep ∉ s.chip.due) (hd : d ∉ s.chip.due) :
    Host.Outcome.next (φ := Fault) (ρ := Refusal) (s.onChip (Chip.takeRow d)) = .next s := by
  rw [State.onChip, Chip.takeRow_of_notDue hramp hd]

/-- Settles O37: each of the twelve rows takes its step by `Chip.takeRow`. -/
theorem stepsNotDueChangeNothing : Obligations.StepsNotDueChangeNothing := fun _ hramp =>
  have hrow := fun {d : Due} (hd : d ∉ _) => next_takeRow_of_notDue (d := d) hramp hd
  ⟨hrow hramp, hrow, hrow, hrow, fun _ => hrow, hrow, hrow, hrow, fun _ => hrow, fun _ => hrow, fun _ => hrow, hrow⟩

/-- Settles O60: the state after reset is that of a chip just restarted, with one event and no reply waiting. -/
theorem invariantsHoldAtReset : Obligations.InvariantsHoldAtReset :=
  ⟨Chip.restarted_counters (by decide), ⟨Nat.zero_le _, Nat.le_add_left 1 63, Nat.zero_le _⟩, Chip.restarted_outputs⟩

end Sys2Proof.Machine

/-! SUPPORT. O3: how a delivered command is taken (R133, R137). The rules leave group mark and window to the answer. -/

namespace Sys2Proof.Machine

/-- No group has failed, and the supervision window stands as restarted with the timeout in force. -/
def Hall.Fresh (h : Hall) : Prop :=
  h.cmd.groupFailed = false ∧ h.cmd.supervision.window = 10 * h.cmd.supervision.timeout

theorem fresh_closed : ClosedHall Hall.Fresh where
  post _ _ _ _ _ _ _ hp := hp
  run _ _ _ _ hp := hp
  floor _ _ _ hp := hp
  slot _ _ hp := hp
  mic _ _ _ _ hp := hp
  held _ _ _ _ hp := hp
  notices _ _ _ hp := hp
  slots _ _ _ hp := hp
  plans _ _ hp := hp
  booth _ _ _ hp := hp
  fades _ _ _ _ hp := hp
  sync _ hp := hp
  partition _ _ hp := hp
  effective _ _ hp := hp
  repartition _ _ hp := hp
  safe _ _ hp := hp
  timed _ _ _ hp := hp
  plain _ _ _ _ _ _ hp := hp
  cmd h x hx hp := by
    obtain ⟨-, hgroup, hsupervision⟩ := hx
    exact ⟨hgroup.trans hp.1, hsupervision.elim (fun hv => hv ▸ hp.2) id⟩
  mask _ _ hp := hp

namespace Chip

/-- A command that has run its own rule leaves no group failed and the window restarted (R137, R143, R144). -/
theorem run_fresh {x : Command} {c : Chip} (hg : c.hall.cmd.groupFailed = false) :
    (c.restartWindow.run reader x).1.hall.Fresh :=
  run_keeps fresh_closed (Hall.closedHall_reader fresh_closed) ⟨hg, rfl⟩

/-- The row of a command that the port takes is the delivery of it. -/
theorem commandRow_of_quiet {hd : Hdr} {x : Command} {c : Chip} (hq : c.Quiet) (hs : x.spelled = true)
    (hroom : c.hall.cmd.replies.length < 8) : c.commandRow hd x = c.deliverCommand hd x :=
  cellRow_of_quiet (m := .command hd x) hq hs rfl (decide_eq_false (Nat.not_le.mpr hroom))

/-- A CHECK sets the group mark by the link flag alone (R137). -/
theorem answer_check_restartWindow (hd : Hdr) (e : Sense) (n : Nat) (c : Chip) :
    c.restartWindow.answer hd (.check e n) = c.answered hd (.check e n) := by
  simp [answer, answered, restartWindow]

/-- Steps 4 to 6 of R133, by code and mode. -/
theorem execute_restartWindow {hd : Hdr} {x : Command} {c : Chip} (hs : x.spelled = true)
    (hg : c.hall.cmd.groupFailed = false) : c.restartWindow.execute hd x =
      if x.code ∉ catalogue then c.answered hd (.check .unknownCommand x.code.toNat)
      else if Command.taken c.hall.cmd.mode x = false then c.answered hd (.check .wrongMode c.hall.cmd.mode.code)
      else if x = .engineReset then c.restartWindow.engineReset
      else (c.restartWindow.run reader x).1.answered hd (c.restartWindow.run reader x).2 := by
  by_cases hcode : x.code ∈ catalogue
  · rw [if_neg (not_not.mpr hcode)]
    split_ifs with htaken hreset
    · rw [← answer_check_restartWindow]
      exact if_neg (by simpa using htaken)
    · subst hreset
      rfl
    · have hrun := run_fresh (x := x) hg
      have htrue : Command.taken c.restartWindow.hall.cmd.mode x = true := by simpa using htaken
      rw [execute_of_taken htrue hreset]
      exact answer_eq_answered hd _ hrun.1 hrun.2
  · rw [if_pos hcode, ← answer_check_restartWindow]
    cases x with
    | unknown code => rfl
    | _ => exact absurd (by simp [Command.code, catalogue]) hcode

/-- The three steps before the code: deferred record, group mark, and then the execution (R133, R137, R138). -/
theorem deliverCommand_eq (hd : Hdr) (x : Command) (c : Chip) : c.deliverCommand hd x =
    match c.hall.cmd.deferred with
    | some p => { c with hall.cmd.deferred := none }.answered hd (.check .storeFailed p)
    | none => if c.hall.cmd.groupFailed then c.answered hd (.check .groupAbandoned 0) else c.restartWindow.execute hd x := by
  have hdeferred : c.restartWindow.hall.cmd.deferred = c.hall.cmd.deferred := rfl
  unfold deliverCommand
  dsimp only
  rw [hdeferred]
  cases c.hall.cmd.deferred with
  | some p => exact answer_check_restartWindow hd .storeFailed p { c with hall.cmd.deferred := none }
  | none => exact if_congr Iff.rfl (answer_check_restartWindow hd _ _ c) rfl

end Chip

/-- Settles O3: a command that the port takes is delivered (`commandRow_of_quiet`), steps 1 to 3 of R133 are those of
`deliverCommand`, and steps 4 to 6 are `execute_restartWindow`. -/
theorem commandsAreHandledInOrder : Obligations.CommandsAreHandledInOrder := by
  intro s i hd x hi hs hq hroom c
  rw [exec_of_command hi, Chip.commandRow_of_quiet hq hs hroom]
  congr 2
  rw [Chip.deliverCommand_eq]
  cases c.hall.cmd.deferred with
  | some p => rfl
  | none =>
    dsimp only
    split
    · rfl
    · next hg => exact Chip.execute_restartWindow hs (Bool.eq_false_iff.mpr hg)

end Sys2Proof.Machine

/-! SUPPORT. O7, O14 and O15: SUPERVISE (R144) and the commands that read (R22, R61, R88, R147). Every rule leaves no group
failed and the window restarted, so the row of a taken command is its rule, answered. -/

namespace Sys2Proof.Machine

/-! ## The rows -/

/-- The row of a taken command: its rule, run on the chip with its window restarted, and answered (R133, R137, R143). -/
theorem Chip.commandRow_eq_answered {hd : Hdr} {x : Command} {c : Chip} (hr : c.Ready) (hs : x.spelled = true)
    (ht : Command.taken c.hall.cmd.mode x = true) (he : x ≠ .engineReset) :
    c.commandRow hd x = (c.restartWindow.run reader x).1.answered hd (c.restartWindow.run reader x).2 := by
  have hrun := run_fresh (x := x) hr.2.2.2
  rw [commandRow_of_taken hr hs ht he]
  exact answer_eq_answered hd _ hrun.1 hrun.2

/-- What is answered does not show the window's restart. -/
theorem Chip.answered_restartWindow (hd : Hdr) (a : Answer) (c : Chip) :
    c.restartWindow.answered hd a = c.answered hd a := rfl

/-- The row of a taken command of the hall's blocks, by what its rule makes of the hall with its window restarted. -/
theorem Chip.commandRow_of_rule {hd : Hdr} {x : Command} {c : Chip} {f : Hall → Hall × Answer} (hr : c.Ready)
    (hs : x.spelled = true) (ht : Command.taken c.hall.cmd.mode x = true) (he : x ≠ .engineReset)
    (hx : c.restartWindow.run reader x = c.restartWindow.onHall f) :
    c.commandRow hd x = { c with hall := (f c.restartWindow.hall).1 }.answered hd (f c.restartWindow.hall).2 := by
  rw [commandRow_eq_answered hr hs ht he, hx]
  rfl

/-! ## SUPERVISE (R144) -/

/-- No move of the set-up of a reset touches the Command Processor. -/
theorem cmdAt_closed (x : CommandProcessor) : ClosedPart (fun h => h.cmd = x) where
  post _ _ _ _ _ _ _ hp := hp
  run _ _ _ _ hp := hp
  floor _ _ _ hp := hp
  slot _ _ hp := hp
  mic _ _ _ _ hp := hp
  held _ _ _ _ hp := hp
  notices _ _ _ hp := hp
  slots _ _ _ hp := hp
  plans _ _ hp := hp
  booth _ _ _ hp := hp
  fades _ _ _ _ hp := hp
  sync _ hp := hp
  partition _ _ hp := hp
  effective _ _ hp := hp
  repartition _ _ hp := hp

/-- A hard reset leaves the Command Processor as Tables 9.1 and 9.6 say. -/
theorem Chip.hardReset_cmd (pins : Pins) (c : Chip) : (c.hardReset pins).hall.cmd = .reset .reset :=
  have C := cmdAt_closed (.reset .reset)
  have M : ∀ (h : Hall) (m : TableMemory), h.cmd = .reset .reset → { h with mem := m }.cmd = .reset .reset :=
    fun _ _ hp => hp
  Hall.keeps_setUp C M (Hall.keeps_startUpRecall C M (Hall.keeps_seed C M rfl))

theorem Hall.supervise_eq (enable timeout lock : Byte) (h : Hall) :
    h.supervise enable.toNat timeout.toNat lock.toNat =
      if 1 < enable.toNat then (h, .check .fieldOutOfRange 1)
      else if 1 < lock.toNat ∨ (lock = 1 ∧ enable = 0) then (h, .check .fieldOutOfRange 3)
      else if h.cmd.supervision.lock = true ∧ enable = 0 then (h, .check .supervisionLocked 0)
      else (h.setSupervision ⟨enable == 1, if timeout = 0 then 1 else timeout.toNat, h.cmd.supervision.lock || lock == 1,
          10 * (if timeout = 0 then 1 else timeout.toNat)⟩,
        if timeout = 0 then .good .adjusted 2 {} else .good .none 0 {}) := by
  have hzero : enable.toNat = 0 ↔ enable = 0 := by simp [BitVec.toNat_eq]
  have hone : ∀ b : Byte, (b.toNat == 1) = (b == 1) := fun b => Bool.eq_iff_iff.mpr (by simp [BitVec.toNat_eq])
  have hlock : lock.toNat = 1 ↔ lock = 1 := by simp [BitVec.toNat_eq]
  have hclamp : max 1 timeout.toNat = if timeout = 0 then 1 else timeout.toNat := by
    split
    · next h => subst h; rfl
    · next h =>
      have : timeout.toNat ≠ 0 := fun h0 => h (BitVec.eq_of_toNat_eq h0)
      omega
  unfold supervise
  simp only [fieldAbove_cons, fieldAbove_nil, goodWrite_cons, goodWrite_nil, hone, hclamp, hzero, hlock]
  by_cases henable : 1 < enable.toNat
  · simp only [if_pos henable]
    rfl
  · by_cases hrange : 1 < lock.toNat
    · simp only [if_neg henable, if_pos hrange, if_pos (Or.inl hrange)]
      rfl
    · by_cases htime : timeout = 0
      · simp [henable, hrange, htime, Answer.field]
      · simp only [if_neg henable, hrange, if_false, false_or, if_neg htime, if_true]
        rfl

/-- Settles O7: `supervise_eq` lists the checks and the write; SUPERVISE is taken in every mode. -/
theorem superviseWrites : Obligations.SuperviseWrites := by
  refine ⟨?command, fun s pins => ⟨s.withChip (s.chip.hardReset pins), rfl, ?_, ?_⟩⟩
  · intro s hd enable timeout lock hr c v
    have hlock : c.restartWindow.hall.cmd.supervision.lock = v.lock := rfl
    rw [exec_of_command (x := .supervise enable timeout lock) rfl,
      Chip.commandRow_of_rule (x := .supervise enable timeout lock) hr rfl rfl nofun rfl, Hall.supervise_eq, hlock]
    congr 2
    split_ifs <;> rfl
  · rw [State.withChip, Chip.hardReset_cmd]
    rfl
  · rw [State.withChip, Chip.hardReset_cmd]
    rfl

end Sys2Proof.Machine

/-! SUPPORT. O14 and O15: the commands that read answer what Tables 5.5, 8.11 and 9.8 say and leave the hall alone (R22, R61,
R88, R147). -/

namespace Sys2Proof.Machine

/-! ## READ DELEGATE (R22) -/

theorem Hall.readDelegate_eq {h : Hall} (hm : h.mem.ReadsFindNothing) (u part : Nat) : h.readDelegate reader u part =
    (h, if u = 0 ∨ 192 < u then .check .fieldOutOfRange 1
      else if 2 < part then .check .fieldOutOfRange 2
      else if (h.record u).damaged then .check .recordDamaged 0
      else .good .none 0 (h.delegateData u part)) := by
  unfold readDelegate unitField
  rw [idle_delegate reader_idle hm]
  by_cases hzero : u = 0
  · simp [hzero, Answer.field]
  · by_cases hunit : 192 < u
    · simp [hzero, hunit, Answer.field]
    · by_cases hpart : 2 < part
      · simp [hzero, hunit, hpart, Answer.field]
      · simp only [hzero, hunit, hpart, fieldAbove_cons, fieldAbove_nil, if_false, or_self, Answer.read]
        split_ifs <;> rfl

/-- The data of READ DELEGATE, part by part (Table 8.11). -/
theorem Hall.delegateData_eq (h : Hall) (u : Nat) (part : Byte) : h.delegateData u part.toNat =
    if part = 0 then
      ⟨byte (flag (h.loaded u).present), halves (h.loaded u).sect (if (h.loaded u).role = .chair then 1 else 0),
        byte (h.loaded u).trim, byte (h.loaded u).timeClass⟩
    else if part = 1 then
      ⟨(h.run u).state.code, match (h.run u).slot with | some k => byte k | none => 0xFF, byte (h.queuePosition u),
        halves (h.run u).grantId.toNat (h.run u).attempts⟩
    else
      ⟨byte ((h.run u).seconds / 256), byte ((h.run u).seconds % 256),
        byte (flag (h.run u).warned + 2 * flag (h.run u).unresponsive + 4 * flag (h.run u).unknownReported),
        match (h.run u).indication with | some i => i.code | none => 0⟩ := by
  have hzero : part.toNat = 0 ↔ part = 0 := by simp [BitVec.toNat_eq]
  have hone : part.toNat = 1 ↔ part = 1 := by simp [BitVec.toNat_eq]
  have hrole : (match (h.loaded u).role with | .delegate => 0 | .chair => 1) =
      if (h.loaded u).role = .chair then 1 else 0 := by
    cases (h.loaded u).role <;> rfl
  have hslot : slotByte (h.run u).slot = match (h.run u).slot with | some k => byte k | none => 0xFF := by
    cases (h.run u).slot <;> rfl
  have hindication : indicationCode (h.run u).indication = match (h.run u).indication with | some i => i.code | none => 0 := by
    cases (h.run u).indication <;> rfl
  rw [← hrole, ← hslot, ← hindication]
  unfold delegateData
  exact if_congr hzero rfl (if_congr hone rfl rfl)

/-! ## READ BOOTH (R61, R103) -/

theorem Chip.readBooth_eq {c : Chip} (hm : c.hall.mem.ReadsFindNothing) (b part : Nat) : c.readBooth reader b part =
    if 15 < b then (c, .check .fieldOutOfRange 1)
    else if 2 < part then (c, .check .fieldOutOfRange 2)
    else if (c.hall.boothRecord b).damaged then (c, .check .recordDamaged 0)
    else if part = 2 then ({ c with outs.boothClips := tset c.outs.boothClips b false }, .good .none 0 (c.boothData b part))
    else (c, .good .none 0 (c.boothData b part)) := by
  unfold readBooth
  rw [Hall.idle_booth reader_idle hm]
  by_cases hbooth : 15 < b
  · simp [hbooth, Answer.field]
  · by_cases hpart : 2 < part
    · simp [hbooth, hpart, Answer.field]
    · simp only [hbooth, hpart, fieldAbove_cons, fieldAbove_nil, if_false]
      rfl

theorem relayCode_eq (y : Relay) : y.code = match y with | .booth n => byte n | .floor => (0xFF : Byte) := by
  cases y <;> rfl

theorem slotByte_eq (o : Option Nat) : slotByte o = match o with | some k => byte k | none => (0xFF : Byte) := by
  cases o <;> rfl

/-! ## READ SLOT (R88) -/

/-- Class and key of a claim as two bytes (Table 8.11). -/
def claimBytes (x : Claim) : Byte × Byte := match x with
  | .leadOut b => (3, byte b)
  | .language r k => (4, halves r k)
  | .feed b => (5, byte b)
  | .spareOut b => (6, byte b)

theorem classCode_eq (x : Claim) : x.classCode = (claimBytes x).1 := by
  cases x <;> rfl

theorem keyByte_eq (x : Claim) : x.keyByte = (claimBytes x).2 := by
  cases x <;> rfl

/-- The data of READ BOOTH, part by part (Table 8.11). -/
theorem Chip.boothData_eq (c : Chip) (b : Nat) (part : Byte) : c.boothData b part.toNat =
    if part = 0 then ⟨byte (c.hall.booth b).language, byte (c.hall.booth b).home, byte (c.hall.booth b).gain, 0⟩
    else if part = 1 then
      ⟨halves (c.hall.boothRun b).reported.code (c.hall.effective b).code, (c.hall.boothRun b).assignment.code,
        (c.hall.boothRun b).selection.code, (c.hall.boothRun b).relay.code⟩
    else
      ⟨byte (c.hall.roomOfBooth b), slotByte (c.hall.boothRun b).outSlot, slotByte (c.hall.boothRun b).feedSlot,
        byte (flag (tget c.outs.boothClips b))⟩ := by
  have hzero : part.toNat = 0 ↔ part = 0 := by simp [BitVec.toNat_eq]
  have hone : part.toNat = 1 ↔ part = 1 := by simp [BitVec.toNat_eq]
  exact if_congr hzero rfl (if_congr hone rfl rfl)

/-- READ BOOTH by part: parts 0 and 1 are read, part 2 is read and clears the feed's marker. -/
theorem Chip.readBooth_parts {c : Chip} (hm : c.hall.mem.ReadsFindNothing) (b : Nat) (part : Byte) :
    c.readBooth reader b part.toNat =
      if 15 < b then (c, .check .fieldOutOfRange 1)
      else if 2 < part.toNat then (c, .check .fieldOutOfRange 2)
      else if (c.hall.boothRecord b).damaged then (c, .check .recordDamaged 0)
      else if part = 0 then
        (c, .good .none 0 ⟨byte (c.hall.booth b).language, byte (c.hall.booth b).home, byte (c.hall.booth b).gain, 0⟩)
      else if part = 1 then
        (c, .good .none 0 ⟨halves (c.hall.boothRun b).reported.code (c.hall.effective b).code,
          (c.hall.boothRun b).assignment.code, (c.hall.boothRun b).selection.code, (c.hall.boothRun b).relay.code⟩)
      else ({ c with outs.boothClips := tset c.outs.boothClips b false }, .good .none 0 ⟨byte (c.hall.roomOfBooth b),
        slotByte (c.hall.boothRun b).outSlot, slotByte (c.hall.boothRun b).feedSlot,
        byte (flag (tget c.outs.boothClips b))⟩) := by
  have htwo : part.toNat = 2 ↔ part = 2 := by simp [BitVec.toNat_eq]
  rw [readBooth_eq hm]
  split_ifs with hbooth hpart hdamaged hclear hzero hone
  · rfl
  · rfl
  · rfl
  · rw [htwo.mp hclear] at hzero
    exact absurd hzero (by decide)
  · rw [htwo.mp hclear] at hone
    exact absurd hone (by decide)
  · rw [boothData_eq, if_neg hzero, if_neg hone]
  · rw [boothData_eq, if_pos (by assumption)]
  · rw [boothData_eq, if_neg (by assumption), if_pos (by assumption)]
  · next hzero hone =>
    have : part.toNat ≠ 0 := fun h => hzero (BitVec.eq_of_toNat_eq h)
    have : part.toNat ≠ 1 := fun h => hone (BitVec.eq_of_toNat_eq h)
    omega

/-- The data of READ SLOT, selector 0, with class and key of a claim side by side (Table 5.5). -/
theorem Hall.slotData_eq (h : Hall) (n : Nat) : h.slotData n =
    if n < 8 then ⟨0, 0, 0, 0⟩
    else if n < 32 then
      match tget h.slots.mics (n - 8) with
      | none => ⟨1, 1, 0, 0⟩
      | some u => ⟨1, 2, 1, byte u⟩
    else if n < 40 then ⟨2, if tget h.slots.floorActive (n - 32) then 3 else 4, 2, byte (n - 32)⟩
    else match tget h.slots.pool (n - 40) with
      | none => ⟨3, 1, 0, 0⟩
      | some x => ⟨3, 2, (claimBytes x).1, (claimBytes x).2⟩ := by
  simp only [slotData, classCode_eq, keyByte_eq]
  split_ifs <;> rfl

/-- The data of READ SLOT, selector 1, with class and key of a claim side by side (Table 5.5). -/
theorem Hall.placeData_eq (h : Hall) (n : Nat) : h.placeData n =
    match h.slots.waitList[n - 1]? with
    | none => ⟨0, 0, 0, 0⟩
    | some x => ⟨(claimBytes x).1, (claimBytes x).2, 0, 0⟩ := by
  simp only [placeData, classCode_eq, keyByte_eq] <;> rfl

/-- READ SLOT by selector (R88). -/
theorem Hall.readSlot_eq (h : Hall) (selector : Byte) (n : Nat) : h.readSlot selector.toNat n =
    (h, if 2 < selector.toNat then .check .fieldOutOfRange 1
      else if selector = 0 then if 127 < n then .check .fieldOutOfRange 2 else .good .none 0 (h.slotData n)
      else if selector = 1 then
        if n = 0 ∨ 96 < n then .check .fieldOutOfRange 2 else .good .none 0 (h.placeData n)
      else .good .none 0 h.summaryData) := by
  have hzero : selector.toNat = 0 ↔ selector = 0 := by simp [BitVec.toNat_eq]
  have hone : selector.toNat = 1 ↔ selector = 1 := by simp [BitVec.toNat_eq]
  unfold readSlot
  simp only [hzero, hone]
  split_ifs <;> rfl

theorem Hall.summaryData_eq (h : Hall) : h.summaryData = ⟨byte (h.slots.mics.toList.count none),
    byte (h.slots.pool.toList.count none), byte h.slots.waitList.length, byte (h.slots.floorActive.toList.count true)⟩ := by
  simp only [summaryData, List.count_eq_length_filter]

/-- Settles O14: the rules of the three commands are `readDelegate_eq`, `readBooth_parts` and `readSlot_eq`, and their data
that of Tables 8.11 and 5.5. -/
theorem readsReport : Obligations.ReadsReport := by
  refine ⟨?delegate, ?booth, ?slot⟩
  case delegate =>
    intro s hd unit part hr hm c h u l d
    rw [exec_of_command (x := .readDelegate unit part) rfl,
      Chip.commandRow_of_rule (x := .readDelegate unit part) hr rfl rfl nofun rfl, Hall.readDelegate_eq (by exact hm),
      Hall.delegateData_eq]
    rfl
  case booth =>
    intro s hd booth part hr hm c h b x cell relay
    have hrun : c.restartWindow.run reader (.readBooth booth part) = c.restartWindow.readBooth reader b part.toNat := rfl
    rw [exec_of_command (x := .readBooth booth part) rfl,
      Chip.commandRow_eq_answered (x := .readBooth booth part) hr rfl rfl nofun, hrun,
      Chip.readBooth_parts (by exact hm)]
    have hrecord : c.restartWindow.hall.boothRecord b = h.boothRecord b := rfl
    rw [hrecord]
    simp only [relayCode_eq, slotByte_eq]
    congr 2
    split_ifs <;> rfl
  case slot =>
    intro s hd selector number hr c h n claim
    rw [exec_of_command (x := .readSlot selector number) rfl,
      Chip.commandRow_of_rule (x := .readSlot selector number) hr rfl rfl nofun rfl, Hall.readSlot_eq]
    simp only [Hall.slotData_eq, Hall.placeData_eq, Hall.summaryData_eq]
    rfl

/-! ## READ ROOM (R147, R103) -/

/-- A sum of bits, each at its own weight, is below the next weight and has these bits. -/
theorem sumOfBits (f : Nat → Bool) (n : Nat) :
    (List.range n).foldl (fun a k => a + 2 ^ k * flag (f k)) 0 < 2 ^ n ∧
      ∀ k, ((List.range n).foldl (fun a k => a + 2 ^ k * flag (f k)) 0).testBit k = (decide (k < n) && f k) := by
  induction n with
  | zero => simp
  | succ n ih =>
    obtain ⟨hlt, hbit⟩ := ih
    simp only [List.range_succ, List.foldl_append, List.foldl_cons, List.foldl_nil]
    generalize (List.range n).foldl (fun a k => a + 2 ^ k * flag (f k)) 0 = a at hlt hbit ⊢
    refine ⟨?_, fun k => ?_⟩
    · have hflag : flag (f n) ≤ 1 := by unfold flag; split <;> omega
      have hterm : 2 ^ n * flag (f n) ≤ 2 ^ n * 1 := Nat.mul_le_mul_left _ hflag
      rw [Nat.pow_succ]
      omega
    · rw [Nat.add_comm, Nat.testBit_two_pow_mul_add _ hlt]
      split
      · next hk => rw [hbit, decide_eq_true hk, decide_eq_true (Nat.lt_succ_of_lt hk)]
      · next hk =>
        by_cases hkn : k = n
        · subst hkn
          cases hf : f k <;> simp [flag]
        · have hout : ¬ k < n + 1 := by omega
          have hoff : k - n ≠ 0 := by omega
          rw [decide_eq_false hout, Bool.false_and]
          cases f n
          · exact Nat.zero_testBit _
          · exact Nat.testBit_lt_two_pow (Nat.one_lt_two_pow hoff)

/-- Bit k of the clip markers of a room is the marker of its channel k (Table 9.8). -/
theorem Chip.clipBits_testBit (c : Chip) (r : Nat) {k : Nat} (hk : k < 9) :
    (c.clipBits r).testBit k = tget c.outs.roomClips (9 * r + k) := by
  rw [clipBits, (sumOfBits (fun k => tget c.outs.roomClips (9 * r + k)) 9).2, decide_eq_true hk, Bool.true_and]

/-- The two half bytes of a byte (section 8.6.1). -/
theorem halves_toNat (hi lo : Nat) : (halves hi lo).toNat = hi % 16 * 16 + lo % 16 := by
  simp only [halves, byte, BitVec.toNat_ofNat]
  omega

theorem residual_eq (h : Hall) (r : Nat) : h.residual r = h.slots.waitList.countP (fun x => match x with
    | .language y _ => y == r
    | _ => false) := by
  rw [Hall.residual, List.countP_eq_length_filter]
  congr 2
  funext x
  cases x
  case language room _ => simp [Hall.languageOf, beq_eq_decide]
  all_goals rfl

/-- Settles O15: `readRoom` by its check; the nine clip markers are the bits of `clipBits`. -/
theorem readRoomReports : Obligations.ReadRoomReports := by
  intro s hd room hr c h r
  have hrun : c.restartWindow.run reader (.readRoom room) = c.restartWindow.readRoom r := rfl
  have hpart : c.restartWindow.hall.part.inForce = h.part.inForce := rfl
  rw [exec_of_command (x := .readRoom room) rfl,
    Chip.commandRow_eq_answered (x := .readRoom room) hr rfl rfl nofun, hrun, Chip.readRoom, hpart]
  refine ⟨fun hroom => ?_, fun hroom => ⟨c.roomData r, ?_, ?_, fun k hk => ?_, ?_, ?_, rfl⟩⟩
  · rw [if_neg (by simp [hroom])]
    rfl
  · rw [if_pos hroom]
    have hclear : (fun i m => m && i / 9 != r) = fun i m => if i / 9 = r then false else m := by
      funext i m
      by_cases hi : i / 9 = r <;> simp [hi]
    rw [hclear]
    rfl
  · show halves _ (c.hall.residual r) = _
    exact congrArg (halves _) (residual_eq h r)
  · show (byte (c.clipBits r % 256)).getLsbD k = _
    rw [← Chip.clipBits_testBit c r (by omega)]
    rw [byte, BitVec.getLsbD_ofNat, decide_eq_true hk, Bool.true_and]
    exact (Nat.testBit_mod_two_pow _ 8 k).trans (by simp [hk])
  · show (halves (h.positionHolders r).length (c.clipBits r / 256)).getLsbD 0 = _
    rw [← Chip.clipBits_testBit c r (by omega), BitVec.getLsbD, halves_toNat]
    generalize c.clipBits r = x
    simp [Nat.testBit_eq_decide_div_mod_eq]
    omega
  · show (halves (h.positionHolders r).length (c.clipBits r / 256) >>> 4).toNat = _
    rw [BitVec.toNat_ushiftRight, halves_toNat, Nat.shiftRight_eq_div_pow]
    omega

end Sys2Proof.Machine

/-! SUPPORT. O54 and O57: the Event Queue (R149, R150) and the outputs of a frame (R89, R90, R97 to R102). -/

namespace Sys2Proof.Machine

/-! ## The Event Queue -/

theorem EventQueue.push_mask (q : EventQueue) (now : FrameCount) (e : Event) : (q.push now e).mask = q.mask := by
  unfold EventQueue.push
  split_ifs <;> rfl

/-- Settles O54: the branches of `EventQueue.push`, each under its condition. -/
theorem eventsAreQueued : Obligations.EventsAreQueued := by
  intro q now e lost g
  refine ⟨EventQueue.push_mask q now e, fun hmasked => if_pos hmasked, fun hpass hsound hroom => ?_,
    fun hpass hsound hfull => ?_, fun hpass hlost hroom => ?_, fun hpass hlost hfull => ?_⟩
  · show q.push now e = _
    rw [EventQueue.push, if_neg (by simp [hpass]), if_pos hsound, if_pos (by simpa only [Config.eventPlaces] using hroom)]
  · show q.push now e = _
    rw [EventQueue.push, if_neg (by simp [hpass]), if_pos hsound, if_neg (by simpa only [Config.eventPlaces, Nat.not_lt])]
  · show q.push now e = _
    rw [EventQueue.push, if_neg (by simp [hpass]), if_neg (by simp [hlost]),
      if_pos (by simp only [Config.eventPlaces]; omega)]
    rfl
  · show q.push now e = _
    rw [EventQueue.push, if_neg (by simp [hpass]), if_neg (by simp [hlost]),
      if_neg (by simp only [Config.eventPlaces]; omega)]
    rfl

/-! ## The outputs of a frame -/

theorem clampSample_eq (y : Int) : clampSample y = max (-8388608) (min 8388607 y) := by
  unfold clampSample
  split_ifs <;> omega

theorem clampSample_ne_iff (y : Int) : clampSample y ≠ y ↔ y < -8388608 ∨ 8388607 < y := by
  unfold clampSample
  split_ifs <;> omega

theorem faded_eq (v : Int) (a : Nat) :
    faded v a = ⟨max (-8388608) (min 8388607 (sc v a)), decide (sc v a < -8388608 ∨ 8388607 < sc v a)⟩ := by
  simp only [faded, clampSample_ne_iff]
  rw [clampSample_eq]

theorem foldl_add_eq_sum (f : Nat → Int) (l : List Nat) (a : Int) :
    l.foldl (fun x k => x + f k) a = a + (l.map f).sum := by
  induction l generalizing a with
  | nil => simp
  | cons k l ih => rw [List.foldl_cons, ih, List.map_cons, List.sum_cons, Int.add_assoc]

namespace Hall

theorem floorSum_eq_sum (h : Hall) (f : Frame) (r : Nat) : h.floorSum f r = ((List.range 24).map (h.micTerm f r)).sum := by
  rw [floorSum, foldl_add_eq_sum, Int.zero_add]

theorem channelSource_eq_carrier (h : Hall) (r k : Nat) : h.channelSource r k = h.carrier r k := by
  unfold channelSource carrier
  cases (h.plan r)[k - 1]? with
  | none => rfl
  | some l =>
    simp only [boothsOf, List.find?_filter]
    congr 1
    funext b
    rw [Bool.eq_iff_iff]
    simp [leads, and_assoc, Option.isSome_iff_ne_none]

/-- The output of a channel that exists goes through its fade and the clamp; any other is held at 0 (R90, R102). -/
theorem roomOutput_eq (h : Hall) (f : Frame) {r : Nat} (hr : r < 8) (c : Nat) :
    h.roomOutput f (tmake 8 (h.floorSum f)) r c =
      if isRoomId h.part.inForce r = true ∧ c ≤ (h.plan r).length then
        faded (if c = 0 then h.floorLevel r (h.floorSum f r) else h.channelLevel f r c (h.floorSum f r))
          (tget h.gains.rooms (9 * r + c)).current
      else {} := by
  simp only [roomOutput, tget_tmake_of_lt _ hr, Bool.and_eq_true, decide_eq_true_eq]


/-- The feed of a booth that is not OFF goes through its fade and the clamp (R90, R102). -/
theorem boothOutput_eq (h : Hall) (f : Frame) (b : Nat) :
    h.boothOutput f (tmake 8 (h.floorSum f)) b =
      if h.effective b ≠ .off then
        faded (h.feedLevel f b (h.floorSum f (h.roomOfBooth b))) (tget h.gains.booths b).current
      else {} := by
  have hroom : h.roomOfBooth b < 8 := roomOf_lt _ _
  rw [boothOutput, tget_tmake_of_lt _ hroom, ite_not]

theorem mix_room (h : Hall) (f : Frame) (o : Outputs) {r k : Nat} (hr : r < 8) (hk : k < 9) :
    tget (h.mix f o).rooms (9 * r + k) = (h.roomOutput f (tmake 8 (h.floorSum f)) r k).value ∧
    tget (h.mix f o).roomClips (9 * r + k) =
      (tget o.roomClips (9 * r + k) || (h.roomOutput f (tmake 8 (h.floorSum f)) r k).clips) := by
  have hi : 9 * r + k < 72 := by omega
  have hroom : (9 * r + k) / 9 = r := by omega
  have hchannel : (9 * r + k) % 9 = k := by omega
  simp only [mix, tget_tmake_of_lt _ hi, tget_tmapIdx_of_lt _ _ hi, hroom, hchannel, and_self]

theorem mix_booth (h : Hall) (f : Frame) (o : Outputs) {b : Nat} (hb : b < 16) :
    tget (h.mix f o).booths b = (h.boothOutput f (tmake 8 (h.floorSum f)) b).value ∧
    tget (h.mix f o).boothClips b = (tget o.boothClips b || (h.boothOutput f (tmake 8 (h.floorSum f)) b).clips) := by
  simp only [mix, tget_tmake_of_lt _ hb, tget_tmapIdx_of_lt _ _ hb, and_self]

/-- A booth's feed: the voice of its relay source while that is ON_AIR with a slot, else its room's floor (R100). -/
theorem feedLevel_eq (h : Hall) (f : Frame) (b : Nat) (sum : Int) : h.feedLevel f b sum =
    match (h.boothRun b).relay with
    | .floor => h.floorLevel (h.roomOfBooth b) sum
    | .booth t => if h.effective t = .onAir ∧ (h.boothRun t).outSlot ≠ none then h.boothLevel f t
      else h.floorLevel (h.roomOfBooth b) sum := by
  unfold feedLevel feedSource
  cases (h.boothRun b).relay with
  | floor => rfl
  | booth t =>
    simp only [Option.isSome_iff_ne_none]
    split_ifs <;> rfl

end Hall

/-- Settles O57: each output is the level of its channel or feed through `faded`, held at 0 where it is not computed. -/
theorem mixComputesOutputs : Obligations.MixComputesOutputs := by
  intro h f o sample voice floor y clips g
  have hvoice : ∀ b, voice b = h.boothLevel f b := by
    intro b
    simp only [voice, Hall.boothLevel, Hall.boothSample]
    cases (h.boothRun b).outSlot <;> rfl
  have hfloor : ∀ r, floor r = h.floorSum f r := by
    intro r
    rw [Hall.floorSum_eq_sum]
    refine congrArg List.sum (List.map_congr_left fun k _ => ?_)
    unfold Hall.micTerm
    cases tget h.slots.mics k <;> rfl
  refine ⟨fun r hr k hk => ?_, fun b hb => ?_⟩
  · intro fade v
    obtain ⟨hvalue, hclip⟩ := Hall.mix_room h f o hr hk
    have hv : v = if k = 0 then h.floorLevel r (h.floorSum f r) else h.channelLevel f r k (h.floorSum f r) := by
      simp only [v, hfloor, hvoice, Hall.floorLevel, Hall.channelLevel, Hall.channelSource_eq_carrier] <;> rfl
    rw [Hall.roomOutput_eq h f hr, ← hv] at hvalue hclip
    show if _ then tget (h.mix f o).rooms _ = _ ∧ tget (h.mix f o).roomClips _ = _
      else tget (h.mix f o).rooms _ = _ ∧ tget (h.mix f o).roomClips _ = _
    rw [hvalue, hclip]
    split_ifs
    · exact ⟨by rw [faded_eq], by rw [faded_eq]⟩
    · exact ⟨rfl, Bool.or_false _⟩
  · intro fade own v
    obtain ⟨hvalue, hclip⟩ := Hall.mix_booth h f o hb
    have hv : v = h.feedLevel f b (h.floorSum f (h.roomOfBooth b)) := by
      simp only [v, own, hfloor, hvoice, Hall.feedLevel_eq, Hall.floorLevel] <;> rfl
    rw [Hall.boothOutput_eq, ← hv] at hvalue hclip
    show if _ then tget (h.mix f o).booths _ = _ ∧ tget (h.mix f o).boothClips _ = _
      else tget (h.mix f o).booths _ = _ ∧ tget (h.mix f o).boothClips _ = _
    rw [hvalue, hclip]
    split_ifs
    · exact ⟨by rw [faded_eq], by rw [faded_eq]⟩
    · exact ⟨rfl, Bool.or_false _⟩

end Sys2Proof.Machine

/-! SUPPORT. O58: the cell that spells a message is read as that message (R125, R129, R131, R132). -/

namespace Sys2Proof.Machine

/-! ## Sealed cells -/

theorem tget_sealCell {bytes : List Byte} {i : Nat} (hi : i < 14) : tget (sealCell bytes) i = bytes.getD i 0 := by
  have hi16 : i < 16 := by omega
  rw [sealCell, tget_tmake_of_lt _ hi16, if_pos hi]
  simp only [List.getD_eq_getElem?_getD, List.getElem?_take_of_lt hi]
  by_cases hlength : i < bytes.length
  · rw [List.getElem?_append_left hlength]
  · rw [List.getElem?_append_right (by omega), List.getElem?_replicate_of_lt (by omega),
      List.getElem?_eq_none (by omega)]
    rfl

theorem take_sealCell (bytes : List Byte) :
    (sealCell bytes).toList.take 14 = (bytes ++ List.replicate 14 0#8).take 14 := by
  have hlength : ((bytes ++ List.replicate 14 0#8).take 14).length = 14 := by simp
  apply List.ext_getElem
  · simp
  · intro i hi _
    have hi14 : i < 14 := by simpa using hi
    simp only [List.getElem_take, Vector.getElem_toList, sealCell, tmake]
    simp [hi14]

theorem crcMatches_sealCell (bytes : List Byte) : crcMatches (sealCell bytes) = true := by
  have hcrc : crcOf (sealCell bytes).toList = crcOf ((bytes ++ List.replicate 14 0#8).take 14) := by
    simp only [crcOf, take_sealCell, List.take_take, Nat.min_self]
  rw [crcMatches, hcrc]
  simp [sealCell]

/-! ## The field bytes of a command -/

theorem decodeCommand_of_not_mem {code : BitVec 7} (h : catalogue.contains code = false) (f : Nat → Byte) :
    decodeCommand code f = .unknown code := by
  unfold decodeCommand
  split
  case h_26 => rfl
  all_goals
    next hcode =>
      have hof : code = BitVec.ofNat 7 code.toNat := by simp
      rw [hcode] at hof
      subst hof
      exact absurd h (by decide)

theorem unpackCodes_packCodes (codes : Vector (BitVec 6) 8) : unpackCodes (packCodes codes) = codes := by
  apply table_ext
  intro i hi
  rw [unpackCodes, tget_tmake_of_lt _ hi, packCodes]
  show BitVec.extractLsb' (n := 6 + 6 + 6 + 6 + 6 + 6 + 6 + 6) _ 6 _ = _
  interval_cases i <;>
    simp [-Nat.reduceAdd, BitVec.extractLsb'_append_eq_of_add_le, BitVec.extractLsb'_append_eq_of_le]

theorem bytes_of_word (w : BitVec 48) :
    w.extractLsb' 40 8 ++ w.extractLsb' 32 8 ++ w.extractLsb' 24 8 ++ w.extractLsb' 16 8 ++ w.extractLsb' 8 8 ++
      w.extractLsb' 0 8 = w := by
  have join {start len : Nat} : w.extractLsb' (start + 8) len ++ w.extractLsb' start 8 = w.extractLsb' start (len + 8) :=
    BitVec.extractLsb'_append_extractLsb'_eq_extractLsb' rfl
  rw [join (start := 32), join (start := 24), join (start := 16), join (start := 8), join (start := 0)]
  exact BitVec.extractLsb'_eq_self

/-- The code and field bytes of a command that a cell can spell are decoded to that command (Table 9.4). -/
theorem decodeCommand_fields {x : Command} (h : x.spelled = true) {f : Nat → Byte}
    (hf : ∀ i < 8, f i = x.fields.getD i 0) : decodeCommand x.code f = x := by
  cases x
  case unknown code => exact decodeCommand_of_not_mem (by simpa [Command.spelled, Command.code] using h) f
  case setModeLive mode =>
    have hmode : f 0 ≠ 0 := by
      rw [hf 0 (by decide)]
      simpa [Command.spelled, Command.fields] using h
    have hfield : f 0 = mode := hf 0 (by decide)
    rw [← hfield]
    exact if_neg hmode
  case setTimeClass cls limit lead =>
    simp [Command.code, decodeCommand, hf, Command.fields]
    exact BitVec.extractLsb'_append_extractLsb'
  case setHomePlan sect length codes =>
    simp [Command.code, decodeCommand, hf, Command.fields]
    rw [bytes_of_word]
    exact ⟨BitVec.extractLsb'_append_eq_left, BitVec.extractLsb'_append_eq_right, unpackCodes_packCodes codes⟩
  all_goals simp [Command.code, decodeCommand, hf, Command.fields]

theorem bytes_eq (m : InCell) : tget (encodeCell m) 0 = 1 ∧ tget (encodeCell m) 1 = 0xFE := by
  cases m <;> exact ⟨tget_sealCell (by decide), tget_sealCell (by decide)⟩

theorem cellBody_encodeCell {m : InCell} (h : m.spelled = true) : cellBody (encodeCell m) = some m := by
  have hbyte : ∀ {i : Nat}, i < 14 → tget (encodeCell m) i = m.bytes.getD i 0 := tget_sealCell
  cases m with
  | command hd x =>
    have hfields : ∀ i < 8, tget (encodeCell (.command hd x)) (6 + i) = x.fields.getD i 0 := by
      intro i hi
      rw [hbyte (by omega)]
      simp only [InCell.bytes, List.cons_append, List.nil_append, Nat.add_comm 6 i, List.getD_cons_succ]
    have hx := decodeCommand_fields h hfields
    have hcode : (BitVec.ofBool hd.link ++ x.code).extractLsb' 0 7 = x.code := BitVec.extractLsb'_append_eq_right
    have hlink : (BitVec.ofBool hd.link ++ x.code)[7] = hd.link := by
      rw [BitVec.getElem_append]
      cases hd.link <;> rfl
    simp [cellBody, hbyte, InCell.bytes, hcode, hx, hlink]
  | micPress u => simp [cellBody, hbyte, InCell.bytes]
  | priorityPress u => simp [cellBody, hbyte, InCell.bytes]
  | unitTaken u g => simp [cellBody, hbyte, InCell.bytes]
  | boothReport b s r => simp [cellBody, hbyte, InCell.bytes]

theorem InCell.good_of_spelled {m : InCell} (h : m.spelled = true) : m.good = true := by
  cases m with
  | command _ _ => rfl
  | micPress _ | priorityPress _ | unitTaken _ _ | boothReport _ _ _ => exact h

/-- Settles O58: a sealed cell carries its CRC, and its type, source and payload bytes are those of the message. -/
theorem cellsDecodeToTheirMessages : Obligations.CellsDecodeToTheirMessages := by
  intro m h
  have hcrc : crcMatches (encodeCell m) = true := crcMatches_sealCell m.bytes
  refine ⟨?_, hcrc⟩
  rw [decodeCell, hcrc, (bytes_eq m).1, cellBody_encodeCell h]
  exact if_pos (InCell.good_of_spelled h)

end Sys2Proof.Machine

/-! SUPPORT. O19: what a close does by the state of its unit (R18). -/

namespace Sys2Proof.Machine

/-! ## Tables written twice -/

theorem tset_tset {α : Type} [Inhabited α] {n : Nat} (t : Vector α n) (i : Nat) (a b : α) :
    tset (tset t i a) i b = tset t i b := by
  apply table_ext
  intro j _
  simp only [tget_tset]
  split_ifs <;> rfl

theorem tmod_tmod {α : Type} [Inhabited α] {n : Nat} (t : Vector α n) (i : Nat) (f g : α → α) :
    tmod (tmod t i f) i g = tmod t i (g ∘ f) := by
  by_cases hi : i < n
  · simp only [tmod, tget_tset_self _ _ hi, tset_tset, Function.comp]
  · simp only [tmod, tset_of_le _ _ (Nat.le_of_not_lt hi)]

namespace Hall

variable {h : Hall} {u k : Nat}

/-- What a signal sets: the indication, if there is one, and the mark of a known unit. -/
theorem signal_eq (i : Option Indication) (u : Nat) (h : Hall) : h.signal i u = { h with
    floor.runs := tmod h.floor.runs (unitIndex u) (fun d => { d with indication := i.or d.indication })
    floor.dirty := if h.known u then tset h.floor.dirty (unitIndex u) true else h.floor.dirty } := by
  cases i with
  | some i => rfl
  | none =>
    have same : tmod h.floor.runs (unitIndex u) (fun d => d) = h.floor.runs := tset_tget _ _
    show h.mark u = { h with
      floor.runs := tmod h.floor.runs (unitIndex u) (fun d => d)
      floor.dirty := if h.known u then tset h.floor.dirty (unitIndex u) true else h.floor.dirty }
    rw [same]
    rfl

theorem closeOne_of_granting (c : CloseReason) (hstate : (h.run u).state = .granting) (hslot : (h.run u).slot = some k) :
    h.closeOne c u = { h with
      slots.mics := tset h.slots.mics k none
      floor.runs := tmod h.floor.runs (unitIndex u) (fun d => { d with
        state := .idle, slot := none, grantTs := none, window := none, indication := c.indication.or d.indication })
      floor.dirty := if h.known u then tset h.floor.dirty (unitIndex u) true else h.floor.dirty } := by
  rw [closeOne, hstate]
  simp only [signal_eq, endHold, releaseMic, hslot, setRun_sets, tmod_tmod]
  rfl

theorem closeOne_of_speaking (c : CloseReason) (hstate : (h.run u).state = .speaking) (hslot : (h.run u).slot = some k) :
    h.closeOne c u = { h with
      gains.mics := tmod h.gains.mics k (fun x => { x with target := Config.mute })
      floor.runs := tmod h.floor.runs (unitIndex u) (fun d => { d with
        state := .closing, reason := some c, indication := c.indication.or d.indication })
      floor.dirty := if h.known u then tset h.floor.dirty (unitIndex u) true else h.floor.dirty } := by
  rw [closeOne, hstate]
  simp only [signal_eq, aimMic, hslot, setRun_sets, tmod_tmod]
  rfl

theorem closeOne_of_closing (c : CloseReason) (hstate : (h.run u).state = .closing) : h.closeOne c u = h := by
  rw [closeOne, hstate]

end Hall

/-- Settles O19: the three branches of `closeOne`. -/
theorem closeByState : Obligations.CloseByState := by
  intro h c u k hu hk hslot g d i marks
  obtain ⟨hindex, -, -⟩ := unitIndex_of_mem hu
  have hi : i = c.indication.or d.indication := by cases c <;> rfl
  have hmarks : marks = if h.known u then tset h.floor.dirty (unitIndex u) true else h.floor.dirty := by rw [hindex]
  refine ⟨fun hstate => ?_, fun hstate => ?_, fun hstate => Hall.closeOne_of_closing c hstate⟩
  · rw [hi, hmarks, ← hindex]
    exact Hall.closeOne_of_granting c hstate hslot
  · rw [hi, hmarks, ← hindex]
    exact Hall.closeOne_of_speaking c hstate hslot

end Sys2Proof.Machine

/-! SUPPORT. O22: the order of the oldest heads (R23, R79), service and arbiter where reads find nothing (R25, R79), and the row
of a step that is first in turn. -/

namespace Sys2Proof.Machine

/-! ## The row of the step that is first in turn -/

theorem Chip.settleRamp_of_notDue {c : Chip} (hramp : Due.rampStep ∉ c.due) : c.settleRamp = c :=
  if_neg (by simpa using hramp)

/-- The row of the first step that is due takes it, unless a ramp step, or the end of a close before STOPPING, goes first. -/
theorem Chip.takeRow_of_head {d : Due} {c : Chip} {rest : List Due} (hdue : c.due = d :: rest)
    (hramp : d ≠ .rampStep → Due.rampStep ∉ rest) (hstop : d = .stopping → rest.any isCloseEnd = false) : c.takeRow d = ({ c with due := rest } : Chip).runDue d := by
  have hsettled : (if d = .rampStep then c else c.settleRamp) = c := by
    split
    · rfl
    · next hne => exact settleRamp_of_notDue (by simp [hdue, hramp hne, Ne.symm hne])
  have hturn : c.inTurn d = true := by
    unfold inTurn
    rw [hdue]
    cases d
    case stopping => simp [hstop rfl, isCloseEnd]
    all_goals simp [isFlip, isGap, isCloseEnd]
  have hoff : c.takeOff d = ({ c with due := rest } : Chip).runDue d := by rw [takeOff, hdue, List.erase_cons_head]
  unfold takeRow
  rw [hsettled, ← hoff]
  exact if_pos hturn

/-- A hall's own step that is first in turn acts on the hall alone. -/
theorem next_takeRow_of_onlyHall {d : Due} {s : State} {rest : List Due} {f : Hall → Hall} (hdue : s.chip.due = d :: rest)
    (hramp : Due.rampStep ∉ rest) (hstop : d = .stopping → rest.any Chip.isCloseEnd = false)
    (hrun : ∀ c : Chip, c.runDue d = c.onlyHall f) : Host.Outcome.next (φ := Fault) (ρ := Refusal) (s.onChip (Chip.takeRow d)) =
      .next (s.withChip { s.chip with due := rest, hall := f s.chip.hall }) := by
  rw [State.onChip, Chip.takeRow_of_head hdue (fun _ => hramp) hstop, hrun]
  rfl

/-! ## Sorting -/

section sorting

variable {α : Type} {before : α → α → Bool}

theorem insertBy_perm (x : α) (l : List α) : (insertBy before x l).Perm (x :: l) := by
  induction l with
  | nil => exact .refl _
  | cons y ys ih =>
    rw [insertBy]
    split
    · exact .refl _
    · exact (ih.cons y).trans (.swap x y ys)

theorem sortBy_perm (l : List α) : (sortBy before l).Perm l := by
  induction l with
  | nil => exact .refl _
  | cons x xs ih => exact (insertBy_perm x _).trans (ih.cons x)

variable {R : α → α → Prop} (htrans : ∀ a b c, R a b → R b c → R a c) (hbefore : ∀ a b, before a b = true → R a b)
  (hnot : ∀ a b, before a b = false → R b a)

include htrans hbefore hnot

theorem insertBy_pairwise {x : α} {l : List α} (hl : l.Pairwise R) : (insertBy before x l).Pairwise R := by
  induction l with
  | nil => exact List.pairwise_singleton R x
  | cons y ys ih =>
    obtain ⟨hy, hys⟩ := List.pairwise_cons.mp hl
    rw [insertBy]
    split
    · next hxy =>
      refine List.pairwise_cons.mpr ⟨fun z hz => ?_, hl⟩
      obtain rfl | hz := List.mem_cons.mp hz
      · exact hbefore _ _ hxy
      · exact htrans _ _ _ (hbefore _ _ hxy) (hy z hz)
    · next hxy =>
      refine List.pairwise_cons.mpr ⟨fun z hz => ?_, ih hys⟩
      obtain rfl | hz := List.mem_cons.mp ((insertBy_perm x ys).mem_iff.mp hz)
      · exact hnot _ _ (Bool.eq_false_iff.mpr hxy)
      · exact hy z hz

theorem sortBy_pairwise (l : List α) : (sortBy before l).Pairwise R := by
  induction l with
  | nil => exact .nil
  | cons x xs ih => exact insertBy_pairwise htrans hbefore hnot ih

end sorting

namespace Hall

variable {h : Hall}

theorem older_iff {a b : FrameCount × Nat} : h.older a b = true ↔
    h.age b.1 < h.age a.1 ∨ (h.age b.1 = h.age a.1 ∧ a.2 < b.2) := by
  simp [older]

/-- The rooms with a queue, the greater age of its head first and the lower address of two that tie (R23, R79). -/
theorem oldestHeadFirst_pairwise (h : Hall) (rs : List Nat) : (h.oldestHeadFirst rs).Pairwise (fun a b =>
    h.age (h.requestKey ((h.queue b).headD 0)).1 < h.age (h.requestKey ((h.queue a).headD 0)).1 ∨
      (h.age (h.requestKey ((h.queue a).headD 0)).1 = h.age (h.requestKey ((h.queue b).headD 0)).1 ∧
        (h.queue a).headD 0 ≤ (h.queue b).headD 0)) := by
  refine sortBy_pairwise (fun a b c hab hbc => ?_) (fun a b hab => ?_) (fun a b hab => ?_) _
  · omega
  · have hold := older_iff.mp hab
    simp only [requestKey] at hold ⊢
    omega
  · have hold := mt older_iff.mpr (Bool.eq_false_iff.mp hab)
    simp only [requestKey] at hold ⊢
    omega

/-! ## Service (R25) -/

theorem micFree_iff : h.micFree = true ↔ none ∈ h.slots.mics.toList := by
  simp only [micFree, freeMic, List.find?_isSome, List.mem_range, beq_iff_eq]
  constructor
  · rintro ⟨k, hk, hfree⟩
    rw [tget_eq_getElem _ hk] at hfree
    exact hfree ▸ Vector.mem_toList_iff.mpr (Vector.getElem_mem hk)
  · intro hmem
    obtain ⟨k, hk, hfree⟩ := Vector.getElem_of_mem (Vector.mem_toList_iff.mp hmem)
    exact ⟨k, hk, by rw [tget_eq_getElem _ hk, hfree]⟩

/-- A grant leaves Table Memory alone. -/
theorem grant_mem (u : Nat) (h : Hall) : (h.grant u).mem = h.mem := by
  cases hk : h.freeMic with
  | none => rw [grant, hk]
  | some k => rw [grant_eq hk]

theorem serviceLoop_succ (hm : h.mem.ReadsFindNothing) {r u n : Nat} {q : List Nat} (hq : h.queue r = u :: q)
    (hserve : h.canServe r = true) : h.serviceLoop reader r (n + 1) = (h.grant u).serviceLoop reader r n := by
  rw [serviceLoop]
  simp [hq, hserve, idle_delegate reader_idle hm]

theorem serviceLoop_of_not {r : Nat} (hserve : h.canServe r = false) (n : Nat) : h.serviceLoop reader r n = h := by
  cases n with
  | zero => rfl
  | succ n =>
    rw [serviceLoop]
    split
    · rfl
    · simp [hserve]

/-- A service attempt looks at the heads of the queue, one for each place (R25). -/
theorem service_eq_loop (hm : h.mem.ReadsFindNothing) (r : Nat) :
    h.service reader r = h.serviceLoop reader r (h.queue r).length := by
  unfold service
  simp only [idle_settings reader_idle hm]
  split_ifs with hguard
  · rfl
  · exact (serviceLoop_of_not (by simp only [canServe]; grind) _).symm

theorem canServe_iff (r : Nat) : h.canServe r = true ↔
    (h.cmd.mode = .live ∨ h.cmd.mode = .safe) ∧
      ((h.settings r).floorMode = .queue ∨ ((h.settings r).floorMode = .operator ∧ h.cmd.mode = .safe)) ∧
      h.gap r = none ∧ h.queue r ≠ [] ∧ (h.positionHolders r).length < (h.settings r).maxSpeakers ∧
      none ∈ h.slots.mics.toList := by
  rw [← micFree_iff]
  simp only [canServe, floorOpen, servesQueue, freePosition, Bool.and_eq_true, Bool.or_eq_true, beq_iff_eq,
    Option.isNone_iff_eq_none, Bool.not_eq_true', List.isEmpty_eq_false_iff, decide_eq_true_eq]
  tauto

theorem exists_freeMic_of_micFree (hfree : h.micFree = true) : ∃ k, h.freeMic = some k := Option.isSome_iff_exists.mp hfree

theorem queue_grant_of_head {r u : Nat} {q : List Nat} (hfree : h.micFree = true) (hq : h.queue r = u :: q)
    (hroom : h.roomOfUnit u = r) : (h.grant u).queue r = q := by
  obtain ⟨k, hk⟩ := exists_freeMic_of_micFree hfree
  have hr : r < 8 := hroom ▸ roomOf_lt _ _
  rw [grant_eq hk]
  show tget (tset h.floor.queues (h.roomOfUnit u) ((h.queue (h.roomOfUnit u)).erase u)) r = q
  rw [hroom, tget_tset_self _ _ hr, hq, List.erase_cons_head]

theorem service_of_canServe (hm : h.mem.ReadsFindNothing) {r u : Nat} {q : List Nat} (hserve : h.canServe r = true)
    (hq : h.queue r = u :: q) (hroom : h.roomOfUnit u = r) : h.service reader r = (h.grant u).service reader r := by
  have hfree : h.micFree = true := micFree_iff.mpr ((canServe_iff r).mp hserve).2.2.2.2.2
  have hg : (h.grant u).mem.ReadsFindNothing := by rw [grant_mem]; exact hm
  rw [service_eq_loop hm, service_eq_loop hg, queue_grant_of_head hfree hq hroom, hq]
  exact serviceLoop_succ hm hq hserve

theorem service_of_not (hm : h.mem.ReadsFindNothing) {r : Nat} (hserve : h.canServe r = false) : h.service reader r = h :=
  (service_eq_loop hm r).trans (serviceLoop_of_not hserve _)

/-! ## The arbiter (R79) -/

theorem arbiterRun_of_notFree (hfree : h.micFree = false) : h.arbiterRun reader = h := by
  have hchairs : h.serveChairs reader h.floor.chairs.length = h := by
    cases hc : h.floor.chairs with
    | nil => rfl
    | cons c cs => simp [serveChairs, hc, hfree]
  rw [arbiterRun, hchairs, serveRooms]
  simp [hfree]

theorem arbiterRun_of_chairs (hm : h.mem.ReadsFindNothing) {u : Nat} {q : List Nat} (hfree : h.micFree = true)
    (hc : h.floor.chairs = u :: q) : h.arbiterRun reader = (h.grant u).arbiterRun reader := by
  obtain ⟨k, hk⟩ := exists_freeMic_of_micFree hfree
  have htail : (h.grant u).floor.chairs = q := by
    rw [grant_eq hk]
    show h.floor.chairs.erase u = q
    rw [hc, List.erase_cons_head]
  have hstep : h.serveChairs reader (q.length + 1) = (h.grant u).serveChairs reader q.length := by
    rw [serveChairs]
    simp [hc, hfree, idle_delegate reader_idle hm]
  rw [arbiterRun, arbiterRun, htail, ← hstep, hc]
  rfl

theorem arbiterRun_of_noChairs (hm : h.mem.ReadsFindNothing) (hfree : h.micFree = true) (hc : h.floor.chairs = []) :
    h.arbiterRun reader = h.each h.roomsToServe (service reader) := by
  rw [arbiterRun, hc, List.length_nil, serveChairs, serveRooms]
  simp only [hfree, if_true, idle_readSettings reader_idle hm]

end Hall

/-- Settles O22: a service attempt grants the head while `canServe` holds, an arbiter run the oldest chair while a slot is
free; the rooms are sorted by `older`; and the row of the expiry is the hall's `gapExpiry`. -/
theorem serviceGrantsFromHead : Obligations.ServiceGrantsFromHead := by
  refine ⟨fun h r hm => ⟨fun hnot => ?_, fun u q hserve hq _ hroom => ?_⟩, fun h hm => ⟨fun hnone => ?_,
    fun u q hfree hc => ?_, fun hfree hc => ?_⟩, fun h rs => ⟨?_, Hall.oldestHeadFirst_pairwise h rs⟩,
    fun s r rest hdue hramp => ?_⟩
  · exact Hall.service_of_not hm (Bool.eq_false_iff.mpr (mt (Hall.canServe_iff r).mp hnot))
  · exact Hall.service_of_canServe hm ((Hall.canServe_iff r).mpr hserve) hq hroom
  · exact Hall.arbiterRun_of_notFree (Bool.eq_false_iff.mpr (mt Hall.micFree_iff.mp hnone))
  · exact Hall.arbiterRun_of_chairs hm (Hall.micFree_iff.mpr hfree) hc
  · exact Hall.arbiterRun_of_noChairs hm (Hall.micFree_iff.mpr hfree) hc
  · have hfilter : (rs.filter (fun r => !(h.queue r).isEmpty)) = rs.filter (fun r => h.queue r ≠ []) :=
      List.filter_congr fun r _ => by cases h.queue r <;> rfl
    exact hfilter ▸ sortBy_perm _
  · exact next_takeRow_of_onlyHall (f := Hall.gapExpiry reader r) hdue hramp nofun (fun _ => rfl)

end Sys2Proof.Machine

/-! SUPPORT. O38, O39 and O47: the rows of ramp step, tick and supervision expiry (R90, R93, R94, R122, R142, R143). -/

namespace Sys2Proof.Machine

/-! ## The ramp step (R93, R94) -/

theorem GainPoint.ramp_eq (x : GainPoint) : x.ramp = { x with
    current := if x.current < x.target then x.current + 1 else if x.target < x.current then x.current - 1 else x.current } := by
  unfold GainPoint.ramp
  split_ifs <;> rfl

theorem GainPoints.ramp_eq (g : GainPoints) : g.ramp =
    ⟨tmapIdx g.mics (fun _ x => x.ramp), tmapIdx g.rooms (fun _ x => x.ramp), tmapIdx g.booths (fun _ x => x.ramp)⟩ := rfl

theorem Hall.closesReported_eq (h : Hall) : Chip.closesReported h = units.filter (fun u => (h.run u).state = .closing ∧
    ∃ k ∈ (h.run u).slot, (tget h.gains.mics k).current = 128) := by
  refine List.filter_congr fun u _ => ?_
  cases (h.run u).slot <;> simp [Config.mute, beq_eq_decide]

/-- Whether the fades of rooms `rs` and of the booths homed in sections `ss` stand at index `a`. -/
theorem Hall.namedFadesAt_eq (h : Hall) (a : Nat) (rs ss : List Nat) : h.namedFadesAt a rs ss =
    decide ((∀ r ∈ rs, ∀ k ∈ List.range 9, (tget h.gains.rooms (9 * r + k)).current = a) ∧
      ∀ b ∈ List.range 16, (h.booth b).home ∈ ss → (tget h.gains.booths b).current = a) := by
  rw [Bool.eq_iff_iff]
  simp only [namedFadesAt, roomFadesAt, boothNumbers, Bool.and_eq_true, List.all_eq_true, decide_eq_true_eq, beq_iff_eq,
    Bool.or_eq_true, Bool.not_eq_true', List.contains_eq_mem, decide_eq_false_iff_not, Decidable.imp_iff_not_or]

/-- The end of a fade-out or of a fade-in, as the steps that it makes due. -/
theorem Hall.fadesDone_eq (h : Hall) :
    (if h.fadeOutDone then [Due.partitionChange] else []) ++ (if h.fadeInDone then [Due.repartitionDone] else []) =
      match h.part.repartition with
      | .idle => []
      | .fadingOut p ss => if h.namedFadesAt 128 (changedRooms h.part.inForce p) ss then [.partitionChange] else []
      | .fadingIn _ ss => if h.namedFadesAt 0 ((roomIds h.part.inForce).filter (fun r => r ∈ ss)) ss then [.repartitionDone]
        else [] := by
  unfold fadeOutDone fadeInDone
  cases h.part.repartition with
  | idle => rfl
  | fadingOut p ss => exact List.append_nil _
  | fadingIn p ss =>
    have hmem : (fun r => decide (r ∈ ss)) = ss.contains := funext fun r => (List.contains_eq_mem r ss).symm
    simp only [hmem]
    exact List.nil_append _

/-- Settles O38: the ramped gains, and the reports that the ramp step makes due. -/
theorem rampStepMovesGains : Obligations.RampStepMovesGains := by
  intro s rest hdue c h toward gains closes stand
  have hgains : h.gains.ramp = gains := by
    rw [GainPoints.ramp_eq]
    simp only [GainPoint.ramp_eq]
    rfl
  have hrow : exec .rampStep s = .next (s.withChip (({ c with due := rest } : Chip).runDue .rampStep)) := by
    show Host.Outcome.next (s.onChip (Chip.takeRow .rampStep)) = _
    rw [State.onChip, Chip.takeRow_of_head hdue (fun hne => absurd rfl hne) nofun]
    rfl
  rw [hrow]
  show Host.Outcome.next (s.withChip { c with
    hall.gains := h.gains.ramp, due := Chip.rampReports { h with gains := h.gains.ramp } ++ rest }) = _
  rw [hgains, Chip.rampReports, Hall.closesReported_eq, List.append_assoc (List.map _ _), Hall.fadesDone_eq]
  simp only [Hall.namedFadesAt_eq]
  rfl

/-! ## The tick (R1, R26, R122, R143) -/

theorem Chip.superviseTick_window (c : Chip) : c.superviseTick = { c with
    hall.cmd.supervision.window := if c.hall.cmd.supervision.enabled then c.hall.cmd.supervision.window - 1
      else c.hall.cmd.supervision.window } := by
  unfold superviseTick
  by_cases hon : c.hall.cmd.supervision.enabled = true
  · by_cases hrun : 0 < c.hall.cmd.supervision.window
    · rw [if_pos ⟨hon, hrun⟩, if_pos hon]
    · have hzero : c.hall.cmd.supervision.window - 1 = c.hall.cmd.supervision.window := by omega
      rw [if_neg (fun both => hrun both.2), if_pos hon, hzero]
  · rw [if_neg (fun both => hon both.1), if_neg hon]

/-- Settles O39: the counters of a tick, and the steps that they make due. -/
theorem tickCounts : Obligations.TickCounts := by
  intro s rest hdue hramp c h v scans seconds gaps ended
  have hrow : exec .tick s = .next (s.withChip (({ c with due := rest } : Chip).runDue .tick)) := by
    show Host.Outcome.next (s.onChip (Chip.takeRow .tick)) = _
    rw [State.onChip, Chip.takeRow_of_head hdue (fun _ => hramp) nofun]
    rfl
  have hends : Chip.windowEnds v = decide (v.enabled = true ∧ v.window = 1) := by
    rw [Bool.eq_iff_iff]
    simp [Chip.windowEnds]
  have hended : sections.filter (fun r => tget gaps r == some 0) = ended :=
    List.filter_congr fun r _ => beq_eq_decide ..
  rw [hrow, Chip.runDue, Chip.tick, Chip.superviseTick_window]
  show Host.Outcome.next (s.withChip { c with
    time.sinceSecond := if decide seconds then 0 else c.time.sinceSecond + 1
    hall.part.scanTicks := if decide scans then 0 else h.part.scanTicks + 1
    hall.floor.gaps := gaps
    hall.cmd.supervision.window := if v.enabled then v.window - 1 else v.window
    due := ((if Chip.windowEnds v then [Due.supervision] else []) ++ (if decide scans then [.scan] else []) ++
      (h.oldestHeadFirst (sections.filter (fun r => tget gaps r == some 0)) ++
        (sections.filter (fun r => tget gaps r == some 0)).filter (fun r => (h.queue r).isEmpty)).map Due.gapExpiry ++
        (if decide seconds then [.second] else [])) ++ rest }) = _
  rw [hends, hended]
  simp only [decide_eq_true_eq]

/-! ## The expiry of the supervision window (R142, R143) -/

theorem Hall.enterSafe_of_live {h : Hall} (hlive : h.cmd.mode = .live) : h.enterSafe reader =
    let safe := (h.setMode .safe).readAll reader.settings h.rooms
    safe.each (safe.oldestHeadFirst (safe.rooms.filter (fun r => (safe.settings r).floorMode = .operator)))
      (service reader) := by
  have hoperator (g : Hall) : (fun r => (g.settings r).floorMode == .operator) =
      fun r => decide ((g.settings r).floorMode = .operator) := funext fun r => beq_eq_decide ..
  simp only [enterSafe, hlive, if_true, hoperator]

theorem Hall.enterSafe_of_not_live {h : Hall} (hlive : h.cmd.mode ≠ .live) : h.enterSafe reader = h := if_neg hlive

/-- Settles O47: the expiry is posted with the mode that follows it, and LIVE turns to SAFE. -/
theorem supervisionExpires : Obligations.SupervisionExpires := by
  intro s rest hdue hramp c h posted safe
  have hrow : exec .supervisionExpired s = .next (s.withChip (({ c with due := rest } : Chip).runDue .supervision)) := by
    show Host.Outcome.next (s.onChip (Chip.takeRow .supervision)) = _
    rw [State.onChip, Chip.takeRow_of_head hdue (fun _ => hramp) nofun]
    rfl
  rw [hrow, Chip.runDue, Chip.supervisionExpired]
  by_cases hlive : h.cmd.mode = .live
  · rw [if_pos hlive, if_pos hlive]
    exact congrArg (fun g => Host.Outcome.next (s.withChip { c with due := rest, hall := g }))
      (Hall.enterSafe_of_live (h := { h with events := posted .safe }) hlive)
  · rw [if_neg hlive, if_neg hlive]
    exact congrArg (fun g => Host.Outcome.next (s.withChip { c with due := rest, hall := g }))
      (Hall.enterSafe_of_not_live (h := { h with events := posted h.cmd.mode }) hlive)

end Sys2Proof.Machine

/-! SUPPORT. O45 and O46: the end of a close and the expiry of a response window (R48, R49, R52), and what the rules of the floor
leave alone. -/

namespace Sys2Proof.Machine

namespace Hall

variable {h g : Hall}

/-! ## What the rules of the floor leave alone -/

theorem sameBeyondFloor_iff : h.SameBeyondFloor g ↔ g.frameCounter = h.frameCounter ∧ g.part = h.part ∧ g.router = h.router ∧
    g.slots = { h.slots with mics := g.slots.mics } ∧ g.gains = { h.gains with mics := g.gains.mics } ∧ g.cmd = h.cmd ∧
    g.events.mask = h.events.mask ∧ g.mem = h.mem ∧ g.store = h.store := by
  constructor
  · intro same
    unfold SameBeyondFloor at same
    rw [same]
    exact ⟨rfl, rfl, rfl, rfl, rfl, rfl, rfl, rfl, rfl⟩
  · rintro ⟨hframe, hpart, hrouter, hslots, hgains, hcmd, hmask, hmem, hstore⟩
    unfold SameBeyondFloor
    obtain ⟨⟩ := g
    simp only at hframe hpart hrouter hslots hgains hcmd hmask hmem hstore
    subst hframe hpart hrouter hcmd hmem hstore
    rw [← hmask]
    congr

theorem sameBeyondFloor_refl (h : Hall) : h.SameBeyondFloor h := rfl

/-- The rules of the floor change floor, microphone slots, microphone gain points and waiting events alone. -/
theorem sameBeyondFloor_closed (h : Hall) : ClosedFloor h.SameBeyondFloor where
  post ts k a b c d g hg := by
    rw [sameBeyondFloor_iff] at hg ⊢
    obtain ⟨hframe, hpart, hrouter, hslots, hgains, hcmd, hmask, hmem, hstore⟩ := hg
    exact ⟨hframe, hpart, hrouter, hslots, hgains, hcmd, (EventQueue.push_mask _ _ _).trans hmask, hmem, hstore⟩
  run _ _ g _ hg := by
    have same := sameBeyondFloor_iff.mp hg
    exact sameBeyondFloor_iff.mpr same
  floor g _ _ hg := by
    have same := sameBeyondFloor_iff.mp hg
    exact sameBeyondFloor_iff.mpr same
  slot g x hg := by
    rw [sameBeyondFloor_iff] at hg ⊢
    obtain ⟨hframe, hpart, hrouter, hslots, rest⟩ := hg
    exact ⟨hframe, hpart, hrouter, congrArg (fun y : SlotAllocator => { y with mics := x }) hslots, rest⟩
  mic k a g _ hg := by
    rw [sameBeyondFloor_iff] at hg ⊢
    obtain ⟨hframe, hpart, hrouter, hslots, hgains, rest⟩ := hg
    exact ⟨hframe, hpart, hrouter, hslots,
      congrArg (fun y : GainPoints => { y with mics := (setMicTarget k a g).gains.mics }) hgains, rest⟩

theorem SameBeyondFloor.clean (same : h.SameBeyondFloor g) (hm : h.mem.ReadsFindNothing) : g.mem.ReadsFindNothing := by
  obtain ⟨-, -, -, -, -, -, -, hmem, -⟩ := sameBeyondFloor_iff.mp same
  exact hmem ▸ hm

theorem SameBeyondFloor.roomOfUnit (same : h.SameBeyondFloor g) (u : Nat) : g.roomOfUnit u = h.roomOfUnit u := by
  unfold SameBeyondFloor at same
  rw [same]
  rfl

/-- Where reads find nothing, the reads with their reactions leave all but the floor as it is. -/
theorem reader_keeps_sameBeyondFloor (hm : h.mem.ReadsFindNothing) : reader.Keeps h.SameBeyondFloor :=
  idle_keeps reader_idle (fun _ same => same.clean hm)

/-! ## The end of a close (R52) -/

theorem closeEnd_of_not_closing (hm : h.mem.ReadsFindNothing) {u : Nat} (hstate : (h.run u).state ≠ .closing) :
    h.closeEnd reader u = h := by
  unfold closeEnd
  rw [idle_delegate reader_idle hm]
  exact if_neg hstate

theorem endHold_of_slot {u k : Nat} (hslot : (h.run u).slot = some k) : h.endHold u = { h with
    slots.mics := tset h.slots.mics k none
    floor.runs := tmod h.floor.runs (unitIndex u)
      (fun d => { d with state := .idle, slot := none, grantTs := none, window := none }) } := by
  rw [endHold, releaseMic, hslot]
  rfl

/-- The hall once the close of unit `u` has ended, before its slot is handed on. -/
def closeEnded (u : Nat) (h : Hall) : Hall :=
  ((h.endHold u).mark u).post .closed (byte u) (((h.run u).reason.getD .unit).code) (highByte (h.run u).seconds)
    (lowByte (h.run u).seconds)

theorem closeEnd_of_read {rd : Reader} {u : Nat} (hread : rd.delegate u h = h) (hstate : (h.run u).state = .closing) :
    h.closeEnd rd u = (((h.closeEnded u).arbiterRun rd).service rd ((h.closeEnded u).roomOfUnit u)).recomputeMics
      rd ((((h.closeEnded u).arbiterRun rd).service rd ((h.closeEnded u).roomOfUnit u)).roomOfUnit u) := by
  simp only [closeEnd, closeEnded, hread, hstate, if_true]

theorem closeEnd_of_closing (hm : h.mem.ReadsFindNothing) {u : Nat} (hstate : (h.run u).state = .closing) :
    h.closeEnd reader u =
      (((h.closeEnded u).arbiterRun reader).service reader (h.roomOfUnit u)).aimSpeakers (h.roomOfUnit u) := by
  have C := sameBeyondFloor_closed h
  have K := reader_keeps_sameBeyondFloor hm
  have hended : h.SameBeyondFloor (h.closeEnded u) :=
    keeps_post C.toClosedEvents (keeps_mark C (keeps_endHold C h.sameBeyondFloor_refl))
  have hrun : h.SameBeyondFloor ((h.closeEnded u).arbiterRun reader) := keeps_arbiterRun C K hended
  have hserved : h.SameBeyondFloor (((h.closeEnded u).arbiterRun reader).service reader (h.roomOfUnit u)) := keeps_service C K hrun
  rw [closeEnd_of_read (idle_delegate reader_idle hm u) hstate, hended.roomOfUnit, hserved.roomOfUnit,
    idle_recomputeMics reader_idle (hserved.clean hm)]

/-! ## The expiry of a response window (R48, R49) -/

theorem windowExpiry_of_not_expired (hm : h.mem.ReadsFindNothing) {u : Nat}
    (hrun : ¬((h.run u).state = .granting ∧ (h.run u).window = some 0)) : h.windowExpiry reader u = h := by
  unfold windowExpiry
  rw [idle_delegate reader_idle hm]
  exact if_neg hrun

theorem windowExpiry_of_retry (hm : h.mem.ReadsFindNothing) {u : Nat}
    (hrun : (h.run u).state = .granting ∧ (h.run u).window = some 0) (hattempts : (h.run u).attempts < 3) :
    h.windowExpiry reader u = (h.setRun u (fun d => { d with attempts := d.attempts + 1, window := none })).mark u := by
  unfold windowExpiry
  rw [idle_delegate reader_idle hm]
  exact (if_pos hrun).trans (if_pos hattempts)

/-- The rooms from which one unit's close frees a position: its own, unless it is a chair. -/
theorem roomsFreed_singleton {u : Nat} (hfloor : h.onFloor u = true) :
    h.roomsFreed [u] = if h.isChair u then [] else [h.roomOfUnit u] := by
  have hroom : h.roomOfUnit u < 8 := roomOf_lt _ _
  have hfilter : [u].filter h.takesPosition = if h.isChair u then [] else [u] := by
    cases hc : h.isChair u <;> simp [takesPosition, hfloor, hc]
  rw [roomsFreed, hfilter]
  split
  · rfl
  · simp only [roomsOf, sections, List.any_cons, List.any_nil, Bool.or_false]
    generalize h.roomOfUnit u = r at hroom
    interval_cases r <;> rfl

/-- The hall once unit `u` has turned out unresponsive, before its slot is handed on. -/
def silenced (u : Nat) (h : Hall) : Hall :=
  (((h.setRun u (fun d => { d with unresponsive := true })).endHold u).mark u).post .unresponsive (byte u)
    (byte (h.run u).grantId.toNat) (byte (8 + (h.run u).slot.getD 0)) 0

theorem windowExpiry_of_silent (hm : h.mem.ReadsFindNothing) {u : Nat}
    (hrun : (h.run u).state = .granting ∧ (h.run u).window = some 0) (hattempts : 3 ≤ (h.run u).attempts) :
    h.windowExpiry reader u = if h.isChair u then (h.silenced u).arbiterRun reader
      else ((h.silenced u).arbiterRun reader).service reader (h.roomOfUnit u) := by
  unfold windowExpiry
  rw [idle_delegate reader_idle hm]
  refine (if_pos hrun).trans ((if_neg (Nat.not_lt.mpr hattempts)).trans ?_)
  have hfloor : h.onFloor u = true := by simp [onFloor, hrun.1]
  rw [roomsFreed_singleton hfloor]
  split <;> rfl

end Hall

/-- Settles O45: the row runs the hall's `closeEnd`. -/
theorem closeEndsFreeTheSlot : Obligations.CloseEndsFreeTheSlot := by
  intro s u rest hdue hramp hu hm c h d
  obtain ⟨hindex, hlt, -⟩ := unitIndex_of_mem hu
  have hrow : exec (.closeEnd u) s = .next (s.withChip { c with due := rest, hall := h.closeEnd reader u }) :=
    next_takeRow_of_onlyHall hdue hramp nofun (fun _ => rfl)
  refine ⟨fun hstate => ?_, fun k x hstate hslot hreason => ?_⟩
  · rw [hrow, Hall.closeEnd_of_not_closing hm hstate]
  · intro ended served
    have hended : h.closeEnded u = ended := by
      rw [Hall.closeEnded, Hall.endHold_of_slot hslot, hreason]
      simp only [ended, d, Hall.run, ← hindex]
      rfl
    rw [hrow, Hall.closeEnd_of_closing hm hstate, hended]

/-- Settles O46: the row runs the hall's `windowExpiry`. -/
theorem responseWindowsExpire : Obligations.ResponseWindowsExpire := by
  intro s u rest hdue hramp hu hm c h d marks expired
  obtain ⟨hindex, hlt, -⟩ := unitIndex_of_mem hu
  have hmarks : marks = if h.known u then tset h.floor.dirty (unitIndex u) true else h.floor.dirty := by rw [hindex]
  have hrow : exec (.responseWindowExpiry u) s = .next (s.withChip { c with due := rest, hall := h.windowExpiry reader u }) :=
    next_takeRow_of_onlyHall hdue hramp nofun (fun _ => rfl)
  refine ⟨fun hnot => ?_, fun hrun hattempts => ?_, fun k hrun hattempts hslot => ?_⟩
  · rw [hrow, Hall.windowExpiry_of_not_expired hm hnot]
  · rw [hrow, Hall.windowExpiry_of_retry hm hrun hattempts, hmarks, ← hindex]
    rfl
  · intro ended handed
    have hended : h.silenced u = ended := by
      have hslot' : ((h.setRun u (fun d => { d with unresponsive := true })).run u).slot = some k := by
        show (tget (tmod h.floor.runs (unitIndex u) _) (unitIndex u)).slot = some k
        rw [tget_tmod, if_pos ⟨rfl, hindex ▸ hlt⟩]
        exact hslot
      have hslotNow : (h.run u).slot.getD 0 = k := by rw [show (h.run u).slot = some k from hslot]; rfl
      rw [Hall.silenced, Hall.endHold_of_slot hslot', hslotNow, Hall.setRun_sets, tmod_tmod]
      simp only [ended, hmarks, ← hindex]
      rfl
    rw [hrow, Hall.windowExpiry_of_silent hm hrun hattempts, hended]

end Sys2Proof.Machine

/-! SUPPORT. O40: the count and the tests of a second (R55, R56). -/

namespace Sys2Proof.Machine

/-! ## Several entries of a table changed alike -/

theorem foldl_tmod {α : Type} [Inhabited α] {n : Nat} {is : List Nat} (hnodup : is.Nodup) (f : α → α) (t : Vector α n) :
    is.foldl (fun t i => tmod t i f) t = tmapIdx t (fun i a => if i ∈ is then f a else a) := by
  induction is generalizing t with
  | nil =>
    apply table_ext
    intro i hi
    simp [tget_tmapIdx_of_lt _ _ hi]
  | cons j is ih =>
    obtain ⟨hj, hnodup⟩ := List.nodup_cons.mp hnodup
    rw [List.foldl_cons, ih hnodup]
    apply table_ext
    intro i hi
    rw [tget_tmapIdx_of_lt _ _ hi, tget_tmapIdx_of_lt _ _ hi, tget_tmod]
    by_cases hij : j = i
    · subst hij
      simp [hj, hi]
    · simp [hij, Ne.symm hij]

theorem units_nodup : units.Nodup := List.Nodup.map (fun _ _ => Nat.succ.inj) List.nodup_range

theorem mem_units {u : Nat} : u ∈ units ↔ 1 ≤ u ∧ u ≤ 192 := by
  simp only [units, List.mem_map, List.mem_range]
  constructor
  · rintro ⟨i, hi, rfl⟩
    omega
  · intro hu
    exact ⟨u - 1, by omega, by omega⟩

namespace Hall

variable {h : Hall} {u : Nat}

theorem run_succ (h : Hall) (i : Nat) : h.run (i + 1) = tget h.floor.runs i := rfl

/-- To change the runtime parts of some units in turn changes the table of runtime parts alone. -/
theorem each_setRun {us : List Nat} (hnodup : us.Nodup) (hus : ∀ u ∈ us, u ∈ units) (f : DelegateRun → DelegateRun) :
    h.each us (fun u g => g.setRun u f) =
      { h with floor.runs := tmapIdx h.floor.runs (fun i d => if i + 1 ∈ us then f d else d) } := by
  have hfold : ∀ g : Hall, g.each us (fun u g => g.setRun u f) =
      { g with floor.runs := (us.map unitIndex).foldl (fun t i => tmod t i f) g.floor.runs } := by
    clear hnodup hus
    induction us with
    | nil => intro g; rfl
    | cons u us ih => intro g; exact ih (g.setRun u f)
  have hindex : (us.map unitIndex).Nodup := by
    refine hnodup.map_on fun u hu v hv same => ?_
    obtain ⟨hui, -, hu0⟩ := unitIndex_of_mem (hus u hu)
    obtain ⟨hvi, -, hv0⟩ := unitIndex_of_mem (hus v hv)
    omega
  have hmem : ∀ i, i ∈ us.map unitIndex ↔ i + 1 ∈ us := by
    intro i
    rw [List.mem_map]
    constructor
    · rintro ⟨u, hu, rfl⟩
      obtain ⟨hui, -, hu0⟩ := unitIndex_of_mem (hus u hu)
      rwa [hui, Nat.sub_add_cancel hu0]
    · exact fun hu => ⟨i + 1, hu, rfl⟩
  rw [hfold, foldl_tmod hindex]
  simp only [hmem]

theorem isSpeaking_eq (h : Hall) (u : Nat) : h.isSpeaking u = decide ((h.run u).state = .speaking) := beq_eq_decide ..

/-- The seconds of every SPEAKING unit count one more (R55). -/
theorem second_eq (rd : Reader) (h : Hall) : h.second rd =
    { h with floor.runs := tmapIdx h.floor.runs (fun _ d =>
        if d.state = FloorState.speaking then { d with seconds := min (d.seconds + 1) 65535 } else d) }.each
      (units.filter (fun u => (h.run u).state = FloorState.speaking)) (secondTest rd) := by
  have hspeaking : units.filter h.isSpeaking = units.filter (fun u => (h.run u).state = FloorState.speaking) :=
    List.filter_congr fun u _ => h.isSpeaking_eq u
  have hmem : ∀ i < 192, i + 1 ∈ units.filter (fun u => (h.run u).state = FloorState.speaking) ↔
      (tget h.floor.runs i).state = .speaking := by
    intro i hi
    rw [List.mem_filter, mem_units, decide_eq_true_eq, run_succ]
    exact and_iff_right ⟨by omega, by omega⟩
  have hruns : tmapIdx h.floor.runs (fun i d => if i + 1 ∈ units.filter (fun u => (h.run u).state = FloorState.speaking)
        then { d with seconds := min (d.seconds + 1) Config.count16 } else d) =
      tmapIdx h.floor.runs (fun _ d =>
        if d.state = FloorState.speaking then { d with seconds := min (d.seconds + 1) 65535 } else d) := by
    apply table_ext
    intro i hi
    rw [tget_tmapIdx_of_lt _ _ hi, tget_tmapIdx_of_lt _ _ hi]
    exact if_congr (hmem i hi) rfl rfl
  unfold second
  dsimp only
  rw [hspeaking, each_setRun (units_nodup.filter _) (fun u hu => List.mem_of_mem_filter hu), hruns]

/-! ## Telling a unit about its time (R56) -/

theorem timeDetail_bytes (n : Nat) {limit : Nat} (hlimit : limit < 4096) :
    let detail := min n 4095 * 4096 + limit
    (timeDetail n limit).extractLsb' 16 8 = byte (detail / 65536) ∧
    (timeDetail n limit).extractLsb' 8 8 = byte (detail / 256) ∧
    (timeDetail n limit).extractLsb' 0 8 = byte detail := by
  intro detail
  have hdetail : (timeDetail n limit).toNat = detail := by
    rw [timeDetail, BitVec.toNat_append, BitVec.toNat_ofNat, BitVec.toNat_ofNat, Nat.mod_eq_of_lt (by omega : min n 4095 < 2 ^ 12),
      Nat.mod_eq_of_lt hlimit, ← Nat.shiftLeft_add_eq_or_of_lt hlimit, Nat.shiftLeft_eq]
  refine ⟨?_, ?_, ?_⟩ <;> apply BitVec.eq_of_toNat_eq <;>
    rw [BitVec.extractLsb'_toNat, hdetail, Nat.shiftRight_eq_div_pow, byte, BitVec.toNat_ofNat]
  simp

/-- What a unit that is told about its time gets: the indication, the mark and the event (R56). -/
theorem indicate_postTime_eq (i : Indication) (k : EventKind) (u n : Nat) {limit : Nat} (hlimit : limit < 4096) (h : Hall) :
    (h.indicate i u).postTime k u n limit =
      let detail := min n 4095 * 4096 + limit
      { h with
        floor.runs := tmod h.floor.runs (unitIndex u) (fun d => { d with indication := some i })
        floor.dirty := if h.known u then tset h.floor.dirty (unitIndex u) true else h.floor.dirty
        events := h.events.push h.frameCounter
          ⟨k, h.frameCounter, byte u, byte (detail / 65536), byte (detail / 256), byte detail⟩ } := by
  obtain ⟨hhigh, hmiddle, hlow⟩ := timeDetail_bytes n hlimit
  rw [postTime]
  simp only [hhigh, hmiddle, hlow]
  rfl


/-- The hall once unit `u` is told `i` about its time, with its runtime part changed by `f` (R56). -/
def toldTime (i : Indication) (k : EventKind) (u limit : Nat) (f : DelegateRun → DelegateRun) (h : Hall) : Hall :=
  let detail := min (h.run u).seconds 4095 * 4096 + limit
  { h with
    floor.runs := tset h.floor.runs (unitIndex u) { f (h.run u) with indication := some i }
    floor.dirty := if h.known u then tset h.floor.dirty (unitIndex u) true else h.floor.dirty
    events := h.events.push h.frameCounter
      ⟨k, h.frameCounter, byte u, byte (detail / 65536), byte (detail / 256), byte detail⟩ }

theorem warn_eq {limit : Nat} (hlimit : limit < 4096) (lead : Nat) : h.warn u limit lead =
    if 0 < lead ∧ (h.run u).warned = false ∧ limit - lead ≤ (h.run u).seconds ∧ (h.run u).seconds < limit then
      h.toldTime .timeWarning .timeWarning u limit (fun d => { d with warned := true })
    else h := by
  unfold warn
  refine if_congr Iff.rfl ?_ rfl
  rw [indicate_postTime_eq _ _ _ _ hlimit]
  simp only [setRun_sets, tmod_tmod]
  rfl

theorem timeUp_of_speaking (hm : h.mem.ReadsFindNothing) {limit : Nat} (hlimit : limit < 4096) (tell : Bool)
    (hspeaking : (h.run u).state = .speaking) : h.timeUp reader u limit tell =
      if (h.settings (h.roomOfUnit u)).timeAction = .close then h.closeWithConsequences reader .timeUp true [u]
      else if tell then h.toldTime .timeUp .timeUp u limit id else h := by
  have hact : h.isSpeaking u = true := by rw [isSpeaking_eq, decide_eq_true hspeaking]
  unfold timeUp
  rw [idle_settings reader_idle hm]
  dsimp only
  rw [if_pos hact, indicate_postTime_eq _ _ _ _ hlimit]
  unfold timeAction
  cases (h.settings (h.roomOfUnit u)).timeAction with
  | close => rfl
  | warnOnly => rfl

theorem isTimed_iff : h.isTimed u = true ↔ (h.run u).state = .speaking ∧ h.isChair u = false := by
  simp [isTimed, isSpeaking_eq]

theorem secondTest_eq (hm : h.mem.ReadsFindNothing) :
    h.secondTest reader u =
      let l := h.timeClass (h.loaded u).timeClass
      if h.isTimed u = true ∧ l.limit ≠ 0 then
        if l.limit ≤ (h.run u).seconds then h.timeUp reader u l.limit ((h.run u).seconds == l.limit)
        else h.warn u l.limit l.lead
      else h := by
  unfold secondTest
  rw [idle_delegate reader_idle hm]
  dsimp only
  rw [idle_timeClass reader_idle hm]
  by_cases htimed : h.isTimed u = true
  · rw [if_pos htimed]
  · rw [if_neg htimed, if_neg (fun both => htimed both.1)]

end Hall

/-- Settles O40: the row runs the hall's `second`, and the test of one unit goes by its state, class and seconds. -/
theorem secondCountsAndTests : Obligations.SecondCountsAndTests := by
  refine ⟨fun s rest hdue hramp => ?_, fun h u hm hu => ?_⟩
  · intro c h counted
    have hrow : exec .second s = .next (s.withChip { c with due := rest, hall := h.second reader }) :=
      next_takeRow_of_onlyHall hdue hramp nofun (fun _ => rfl)
    rw [hrow, Hall.second_eq]
  · intro d l told hlimit
    obtain ⟨hindex, -, -⟩ := unitIndex_of_mem hu
    have htold : ∀ i k f, h.toldTime i k u l.limit f = told i k (f d) := by
      intro i k f
      simp only [Hall.toldTime, hindex]
      rfl
    rw [Hall.secondTest_eq hm]
    by_cases htimed : h.isTimed u = true ∧ l.limit ≠ 0
    · obtain ⟨htest, hzero⟩ := htimed
      obtain ⟨hspeaking, hchair⟩ := Hall.isTimed_iff.mp htest
      have hact : ¬(d.state ≠ .speaking ∨ h.isChair u = true ∨ l.limit = 0) := by
        simp [hchair, hzero, show d.state = .speaking from hspeaking]
      rw [if_neg hact]
      refine (if_pos ⟨htest, hzero⟩).trans ?_
      by_cases hunder : d.seconds < l.limit
      · rw [if_pos hunder]
        refine (if_neg (Nat.not_le.mpr hunder)).trans ((Hall.warn_eq hlimit _).trans ?_)
        rw [htold]
        exact if_congr (by simp only [and_iff_left hunder, d, l]) rfl rfl
      · rw [if_neg hunder]
        refine (if_pos (Nat.not_lt.mp hunder)).trans ((Hall.timeUp_of_speaking hm hlimit _ hspeaking).trans ?_)
        rw [htold]
        exact if_congr Iff.rfl rfl (if_congr beq_iff_eq rfl rfl)
    · have hidle : d.state ≠ .speaking ∨ h.isChair u = true ∨ l.limit = 0 := by
        rw [Hall.isTimed_iff] at htimed
        simp only [d]
        grind
      rw [if_pos hidle]
      exact if_neg htimed

end Sys2Proof.Machine

/-! SUPPORT. O50: the cells of units on a quiet chip, and UNIT TAKEN (R50, R51, R53, R125). -/

namespace Sys2Proof.Machine

/-! ## The row of a cell on a quiet chip (R125) -/

theorem Chip.cellRow_of_malformed {c : Chip} {m : InCell} (hq : c.Quiet) (hm : m.good = false) : c.cellRow m =
    { c with ring.laneErrors := min (c.ring.laneErrors + 1) 65535 } := by
  have hlocked : c.locked = true := by simp [locked, hq.1]
  unfold cellRow
  rw [if_pos hlocked, if_pos hm]
  rfl

theorem isUnitAddr_iff {a : Byte} : isUnitAddr a = true ↔ ¬(a.toNat = 0 ∨ 192 < a.toNat) := by
  simp only [isUnitAddr, Bool.and_eq_true, decide_eq_true_eq]
  omega

theorem mem_units_of_isUnitAddr {a : Byte} (h : isUnitAddr a = true) : a.toNat ∈ units := by
  rw [isUnitAddr_iff] at h
  exact mem_units.mpr ⟨by omega, by omega⟩

theorem byte_toNat (b : Byte) : byte b.toNat = b := by simp [byte]

namespace Hall

variable {h : Hall} {u : Nat}

/-! ## A cell from a unit (R51, R53) -/

/-- The hall once a cell of known unit `u` has come: its unresponsive flag is clear (R51). -/
def heard (u : Nat) (h : Hall) : Hall := h.setRun u (fun d => { d with unresponsive := false })

theorem setRun_eq (hu : u ∈ units) (f : DelegateRun → DelegateRun) :
    h.setRun u f = { h with floor.runs := tset h.floor.runs (u - 1) (f (h.run u)) } := by
  obtain ⟨hindex, -, -⟩ := unitIndex_of_mem hu
  rw [← hindex]
  rfl

theorem run_setRun_self (hu : u ∈ units) (f : DelegateRun → DelegateRun) : (h.setRun u f).run u = f (h.run u) := by
  obtain ⟨hindex, hlt, -⟩ := unitIndex_of_mem hu
  show tget (tmod h.floor.runs (unitIndex u) f) (unitIndex u) = f (h.run u)
  rw [tget_tmod, if_pos ⟨rfl, hindex ▸ hlt⟩]
  rfl

theorem mark_of_known (hu : u ∈ units) (hknown : h.known u = true) :
    h.mark u = { h with floor.dirty := tset h.floor.dirty (u - 1) true } := by
  obtain ⟨hindex, -, -⟩ := unitIndex_of_mem hu
  rw [mark, if_pos hknown, hindex]

theorem fromUnit_of_unknown (hm : h.mem.ReadsFindNothing) (hu : u ∈ units) (type : Byte) (act : Nat → Hall → Hall)
    (hknown : h.known u = false) : h.fromUnit reader type act u =
      if (h.run u).unknownReported then h
      else { h with
        floor.runs := tset h.floor.runs (u - 1) { h.run u with unknownReported := true }
        events := h.events.push h.frameCounter ⟨.unknownUnit, h.frameCounter, byte u, type, 0, 0⟩ } := by
  have hread : h.fromUnit reader type act u = h.unknownUnit type u := by
    unfold fromUnit
    rw [idle_delegate reader_idle hm]
    exact if_neg (by simp [hknown])
  rw [hread, unknownUnit, setRun_eq hu]
  rfl

theorem fromUnit_of_known (hm : h.mem.ReadsFindNothing) (type : Byte) (act : Nat → Hall → Hall)
    (hknown : h.known u = true) : h.fromUnit reader type act u = act u (h.heard u) := by
  unfold fromUnit
  rw [idle_delegate reader_idle hm]
  exact if_pos hknown

/-! ## Microphone targets of a room's speakers (R95) -/

theorem aimMic_eq (u a : Nat) (h : Hall) : h.aimMic u a = { h with gains.mics := match (h.run u).slot with
    | some k => tmod h.gains.mics k (fun y => { y with target := a })
    | none => h.gains.mics } := by
  unfold aimMic
  cases (h.run u).slot <;> rfl

/-- The microphone gain points with the targets that the speakers `us` of a room get, of whom there are `n`. -/
def aimed (h : Hall) (n : Nat) (us : List Nat) (mics : Vector GainPoint 24) : Vector GainPoint 24 :=
  us.foldl (fun x v => match (h.run v).slot with
    | some k => tmod x k (fun y => { y with target := min 127 ((h.loaded v).trim + nom n) })
    | none => x) mics

theorem aimSpeakers_eq (r : Nat) (h : Hall) : h.aimSpeakers r =
    { h with gains.mics := h.aimed (h.speakers r).length (h.speakers r) h.gains.mics } := by
  have step : ∀ (n : Nat) (us : List Nat) (mics : Vector GainPoint 24),
      ({ h with gains.mics := mics } : Hall).each us (fun u g => g.aimMic u (speakingTarget (h.loaded u).trim n)) =
        { h with gains.mics := h.aimed n us mics } := by
    intro n us
    induction us with
    | nil => intro mics; rfl
    | cons u us ih =>
      intro mics
      show (({ h with gains.mics := mics } : Hall).aimMic u (speakingTarget (h.loaded u).trim n)).each us _ = _
      rw [aimMic_eq]
      exact ih _
  exact step _ _ _

/-! ## UNIT TAKEN (R50, R51) -/

/-- The runtime part of a unit whose microphone opens (R50). -/
def openedRun (d : DelegateRun) : DelegateRun := { d with window := none, state := .speaking, seconds := 0, warned := false }

theorem taken_of_match (hm : h.mem.ReadsFindNothing) {id : Nat}
    (hmatch : (h.run u).state = .granting ∧ (h.run u).grantId.toNat = id) : h.taken reader id u =
      (((h.setRun u openedRun).aimSpeakers (h.roomOfUnit u)).mark u).post .granted (byte u) (byte id)
        (byte (8 + (((h.setRun u openedRun).run u).slot).getD 0)) 0 := by
  have hclean : (h.setRun u openedRun).mem.ReadsFindNothing := hm
  have hread := idle_recomputeMics reader_idle hclean (h.roomOfUnit u)
  have hact : ∀ rd : Reader, h.taken rd id u = (((h.setRun u openedRun).recomputeMics rd (h.roomOfUnit u)).mark u).post
      .granted (byte u) (byte id)
      (byte (8 + ((((h.setRun u openedRun).recomputeMics rd (h.roomOfUnit u)).mark u).run u).slot.getD 0)) 0 := by
    intro rd
    unfold taken
    exact if_pos hmatch
  rw [hact, hread, aimSpeakers_eq]
  rfl

theorem taken_of_mismatch (rd : Reader) {id : Nat} (hmatch : ¬((h.run u).state = .granting ∧ (h.run u).grantId.toNat = id)) :
    h.taken rd id u = h.mark u := if_neg hmatch

end Hall

/-- Settles O50: a good UNIT TAKEN of a known unit is handled by `taken`, on the hall whose unresponsive flag is clear. -/
theorem unitTakenOpensMicrophone : Obligations.UnitTakenOpensMicrophone := by
  intro s unit id hq hm c h u d marks run opened r n aimed
  have hrow : exec (.unitTaken unit id) s = .next (s.withChip (c.cellRow (.unitTaken unit id))) := rfl
  rw [hrow]
  by_cases hbad : u = 0 ∨ 192 < u ∨ 15 < id.toNat
  · have hgood : (InCell.unitTaken unit id).good = false := by
      simp only [InCell.good, isUnitAddr, Bool.and_eq_false_iff, decide_eq_false_iff_not]
      omega
    rw [Chip.cellRow_of_malformed hq hgood, if_pos hbad]
  · have hunit : isUnitAddr unit = true := isUnitAddr_iff.mpr (by omega)
    have hgood : (InCell.unitTaken unit id).good = true := by
      simp only [InCell.good, hunit, Bool.true_and, decide_eq_true_eq]
      omega
    have hu : u ∈ units := mem_units_of_isUnitAddr hunit
    obtain ⟨hindex, hlt, -⟩ := unitIndex_of_mem hu
    rw [Chip.cellRow_of_quiet (m := .unitTaken unit id) hq hgood hgood rfl, if_neg hbad]
    show Host.Outcome.next (s.withChip { c with hall := h.fromUnit reader 3 (Hall.taken reader id.toNat) u }) = _
    by_cases hknown : h.known u = false
    · rw [if_pos hknown, Hall.fromUnit_of_unknown hm hu 3 _ hknown]
      split_ifs <;> rfl
    · have hk : h.known u = true := by simpa using hknown
      have hrun : (h.heard u).run u = { d with unresponsive := false } := Hall.run_setRun_self hu _
      rw [if_neg hknown, Hall.fromUnit_of_known hm 3 _ hk]
      by_cases hmatch : d.state = .granting ∧ d.grantId.toNat = id.toNat
      · have hopened : (h.heard u).setRun u Hall.openedRun = opened := by
          rw [Hall.setRun_eq hu, hrun, Hall.heard, Hall.setRun_eq hu]
          simp only [tset_tset]
          rfl
        have hslot : (opened.run u).slot = d.slot := by
          rw [← hopened, Hall.run_setRun_self hu, hrun]
          rfl
        rw [if_pos hmatch, Hall.taken_of_match (h := h.heard u) hm (by rw [hrun]; exact hmatch), hopened, hslot, byte_toNat id,
          Hall.aimSpeakers_eq, Hall.mark_of_known hu]
        · rfl
        · exact hk
      · rw [if_neg hmatch, Hall.taken_of_mismatch (h := h.heard u) _ (by rw [hrun]; exact hmatch),
          Hall.mark_of_known (h := h.heard u) hu hk, Hall.heard, Hall.setRun_eq hu]

end Sys2Proof.Machine

/-! SUPPORT. O48: requests that join and leave (R23, R24, R29, R32), and the presses of units (R27 to R30, R36). -/

namespace Sys2Proof.Machine

/-- A new entry stands behind those that it does not come before. -/
theorem insertBy_eq {α : Type} (before : α → α → Bool) (x : α) (l : List α) :
    insertBy before x l = l.takeWhile (fun y => !before x y) ++ x :: l.dropWhile (fun y => !before x y) := by
  induction l with
  | nil => rfl
  | cons y ys ih => cases h : before x y <;> simp [insertBy, h, ih]

namespace Hall

variable {h : Hall} {u : Nat}

/-! ## Requests that join and leave -/

/-- The marks of some units as one change of the unit dirty set (R43). -/
theorem dirtyWith_eq (us : List Nat) (h : Hall) :
    h.dirtyWith us = tmapIdx h.floor.dirty (fun i m => m || (us.contains (i + 1) && h.known (i + 1))) := by
  apply table_ext
  intro i hi
  rw [tget_tmapIdx_of_lt _ _ hi, Bool.eq_iff_iff, dirtyWith_iff]
  simp only [Bool.or_eq_true, Bool.and_eq_true, List.contains_iff_mem]
  refine or_congr_right ⟨?_, fun ⟨hmem, hknown⟩ => ⟨hi, i + 1, hmem, hknown, rfl⟩⟩
  rintro ⟨-, v, hv, hknown, hindex⟩
  have hsucc : v = i + 1 := by
    unfold unitIndex at hindex
    split_ifs at hindex <;> omega
  exact hsucc ▸ ⟨hv, hknown⟩

theorem mark_eq (u : Nat) (h : Hall) :
    h.mark u = { h with floor.dirty := tmapIdx h.floor.dirty (fun i m => m || ([u].contains (i + 1) && h.known (i + 1))) } := by
  rw [← dirtyWith_eq]
  rfl

theorem poolTake_eq (h : Hall) : h.poolTake = { h with
    floor.poolFree := h.floor.poolFree - 1
    floor.poolArmed := h.floor.poolArmed && !decide (h.floor.poolFree - 1 ≤ 8 ∧ h.floor.poolArmed = true)
    events := if h.floor.poolFree - 1 ≤ 8 ∧ h.floor.poolArmed = true then
        h.events.push h.frameCounter ⟨.poolLow, h.frameCounter, 0, byte (h.floor.poolFree - 1), 0, 0⟩
      else h.events } := by
  unfold poolTake
  by_cases hlow : h.floor.poolFree - 1 ≤ 8 ∧ h.floor.poolArmed = true
  · rw [if_pos hlow, decide_eq_true hlow, Bool.not_true, Bool.and_false]
    exact if_pos hlow
  · rw [if_neg hlow, decide_eq_false hlow, Bool.not_false, Bool.and_true]
    exact if_neg hlow

theorem joinQueue_eq (hu : u ∈ units) : h.joinQueue u = { h with
    floor.queues := tset h.floor.queues (h.roomOfUnit u) (h.queue (h.roomOfUnit u) ++ [u])
    floor.poolFree := h.floor.poolFree - 1
    floor.poolArmed := h.floor.poolArmed && !decide (h.floor.poolFree - 1 ≤ 8 ∧ h.floor.poolArmed = true)
    floor.runs := tset h.floor.runs (u - 1) { h.run u with state := .waiting, requestTs := some h.frameCounter }
    floor.dirty := tmapIdx h.floor.dirty (fun i m => m || ([u].contains (i + 1) && h.known (i + 1)))
    events := if h.floor.poolFree - 1 ≤ 8 ∧ h.floor.poolArmed = true then
        h.events.push h.frameCounter ⟨.poolLow, h.frameCounter, 0, byte (h.floor.poolFree - 1), 0, 0⟩
      else h.events } := by
  rw [joinQueue]
  dsimp only
  rw [poolTake_eq, setRun_eq hu, mark_eq]
  rfl

/-- A unit's request with the runtime parts as the request leaves them (R32). -/
def asked (u : Nat) (h : Hall) : Hall :=
  { h with floor.runs := tset h.floor.runs (u - 1) { h.run u with state := .chairPending, requestTs := some h.frameCounter } }

theorem joinChairs_eq (hu : u ∈ units) : h.joinChairs u = { h.asked u with
    floor.chairs := insertBy (fun a b => (h.asked u).older ((h.asked u).requestKey a) ((h.asked u).requestKey b)) u h.floor.chairs
    floor.dirty := tmapIdx h.floor.dirty (fun i m => m || ([u].contains (i + 1) && h.known (i + 1))) } := by
  rw [joinChairs]
  dsimp only
  rw [setRun_eq hu, mark_eq]
  rfl

/-- The runtime part of a unit whose request ends, with the indication it gets, if any. -/
def requestEnded (i : Option Indication) (d : DelegateRun) : DelegateRun :=
  { d with state := .idle, requestTs := none, indication := i.or d.indication }

theorem endRequest_signal_eq (hu : u ∈ units) (i : Option Indication) (h : Hall) : (h.endRequest u).signal i u = { h with
    floor.runs := tset h.floor.runs (u - 1) (requestEnded i (h.run u))
    floor.dirty := h.dirtyWith [u] } := by
  obtain ⟨hindex, -, -⟩ := unitIndex_of_mem hu
  rw [signal_eq, endRequest]
  simp only [setRun_sets, tmod_tmod, ← hindex]
  rfl

theorem drop_eq (hu : u ∈ units) (i : Option Indication) (h : Hall) : h.drop i u = { h with
    floor.queues := tset h.floor.queues (h.roomOfUnit u) ((h.queue (h.roomOfUnit u)).erase u)
    floor.poolFree := h.floor.poolFree + if u ∈ h.queue (h.roomOfUnit u) then 1 else 0
    floor.poolArmed := h.floor.poolArmed ||
      decide (u ∈ h.queue (h.roomOfUnit u) ∧ Config.poolRearm ≤ h.floor.poolFree + 1)
    floor.runs := tset h.floor.runs (u - 1) (requestEnded i (h.run u))
    floor.dirty := h.dirtyWith (h.unitsBehind u ++ [u]) } := by
  rw [drop, endRequest_signal_eq hu, leaveQueue_eq, dirtyWith_concat]
  rfl

theorem dropChair_eq (hu : u ∈ units) (i : Option Indication) (h : Hall) : h.dropChair i u = { h with
    floor.chairs := h.floor.chairs.erase u
    floor.runs := tset h.floor.runs (u - 1) (requestEnded i (h.run u))
    floor.dirty := h.dirtyWith [u] } := by
  rw [dropChair, endRequest_signal_eq hu]
  rfl

/-! ## The presses of units (R27 to R30, R36) -/

theorem heard_eq (hu : u ∈ units) : h.heard u =
    { h with floor.runs := tset h.floor.runs (u - 1) { h.run u with unresponsive := false } } := setRun_eq hu _

/-- The unresponsive flag is no part of a unit's floor state. -/
theorem heard_state (u v : Nat) (h : Hall) : ((h.heard u).run v).state = (h.run v).state := by
  show (tget (tmod h.floor.runs (unitIndex u) _) (unitIndex v)).state = (tget h.floor.runs (unitIndex v)).state
  rw [tget_tmod]
  split
  · next same => rw [same.1]
  · rfl

theorem heard_positionHolders (u r : Nat) (h : Hall) : (h.heard u).positionHolders r = h.positionHolders r := by
  refine List.filter_congr fun v _ => ?_
  show ((h.heard u).onFloor v && !h.isChair v && h.roomOfUnit v == r) = _
  rw [onFloor, heard_state]
  rfl

theorem heard_freePosition (u r : Nat) (h : Hall) : (h.heard u).freePosition r = h.freePosition r := by
  unfold freePosition
  rw [heard_positionHolders]
  rfl

theorem floorOpen_eq_false_iff : h.floorOpen = false ↔ h.cmd.mode = .config ∨ h.cmd.mode = .stopping := by
  unfold floorOpen
  cases h.cmd.mode <;> simp

theorem requestFloor_eq (rd : Reader) : h.requestFloor rd u =
    if (h.queue (h.roomOfUnit u)).length < (h.settings (h.roomOfUnit u)).queueLimit ∧ 0 < h.floor.poolFree then
      if h.queue (h.roomOfUnit u) = [] then (h.joinQueue u).service rd (h.roomOfUnit u) else h.joinQueue u
    else h.indicate .queueFull u := by
  unfold requestFloor
  simp only [List.isEmpty_iff]

/-- An IDLE non-chair's press by the floor mode of its room, `position` and `slot` saying whether one is free. -/
theorem idlePress_eq (hm : h.mem.ReadsFindNothing) {r : Nat} {m : FloorMode} {position slot : Prop} [Decidable position]
    [Decidable slot] (hr : h.roomOfUnit u = r) (hmode : (h.settings r).floorMode = m)
    (hposition : h.freePosition r = decide position) (hslot : h.micFree = decide slot) : h.idlePress reader u =
      if m = .queue ∨ m = .operator then
        if (m = .queue ∨ (m = .operator ∧ h.cmd.mode = .safe)) ∧ h.queue r = [] ∧ position ∧ slot ∧ h.gap r = none then
          h.grant u
        else h.requestFloor reader u
      else if position ∧ slot then h.grant u
      else if m = .override ∧ slot then h.takeOldest reader r u
      else h.indicate .denied u := by
  subst hr
  have hread := idle_readPositions reader_idle hm (h.roomOfUnit u)
  have hsettings := idle_settings reader_idle hm (h.roomOfUnit u)
  generalize reader = rd at hread hsettings ⊢
  have hoverride : h.overridePress rd (h.roomOfUnit u) u =
      if slot then (if position then h.grant u else h.takeOldest rd (h.roomOfUnit u) u) else h.indicate .denied u := by
    unfold overridePress
    rw [hread, ite_self]
    dsimp only
    rw [hslot, hposition]
    simp only [decide_eq_true_eq]
  unfold idlePress
  rw [hsettings]
  dsimp only
  rw [hoverride, hslot, hposition, hmode]
  cases m with
  | openFloor => simp
  | override =>
    by_cases hfree : slot <;> by_cases hplace : position <;> simp [hfree, hplace]
  | queue => simp [and_assoc]
  | operator => simp [and_assoc]

end Hall

/-- Settles O48: the press of a known unit is handled by `micPress` on the hall whose unresponsive flag is clear; a PRIORITY
press of a delegate is a MIC press; and the lists of requests are as `joinQueue_eq`, `joinChairs_eq`, `drop_eq` and
`dropChair_eq` say. -/
theorem micPressByState : Obligations.MicPressByState := by
  refine ⟨fun s unit hq hm => ?_, fun h u hu => ?_⟩
  · intro c h u d r m heard position slot served join idle
    by_cases hbad : u = 0 ∨ 192 < u
    · have hunit : isUnitAddr unit = false := Bool.eq_false_iff.mpr (fun good => isUnitAddr_iff.mp good hbad)
      have hmic : exec (.micPress unit) s = .next (s.withChip (c.cellRow (.micPress unit))) := rfl
      have hpriority : exec (.priorityPress unit) s = .next (s.withChip (c.cellRow (.priorityPress unit))) := rfl
      rw [hmic, hpriority, Chip.cellRow_of_malformed (m := .micPress unit) hq hunit,
        Chip.cellRow_of_malformed (m := .priorityPress unit) hq hunit, if_pos hbad]
      exact ⟨rfl, fun _ => rfl⟩
    · have hunit : isUnitAddr unit = true := isUnitAddr_iff.mpr hbad
      have hu : u ∈ units := mem_units_of_isUnitAddr hunit
      have hmic : exec (.micPress unit) s = .next (s.withChip { c with hall := h.fromUnit reader 2 (Hall.micPress reader) u }) :=
        congrArg (fun x => Host.Outcome.next (s.withChip x)) (Chip.cellRow_of_quiet (m := .micPress unit) hq hunit hunit rfl)
      have hpriority : exec (.priorityPress unit) s =
          .next (s.withChip { c with hall := h.fromUnit reader 2 (Hall.priorityPress reader) u }) :=
        congrArg (fun x => Host.Outcome.next (s.withChip x))
          (Chip.cellRow_of_quiet (m := .priorityPress unit) hq hunit hunit rfl)
      rw [hmic, hpriority, if_neg hbad]
      by_cases hknown : h.known u = false
      · rw [if_pos hknown, Hall.fromUnit_of_unknown hm hu 2 _ hknown, Hall.fromUnit_of_unknown hm hu 2 _ hknown]
        refine ⟨?_, fun _ => rfl⟩
        split_ifs <;> rfl
      · have hk : h.known u = true := by simpa using hknown
        rw [if_neg hknown, Hall.fromUnit_of_known hm 2 _ hk, Hall.fromUnit_of_known hm 2 _ hk]
        refine ⟨?_, ?_⟩
        · have hheard : h.heard u = heard := Hall.heard_eq hu
          have hstate : (heard.run u).state = d.state := hheard ▸ Hall.heard_state u u h
          have hposition : heard.freePosition r = decide position := hheard ▸ Hall.heard_freePosition u r h
          have hslot : heard.micFree = decide slot := by rw [Bool.eq_iff_iff, Hall.micFree_iff, decide_eq_true_eq]
          have hidle : heard.idlePress reader u = if m = .queue ∨ m = .operator then
                if served ∧ h.queue r = [] ∧ position ∧ slot ∧ h.gap r = none then heard.grant u else join
              else if position ∧ slot then heard.grant u
              else if m = .override ∧ slot then heard.takeOldest reader r u
              else heard.indicate .denied u := by
            rw [Hall.idlePress_eq (h := heard) (m := m) hm rfl rfl hposition hslot, Hall.requestFloor_eq]
            rfl
          have hpress : heard.micPress reader u = match d.state with
              | .idle => idle
              | .waiting => heard.drop none u
              | .granting => heard.closeWithConsequences reader .unit true [u]
              | .speaking => heard.closeWithConsequences reader .unit true [u]
              | .closing => heard
              | .chairPending => heard.dropChair none u := by
            unfold Hall.micPress
            rw [hstate]
            cases d.state with
            | idle =>
              have hopen : (!heard.floorOpen) = true ↔ h.cmd.mode = .config ∨ h.cmd.mode = .stopping := by
                rw [Bool.not_eq_true']
                exact Hall.floorOpen_eq_false_iff (h := heard)
              dsimp only
              rw [hidle]
              refine if_congr hopen rfl (if_congr Iff.rfl (if_congr (by rw [hslot, decide_eq_true_eq]) rfl rfl) ?_)
              rfl
            | _ => rfl
          rw [hheard, hpress] <;> rfl
        · rintro (hunknown | hchair)
          · exact absurd hunknown hknown
          · have hdelegate : (h.heard u).priorityPress reader u = (h.heard u).micPress reader u :=
              if_neg (Bool.eq_false_iff.mp hchair)
            rw [hdelegate]
  · intro d r q marks runs free low asked age ahead
    have hmarks : ∀ us, marks us = h.dirtyWith us := fun us => (Hall.dirtyWith_eq us h).symm
    refine ⟨Hall.joinQueue_eq hu, ?_, fun i => ?_⟩
    · have hahead : (fun v => !(h.asked u).older ((h.asked u).requestKey u) ((h.asked u).requestKey v)) = ahead := by
        funext v
        rw [Bool.eq_iff_iff, Bool.not_eq_true', Bool.eq_false_iff, ne_eq, Hall.older_iff, decide_eq_true_eq]
        rfl
      rw [Hall.joinChairs_eq hu, insertBy_eq, hahead]
      rfl
    · intro ended
      refine ⟨fun hmem => ?_, fun hmem => ?_, ?_⟩
      · have hbehind : h.dirtyWith (h.unitsBehind u ++ [u]) = marks (u :: q.drop (q.idxOf u + 1)) := by
          rw [Hall.dirtyWith_eq]
          simp only [marks, List.contains_append, List.contains_cons, List.contains_nil, Bool.or_comm]
          rfl
        have harmed : decide (u ∈ q ∧ Config.poolRearm ≤ h.floor.poolFree + 1) = decide (24 ≤ h.floor.poolFree + 1) :=
          decide_eq_decide.mpr (and_iff_right hmem)
        rw [Hall.drop_eq hu, hbehind, if_pos hmem, harmed]
        rfl
      · rw [Hall.drop, Hall.leaveQueue_of_notMem hmem, Hall.endRequest_signal_eq hu, hmarks]
        rfl
      · rw [Hall.dropChair_eq hu, hmarks]
        rfl

end Sys2Proof.Machine

/-! SUPPORT. O49: the PRIORITY press of a chair (R30, R31, R36). -/

namespace Sys2Proof.Machine

namespace Hall

variable {h g : Hall} {u : Nat}

theorem heard_slot (u v : Nat) (h : Hall) : ((h.heard u).run v).slot = (h.run v).slot := by
  show (tget (tmod h.floor.runs (unitIndex u) _) (unitIndex v)).slot = (tget h.floor.runs (unitIndex v)).slot
  rw [tget_tmod]
  split
  · next same => rw [same.1]
  · rfl

theorem SameBeyondFloor.settings (same : h.SameBeyondFloor g) (r : Nat) : g.settings r = h.settings r := by
  obtain ⟨-, -, -, -, -, -, -, hmem, -⟩ := sameBeyondFloor_iff.mp same
  unfold Hall.settings Hall.settingsRecord
  rw [hmem]

theorem SameBeyondFloor.frameCounter (same : h.SameBeyondFloor g) : g.frameCounter = h.frameCounter :=
  (sameBeyondFloor_iff.mp same).1

/-- The slots of the cancelled grants among the holders `us`. -/
def grantSlots (h : Hall) (us : List Nat) : List Nat :=
  us.filterMap (fun v => if (h.run v).state = .granting then (h.run v).slot else none)

theorem heard_grantSlots (u : Nat) (us : List Nat) (h : Hall) : (h.heard u).grantSlots us = h.grantSlots us :=
  List.filterMap_congr fun v _ => by rw [heard_state, heard_slot]

/-- The queue of room `r` is dropped where its chair policy says so. -/
def clearedByChair (r : Nat) (p : ChairPolicy) (h : Hall) : Hall :=
  if p = .clearAll then h.each (h.queue r) (drop (some .dropped)) else h

/-- Chair priority by chair `u`, where reads find nothing (R31). -/
theorem chairPriority_eq (hm : h.mem.ReadsFindNothing) : h.chairPriority reader u =
    let r := h.roomOfUnit u
    let us := h.positionHolders r
    let dropped := (h.closeAll reader .chair us).clearedByChair r (h.settings r).chairPolicy
    let posted := ((dropped.setGap r none).serveChair u).post .chairPriority (byte u) 0 0 0
    posted.consequences reader false [r] ((h.grantSlots us).filter (fun k => tget posted.slots.mics k == none)).length := by
  have C := sameBeyondFloor_closed h
  have K := reader_keeps_sameBeyondFloor hm
  have hclosed : h.SameBeyondFloor (h.closeAll reader .chair (h.positionHolders (h.roomOfUnit u))) :=
    keeps_closeAll C K h.sameBeyondFloor_refl
  have hpolicy := hclosed.settings (h.roomOfUnit u)
  have hdrop := idle_dropQueue reader_idle (hclosed.clean hm) (h.roomOfUnit u)
  have hread := idle_readPositions reader_idle hm (h.roomOfUnit u)
  have hsettings := idle_settings reader_idle hm (h.roomOfUnit u)
  generalize reader = rd at *
  unfold chairPriority clearedByChair grantSlots
  simp only [hsettings, hread, hpolicy, hdrop]

end Hall

/-- Settles O49: on an open floor the press is `chairPriority`, on a closed one an IDLE chair alone is told. -/
theorem chairPriorityActsInOrder : Obligations.ChairPriorityActsInOrder := by
  intro s unit hq hm hlow hhigh hknown hchair c h u d r heard us closed dropped still served event posted slots
  have hunit : isUnitAddr unit = true := isUnitAddr_iff.mpr (by omega)
  have hu : u ∈ units := mem_units_of_isUnitAddr hunit
  have hrow : exec (.priorityPress unit) s =
      .next (s.withChip { c with hall := h.fromUnit reader 2 (Hall.priorityPress reader) u }) :=
    congrArg (fun x => Host.Outcome.next (s.withChip x))
      (Chip.cellRow_of_quiet (m := .priorityPress unit) hq hunit hunit rfl)
  have hheard : h.heard u = heard := Hall.heard_eq hu
  have hopen : heard.floorOpen = false ↔ h.cmd.mode = .config ∨ h.cmd.mode = .stopping := Hall.floorOpen_eq_false_iff
  rw [hrow, Hall.fromUnit_of_known hm 2 _ hknown, hheard]
  have hpress : heard.priorityPress reader u = if heard.floorOpen then heard.chairPriority reader u
      else if (heard.run u).state = .idle then heard.indicate .floorClosed u else heard := if_pos hchair
  rw [hpress]
  by_cases hclosed : h.cmd.mode = .config ∨ h.cmd.mode = .stopping
  · have hstate : (heard.run u).state = d.state := hheard ▸ Hall.heard_state u u h
    rw [if_pos hclosed, if_neg (by rw [hopen.mpr hclosed]; decide), hstate]
  · have hopened : heard.floorOpen = true := by
      rw [← Bool.not_eq_false, hopen]
      exact hclosed
    have hus : heard.positionHolders r = us := hheard ▸ Hall.heard_positionHolders u r h
    have hslots : heard.grantSlots us = slots := hheard ▸ Hall.heard_grantSlots u us h
    have hdropped : (heard.closeAll reader .chair us).clearedByChair r (heard.settings r).chairPolicy = dropped := rfl
    have hserved : still.serveChair u = served := by
      unfold Hall.serveChair
      simp only [Hall.micFree_iff]
      rfl
    have hsame : h.SameBeyondFloor served := by
      have C := Hall.sameBeyondFloor_closed h
      have hstart : h.SameBeyondFloor heard := hheard ▸ C.run u _ h (fun _ => rfl) h.sameBeyondFloor_refl
      have hshut : h.SameBeyondFloor closed := Hall.keeps_closeAll C (Hall.reader_keeps_sameBeyondFloor hm) hstart
      have hleft : h.SameBeyondFloor dropped := Hall.keeps_ite (Hall.each_keeps (fun _ _ => Hall.keeps_drop C) hshut) hshut
      exact hserved ▸ Hall.keeps_serveChair C (Hall.keeps_setGap C hleft)
    have hposted : served.post .chairPriority (byte u) 0 0 0 = posted := by
      have hqueue : served.events.push served.frameCounter ⟨.chairPriority, served.frameCounter, byte u, 0, 0, 0⟩ =
          served.events.push h.frameCounter event := by rw [hsame.frameCounter]
      exact congrArg (fun q => { served with events := q }) hqueue
    have hfreed : slots.filter (fun k => tget posted.slots.mics k == none) =
        slots.filter (fun k => tget posted.slots.mics k = none) := List.filter_congr fun _ _ => beq_eq_decide ..
    rw [if_neg hclosed, if_pos hopened, Hall.chairPriority_eq (h := heard) hm]
    dsimp only
    rw [show heard.roomOfUnit u = r from rfl, hus, hslots, hdropped, show dropped.setGap r none = still from rfl, hserved,
      hposted, hfreed]

end Sys2Proof.Machine

/-! SUPPORT. O29: the ends of programmings (R138, R157). -/

namespace Sys2Proof.Machine

namespace Hall

variable {h : Hall}

theorem storeComplete_of_other (ok : Bool) (hidle : ∀ q x m, h.store.programming ≠ some ⟨q, .store x, m⟩) :
    h.storeComplete ok = h := by
  unfold storeComplete
  split
  · next p copy n hrun => exact absurd hrun (hidle p copy n)
  · rfl

theorem eraseComplete_of_other (ok : Bool) (hidle : ∀ q m, h.store.programming ≠ some ⟨q, .erase, m⟩) :
    h.eraseComplete ok = h := by
  unfold eraseComplete
  split
  · next p n hrun => exact absurd hrun (hidle p n)
  · rfl

end Hall

/-- Settles O29: the two rows by what the store is programming. -/
theorem programmingEnds : Obligations.ProgrammingEnds := by
  intro s p n copy ok c h posted
  have hstore : exec (.storeComplete ok) s = .next (s.withChip { c with hall := h.storeComplete ok }) := rfl
  have herase : exec (.eraseComplete ok) s = .next (s.withChip { c with hall := h.eraseComplete ok }) := rfl
  rw [hstore, herase]
  refine ⟨fun hrun => ?_, fun hrun => ?_, fun hother => ?_, fun hother => ?_⟩
  · rw [Hall.storeComplete, hrun]
    cases ok <;> rfl
  · rw [Hall.eraseComplete, hrun]
    cases ok <;> rfl
  · rw [Hall.storeComplete_of_other ok hother]
    rfl
  · rw [Hall.eraseComplete_of_other ok hother]
    rfl

end Sys2Proof.Machine

/-! SUPPORT. O31: frames that are not processed (R117, R119, R120). -/

namespace Sys2Proof.Machine

namespace Chip

variable {c : Chip} {a : Arrival}

theorem finish_of_quiet (hdue : c.due = []) : c.finish = c := by
  rw [finish, drain]
  simp only [hdue]

theorem locked_iff : c.locked = true ↔ c.ring.lock = .locked := by simp [locked]

theorem not_locked_iff : c.locked = false ↔ c.ring.lock ≠ .locked := by simp [locked]

/-! ## The frame marker (R119, R120) -/

theorem marker_of_timely {gap : Nat} (htime : ¬(c.ring.sinceMarker.isSome = true ∧ Config.threePeriods < gap)) :
    c.marker gap = { c with ring.sinceMarker := some 0 } := by
  unfold marker
  rw [if_neg htime]
  rfl

theorem marker_of_late_locked {gap : Nat} (hlate : c.ring.sinceMarker.isSome = true ∧ Config.threePeriods < gap)
    (hlock : c.ring.lock = .locked) : c.marker gap = { c with
      ring := { c.ring with lock := .lost, run := 0, sinceMarker := some 0 }
      hall.events := c.hall.events.push c.hall.frameCounter ⟨.ringLost, c.hall.frameCounter, 0, 0, 0, 0⟩ } := by
  unfold marker
  rw [if_pos hlate, if_pos (locked_iff.mpr hlock)]
  rfl

theorem marker_of_late_unlocked {gap : Nat} (hlate : c.ring.sinceMarker.isSome = true ∧ Config.threePeriods < gap)
    (hlock : c.ring.lock ≠ .locked) : c.marker gap = { c with ring := { c.ring with run := 0, sinceMarker := some 0 } } := by
  unfold marker
  rw [if_pos hlate, if_neg (by rw [locked_iff]; exact hlock)]
  rfl

/-- What becomes of the frame after its marker: it is processed, or it passes and the run goes on (R117, R119). -/
def taken (a : Arrival) (c : Chip) : Chip :=
  if c.locked then c.count.process a
  else if Config.lockRun ≤ c.ring.run + 1 then c.acquire.process a
  else { c.setRing { c.ring with run := c.ring.run + 1 } with ringOut := some a.frame }

theorem frameArrival_eq : c.frameArrival a = ((c.finish.latch a).marker a.gap).taken a := rfl

theorem frameArrival_of_quiet (hdue : c.due = []) : c.frameArrival a = ((c.latch a).marker a.gap).taken a := by
  rw [frameArrival_eq, finish_of_quiet hdue]

theorem taken_of_unlocked (hlock : c.ring.lock ≠ .locked) (hrun : c.ring.run < 15) :
    c.taken a = { c with ring.run := c.ring.run + 1, ringOut := some a.frame } := by
  rw [taken, if_neg (by rw [locked_iff]; exact hlock), if_neg (by simp only [Config.lockRun]; omega)]
  rfl

end Chip

/-- Settles O31: a marker that comes late ends lock or run first (`marker_of_late_locked`, `marker_of_late_unlocked`), and the
frame then passes (`taken_of_unlocked`). -/
theorem unprocessedFramesPass : Obligations.UnprocessedFramesPass := by
  intro s a hdue hnot c h late lost
  have hrow : exec (.frameArrival a) s = .next (s.withChip (c.frameArrival a)) := rfl
  rw [hrow, Chip.frameArrival_of_quiet hdue]
  by_cases hlate : late
  · by_cases hlock : c.ring.lock = .locked
    · have hlost : lost := ⟨hlate, hlock⟩
      rw [Chip.marker_of_late_locked (c := c.latch a) hlate hlock, Chip.taken_of_unlocked (by simp) (by simp)]
      simp only [if_pos hlost, if_pos hlate]
      rfl
    · have hlost : ¬lost := fun both => hlock both.2
      rw [Chip.marker_of_late_unlocked (c := c.latch a) hlate hlock, Chip.taken_of_unlocked]
      · simp only [if_neg hlost, if_pos hlate]
        rfl
      · exact hlock
      · exact Nat.zero_lt_succ 14
  · have hlost : ¬lost := fun both => hlate both.1
    have hprocess : c.ring.lock ≠ .locked ∧ c.ring.run < 15 := by
      have hunlocked := fun hor => hnot ⟨fun hsome => Nat.not_lt.mp (fun hgap => hlate ⟨hsome, hgap⟩), hor⟩
      exact ⟨fun hlock => hunlocked (.inl hlock), Nat.not_le.mp fun hrun => hunlocked (.inr hrun)⟩
    rw [Chip.marker_of_timely (c := c.latch a) hlate, Chip.taken_of_unlocked]
    · simp only [if_neg hlost, if_neg hlate]
      rfl
    · exact hprocess.1
    · exact hprocess.2

end Sys2Proof.Machine

/-! SUPPORT. The counts and the computation of a processed frame (R90, R117, R118, R121 to R123): the chip that meets the lane
cell is `Chip.processed` where the frame finds no error in memory, and what it keeps everywhere else. -/

namespace Sys2Proof.Machine

theorem tmapIdx_eq_self {α : Type} [Inhabited α] {n : Nat} {t : Vector α n} {f : Nat → α → α} (h : ∀ i < n, f i (tget t i) = tget t i) :
    tmapIdx t f = t := table_ext fun i hi => by rw [tget_tmapIdx_of_lt _ _ hi, h i hi]

theorem tmapIdx_or_false {n : Nat} (t : Vector Bool n) : tmapIdx t (fun _ d => d || false) = t :=
  tmapIdx_eq_self fun _ _ => Bool.or_false _

theorem tmapIdx_or_true {n : Nat} (t : Vector Bool n) : tmapIdx t (fun _ d => d || true) = .replicate n true := by
  apply table_ext
  intro i hi
  simp [tget_tmapIdx_of_lt _ _ hi, tget_eq_getElem _ hi]

namespace Hall

variable {h : Hall}

theorem markKnown_eq (h : Hall) : h.markKnown =
    { h with floor.dirty := tmapIdx h.floor.dirty (fun i d => d || h.known (i + 1)) } := by
  have hdirty : h.dirtyWith units = tmapIdx h.floor.dirty (fun i d => d || h.known (i + 1)) := by
    rw [dirtyWith_eq]
    apply table_ext
    intro i hi
    have hunit : units.contains (i + 1) = true := List.contains_iff_mem.mpr (mem_units.mpr ⟨by omega, by omega⟩)
    rw [tget_tmapIdx_of_lt _ _ hi, tget_tmapIdx_of_lt _ _ hi, hunit, Bool.true_and]
  rw [markKnown, each_mark, hdirty]

end Hall

namespace Chip

variable {c : Chip} {a : Arrival}

theorem compute_of_clean (hm : c.hall.mem.ReadsFindNothing) (f : Frame) :
    c.compute f = { c with outs := Hall.mix c.heard f c.outs } := by
  have hmem : ({ c.heard with mem := c.hall.mem } : Hall) = c.heard := by
    unfold heard
    split <;> rfl
  have hread : c.onlyHall (Hall.readLevels reader) = c := by
    rw [onlyHall, Hall.idle_readLevels reader_idle hm]
  unfold compute
  rw [if_pos (TableMemory.undamaged_of_clean hm)]
  dsimp only
  rw [hread, hmem]

/-- The chip when the marker of a timely frame has come. -/
def marked (a : Arrival) (c : Chip) : Chip := { c.latch a with ring.sinceMarker := some 0 }

/-- The chip when a processed frame has been counted (R118, R121, R122). -/
def counted (a : Arrival) (c : Chip) : Chip := if c.ring.lock = .locked then (c.marked a).count else (c.marked a).acquire

theorem taken_of_processes (hp : c.Processes a) : ((c.latch a).marker a.gap).taken a = (c.counted a).process a := by
  obtain ⟨htime, hrun⟩ := hp
  have hmarker : (c.latch a).marker a.gap = c.marked a :=
    marker_of_timely (c := c.latch a) (fun late => Nat.not_le.mpr late.2 (htime late.1))
  have hsame : (c.marked a).locked = c.locked := rfl
  rw [hmarker, taken, counted, hsame]
  by_cases hlock : c.ring.lock = .locked
  · rw [if_pos (locked_iff.mpr hlock), if_pos hlock]
  · rw [if_neg (fun locked => hlock (locked_iff.mp locked)), if_neg hlock]
    exact if_pos (Nat.succ_le_succ (hrun.resolve_left hlock))

theorem count_due (hdue : c.due = []) : c.count = { c with
    hall.frameCounter := c.hall.frameCounter + 1
    hall.floor.runs := tmapIdx c.hall.floor.runs (fun _ d => { d with window := d.window.map (· - 1) })
    time.sinceTick := if 480 ≤ c.time.sinceTick + 1 then 0 else c.time.sinceTick + 1
    time.sinceRamp := if c.time.rampInterval ≤ c.time.sinceRamp + 1 then 0 else c.time.sinceRamp + 1
    due := (if c.time.rampInterval ≤ c.time.sinceRamp + 1 then [.rampStep] else []) ++
      (units.filter (fun u => (({ c.hall with
        floor.runs := tmapIdx c.hall.floor.runs (fun _ d => { d with window := d.window.map (· - 1) }) } : Hall).run u).window
          = some 0)).map Due.window ++ (if 480 ≤ c.time.sinceTick + 1 then [.tick] else []) } := by
  have hwindows (h : Hall) : windowsEnded h = units.filter (fun u => (h.run u).window = some 0) :=
    List.filter_congr fun _ _ => beq_eq_decide ..
  simp only [count, makeDue, hwindows, decide_eq_true_eq, hdue, List.append_nil]
  rfl

/-- After the counts a processed frame's chip stands as `processed` says, but for the outputs of the frame before. -/
theorem counted_eq (hdue : c.due = []) (hups : a.upsets = []) :
    c.counted a = { c.processed a with outs := c.outs } := by
  have hmem : a.upsets.foldl TableMemory.strike c.hall.mem = c.hall.mem := by rw [hups]; rfl
  have hmarked : c.marked a = { c with
      pins := a.pins
      hall.store.programming := c.hall.store.programming.map (fun x => { x with remaining := x.remaining - a.gap })
      ring.sinceMarker := some 0 } := by
    rw [marked, latch, hmem]
  unfold counted
  by_cases hlock : c.ring.lock = .locked
  · have hlost : decide (c.ring.lock = .lost) = false := by rw [hlock]; rfl
    rw [if_pos hlock, count_due (by rw [hmarked]; exact hdue), hmarked]
    simp only [processed, hlost, Bool.false_and, tmapIdx_or_false, if_pos hlock, decide_eq_true_eq, Bool.false_eq_true, if_false]
    simp only [← hlock]
    rfl
  · have hcount := count_due (c := (c.marked a).setRing { (c.marked a).ring with lock := .locked, run := 0 })
      (by rw [hmarked]; exact hdue)
    have hsame : ((c.marked a).ring.lock == .lost) = decide (c.ring.lock = .lost) := beq_eq_decide ..
    rw [if_neg hlock, acquire, hcount, hsame, hmarked]
    by_cases hl : c.ring.lock = .lost
    · simp only [processed, hl, decide_true, if_true, Bool.true_and, tmapIdx_or_true, decide_eq_true_eq, relock, onlyHall, Hall.markKnown_eq]
      rfl
    · simp only [processed, hl, decide_false, Bool.false_and, tmapIdx_or_false, if_neg hlock, decide_eq_true_eq, Bool.false_eq_true, if_false]
      rfl

/-! ## The chip that meets the lane cell -/

theorem ring_settled (r : RingPort) : Settled (fun c => c.ring = r) where
  due _ _ hc := hc
  run d c hc := by
    by_cases hd : d = .tick
    · obtain ⟨_, _, htick⟩ := tick_eq c
      rw [hd, runDue, htick]
      exact hc
    · obtain ⟨_, _, hstep⟩ := runDue_eq hd c
      rw [hstep]
      exact hc

theorem finish_ring (c : Chip) : c.finish.ring = c.ring := finish_keeps (ring_settled c.ring) rfl

theorem frameArrival_of_processes (hp : c.Processes a) : c.frameArrival a = (c.finish.counted a).process a := by
  rw [frameArrival_eq]
  exact taken_of_processes (c := c.finish) (by rwa [Processes, finish_ring])

/-- The chip that meets the lane cell of its frame: the due steps come before the cell or after it, as the arrival says. -/
def atLane (a : Arrival) (c : Chip) : Chip := if a.cellFirst then c.compute a.frame else (c.compute a.frame).finish

/-- A processed frame leaves the outputs held before it in its slots, and its lane cell as the lane leaves it (R117). -/
theorem process_eq : c.process a = { ((c.atLane a).lane a.frame.lane).1 with
    ringOut := some ⟨c.hall.slotsOut c.outs a.frame, ((c.atLane a).lane a.frame.lane).2⟩ } := by
  unfold process atLane
  split <;> rfl

theorem atLane_keeps {Q : Chip → Prop} (S : Settled Q) (hcompute : ∀ f c, Q c → Q (c.compute f)) (hc : Q c) : Q (c.atLane a) := by
  unfold atLane
  split
  · exact hcompute _ _ hc
  · exact finish_keeps S (hcompute _ _ hc)

theorem atLane_ring (c : Chip) : (c.atLane a).ring = c.ring := by
  refine atLane_keeps (ring_settled c.ring) (fun f d hd => ?_) rfl
  obtain ⟨_, _, _, hcompute⟩ := compute_eq f d
  rw [hcompute]
  exact hd

theorem relock_eq (c : Chip) : c.relock = { c with
    hall.floor.dirty := tmapIdx c.hall.floor.dirty (fun i d => d || c.hall.known (i + 1))
    hall.router.boothDirty := .replicate 16 true
    hall.router.channelDirty := .replicate 72 true
    hall.events := c.hall.events.push c.hall.frameCounter ⟨.ringLocked, c.hall.frameCounter, 0, 0, 0, 0⟩ } := by
  rw [relock, onlyHall, Hall.markKnown_eq]
  rfl

/-- The count of a processed frame leaves the reply queue, the slot map and the outputs as they are (R118, R121, R122). -/
theorem counted_keeps (c : Chip) : (c.counted a).hall.frameCounter = c.hall.frameCounter + 1 ∧
    (c.counted a).hall.cmd = c.hall.cmd ∧ (c.counted a).hall.slots = c.hall.slots ∧ (c.counted a).outs = c.outs ∧
    (c.counted a).ring.laneErrors = c.ring.laneErrors ∧
    (c.counted a).time.sinceTick = (if 480 ≤ c.time.sinceTick + 1 then 0 else c.time.sinceTick + 1) ∧
    (c.counted a).time.sinceRamp = (if c.time.rampInterval ≤ c.time.sinceRamp + 1 then 0 else c.time.sinceRamp + 1) := by
  have htick (c : Chip) : c.count.time.sinceTick = (if 480 ≤ c.time.sinceTick + 1 then 0 else c.time.sinceTick + 1) := by
    obtain ⟨_, _, hcount⟩ := count_eq c
    rw [hcount]
  have hramp (c : Chip) : c.count.time.sinceRamp =
      (if c.time.rampInterval ≤ c.time.sinceRamp + 1 then 0 else c.time.sinceRamp + 1) := by
    obtain ⟨_, _, hcount⟩ := count_eq c
    rw [hcount]
  unfold counted
  split
  · exact ⟨rfl, rfl, rfl, rfl, rfl, htick _, hramp _⟩
  · unfold acquire
    dsimp only
    split
    · rw [relock_eq]
      exact ⟨rfl, rfl, rfl, rfl, rfl, htick _, hramp _⟩
    · exact ⟨rfl, rfl, rfl, rfl, rfl, htick _, hramp _⟩

/-! ## A processed frame that finds no error in memory -/

theorem contains_rampStep_iff {ramps ticks : Prop} [Decidable ramps] [Decidable ticks] {us : List Nat} :
    (((if ramps then [Due.rampStep] else []) ++ us.map Due.window ++ (if ticks then [Due.tick] else [])).contains .rampStep
      = true) ↔ ramps := by
  split_ifs <;> simp [*]

/-- The computation of a frame whose reads find nothing leaves the chip as `processed` says (R90). -/
theorem compute_counted (hdue : c.due = []) (hups : a.upsets = []) (hm : c.hall.mem.ReadsFindNothing) :
    (c.counted a).compute a.frame = c.processed a := by
  have hheard : { c.processed a with outs := c.outs }.heard =
      if c.time.rampInterval ≤ c.time.sinceRamp + 1 then
        { (c.processed a).hall with gains := (c.processed a).hall.gains.ramp } else (c.processed a).hall := by
    simp only [heard, processed, decide_eq_true_eq, contains_rampStep_iff]
  rw [counted_eq hdue hups, compute_of_clean (c := { c.processed a with outs := c.outs }) hm, hheard]
  simp only [processed, decide_eq_true_eq, GainPoints.ramp, funext GainPoint.ramp_eq]

/-- The chip of a processed frame that finds no error, as the lane cell meets it. -/
theorem frameArrival_of_clean (hp : c.Processes a) (hdue : c.due = []) (hups : a.upsets = []) (hm : c.hall.mem.ReadsFindNothing) :
    c.frameArrival a =
      { ((if a.cellFirst then c.processed a else (c.processed a).finish).lane a.frame.lane).1 with
        ringOut := some ⟨c.hall.slotsOut c.outs a.frame,
          ((if a.cellFirst then c.processed a else (c.processed a).finish).lane a.frame.lane).2⟩ } := by
  obtain ⟨-, -, hslots, houts, -⟩ := counted_keeps (a := a) c
  have hout : (c.counted a).hall.slotsOut (c.counted a).outs a.frame = c.hall.slotsOut c.outs a.frame := by
    unfold Hall.slotsOut Hall.written
    rw [hslots, houts]
  rw [frameArrival_of_processes hp, finish_of_quiet hdue, process_eq, hout, atLane, compute_counted hdue hups hm]

/-! ## The lane cell, case by case (R124 to R127) -/

variable {x : Cell}

theorem lane_of_empty (hempty : tget x 0 = 0) : c.lane x = c.offered x := if_pos hempty

theorem lane_of_foreign (hfull : tget x 0 ≠ 0) (hto : tget x 1 ≠ 0xFE) (hfrom : tget x 2 ≠ 0xFE) : c.lane x = (c, x) := by
  rw [lane, if_neg hfull, if_pos hto, if_neg hfrom]

theorem lane_of_own (hfull : tget x 0 ≠ 0) (hto : tget x 1 ≠ 0xFE) (hfrom : tget x 2 = 0xFE) :
    c.lane x = c.offered (tset x 0 0) := by
  rw [lane, if_neg hfull, if_pos hto, if_pos hfrom]
  rfl

theorem lane_of_malformed (hfull : tget x 0 ≠ 0) (hto : tget x 1 = 0xFE) (hx : decodeCell x = none) :
    c.lane x = c.laneError.offered (tset x 0 0) := by
  rw [lane, if_neg hfull, if_neg (not_not.mpr hto), hx]
  rfl

theorem lane_of_left {m : InCell} (hfull : tget x 0 ≠ 0) (hto : tget x 1 = 0xFE) (hx : decodeCell x = some m)
    (hleft : c.leftInLane m = true) : c.lane x = (c, x) := by
  rw [lane, if_neg hfull, if_neg (not_not.mpr hto), hx]
  exact if_pos hleft

theorem lane_of_delivered {m : InCell} (hfull : tget x 0 ≠ 0) (hto : tget x 1 = 0xFE) (hx : decodeCell x = some m)
    (hleft : ¬ c.leftInLane m = true) : c.lane x =
      if (c.settle.deliver m).ring.lock = .locked then (c.settle.deliver m).offered (tset x 0 0)
      else (c.settle.deliver m, tset x 0 0) := by
  rw [lane, if_neg hfull, if_neg (not_not.mpr hto), hx]
  simp only [if_neg hleft, locked_iff]
  rfl

end Chip

end Sys2Proof.Machine

/-! SUPPORT. O32 and O33: the lock of the ring port, and the counts of a processed frame (R118 to R123). -/

namespace Sys2Proof.Machine

theorem tmapIdx_or_decide {n : Nat} {t : Vector Bool n} (all : Prop) [Decidable all] :
    tmapIdx t (fun _ d => d || decide all) = if all then .replicate n true else t := by
  split
  · next hall => rw [decide_eq_true hall, tmapIdx_or_true]
  · next hall => rw [decide_eq_false hall, tmapIdx_or_false]

theorem exec_of_rowAct {i : Instr} {s : State} {d : Chip} (hrow : rowAct i s.chip = d) : exec i s = .next (s.withChip d) := by
  rw [exec_eq_rowAct, ← hrow]
  rfl

/-- Settles O32: RING_LOST and RUN_COUNT_CLEARED by the lock in force; the frame that locks the port has a foreign cell, so
its chip is `Chip.processed` (`frameArrival_of_clean`, `lane_of_foreign`). -/
theorem ringIsLostAndLocked : Obligations.RingIsLostAndLocked := by
  refine ⟨fun s hdue => ?_, fun s a hdue hp hlock hm hups hfirst hfull hto hfrom => ?_⟩
  · intro c h
    have hlocked : c.locked = true ↔ c.ring.lock = .locked := Chip.locked_iff
    refine ⟨exec_of_rowAct (i := .ringLost) ?_, exec_of_rowAct (i := .runCountCleared) ?_⟩
    · show c.ringLost = _
      simp only [Chip.ringLost, hlocked, Chip.finish_of_quiet (c := c) hdue]
      rfl
    · show c.runCountCleared = _
      simp only [Chip.runCountCleared, hlocked]
      rfl
  · intro c h lost
    have hframe := Chip.frameArrival_of_clean hp hdue hups hm
    rw [if_pos hfirst, Chip.lane_of_foreign hfull hto hfrom] at hframe
    refine ⟨_, exec_of_rowAct (i := .frameArrival a) hframe, ?_⟩
    simp only [State.withChip, Chip.processed, if_neg hlock]
    refine ⟨rfl, rfl, fun u hu => ?_, ?_, ?_, ?_⟩
    · obtain ⟨hlow, hhigh⟩ := mem_units.mp hu
      rw [tget_tmapIdx_of_lt _ _ (by omega), Nat.sub_add_cancel hlow]
    · exact tmapIdx_or_decide _
    · exact tmapIdx_or_decide _
    · simp only [decide_eq_true_eq]
      rfl

namespace Chip

variable {c : Chip} {a : Arrival}

/-- The frame counter and the counts of tick and ramp step stand at `t`, `k` and `m`. -/
def CountsAt (t : FrameCount) (k m : Nat) (c : Chip) : Prop :=
  c.hall.frameCounter = t ∧ c.time.sinceTick = k ∧ c.time.sinceRamp = m

end Chip

/-- The rules leave the frame counter alone (R118). -/
theorem Hall.clock_closed (t : FrameCount) : ClosedHall (fun h => h.frameCounter = t) where
  post _ _ _ _ _ _ _ hp := hp
  run _ _ _ _ hp := hp
  floor _ _ _ hp := hp
  slot _ _ hp := hp
  mic _ _ _ _ hp := hp
  held _ _ _ _ hp := hp
  notices _ _ _ hp := hp
  slots _ _ _ hp := hp
  plans _ _ hp := hp
  booth _ _ _ hp := hp
  fades _ _ _ _ hp := hp
  sync _ hp := hp
  partition _ _ hp := hp
  effective _ _ hp := hp
  repartition _ _ hp := hp
  safe _ _ hp := hp
  timed _ _ _ hp := hp
  plain _ _ _ _ _ _ hp := hp
  cmd _ _ _ hp := hp
  mask _ _ hp := hp

namespace Chip

variable {t : FrameCount} {k m : Nat}

theorem countsAt_settled : Settled (CountsAt t k m) where
  due _ _ hc := hc
  run d c hc := by
    obtain ⟨hclock, htick, hramp⟩ := hc
    have C := Hall.clock_closed t
    refine ⟨runDue_keeps C (Hall.closedHall_reader C) (fun _ _ hp => hp) hclock, ?_⟩
    by_cases hd : d = .tick
    · obtain ⟨_, _, heq⟩ := tick_eq c
      rw [hd, runDue, heq]
      exact ⟨htick, hramp⟩
    · obtain ⟨_, _, heq⟩ := runDue_eq hd c
      rw [heq]
      exact ⟨htick, hramp⟩

/-- A delivered cell other than an ENGINE RESET leaves the counts alone. -/
theorem deliver_countsAt {x : InCell} {c : Chip} (hx : ∀ hd, x ≠ .command hd .engineReset) (hc : c.CountsAt t k m) :
    (c.deliver x).CountsAt t k m := by
  obtain ⟨hclock, htime⟩ := hc
  have C := Hall.clock_closed t
  have K := Hall.closedHall_reader C
  cases x with
  | command hd y =>
    refine deliverCommand_keeps (Q := CountsAt t k m) (R := CountsAt t k m) (fun _ hc => hc) (fun _ hc => hc)
      (fun y c hc => ⟨run_keeps C K hc.1, ?_⟩) (fun _ _ hc => hc) (fun hreset => absurd (hreset ▸ rfl) (hx hd)) ⟨hclock, htime⟩
    obtain ⟨_, _, _, _, hrun, -⟩ := run_eq y c
    rw [hrun]
    exact hc.2
  | micPress | priorityPress | unitTaken | boothReport => exact ⟨deliver_keeps C K hclock nofun, htime⟩

theorem countsAt_closedLane : ClosedLane (fun x => ∀ hd, x ≠ .command hd .engineReset) (CountsAt t k m) where
  toSettled := countsAt_settled
  deliver _ _ hx _ hc := deliver_countsAt hx hc
  arbiter _ _ hc :=
    have C := Hall.clock_closed t
    ⟨arbiter_keeps C (Hall.closedHall_reader C) (fun _ hp => hp) (fun _ hp => hp) hc.1, hc.2⟩
  laneError _ hc := hc

theorem compute_countsAt {f : Frame} {c : Chip} (hc : c.CountsAt t k m) : (c.compute f).CountsAt t k m := by
  have C := Hall.clock_closed t
  refine ⟨compute_keeps C (Hall.closedHall_reader C) (fun _ _ hp => hp) hc.1, ?_⟩
  obtain ⟨_, _, _, hcompute⟩ := compute_eq f c
  rw [hcompute]
  exact hc.2

theorem rampInterval_settled (n : Nat) : Settled (fun c => c.time.rampInterval = n) where
  due _ _ hc := hc
  run d c hc := by
    by_cases hd : d = .tick
    · obtain ⟨_, _, heq⟩ := tick_eq c
      rw [hd, runDue, heq]
      exact hc
    · obtain ⟨_, _, heq⟩ := runDue_eq hd c
      rw [heq]
      exact hc

end Chip

/-- Settles O33: the count moves the counters (`counted_keeps`), and nothing before or after it in the frame does
(`countsAt_settled`, `countsAt_closedLane`). -/
theorem processedFramesCount : Obligations.ProcessedFramesCount := by
  intro s a hp hreset c
  have hfinish : c.finish.CountsAt c.hall.frameCounter c.time.sinceTick c.time.sinceRamp :=
    Chip.finish_keeps Chip.countsAt_settled ⟨rfl, rfl, rfl⟩
  have hinterval : c.finish.time.rampInterval = c.time.rampInterval := Chip.finish_keeps (Chip.rampInterval_settled _) rfl
  obtain ⟨hclock, htick, hramp⟩ := hfinish
  obtain ⟨hclock', -, -, -, -, htick', hramp'⟩ := Chip.counted_keeps (a := a) c.finish
  rw [hclock] at hclock'
  rw [htick] at htick'
  rw [hramp, hinterval] at hramp'
  have hlane := Chip.lane_keeps Chip.countsAt_closedLane (x := a.frame.lane) (fun m hm hd hcell => hreset hd (hcell ▸ hm))
    (Chip.atLane_keeps (a := a) Chip.countsAt_settled (fun _ _ => Chip.compute_countsAt) ⟨hclock', htick', hramp'⟩)
  have hframe := Chip.frameArrival_of_processes hp
  rw [Chip.process_eq] at hframe
  exact ⟨_, exec_of_rowAct (i := .frameArrival a) hframe, hlane⟩

end Sys2Proof.Machine

/-! SUPPORT. O34: the slots of a processed frame (R77, R117). -/

namespace Sys2Proof.Machine

theorem Hall.slotsOut_congr {g h : Hall} (hslots : g.slots = h.slots) (o : Outputs) (f : Frame) :
    g.slotsOut o f = h.slotsOut o f := by
  unfold slotsOut written
  rw [hslots]

/-- Settles O34: the count leaves slot map and outputs as they stood before the frame (`counted_keeps`), and each slot is
written by the map or left (`Hall.written`). -/
theorem slotsAreWritten : Obligations.SlotsAreWritten := by
  intro s a hdue hp c m
  obtain ⟨-, -, hslots, houts, -⟩ := Chip.counted_keeps (a := a) c
  have hframe := Chip.frameArrival_of_processes hp
  rw [Chip.finish_of_quiet hdue, Chip.process_eq, houts, Hall.slotsOut_congr hslots] at hframe
  refine ⟨_, _, exec_of_rowAct (i := .frameArrival a) hframe, rfl, fun i hi => ?_⟩
  show tget (c.hall.slotsOut c.outs a.frame) i = _
  rw [Hall.slotsOut, tget_tmapIdx_of_lt _ _ hi, Hall.written]
  by_cases hlow : i < 32
  · rw [if_neg (by omega), if_neg (by omega), if_pos hlow]
  · by_cases hfloor : i < 40
    · rw [if_pos ⟨by omega, hfloor⟩, if_neg hlow, if_pos hfloor]
      show _ = if tget c.hall.slots.floorActive (i - 32) then _ else _
      cases tget c.hall.slots.floorActive (i - 32) <;> rfl
    · rw [if_neg (by omega), if_pos (by omega), if_neg hlow, if_neg hfloor]
      have hclaim : tget m.pool (i - 40) = tget c.hall.slots.pool (i - 40) := rfl
      rw [hclaim]
      cases tget c.hall.slots.pool (i - 40) with
      | none => rfl
      | some claim => cases claim <;> rfl

end Sys2Proof.Machine

/-! SUPPORT. O35: the lane cell of a processed frame, case by case (R117, R124 to R127). -/

namespace Sys2Proof.Machine

/-! ## What a decoded cell is -/

theorem decodeCommand_spelled (code : BitVec 7) (f : Nat → Byte) : (decodeCommand code f).spelled = true := by
  by_cases hcode : catalogue.contains code = true
  · unfold decodeCommand
    split
    case h_2 =>
      split
      · rfl
      · next hmode => exact bne_iff_ne.mpr hmode
    case h_26 =>
      have hmem := List.mem_map_of_mem (f := BitVec.toNat) (List.contains_iff_mem.mp hcode)
      simp only [catalogue, List.cons_append, List.nil_append, List.map_cons, List.map_nil, BitVec.ofNat_eq_ofNat,
        BitVec.toNat_ofNat, Nat.reducePow, Nat.reduceMod, List.mem_cons, List.not_mem_nil, or_false] at hmem
      simp_all only [imp_false, or_self]
    all_goals rfl
  · rw [decodeCommand_of_not_mem (Bool.eq_false_iff.mpr hcode)]
    exact (congrArg not (Bool.eq_false_iff.mpr hcode)).trans rfl

theorem decodeCell_good {x : Cell} {m : InCell} (hx : decodeCell x = some m) : m.good = true ∧ m.spelled = true := by
  obtain ⟨hbody, hgood⟩ : cellBody x = some m ∧ m.good = true := by
    unfold decodeCell at hx
    split at hx
    · split at hx
      · next y hbody =>
        split at hx
        · next hgood => exact Option.some.inj hx ▸ ⟨hbody, hgood⟩
        · cases hx
      · cases hx
    · cases hx
  refine ⟨hgood, ?_⟩
  cases m with
  | command hd y =>
    unfold cellBody at hbody
    dsimp only at hbody
    split at hbody
    · split at hbody
      · obtain ⟨rfl, rfl⟩ := InCell.command.inj (Option.some.inj hbody)
        exact decodeCommand_spelled _ _
      · cases hbody
    · split at hbody
      · cases hbody
      · split at hbody <;> cases hbody
    all_goals cases hbody
  | micPress | priorityPress | unitTaken | boothReport => exact hgood

/-! ## What the Transmit Arbiter places (R129) -/

/-- A cell that the chip makes: occupied, from 0xFE, with its CRC. -/
def IsMade (x : Cell) : Prop := tget x 0 = 1 ∧ tget x 2 = 0xFE ∧ crcMatches x = true

theorem outCell_isMade (dest type tag : Byte) (payload : List Byte) : IsMade (outCell dest type tag payload) :=
  ⟨tget_sealCell (by decide), tget_sealCell (by decide), crcMatches_sealCell _⟩

theorem Reply.cell_isMade (x : Reply) : IsMade x.cell := by
  unfold Reply.cell
  split <;> exact outCell_isMade ..

theorem Event.cell_isMade (e : Event) : IsMade e.cell := outCell_isMade ..

namespace Hall

variable {h : Hall}

theorem unitCell_isMade (u : Nat) : IsMade (h.unitCell u) := outCell_isMade ..

theorem boothCell_isMade (b : Nat) : IsMade (h.boothCell b) := outCell_isMade ..

theorem channelCell_isMade (s k : Nat) : IsMade (h.channelCell s k) := outCell_isMade ..

theorem placeOther_isMade {rd : Reader} {x : Cell} (hx : (h.placeOther rd).2 = some x) : IsMade x := by
  unfold placeOther at hx
  split at hx
  · exact Option.some.inj hx ▸ Reply.cell_isMade _
  · split at hx
    · exact Option.some.inj hx ▸ boothCell_isMade _
    · split at hx
      · exact Option.some.inj hx ▸ channelCell_isMade _ _
      · split at hx
        · exact Option.some.inj hx ▸ Event.cell_isMade _
        · cases hx

theorem place_isMade {rd : Reader} {pointer : Nat} {x : Cell} (hx : (h.place rd pointer).cell = some x) : IsMade x := by
  unfold place at hx
  dsimp only at hx
  split at hx
  · exact Option.some.inj hx ▸ unitCell_isMade _
  · exact placeOther_isMade hx

end Hall

namespace Chip

variable {c : Chip} {a : Arrival}

/-- What leaves an empty cell is empty, or a cell of the chip's own (R127). -/
theorem offered_leaves {x : Cell} (hx : tget x 0 = 0) : tget (c.offered x).2 0 = 0 ∨ tget (c.offered x).2 2 = 0xFE := by
  show tget ((c.hall.place reader c.ring.pointer).cell.getD x) 0 = 0 ∨ _
  cases hcell : (c.hall.place reader c.ring.pointer).cell with
  | none => exact .inl hx
  | some y =>
    obtain ⟨-, hfrom, -⟩ := Hall.place_isMade hcell
    refine .inr ?_
    show tget ((c.hall.place reader c.ring.pointer).cell.getD x) 2 = 0xFE
    rw [hcell]
    exact hfrom

theorem emptied_isEmpty (x : Cell) : tget (tset x 0 0) 0 = 0 := by simp

/-! ## What the lane finds of the chip before its frame -/

/-- The lane error count stands at `n`, and the reply queue at `rs`. -/
def PortAt (n : Nat) (rs : List Reply) (c : Chip) : Prop := c.ring.laneErrors = n ∧ c.hall.cmd.replies = rs

theorem portAt_settled {n : Nat} {rs : List Reply} : Settled (PortAt n rs) where
  due _ _ hc := hc
  run d c hc := by
    have C := Hall.repliesAt_closed rs
    exact ⟨(congrArg RingPort.laneErrors ((ring_settled c.ring).run d c rfl)).trans hc.1,
      runDue_keeps C (Hall.closedHall_reader C) (fun _ _ hp => hp) hc.2⟩

/-- The lane errors and the replies that wait come to the lane cell as they stood before the frame. -/
theorem portAt_atLane (c : Chip) : ((c.finish.counted a).atLane a).PortAt c.ring.laneErrors c.hall.cmd.replies := by
  have hfinish : c.finish.PortAt c.ring.laneErrors c.hall.cmd.replies := finish_keeps portAt_settled ⟨rfl, rfl⟩
  obtain ⟨-, hcmd, -, -, herrors, -⟩ := counted_keeps (a := a) c.finish
  refine atLane_keeps portAt_settled (fun f d hd => ?_) ⟨herrors.trans hfinish.1, (congrArg _ hcmd).trans hfinish.2⟩
  have C := Hall.repliesAt_closed c.hall.cmd.replies
  refine ⟨?_, compute_keeps C (Hall.closedHall_reader C) (fun _ _ hp => hp) hd.2⟩
  obtain ⟨_, _, _, hcompute⟩ := compute_eq f d
  rw [hcompute]
  exact hd.1

/-- A port that is LOCKED hands a good cell, when it is taken at all, to its owner at once. -/
theorem exec_of_cell {s : State} {d : Chip} {i : Instr} {m : InCell} {x : Cell} (hlock : d.ring.lock = .locked)
    (hi : i.cell? = some m) (hx : decodeCell x = some m) (hleft : ¬ d.leftInLane m = true) :
    exec i (s.withChip d) = .next (s.withChip (d.settle.deliver m)) := by
  obtain ⟨hgood, hspelled⟩ := decodeCell_good hx
  have hrow : rowAct i d = d.settle.deliver m := by
    rw [rowAct, hi]
    show d.cellRow m = _
    rw [cellRow, if_pos (locked_iff.mpr hlock), if_neg (by simp [hgood]), if_neg (by simp [hspelled, hleft])]
  exact exec_of_rowAct (s := s.withChip d) hrow

theorem leftInLane_iff {m : InCell} : c.leftInLane m = true ↔ (∃ hd y, m = .command hd y) ∧ 8 ≤ c.hall.cmd.replies.length := by
  cases m with
  | command hd y => exact decide_eq_true_iff.trans ⟨fun hfull => ⟨⟨hd, y, rfl⟩, hfull⟩, And.right⟩
  | _ => exact ⟨nofun, nofun⟩

end Chip

/-- Settles O35: the chip that meets the lane is that of the counts and the computation (`portAt_atLane`,
`frameArrival_of_clean`), and the lane's cases are those of `lane_of_empty` to `lane_of_delivered`. -/
theorem laneCellsByCase : Obligations.LaneCellsByCase := by
  refine ⟨fun s a hp => ?_, fun s a hp hdue hups hm => ?_⟩
  · intro c x
    have hframe := Chip.frameArrival_of_processes hp
    obtain ⟨herrors, hreplies⟩ := Chip.portAt_atLane (a := a) c
    rw [Chip.process_eq] at hframe
    generalize hd : (c.finish.counted a).atLane a = d at hframe herrors hreplies
    refine ⟨_, _, exec_of_rowAct (i := .frameArrival a) hframe, rfl, ?_, ?_, ?_, ?_⟩
    · rintro ⟨hfull, hto, hfrom⟩
      simp only [Chip.lane_of_foreign (c := d) (x := a.frame.lane) hfull hto hfrom]
      exact ⟨rfl, herrors⟩
    · intro hoffered
      by_cases hempty : tget x 0 = 0
      · simp only [Chip.lane_of_empty (c := d) (x := a.frame.lane) hempty]
        exact ⟨Chip.offered_leaves hempty, herrors⟩
      · obtain ⟨hto, hfrom⟩ := hoffered.resolve_left hempty
        simp only [Chip.lane_of_own (c := d) (x := a.frame.lane) hempty hto hfrom]
        exact ⟨Chip.offered_leaves (Chip.emptied_isEmpty x), herrors⟩
    · rintro ⟨hfull, hto, hx⟩
      simp only [Chip.lane_of_malformed (c := d) (x := a.frame.lane) hfull hto hx]
      exact ⟨Chip.offered_leaves (Chip.emptied_isEmpty x), herrors ▸ rfl⟩
    · rintro hd y ⟨hfull, hto, hx, hwaiting⟩
      have hleft : d.leftInLane (.command hd y) = true := Chip.leftInLane_iff.mpr ⟨⟨hd, y, rfl⟩, hreplies ▸ hwaiting⟩
      simp only [Chip.lane_of_left (c := d) (x := a.frame.lane) hfull hto hx hleft]
      exact ⟨rfl, herrors, hreplies⟩
  · intro c x empty counted d leaves
    have hframe := Chip.frameArrival_of_clean hp hdue hups hm
    have hlock : d.ring.lock = .locked := by
      show (if a.cellFirst then counted else counted.finish).ring.lock = .locked
      split
      · rfl
      · rw [Chip.finish_ring]
        rfl
    have hleaves : ∀ y, d.lane x = y → leaves y := fun y hy => by
      subst hy
      exact exec_of_rowAct (i := .frameArrival a) hframe
    refine ⟨fun hempty => hleaves _ (Chip.lane_of_empty hempty), fun hfull hto hfrom => hleaves _ (Chip.lane_of_foreign hfull hto hfrom),
      fun hfull hto hfrom => hleaves _ (Chip.lane_of_own hfull hto hfrom), fun hfull hto hx => hleaves _ (Chip.lane_of_malformed hfull hto hx),
      fun m hfull hto hx => ⟨fun hleft => hleaves _ (Chip.lane_of_left hfull hto hx (Chip.leftInLane_iff.mpr hleft)), ?_⟩⟩
    intro hleft i t hi ht
    have hfree : ¬ d.leftInLane m = true := fun hl => hleft (Chip.leftInLane_iff.mp hl)
    rw [Chip.exec_of_cell hlock hi hx hfree] at ht
    obtain rfl := Host.Outcome.next.inj ht
    exact hleaves _ (Chip.lane_of_delivered hfull hto hx hfree)

end Sys2Proof.Machine

/-! SUPPORT. O36: the bytes of the cells that the chip places (Tables 4.4, 8.8, 8.9, 9.2, 10.2). -/

namespace Sys2Proof.Machine

/-- The first fourteen bytes of a cell of the chip are those it is made of. -/
theorem take_outCell {dest type tag : Byte} {payload : List Byte} (hlength : payload.length = 9) :
    (outCell dest type tag payload).toList.take 14 = [1, dest, 0xFE, type, tag] ++ payload := by
  rw [outCell, take_sealCell, List.take_append_of_le_length (by simp [hlength]), List.take_of_length_le (by simp [hlength])]

theorem indicationCode_eq (i : Option Indication) : indicationCode i = match i with
    | some i => byte ([Indication.denied, .queueFull, .floorClosed, .dropped, .timeWarning, .timeUp, .closedByChair,
      .closedByOverride, .closedByOperator, .closedByResize].idxOf i + 1)
    | none => 0 := by
  cases i with
  | none => rfl
  | some i => cases i <;> rfl

theorem EventKind.code_eq (k : EventKind) : k.code = byte ([EventKind.wallChanged, .repartitionStarted, .repartitionDone,
    .granted, .closed, .unresponsive, .chairPriority, .poolLow, .unknownUnit, .timeWarning, .timeUp, .languageDropped,
    .leadChanged, .relayLost, .claimWaiting, .claimServed, .integrityCorrected, .recordDamaged, .ringLost, .ringLocked,
    .supervisionExpired, .restarted, .eventsLost, .presetDone, .presetFailed].idxOf k + 1) := by
  cases k <;> rfl

/-- The senses by key, each in the order of its code (Table 9.2). -/
def senseTable : List (List Sense) := [
  [.unknownCommand, .fieldOutOfRange, .duplicateLanguage, .unitNotPresent, .notOperatorRoom, .presetEmpty],
  [.wrongMode, .tablesDamaged], [.unitNotIdle, .boothNotOff, .storeInProgress, .stopping],
  [.floorFull, .noMicSlot, .supervisionLocked], [.housePreset], [.recordDamaged], [.storeFailed], [.groupAbandoned]]

theorem Sense.key_eq (x : Sense) : x.key = byte (senseTable.findIdx (fun y => y.contains x) + 1) := by
  cases x <;> rfl

theorem Sense.code_eq (x : Sense) :
    x.code = byte ((senseTable.getD (senseTable.findIdx (fun y => y.contains x)) []).idxOf x + 1) := by
  cases x <;> rfl

theorem Reply.cell_good_bytes (tag : Byte) (q : Qualifier) (info : Nat) (d : Data) :
    (Reply.cell ⟨tag, .good q info d⟩).toList.take 14 =
      [1, 0xF0, 0xFE, 0x81, tag, 0, q.code, 0, highByte info, lowByte info, d.d0, d.d1, d.d2, d.d3] := take_outCell rfl

theorem Reply.cell_check_bytes (tag : Byte) (x : Sense) (info : Nat) :
    (Reply.cell ⟨tag, .check x info⟩).toList.take 14 =
      [1, 0xF0, 0xFE, 0x81, tag, 1, x.key, x.code, highByte info, lowByte info, 0, 0, 0, 0] := take_outCell rfl

theorem extractLsb'_byte {w : Nat} (x : BitVec w) (start : Nat) : x.extractLsb' start 8 = byte (x.toNat / 2 ^ start) := by
  apply BitVec.eq_of_toNat_eq
  simp [byte, BitVec.extractLsb'_toNat, Nat.shiftRight_eq_div_pow]

theorem byte_mod (n : Nat) : byte (n % 256) = byte n := by
  apply BitVec.eq_of_toNat_eq
  simp [byte]

theorem Event.cell_bytes (e : Event) : e.cell.toList.take 14 = [1, 0xF0, 0xFE, 0x85, 0, e.kind.code, e.subject,
    byte (e.ts.toNat / 2 ^ 24), byte (e.ts.toNat / 2 ^ 16 % 256), byte (e.ts.toNat / 2 ^ 8 % 256), byte (e.ts.toNat % 256),
    e.d0, e.d1, e.d2] := by
  rw [Event.cell, take_outCell rfl]
  simp only [extractLsb'_byte, byte_mod, Nat.pow_zero, Nat.div_one, List.cons_append, List.nil_append]

namespace Hall

variable {h : Hall}

theorem isHolder_iff {u : Nat} : h.isHolder u = true ↔ (h.run u).state ∈ [FloorState.granting, .speaking, .closing] := by
  simp [isHolder, onFloor, or_assoc]

theorem slotByte_map (f : Nat → Nat) (o : Option Nat) : slotByte (o.map f) = match o with
    | some k => byte (f k)
    | none => 0xFF := by
  cases o <;> rfl

theorem remaining_eq (u : Nat) : h.remaining u =
    if h.isChair u = true ∨ (h.timeClass (h.loaded u).timeClass).limit = 0 then 0xFFFF
    else if (h.run u).state = .speaking ∨ (h.run u).state = .closing then
      (h.timeClass (h.loaded u).timeClass).limit - (h.run u).seconds
    else (h.timeClass (h.loaded u).timeClass).limit := by
  simp only [remaining, Bool.or_eq_true, beq_iff_eq]

theorem unitSlot_eq (u : Nat) : slotByte (if h.isHolder u then (h.run u).slot.map (8 + ·) else none) = match (h.run u).slot with
    | some k => if (h.run u).state ∈ [FloorState.granting, .speaking, .closing] then byte (8 + k) else 0xFF
    | none => 0xFF := by
  by_cases hholder : h.isHolder u = true
  · rw [if_pos hholder, slotByte_map]
    simp only [if_pos (isHolder_iff.mp hholder)]
  · rw [if_neg hholder]
    simp only [if_neg (fun held => hholder (isHolder_iff.mpr held))]
    cases (h.run u).slot <;> rfl

theorem unitCell_bytes (u : Nat) : (h.unitCell u).toList.take 14 = [1, byte u, 0xFE, 0x82, byte (h.run u).grantId.toNat,
    (h.run u).state.cellCode, slotByte (if h.isHolder u then (h.run u).slot.map (8 + ·) else none), byte (h.queuePosition u),
    indicationCode (h.run u).indication, byte (h.remaining u / 256), byte (h.remaining u % 256), 0, 0, 0] := take_outCell rfl

theorem unitPlaced_eq {u : Nat} (hu : u ∈ units) : h.unitPlaced u = { h with
    floor.runs := tset h.floor.runs (u - 1) { h.run u with
      indication := none
      window := if (h.run u).state = .granting then some 1440 else (h.run u).window }
    floor.dirty := tset h.floor.dirty (u - 1) false } := by
  have hindex : unitIndex u = u - 1 := (unitIndex_of_mem hu).1
  rw [unitPlaced, setRun_eq hu, unmark, hindex]
  rfl

theorem boothCell_bytes (b : Nat) : (h.boothCell b).toList.take 14 = [1, byte (0xD0 + b), 0xFE, 0x83, 0,
    byte (h.effective b).code, (h.boothRun b).assignment.code, byte (h.roomOfBooth b), slotByte (h.boothRun b).outSlot,
    slotByte (h.boothRun b).feedSlot, (h.boothRun b).relay.code, byte (flag (h.relayRefused b)), 0, 0] := take_outCell rfl

theorem relayRefused_eq (b : Nat) : byte (flag (h.relayRefused b)) =
    if (h.boothRun b).selection = (h.boothRun b).relay then 0 else 1 := by
  unfold flag relayRefused
  by_cases hsame : (h.boothRun b).selection = (h.boothRun b).relay <;> simp [hsame, byte]

theorem channelSlot_eq (r k : Nat) : h.channelSlot r k =
    ((List.range 88).find? (fun i => tget h.slots.pool i == some (.language r k))).map (40 + ·) := rfl

theorem channelCell_bytes (n k : Nat) : (h.channelCell n k).toList.take 14 =
    [1, byte (0xE0 + n), 0xFE, 0x84, 0, byte n, byte (h.roomOfSection n), byte k] ++
      (if k = 0 then [0, byte (32 + h.roomOfSection n), 0, 0xFF]
      else match (h.plan (h.roomOfSection n))[k - 1]? with
        | none => [0, 0xFF, 3, 0xFF]
        | some l => match h.carrier (h.roomOfSection n) k with
          | some b => [byte l, slotByte (h.channelSlot (h.roomOfSection n) k), 1, byte b]
          | none => [byte l, slotByte (h.channelSlot (h.roomOfSection n) k), 2, 0xFF]) ++ [0, 0] := by
  unfold channelCell
  simp only [channelSource_eq_carrier]
  by_cases hk : k = 0
  · simp only [if_pos hk]
    exact take_outCell rfl
  · simp only [if_neg hk]
    cases (h.plan (h.roomOfSection n))[k - 1]? with
    | none => exact take_outCell rfl
    | some l =>
      cases h.carrier (h.roomOfSection n) k <;> exact take_outCell rfl

end Hall

/-! SUPPORT. O36: the order in which the sources are served (R127, R128). -/

/-- In a list that ascends, the least entry with property `p` is the first found. -/
theorem find?_eq_some_of_least {l : List Nat} {p : Nat → Bool} {u : Nat} (hsorted : l.Pairwise (· < ·)) (hu : u ∈ l)
    (hp : p u = true) (hleast : ∀ v ∈ l, p v = true → u ≤ v) : l.find? p = some u := by
  obtain ⟨before, after, rfl⟩ := List.append_of_mem hu
  refine List.find?_eq_some_iff_append.mpr ⟨hp, before, after, rfl, fun v hv => ?_⟩
  have hbelow : v < u := (List.pairwise_append.mp hsorted).2.2 v hv u List.mem_cons_self
  by_contra hfound
  exact absurd (hleast v (List.mem_append_left _ hv) (by simpa using hfound)) (by omega)

theorem units_pairwise : units.Pairwise (· < ·) := by
  rw [units, List.pairwise_map]
  exact List.pairwise_lt_range.imp Nat.succ_lt_succ

namespace Hall

variable {h : Hall} {pointer : Nat}

theorem mem_markedUnits {u : Nat} : u ∈ h.markedUnits ↔ u ∈ units ∧ tget h.floor.dirty (u - 1) = true := by
  rw [markedUnits, List.mem_filter]
  exact and_congr_right fun hu => by rw [(unitIndex_of_mem hu).1]

theorem markedUnits_pairwise : h.markedUnits.Pairwise (· < ·) := units_pairwise.filter _

/-- Round robin: the lowest marked unit above the pointer, else the lowest marked unit (R128). -/
theorem nextUnit_of_turn {u : Nat} (hu : u ∈ h.markedUnits)
    (hturn : (pointer < u ∧ ∀ v ∈ h.markedUnits, pointer < v → u ≤ v) ∨ ∀ v ∈ h.markedUnits, v ≤ pointer ∧ u ≤ v) :
    h.nextUnit pointer = some u := by
  unfold nextUnit
  rcases hturn with ⟨habove, hleast⟩ | hall
  · rw [find?_eq_some_of_least markedUnits_pairwise hu (decide_eq_true habove)
      (fun v hv hlt => hleast v hv (of_decide_eq_true hlt))]
  · have hnone : h.markedUnits.find? (fun v => decide (pointer < v)) = none :=
      List.find?_eq_none.mpr fun v hv => by simpa using (hall v hv).1
    have hhead : h.markedUnits.head? = h.markedUnits.find? (fun _ => true) := by cases h.markedUnits <;> rfl
    rw [hnone, hhead]
    exact find?_eq_some_of_least markedUnits_pairwise hu rfl (fun v hv _ => (hall v hv).2)

theorem nextUnit_of_none (hnone : ∀ u ∈ units, tget h.floor.dirty (u - 1) = false) : h.nextUnit pointer = none := by
  have hempty : h.markedUnits = [] := List.eq_nil_iff_forall_not_mem.mpr fun u hu => by
    obtain ⟨hunit, hmarked⟩ := mem_markedUnits.mp hu
    rw [hnone u hunit] at hmarked
    cases hmarked
  rw [nextUnit, hempty]
  rfl

theorem place_of_unit (hm : h.mem.ReadsFindNothing) {u : Nat} (hu : u ∈ h.markedUnits) (hnext : h.nextUnit pointer = some u) :
    h.place reader pointer = ⟨h.unitPlaced u, u, some (h.unitCell u)⟩ := by
  obtain ⟨hunit, hmarked⟩ := mem_markedUnits.mp hu
  have hread : h.readUnit reader u = h := by
    rw [readUnit, idle_delegate reader_idle hm, idle_timeClass reader_idle hm, ite_self]
  have hchoose : h.chooseUnit reader pointer 192 = (h, some u) := by
    rw [chooseUnit, hnext]
    dsimp only
    rw [hread, (unitIndex_of_mem hunit).1, if_pos hmarked]
  rw [place, hchoose]

theorem place_of_no_unit (hnext : h.nextUnit pointer = none) :
    h.place reader pointer = ⟨(h.placeOther reader).1, pointer, (h.placeOther reader).2⟩ := by
  have hchoose : h.chooseUnit reader pointer 192 = (h, none) := by rw [chooseUnit, hnext]
  rw [place, hchoose]

theorem firstMark_of_least {n b : Nat} {t : Vector Bool n} (hb : b < n) (hmarked : tget t b = true)
    (hleast : ∀ j < b, tget t j = false) : firstMark t = some b := by
  refine find?_eq_some_of_least List.pairwise_lt_range (List.mem_range.mpr hb) hmarked fun j _ hj => ?_
  by_contra hbelow
  rw [hleast j (by omega)] at hj
  cases hj

theorem firstMark_of_none {n : Nat} {t : Vector Bool n} (hnone : ∀ j < n, tget t j = false) : firstMark t = none :=
  List.find?_eq_none.mpr fun j hj => by simp [hnone j (List.mem_range.mp hj)]

theorem placeOther_of_reply {rd : Reader} {x : Reply} {q : List Reply} (hq : h.cmd.replies = x :: q) :
    h.placeOther rd = ({ h with cmd.replies := q }, some x.cell) := by
  rw [placeOther, hq]
  dsimp only
  rw [popReply, hq]
  rfl

theorem placeOther_of_booth (hm : h.mem.ReadsFindNothing) {b : Nat} (hq : h.cmd.replies = [])
    (hb : firstMark h.router.boothDirty = some b) : h.placeOther reader =
      ({ h with router.boothDirty := tset h.router.boothDirty b false }, some (h.boothCell b)) := by
  rw [placeOther, hq]
  dsimp only
  rw [hb]
  dsimp only
  rw [idle_booth reader_idle hm]
  rfl

theorem placeOther_of_channel (hm : h.mem.ReadsFindNothing) {i : Nat} (hq : h.cmd.replies = [])
    (hb : firstMark h.router.boothDirty = none) (hi : firstMark h.router.channelDirty = some i) : h.placeOther reader =
      ({ h with router.channelDirty := tset h.router.channelDirty i false }, some (h.channelCell (i / 9) (i % 9))) := by
  have hread : h.readChannel reader (i / 9) (i % 9) = h := by
    rw [readChannel, readBooths, idle_readBooths reader_idle hm, ite_self]
  rw [placeOther, hq]
  dsimp only
  rw [hb]
  dsimp only
  rw [hi]
  dsimp only
  rw [hread]
  rfl

theorem placeOther_of_events {rd : Reader} (hq : h.cmd.replies = []) (hb : firstMark h.router.boothDirty = none)
    (hi : firstMark h.router.channelDirty = none) : h.placeOther rd = match h.events.events with
      | e :: q => ({ h with events.events := q }, some e.cell)
      | [] => (h, none) := by
  rw [placeOther, hq]
  dsimp only
  rw [hb]
  dsimp only
  rw [hi]
  dsimp only
  cases hevents : h.events.events with
  | nil => rfl
  | cons e q =>
    dsimp only
    rw [popEvent, hevents]
    rfl

end Hall

/-- Settles O36: the sources by `Hall.nextUnit_of_turn` and the equations of `Hall.placeOther`, the cells by the bytes they are
made of. -/
theorem arbiterServesInOrder : Obligations.ArbiterServesInOrder := by
  refine ⟨fun h pointer hm => ?_, fun h u hu => ?_, fun h n => ?_, fun tag q x info d => ?_, fun e => ?_⟩
  · intro p marked
    refine ⟨fun u hu hmarked hturn => ?_, fun hnone => ?_, fun x hx => Hall.place_isMade hx⟩
    · have hmem : u ∈ h.markedUnits := Hall.mem_markedUnits.mpr ⟨hu, hmarked⟩
      have hplace : p = _ := Hall.place_of_unit hm hmem (Hall.nextUnit_of_turn hmem (hturn.imp
        (fun ⟨habove, hleast⟩ => ⟨habove, fun v hv => hleast v (Hall.mem_markedUnits.mp hv).1 (Hall.mem_markedUnits.mp hv).2⟩)
        (fun hall v hv => hall v (Hall.mem_markedUnits.mp hv).1 (Hall.mem_markedUnits.mp hv).2)))
      rw [hplace]
      exact ⟨rfl, rfl, rfl⟩
    · have hplace : p = _ := Hall.place_of_no_unit (Hall.nextUnit_of_none hnone)
      rw [hplace]
      refine ⟨rfl, fun x q hq => ?_, fun hq => ⟨fun b hb hbooth hleast => ?_, fun hbooths =>
        ⟨fun i hi hchannel hleast => ?_, fun hchannels => ?_⟩⟩⟩
      · rw [Hall.placeOther_of_reply hq]
        exact ⟨rfl, rfl⟩
      · rw [Hall.placeOther_of_booth hm hq (Hall.firstMark_of_least hb hbooth hleast)]
        exact ⟨rfl, rfl⟩
      · rw [Hall.placeOther_of_channel hm hq (Hall.firstMark_of_none hbooths) (Hall.firstMark_of_least hi hchannel hleast)]
        exact ⟨rfl, rfl⟩
      · rw [Hall.placeOther_of_events hq (Hall.firstMark_of_none hbooths) (Hall.firstMark_of_none hchannels)]
        refine ⟨fun e q hevents => ?_, fun hevents => ?_⟩ <;> rw [hevents] <;> exact ⟨rfl, rfl⟩
  · refine ⟨?_, Hall.unitPlaced_eq hu⟩
    rw [Hall.unitCell_bytes, indicationCode_eq, Hall.unitSlot_eq, Hall.remaining_eq, Hall.queuePosition, apply_ite byte]
    rfl
  · intro cell
    have hcell : cell = slotByte := funext fun o => by cases o <;> rfl
    refine ⟨fun hn => ?_, fun k hk hn => ?_⟩
    · rw [Hall.boothCell_bytes, Hall.relayRefused_eq, hcell]
      simp only [List.cons.injEq, true_and, and_true]
      refine ⟨?_, ?_, ?_⟩
      · cases h.effective n <;> rfl
      · cases (h.boothRun n).assignment <;> rfl
      · cases (h.boothRun n).relay <;> rfl
    · rw [Hall.channelCell_bytes, Hall.channelSlot_eq, hcell] <;> rfl
  · refine ⟨?_, ?_⟩
    · rw [Reply.cell_good_bytes]
      cases q <;> rfl
    · rw [Reply.cell_check_bytes, Sense.key_eq, Sense.code_eq]
      rfl
  · rw [Event.cell_bytes, EventKind.code_eq]

end Sys2Proof.Machine

/-! SUPPORT. O24: SET SECTION LEVELS (R14, R136). -/

namespace Sys2Proof.Machine

theorem Hall.setSectionLevels_eq {h : Hall} (hm : h.mem.ReadsFindNothing) (s level fill underlay : Nat) :
    h.setSectionLevels reader s level fill underlay =
      if 7 < s then (h, .check .fieldOutOfRange 1)
      else ({ h with mem.settings := tset h.mem.settings s ⟨{ h.settings s with level := min level 127, fill := min fill 128, underlay := min underlay 128 }, false, .sound⟩ },
        if level ≠ min level 127 then .good .adjusted 2 {}
        else if fill ≠ min fill 128 then .good .adjusted 3 {}
        else if underlay ≠ min underlay 128 then .good .adjusted 4 {}
        else .good .none 0 {}) := by
  unfold setSectionLevels
  rw [idle_settings reader_idle hm]
  simp only [goodWrite_cons, goodWrite_nil, ne_eq, ite_not]
  rfl

/-- The row of a taken command that every mode but SAFE takes (R139, Table 9.4). -/
theorem Chip.commandRow_of_rule_notSafe {hd : Hdr} {x : Command} {c : Chip} {f : Hall → Hall × Answer} (hr : c.Ready)
    (hs : x.spelled = true) (ht : ∀ m, Command.taken m x = (m != .safe)) (he : x ≠ .engineReset)
    (hx : c.restartWindow.run reader x = c.restartWindow.onHall f) :
    c.commandRow hd x = if c.hall.cmd.mode = .safe then c.answered hd (.check .wrongMode 3)
      else { c with hall := (f c.restartWindow.hall).1 }.answered hd (f c.restartWindow.hall).2 := by
  by_cases hsafe : c.hall.cmd.mode = .safe
  · rw [if_pos hsafe, commandRow_of_wrongMode hr hs (by rw [ht, hsafe]; rfl), hsafe]
    rfl
  · rw [if_neg hsafe]
    exact commandRow_of_rule hr hs ((ht _).trans (bne_iff_ne.mpr hsafe)) he hx

/-- Settles O24: the command is taken outside SAFE, and its rule is `Hall.setSectionLevels_eq`. -/
theorem setSectionLevelsWrites : Obligations.SetSectionLevelsWrites := by
  intro s hd sect level fill underlay hr hm c h l f w new
  rw [exec_of_command (x := .setSectionLevels sect level fill underlay) rfl,
    Chip.commandRow_of_rule_notSafe (x := .setSectionLevels sect level fill underlay) hr rfl (fun _ => rfl) nofun rfl,
    Hall.setSectionLevels_eq (h := s.chip.restartWindow.hall) hm, Nat.min_comm level.toNat, Nat.min_comm fill.toNat,
    Nat.min_comm underlay.toNat]
  congr 2
  split_ifs <;> rfl

end Sys2Proof.Machine

/-! SUPPORT. O20: CLOSE FLOOR acts by the delegate's state (R19, R34). -/

namespace Sys2Proof.Machine

namespace Hall

variable {h : Hall} {rd : Reader} {u : Nat}

theorem roomsOf_singleton (h : Hall) (u : Nat) : h.roomsOf [u] = [h.roomOfUnit u] := by
  have hroom : h.roomOfUnit u < 8 := roomOf_lt _ _
  simp only [roomsOf, sections, List.any_cons, List.any_nil, Bool.or_false]
  generalize h.roomOfUnit u = r at hroom
  interval_cases r <;> rfl

theorem closeAll_of_granting (c : CloseReason) (hstate : (h.run u).state = .granting) :
    h.closeAll rd c [u] = h.closeOne c u := by
  have hspeaking : [u].filter h.isSpeaking = [] := by simp [isSpeaking, hstate]
  rw [closeAll, hspeaking]
  rfl

theorem closeAll_of_speaking (hr : rd.Idle) (hm : h.mem.ReadsFindNothing) (c : CloseReason)
    (hstate : (h.run u).state = .speaking) : h.closeAll rd c [u] = (h.closeOne c u).aimSpeakers (h.roomOfUnit u) := by
  have hspeaking : [u].filter h.isSpeaking = [u] := by simp [isSpeaking, hstate]
  have hclean : (h.closeOne c u).mem.ReadsFindNothing := keeps_closeOne clean_closed.toClosedFloor (h := h) hm
  rw [closeAll, hspeaking, roomsOf_singleton]
  exact idle_recomputeMics hr hclean _

theorem slotsFreed_singleton (h : Hall) (u : Nat) :
    h.slotsFreed [u] = if (h.run u).state = .granting then 1 else 0 := by
  by_cases hstate : (h.run u).state = .granting <;> simp [slotsFreed, hstate]

theorem idle_gapTest (hr : rd.Idle) (hm : h.mem.ReadsFindNothing) (r : Nat) : h.gapTest rd r = h.gapTested r := by
  rw [gapTest, idle_settings hr hm]
  rfl

/-- A close of a unit that holds the floor: its room's gap test, the arbiter for a cancelled grant, its room's service. -/
theorem closeWithConsequences_singleton (hr : rd.Idle) (hm : h.mem.ReadsFindNothing) (c : CloseReason) (hfloor : h.onFloor u = true) :
    h.closeWithConsequences rd c true [u] =
      let tested := if h.isChair u then h.closeAll rd c [u] else (h.closeAll rd c [u]).gapTested (h.roomOfUnit u)
      let run := if (h.run u).state = .granting then tested.arbiterRun rd else tested
      if h.isChair u then run else run.service rd (h.roomOfUnit u) := by
  have hclean : (h.closeAll rd c [u]).mem.ReadsFindNothing :=
    keeps_closeAll clean_closed.toClosedFloor (idle_keeps hr fun _ hp => hp) hm
  have htested : (h.closeAll rd c [u]).each [h.roomOfUnit u] (gapTest rd) =
      (h.closeAll rd c [u]).gapTested (h.roomOfUnit u) := idle_gapTest hr hclean _
  rw [closeWithConsequences, roomsFreed_singleton hfloor, slotsFreed_singleton, consequences]
  generalize h.closeAll rd c [u] = g at htested
  by_cases hchair : h.isChair u = true
  · simp only [if_pos hchair]
    split <;> rfl
  · simp only [if_neg hchair]
    rw [if_pos trivial, htested]
    split <;> rfl

theorem closeFloorOf_eq (hm : h.mem.ReadsFindNothing) (u : Nat) : h.closeFloorOf reader u =
    if u = 0 ∨ 192 < u then (h, .check .fieldOutOfRange 1)
    else if h.known u = false then (h, .check .unitNotPresent 0)
    else (h.operatorClose reader u, .good .none 0 {}) := by
  unfold closeFloorOf
  rw [unitField_nil, idle_delegate reader_idle hm]
  by_cases hu : u = 0 ∨ 192 < u
  · simp only [if_pos hu]
    rfl
  · simp only [if_neg hu]
    cases h.known u <;> rfl

end Hall

/-- Settles O20: the row is `Hall.closeFloorOf_eq`, and a close of a GRANTING or SPEAKING unit has the consequences of
`Hall.closeWithConsequences_singleton`. -/
theorem closeFloorByState : Obligations.CloseFloorByState := by
  intro s hd unit hr hm c h u r gapTest serve
  have hrule : h.operatorClose reader u = match (h.run u).state with
      | .idle => h
      | .waiting => h.drop (some .closedByOperator) u
      | .granting => serve ((gapTest (h.closeOne .operator u)).arbiterRun reader)
      | .speaking => serve (gapTest ((h.closeOne .operator u).aimSpeakers r))
      | .closing => h
      | .chairPending => h.dropChair (some .closedByOperator) u := by
    unfold Hall.operatorClose
    cases hstate : (h.run u).state with
    | granting =>
      dsimp only
      rw [Hall.closeWithConsequences_singleton (h := h) reader_idle hm _ (by simp [Hall.onFloor, hstate]), Hall.closeAll_of_granting _ hstate]
      simp only [if_pos hstate]
      rfl
    | speaking =>
      dsimp only
      rw [Hall.closeWithConsequences_singleton (h := h) reader_idle hm _ (by simp [Hall.onFloor, hstate]),
        Hall.closeAll_of_speaking (h := h) reader_idle hm _ hstate]
      simp only [hstate, reduceCtorEq, if_false]
      rfl
    | _ => rfl
  rw [exec_of_command (x := .closeFloor unit) rfl,
    Chip.commandRow_of_rule (x := .closeFloor unit) hr rfl rfl nofun rfl, Hall.closeFloorOf_eq (h := h) hm, hrule]
  congr 2
  split_ifs <;> rfl

end Sys2Proof.Machine

/-! SUPPORT. O21: CLEAR FLOOR by its scope (R35). -/

namespace Sys2Proof.Machine

/-- CLEAR FLOOR of scope ALL, step by step. -/
theorem Hall.clearAll_eq {rd : Reader} {r : Nat} {h emptied seen closed waiting : Hall} {us : List Nat}
    (hemptied : h.clearQueue rd r = emptied)
    (hseen : seen = emptied.readAll rd.delegate (units.filter (fun u => emptied.onFloor u && emptied.roomOfUnit u == r)))
    (hus : us = units.filter (fun u => seen.onFloor u && seen.roomOfUnit u == r))
    (hclosed : closed = seen.closeAll rd .operator us)
    (hwaiting : waiting = closed.readAll rd.delegate (closed.floor.chairs.filter (fun u => closed.roomOfUnit u == r))) :
    h.clearAll rd r = (waiting.each (waiting.floor.chairs.filter (fun u => waiting.roomOfUnit u == r))
      (dropChair (some .closedByOperator))).consequences rd false (seen.roomsFreed us) (seen.slotsFreed us) := by
  subst hwaiting hclosed hus hseen
  unfold clearAll
  rw [hemptied]
  rfl

theorem exec_clearFloor {s : State} {hd : Hdr} {room scope : Byte} (hr : s.chip.Ready) :
    exec (.clearFloor hd room scope) s = .next (s.withChip
      ({ s.chip.restartWindow with
        hall := (s.chip.restartWindow.hall.clearFloorOf reader room.toNat scope.toNat).1 }.answered hd
          (s.chip.restartWindow.hall.clearFloorOf reader room.toNat scope.toNat).2)) := by
  rw [exec_of_command (x := .clearFloor room scope) rfl,
    Chip.commandRow_of_rule (x := .clearFloor room scope) hr rfl rfl nofun rfl]
  rfl

/-- Settles O21: the three scopes of `Hall.clearFloor`. -/
theorem clearFloorByScope : Obligations.ClearFloorByScope := by
  intro s hd room scope hr
  rw [exec_clearFloor hr]
  generalize reader = rd
  intro c h r read held queued emptied inRoom seen us closed chairs waiting cleared
  have hzero : scope.toNat = 0 ↔ scope = 0 := by simp [BitVec.toNat_eq]
  have hone : scope.toNat = 1 ↔ scope = 1 := by simp [BitVec.toNat_eq]
  have hclear : h.clearFloor rd r scope.toNat =
      if scope = 0 then held.closeWithConsequences rd .operator true (held.positionHolders r)
      else if scope = 1 then emptied
      else cleared.consequences rd false (seen.roomsFreed us) (seen.slotsFreed us) := by
    have hqueue : h.clearQueue rd r = emptied := rfl
    have hall := Hall.clearAll_eq (rd := rd) (r := r) (h := h) (emptied := emptied) (seen := seen) (us := us) (closed := closed)
      (waiting := waiting) hqueue rfl rfl rfl rfl
    rw [Hall.clearFloor, if_congr hzero rfl rfl, if_congr hone rfl rfl, hqueue, hall]
    rfl
  have hrule : h.clearFloorOf rd r scope.toNat =
      if isRoomId h.part.inForce r = false then (h, .check .fieldOutOfRange 1)
      else if 2 < scope.toNat then (h, .check .fieldOutOfRange 2)
      else (h.clearFloor rd r scope.toNat, .good .none 0 {}) := rfl
  rw [hrule, hclear]
  generalize (if scope = 0 then held.closeWithConsequences rd .operator true (held.positionHolders r)
    else if scope = 1 then emptied
    else cleared.consequences rd false (seen.roomsFreed us) (seen.slotsFreed us)) = cleared'
  congr 2
  split_ifs <;> rfl

end Sys2Proof.Machine

/-! SUPPORT. What follows a written record, as the statements say it: section settings (R39), time classes (R57), and entry into
SAFE (R142). -/

namespace Sys2Proof.Machine

namespace Hall

variable {h : Hall}

/-- No operation of the hall writes Table Memory but by a read or by a command's own write. -/
theorem memAt_closed (m : TableMemory) : ClosedSafe (fun h => h.mem = m) where
  post _ _ _ _ _ _ _ hp := hp
  run _ _ _ _ hp := hp
  floor _ _ _ hp := hp
  slot _ _ hp := hp
  mic _ _ _ _ hp := hp
  held _ _ _ _ hp := hp
  notices _ _ _ hp := hp
  slots _ _ _ hp := hp
  plans _ _ hp := hp
  booth _ _ _ hp := hp
  fades _ _ _ _ hp := hp
  sync _ hp := hp
  partition _ _ hp := hp
  effective _ _ hp := hp
  repartition _ _ hp := hp
  safe _ _ hp := hp

theorem dropped_mem (us : List Nat) (h : Hall) : (h.dropped us).mem = h.mem :=
  each_keeps (P := fun g => g.mem = h.mem) (fun _ _ => keeps_drop (memAt_closed h.mem).toClosedFloor) rfl

theorem settings_of_mem {g : Hall} (hmem : g.mem = h.mem) (r : Nat) : g.settings r = h.settings r := by
  unfold settings settingsRecord
  rw [hmem]

/-- The queue entries beyond the limit are dropped, where the settings act as in `h` (R39, R40). -/
theorem cutQueue_eq {rd : Reader} {g : Hall} (hr : rd.Idle) (hm : h.mem.ReadsFindNothing) (hmem : g.mem = h.mem) (r : Nat) :
    g.cutQueue rd r = g.dropped ((g.queue r).drop (h.settings r).queueLimit) := by
  rw [idle_cutQueue hr (hmem ▸ hm), beyondLimit, settings_of_mem hmem]
  rfl

theorem settingsChanged_eq (hm : h.mem.ReadsFindNothing) (r : Nat) (old : Settings) :
    h.settingsChanged reader r old = h.settingsTaken r old := by
  have hr : reader.Idle := reader_idle
  unfold settingsChanged settingsTaken
  generalize reader = rd at hr ⊢
  refine if_congr Iff.rfl ?_ rfl
  rw [idle_dropQueue hr hm]
  set ended := if keepsQueue old.floorMode && !keepsQueue (h.settings r).floorMode then (h.dropped (h.queue r)).setGap r none
    else h with hended
  have hmem : ended.mem = h.mem := by
    rw [hended]
    split
    · exact dropped_mem _ _
    · rfl
  have hcut : ended.cutQueue rd r = ended.dropped ((ended.queue r).drop (h.settings r).queueLimit) := cutQueue_eq hr hm hmem r
  have hclean : (ended.dropped ((ended.queue r).drop (h.settings r).queueLimit)).mem.ReadsFindNothing := by
    rw [dropped_mem, hmem]
    exact hm
  have hresized := idle_closeExcess hr hclean r
  show ((ended.cutQueue rd r).closeExcess rd r).service rd r = _
  rw [hcut, hresized]
  rfl

theorem classChanged_eq (k : Nat) (old : TimeClass) : h.classChanged reader k old = h.classTaken k old := by
  have hfilter : units.filter (fun u => (h.record u).value.present && (h.loaded u).timeClass == k) =
      units.filter (fun u => (h.record u).value.present ∧ (h.loaded u).timeClass = k) :=
    List.filter_congr fun u _ => by rw [Bool.decide_and, Bool.decide_coe, beq_eq_decide]
  rw [classChanged, classTaken, hfilter]

theorem enterSafe_eq (hm : h.mem.ReadsFindNothing) : h.enterSafe reader = h.safeTaken := by
  have hread : (h.setMode .safe).readAll reader.settings h.rooms = h.setMode .safe :=
    idle_readSettings reader_idle (h := h.setMode .safe) hm _
  have hfilter : (h.setMode .safe).rooms.filter (fun r => ((h.setMode .safe).settings r).floorMode == .operator) =
      h.rooms.filter (fun r => (h.settings r).floorMode = .operator) :=
    List.filter_congr fun _ _ => beq_eq_decide ..
  unfold enterSafe safeTaken
  rw [hread]
  dsimp only
  rw [hfilter]
  rfl

end Hall

end Sys2Proof.Machine

/-! SUPPORT. Room plans and channel notices as the statements say them (R63, R64, R73). -/

namespace Sys2Proof.Machine.Hall

/-! ## The draft of a room plan (R63) -/

/-- The first section that brings a code, of codes paired with their sections. -/
def firstBringer (xs : List (Nat × Nat)) (l : Nat) : Nat := ((xs.find? (fun x => x.1 == l)).map (·.2)).getD 0

theorem firstBringer_concat_of_mem {xs : List (Nat × Nat)} {l : Nat} (hl : l ∈ xs.map (·.1)) (x : Nat × Nat) :
    firstBringer (xs ++ [x]) l = firstBringer xs l := by
  obtain ⟨y, hy, rfl⟩ := List.mem_map.mp hl
  have hsome : (xs.find? (fun z => z.1 == y.1)).isSome = true := List.find?_isSome.mpr ⟨y, hy, beq_self_eq_true _⟩
  rw [firstBringer, firstBringer, List.find?_append, Option.or_of_isSome hsome]

theorem firstBringer_concat_self {xs : List (Nat × Nat)} {x : Nat × Nat} (hx : x.1 ∉ xs.map (·.1)) :
    firstBringer (xs ++ [x]) x.1 = x.2 := by
  have hnone : xs.find? (fun z => z.1 == x.1) = none :=
    List.find?_eq_none.mpr fun z hz heq => hx (List.mem_map.mpr ⟨z, hz, beq_iff_eq.mp heq⟩)
  rw [firstBringer, List.find?_append, hnone]
  simp

theorem eraseDups_concat (l : List Nat) (a : Nat) :
    (l ++ [a]).eraseDups = if a ∈ l then l.eraseDups else l.eraseDups ++ [a] := by
  rw [List.eraseDups_append]
  by_cases ha : a ∈ l
  · simp [List.removeAll, ha]
  · simp [List.removeAll, ha, List.eraseDups_cons]

/-- The codes that a room's sections bring, each with its section, as a plan in the making (R63): eight at most, and the codes
beyond with the first section that brought each. -/
theorem foldl_add_eq (xs : List (Nat × Nat)) :
    xs.foldl (fun (d : PlanDraft) x => PlanDraft.add x.2 d x.1) ([], []) =
      (((xs.map (·.1)).eraseDups).take 8,
        (((xs.map (·.1)).eraseDups).drop 8).map (fun l => (l, firstBringer xs l))) := by
  induction xs using List.reverseRecOn with
  | nil => rfl
  | append_singleton xs x ih =>
    have hmem : ∀ l, l ∈ (xs.map (·.1)).eraseDups ↔ l ∈ xs.map (·.1) := fun l => List.mem_eraseDups
    have hkept : (((xs.map (·.1)).eraseDups).drop 8).map (fun l => (l, firstBringer (xs ++ [x]) l)) =
        (((xs.map (·.1)).eraseDups).drop 8).map (fun l => (l, firstBringer xs l)) :=
      List.map_congr_left fun l hl => by rw [firstBringer_concat_of_mem ((hmem l).mp (List.mem_of_mem_drop hl))]
    rw [List.foldl_append, ih, List.map_append, List.map_cons, List.map_nil, eraseDups_concat]
    generalize hcodes : (xs.map (·.1)).eraseDups = codes at hmem hkept
    simp only [List.foldl_cons, List.foldl_nil, PlanDraft.add, ← hmem]
    by_cases hx : x.1 ∈ codes
    · rw [if_pos hx, hkept]
      rcases List.mem_append.mp (List.take_append_drop 8 codes ▸ hx) with htake | hdrop
      · rw [if_pos htake]
      · have hany : ((codes.drop 8).map (fun l => (l, firstBringer xs l))).any (fun y => y.1 == x.1) = true :=
          List.any_eq_true.mpr ⟨_, List.mem_map.mpr ⟨x.1, hdrop, rfl⟩, beq_self_eq_true _⟩
        have hfull : ¬ (codes.take 8).length < 8 := by
          have := List.length_pos_of_mem hdrop
          rw [List.length_drop] at this
          rw [List.length_take]
          omega
        rw [if_neg hfull, if_pos hany, ite_self]
    · have htake : x.1 ∉ codes.take 8 := fun h => hx (List.mem_of_mem_take h)
      have hnone : ¬ ((codes.drop 8).map (fun l => (l, firstBringer xs l))).any (fun y => y.1 == x.1) = true := fun hany => by
        obtain ⟨y, hy, heq⟩ := List.any_eq_true.mp hany
        obtain ⟨l, hl, rfl⟩ := List.mem_map.mp hy
        exact hx (beq_iff_eq.mp heq ▸ List.mem_of_mem_drop hl)
      rw [if_neg hx, if_neg htake, if_neg hnone]
      by_cases hroom : codes.length < 8
      · rw [if_pos (by rw [List.length_take]; omega), List.take_of_length_le (l := codes) (by omega), List.take_of_length_le (by simp; omega),
          List.drop_of_length_le (l := codes) (by omega), List.drop_of_length_le (by simp; omega)]
        rfl
      · rw [if_neg (by rw [List.length_take]; omega), List.take_append_of_le_length (by omega),
          List.drop_append_of_le_length (by omega), List.map_append, hkept]
        rw [List.map_cons, List.map_nil, firstBringer_concat_self fun h => hx ((hmem _).mpr h)]

variable {h : Hall}

/-- The codes of room `r`'s home plans, each with its section, sections ascending. -/
def codesOf (h : Hall) (r : Nat) : List (Nat × Nat) :=
  (sectionsOf h.part.inForce r).flatMap (fun s => (h.homePlan s).map (fun l => (l, s)))

theorem codesOf_fst (h : Hall) (r : Nat) :
    (h.codesOf r).map (·.1) = (sectionsOf h.part.inForce r).flatMap h.homePlan := by
  rw [codesOf, List.map_flatMap]
  simp only [List.map_map, Function.comp_def, List.map_id']

theorem firstBringer_codesOf (h : Hall) (r l : Nat) : firstBringer (h.codesOf r) l =
    ((sectionsOf h.part.inForce r).find? (fun s => l ∈ h.homePlan s)).getD 0 := by
  have hsection : ∀ ss : List Nat, (((ss.flatMap (fun s => (h.homePlan s).map (fun l => (l, s)))).find?
      (fun x => x.1 == l)).map (·.2)) = ss.find? (fun s => l ∈ h.homePlan s) := fun ss => by
    induction ss with
    | nil => rfl
    | cons s ss ih =>
      rw [List.flatMap_cons, List.find?_append, List.find?_cons]
      by_cases hl : l ∈ h.homePlan s
      · have hfind : ((h.homePlan s).map (fun l => (l, s))).find? (fun x => x.1 == l) = some (l, s) := by
          have hsome : (((h.homePlan s).map (fun l => (l, s))).find? (fun x => x.1 == l)).isSome = true :=
            List.find?_isSome.mpr ⟨(l, s), List.mem_map.mpr ⟨l, hl, rfl⟩, beq_self_eq_true _⟩
          obtain ⟨x, hx⟩ := Option.isSome_iff_exists.mp hsome
          obtain ⟨y, -, rfl⟩ := List.mem_map.mp (List.mem_of_find?_eq_some hx)
          have hy : y = l := by simpa using List.find?_some hx
          rw [hx, hy]
        rw [hfind, decide_eq_true hl]
        rfl
      · have hfind : ((h.homePlan s).map (fun l => (l, s))).find? (fun x => x.1 == l) = none :=
          List.find?_eq_none.mpr fun x hx heq => by
            obtain ⟨y, hy, rfl⟩ := List.mem_map.mp hx
            exact hl (beq_iff_eq.mp heq ▸ hy)
        rw [hfind, decide_eq_false hl, Option.none_or, ih]
  rw [firstBringer, codesOf, hsection]

theorem draftPlan_eq (h : Hall) (r : Nat) : h.draftPlan r = (h.planOf r, (h.codesCut r).map (fun l => (l,
    ((sectionsOf h.part.inForce r).find? (fun s => l ∈ h.homePlan s)).getD 0))) := by
  have hfold : h.draftPlan r = (h.codesOf r).foldl (fun (d : PlanDraft) x => PlanDraft.add x.2 d x.1) ([], []) := by
    simp only [draftPlan, codesOf, List.foldl_flatMap, List.foldl_map]
  rw [hfold, foldl_add_eq, codesOf_fst]
  simp only [firstBringer_codesOf]
  rfl

/-- A series of postings hands its events to the queue in order. -/
theorem each_post {α : Type} (k : EventKind) (a b c d : α → Byte) (xs : List α) (h : Hall) :
    h.each xs (fun x => post k (a x) (b x) (c x) (d x)) =
      { h with events := h.eventsAfter (xs.map (fun x => ⟨k, h.frameCounter, a x, b x, c x, d x⟩)) } := by
  induction xs generalizing h with
  | nil => rfl
  | cons x xs ih => exact ih (h.post k (a x) (b x) (c x) (d x))

theorem computePlan_eq (h : Hall) (r : Nat) : h.computePlan r = { h with
    router.plans := tset h.router.plans r (h.planOf r), events := h.eventsAfter (h.dropEvents r) } := by
  have hposted := each_post .languageDropped (fun _ => byte r) (fun x : Nat × Nat => byte x.1) (fun x => byte x.2) (fun _ => 0)
    ((h.codesCut r).map (fun l => (l, ((sectionsOf h.part.inForce r).find? (fun s => l ∈ h.homePlan s)).getD 0))) h
  unfold computePlan
  rw [draftPlan_eq]
  dsimp only
  rw [hposted, List.map_map]
  rfl

/-! ## Channel notices (R73) -/

theorem mem_sectionsOf {p : Partition} {r s : Nat} : s ∈ sectionsOf p r ↔ s < 8 ∧ roomOf p s = r := by
  simp [sectionsOf, sections]

/-- Table entries marked one after the other. -/
theorem tget_foldl_mark {n : Nat} (f : Nat → Nat) (ss : List Nat) (t : Vector Bool n) {i : Nat} (hi : i < n) :
    tget (ss.foldl (fun d s => tset d (f s) true) t) i = (tget t i || decide (∃ s ∈ ss, f s = i)) := by
  induction ss generalizing t with
  | nil => simp
  | cons s ss ih =>
    rw [List.foldl_cons, ih]
    by_cases hs : f s = i
    · subst hs
      simp [tget_tset_self _ _ hi]
    · rw [tget_tset, if_neg (fun both => hs both.1)]
      simp [hs]

/-- The notices of some channels of room `r` are marked, in every section of the room. -/
theorem each_markChannel (r : Nat) {ks : List Nat} (hks : ∀ k ∈ ks, k < 9) (h : Hall) : h.each ks (markChannel r) =
    { h with router.channelDirty := tmapIdx h.router.channelDirty (fun i d =>
      d || decide (h.roomOfSection (i / 9) = r ∧ i % 9 ∈ ks)) } := by
  induction ks generalizing h with
  | nil =>
    have hsame : tmapIdx h.router.channelDirty (fun i d => d || decide (h.roomOfSection (i / 9) = r ∧ i % 9 ∈ [])) =
        h.router.channelDirty := tmapIdx_eq_self fun i _ => by simp
    rw [hsame]
    rfl
  | cons k ks ih =>
    have hk : k < 9 := hks k List.mem_cons_self
    have hstep : h.each (k :: ks) (markChannel r) = (h.markChannel r k).each ks (markChannel r) := rfl
    rw [hstep, ih (fun j hj => hks j (List.mem_cons_of_mem _ hj))]
    have hdirty : tmapIdx (h.markChannel r k).router.channelDirty (fun i d =>
          d || decide ((h.markChannel r k).roomOfSection (i / 9) = r ∧ i % 9 ∈ ks)) =
        tmapIdx h.router.channelDirty (fun i d => d || decide (h.roomOfSection (i / 9) = r ∧ i % 9 ∈ k :: ks)) := by
      apply table_ext
      intro i hi
      rw [tget_tmapIdx_of_lt _ _ hi, tget_tmapIdx_of_lt _ _ hi]
      show (tget ((sectionsOf h.part.inForce r).foldl (fun d s => tset d (9 * s + k) true) h.router.channelDirty) i ||
        decide (h.roomOfSection (i / 9) = r ∧ i % 9 ∈ ks)) = _
      have hplace : (∃ s ∈ sectionsOf h.part.inForce r, 9 * s + k = i) ↔ h.roomOfSection (i / 9) = r ∧ i % 9 = k := by
        constructor
        · rintro ⟨s, hs, rfl⟩
          have hdiv : (9 * s + k) / 9 = s := by omega
          have hmod : (9 * s + k) % 9 = k := by omega
          rw [hdiv, hmod]
          exact ⟨(mem_sectionsOf.mp hs).2, rfl⟩
        · rintro ⟨hroom, rfl⟩
          exact ⟨i / 9, mem_sectionsOf.mpr ⟨by omega, hroom⟩, by omega⟩
      rw [tget_foldl_mark (fun s => 9 * s + k) _ _ hi, decide_eq_decide.mpr hplace, Bool.or_assoc, ← Bool.decide_or]
      simp only [← and_or_left, List.mem_cons]
    rw [hdirty]
    rfl

theorem markLanguage_eq (r l : Nat) (h : Hall) :
    h.markLanguage r l = { h with router.channelDirty := h.languageMarks r l } := by
  have hmem : ∀ k < 9, (k ∈ h.channelsOf r l ↔ 1 ≤ k ∧ (h.plan r)[k - 1]? = some l) := fun k hk => by
    simp only [channelsOf, List.mem_filterMap, List.mem_range, Option.ite_none_right_eq_some, Option.some.injEq]
    constructor
    · rintro ⟨i, -, hi, rfl⟩
      exact ⟨by omega, hi⟩
    · rintro ⟨hlow, hi⟩
      exact ⟨k - 1, by omega, hi, by omega⟩
  have hbound : ∀ k ∈ h.channelsOf r l, k < 9 := fun k hk => by
    simp only [channelsOf, List.mem_filterMap, List.mem_range, Option.ite_none_right_eq_some, Option.some.injEq] at hk
    obtain ⟨i, hi, -, rfl⟩ := hk
    omega
  have hmarks : tmapIdx h.router.channelDirty (fun i d => d || decide (h.roomOfSection (i / 9) = r ∧ i % 9 ∈ h.channelsOf r l)) =
      h.languageMarks r l := by
    apply table_ext
    intro i hi
    rw [languageMarks, tget_tmapIdx_of_lt _ _ hi, tget_tmapIdx_of_lt _ _ hi]
    simp only [hmem (i % 9) (Nat.mod_lt _ (by decide))]
  rw [markLanguage, each_markChannel r hbound, hmarks]

theorem markLed_eq (b : Nat) (h : Hall) : h.markLed b = { h with
    router.channelDirty := if (h.boothRun b).assignment = .lead then
      h.languageMarks (h.roomOfBooth b) (h.booth b).language else h.router.channelDirty } := by
  unfold markLed leads
  by_cases hlead : (h.boothRun b).assignment = .lead
  · rw [if_pos (beq_iff_eq.mpr hlead), if_pos hlead, markLanguage_eq]
  · rw [if_neg (fun heq => hlead (beq_iff_eq.mp heq)), if_neg hlead]

/-- The channels above `a` up to `b` are those of the places from `a` on. -/
theorem channelsBetween_eq (a b : Nat) :
    channelsBetween a b = ((List.range b).filter (fun i => decide (a ≤ i))).map (· + 1) := by
  by_cases hab : a ≤ b
  · obtain ⟨n, rfl⟩ := Nat.exists_eq_add_of_le hab
    have hlow : (List.range a).filter (fun i => decide (a ≤ i)) = [] :=
      List.filter_eq_nil_iff.mpr fun i hi => by simpa using List.mem_range.mp hi
    have hhigh : ((List.range n).map (a + ·)).filter (fun i => decide (a ≤ i)) = (List.range n).map (a + ·) :=
      List.filter_eq_self.mpr fun i hi => by
        obtain ⟨j, -, rfl⟩ := List.mem_map.mp hi
        simp
    rw [channelsBetween, List.range_add, List.filter_append, hlow, hhigh, List.nil_append, List.map_map, Nat.add_sub_cancel_left]
    exact List.map_congr_left fun i _ => by simp only [Function.comp]; omega
  · have hnone : (List.range b).filter (fun i => decide (a ≤ i)) = [] :=
      List.filter_eq_nil_iff.mpr fun i hi => by
        have := List.mem_range.mp hi
        simp only [decide_eq_true_eq]
        omega
    rw [channelsBetween, hnone, Nat.sub_eq_zero_of_le (by omega)]
    rfl

theorem each_map {α β : Type} (g : α → β) (xs : List α) (f : β → Hall → Hall) (h : Hall) :
    h.each (xs.map g) f = h.each xs (fun x => f (g x)) := List.foldl_map

theorem planHanded_eq (r : Nat) (h : Hall) : h.planHanded r =
    let held := tget h.slots.planLength r
    let n := (h.plan r).length
    (((h.each ((List.range held).filter (fun i => decide (n ≤ i))) (fun i => releaseClaim (.language r (i + 1)))).each
      ((List.range n).filter (fun i => decide (held ≤ i))) (fun i => makeClaim (.language r (i + 1)))).setPlanLength r n) := by
  simp only [planHanded, channelsBetween_eq, each_map]

end Sys2Proof.Machine.Hall

/-! SUPPORT. A room plan computed again, as the statements say it (R63, R64, R85). -/

namespace Sys2Proof.Machine.Hall

variable {h : Hall}

/-- The rules of floor and Router leave Table Memory and the Partition Unit as they are. -/
def SeatedAs (h g : Hall) : Prop := g.mem = h.mem ∧ g.part = h.part

theorem seated_closed (h : Hall) : ClosedRooms h.SeatedAs where
  post _ _ _ _ _ _ _ hp := hp
  run _ _ _ _ hp := hp
  floor _ _ _ hp := hp
  slot _ _ hp := hp
  mic _ _ _ _ hp := hp
  held _ _ _ _ hp := hp
  notices _ _ _ hp := hp
  slots _ _ _ hp := hp
  plans _ _ hp := hp
  booth _ _ _ hp := hp
  fades _ _ _ _ hp := hp
  sync _ hp := hp

/-- The leads until now, by room and language, go with records and partition. -/
theorem ledNow_of_seated {g : Hall} (hg : h.SeatedAs g) : g.ledNow = fun b => ⟨h.roomOfBooth b, (h.booth b).language⟩ := by
  obtain ⟨hmem, hpart⟩ := hg
  funext b
  simp only [ledNow, roomOfBooth, roomOfSection, booth, boothRecord, hmem, hpart]

/-- The channels whose code changes from one plan to another are marked. -/
theorem each_markChanged (r : Nat) (old new : List Nat) (h : Hall) :
    h.each ((List.range 8).filter (fun i => decide (old[i]? ≠ new[i]?))) (fun i => markChannel r (i + 1)) = { h with
      router.channelDirty := tmapIdx h.router.channelDirty (fun i d =>
        d || decide (h.roomOfSection (i / 9) = r ∧ 1 ≤ i % 9 ∧ old[i % 9 - 1]? ≠ new[i % 9 - 1]?)) } := by
  have hmem : ∀ k < 9, (k ∈ ((List.range 8).filter (fun i => decide (old[i]? ≠ new[i]?))).map (· + 1) ↔
      1 ≤ k ∧ old[k - 1]? ≠ new[k - 1]?) := fun k hk => by
    simp only [List.mem_map, List.mem_filter, List.mem_range, decide_eq_true_eq]
    constructor
    · rintro ⟨i, ⟨-, hi⟩, rfl⟩
      exact ⟨by omega, hi⟩
    · rintro ⟨hlow, hi⟩
      exact ⟨k - 1, ⟨by omega, hi⟩, by omega⟩
  have hbound : ∀ k ∈ ((List.range 8).filter (fun i => decide (old[i]? ≠ new[i]?))).map (· + 1), k < 9 := fun k hk => by
    obtain ⟨i, hi, rfl⟩ := List.mem_map.mp hk
    have := List.mem_range.mp (List.mem_of_mem_filter hi)
    omega
  have hmarks : tmapIdx h.router.channelDirty (fun i d => d || decide (h.roomOfSection (i / 9) = r ∧
        i % 9 ∈ ((List.range 8).filter (fun i => decide (old[i]? ≠ new[i]?))).map (· + 1))) =
      tmapIdx h.router.channelDirty (fun i d =>
        d || decide (h.roomOfSection (i / 9) = r ∧ 1 ≤ i % 9 ∧ old[i % 9 - 1]? ≠ new[i % 9 - 1]?)) := by
    apply table_ext
    intro i hi
    rw [tget_tmapIdx_of_lt _ _ hi, tget_tmapIdx_of_lt _ _ hi]
    simp only [hmem (i % 9) (Nat.mod_lt _ (by decide))]
  rw [← each_map (· + 1) _ (markChannel r), each_markChannel r hbound, hmarks]

/-- Room `r`'s plan is computed, and the notices of the channels whose code changes are marked (R63, R64). -/
def planMarked (r : Nat) (h : Hall) : Hall := { h.computePlan r with
  router.channelDirty := tmapIdx h.router.channelDirty (fun i d =>
    d || decide (h.roomOfSection (i / 9) = r ∧ 1 ≤ i % 9 ∧ (h.plan r)[i % 9 - 1]? ≠ (h.planOf r)[i % 9 - 1]?)) }

theorem planMarked_eq (r : Nat) (h : Hall) : h.planMarked r = { h with
    router.plans := tset h.router.plans r (h.planOf r)
    router.channelDirty := tmapIdx h.router.channelDirty (fun i d =>
      d || decide (h.roomOfSection (i / 9) = r ∧ 1 ≤ i % 9 ∧ (h.plan r)[i % 9 - 1]? ≠ (h.planOf r)[i % 9 - 1]?))
    events := h.eventsAfter (h.dropEvents r) } := by
  rw [planMarked, computePlan_eq]

/-- The room plan of room `r` computed again, where the reads find nothing. -/
theorem replan_eq {rd : Reader} (hidle : rd.Idle) (hm : h.mem.ReadsFindNothing) {r : Nat} (hr : r < 8) : h.replan rd r =
    if h.planOf r = h.plan r then h.computePlan r
    else ((h.planMarked r).planHanded r).evaluate rd (fun b => ⟨h.roomOfBooth b, (h.booth b).language⟩) r := by
  have hplan : (h.computePlan r).plan r = h.planOf r := by
    rw [computePlan_eq]
    exact tget_tset_self _ _ hr
  have hseated : h.SeatedAs (h.planMarked r) := by
    rw [planMarked_eq]
    exact ⟨rfl, rfl⟩
  have hmarked : (h.computePlan r).each ((List.range 8).filter (fun i => decide ((h.plan r)[i]? ≠ (h.planOf r)[i]?)))
      (fun i => markChannel r (i + 1)) = h.planMarked r := by
    rw [each_markChanged, planMarked, computePlan_eq]
    rfl
  have hhanded : h.SeatedAs ((h.planMarked r).planHanded r) := keeps_planHanded (seated_closed h).toClosedSlots hseated
  rw [idle_replan hidle hm, hplan]
  refine if_congr Iff.rfl rfl ?_
  unfold planChanged
  dsimp only
  rw [hplan, hmarked, reassess, ledNow_of_seated hhanded]

/-! ## Claims leave the lengths of the plans handed over -/

@[simp] theorem tellGiven_slots (c : Claim) (i : Nat) (h : Hall) : (h.tellGiven c i).slots = h.slots := by
  cases c <;> simp [tellGiven, tellOutput, tellFeed, markLed_eq]

@[simp] theorem tellReleased_slots (c : Claim) (h : Hall) : (h.tellReleased c).slots = h.slots := by
  cases c <;> simp [tellReleased, tellOutput, tellFeed, markLed_eq]

theorem makeClaim_planLength (c : Claim) (h : Hall) : (h.makeClaim c).slots.planLength = h.slots.planLength := by
  unfold makeClaim
  split
  · rw [tellGiven_slots]
    rfl
  · rfl

theorem servePool_planLength (i : Nat) (h : Hall) : (h.servePool i).slots.planLength = h.slots.planLength := by
  unfold servePool
  split
  · rfl
  · rw [tellGiven_slots]
    rfl

theorem releaseClaim_planLength (c : Claim) (h : Hall) : (h.releaseClaim c).slots.planLength = h.slots.planLength := by
  unfold releaseClaim
  split
  · rw [servePool_planLength, tellReleased_slots]
  · rfl

/-- A plan of length `n` is handed over in room `r` (R85). -/
theorem planHanded_eq_claimed {r n : Nat} (hn : (h.plan r).length = n) : h.planHanded r =
    let held := tget h.slots.planLength r
    let claimed := (h.each ((List.range held).filter (fun i => decide (n ≤ i))) (fun i => releaseClaim (.language r (i + 1)))).each
      ((List.range n).filter (fun i => decide (held ≤ i))) (fun i => makeClaim (.language r (i + 1)))
    { claimed with slots.planLength := tset h.slots.planLength r n } := by
  have hkept : ∀ xs ys : List Nat, ((h.each xs (fun i => releaseClaim (.language r (i + 1)))).each ys
      (fun i => makeClaim (.language r (i + 1)))).slots.planLength = h.slots.planLength := fun xs ys =>
    each_keeps (P := fun g => g.slots.planLength = h.slots.planLength)
      (fun _ g hg => (makeClaim_planLength _ g).trans hg)
      (each_keeps (P := fun g => g.slots.planLength = h.slots.planLength)
        (fun _ g hg => (releaseClaim_planLength _ g).trans hg) rfl)
  rw [planHanded_eq, hn]
  dsimp only
  rw [setPlanLength, hkept]

/-- Room `r`'s plan is computed again as `planTaken` says (R63, R64, R85). -/
theorem replan_eq_planTaken (hm : h.mem.ReadsFindNothing) {r : Nat} (hr : r < 8) : h.replan reader r = h.planTaken r := by
  have hlength : ((h.planMarked r).plan r).length = (h.planOf r).length := by
    rw [planMarked_eq]
    exact congrArg List.length (tget_tset_self _ _ hr)
  rw [replan_eq reader_idle hm hr, planHanded_eq_claimed hlength, computePlan_eq, planMarked_eq]
  rfl

end Sys2Proof.Machine.Hall

/-! SUPPORT. A written booth record, and the relay check, as the statements say them (R60, R66, R68, R70, R73). -/

namespace Sys2Proof.Machine.Hall

variable {h g : Hall}

theorem stateChanged_eq (rd : Reader) (led : Nat → Led) (b : Nat) (e : BoothState) (h : Hall) :
    h.stateChanged rd led b e =
      if h.effective b = e then h
      else if e = .off ∨ h.effective b = .off then
        { h.evaluate rd led (h.roomOfBooth b) with
          router.boothDirty := tset (h.evaluate rd led (h.roomOfBooth b)).router.boothDirty b true }
      else { h with
        router.boothDirty := tset h.router.boothDirty b true
        router.channelDirty := if (h.boothRun b).assignment = .lead then
          h.languageMarks (h.roomOfBooth b) (h.booth b).language else h.router.channelDirty } := by
  unfold stateChanged
  rw [markLed_eq]
  rfl

theorem stateChanged_eq_stateMoved (led : Nat → Led) (b : Nat) (e : BoothState) (h : Hall) :
    h.stateChanged reader led b e = h.stateMoved led b e := by
  rw [stateChanged_eq]
  rfl

/-- A relay in force falls back to FLOOR (R70). -/
theorem loseRelay_eq (b s : Nat) (cause : Byte) (h : Hall) : h.loseRelay b s cause = { h with
    router.booths := tset h.router.booths b { h.boothRun b with relay := .floor }
    router.boothDirty := tset h.router.boothDirty b true
    events := h.events.push h.frameCounter ⟨.relayLost, h.frameCounter, byte b, byte s, cause, 0⟩ } := rfl

theorem relayCheck_eq {rd : Reader} (hr : rd.Idle) (hm : h.mem.ReadsFindNothing) : h.relayCheck rd = h.relaysChecked := by
  have htest : ∀ b (g : Hall), g.Clean → relayCheckOf rd b g = relayTest b g := fun b g hg => idle_relayCheckOf hr hg b
  have hkeeps : ∀ b (g : Hall), g.Clean → (relayTest b g).Clean := fun b g hg => keeps_relayTest clean_closed.toClosedRooms hg
  rw [relayCheck, each_agree boothNumbers htest hkeeps hm, each, relaysChecked]
  congr 1
  funext g b
  unfold relayTest
  cases (g.boothRun b).relay with
  | floor => rfl
  | booth s =>
    simp only [Bool.or_eq_true]
    rfl

theorem roomOfBooth_of_seated (hg : h.SeatedAs g) (b : Nat) : g.roomOfBooth b = h.roomOfBooth b := by
  obtain ⟨hmem, hpart⟩ := hg
  simp only [roomOfBooth, roomOfSection, booth, boothRecord, hmem, hpart]

theorem booth_of_seated (hg : h.SeatedAs g) (b : Nat) : g.booth b = h.booth b := by
  obtain ⟨hmem, -⟩ := hg
  simp only [booth, boothRecord, hmem]

theorem idle_keeps_seated {rd : Reader} (hr : rd.Idle) (hm : h.mem.ReadsFindNothing) : rd.Keeps h.SeatedAs :=
  idle_keeps hr fun _ hg => hg.1 ▸ hm

/-- The channels that a booth led before and leads now are marked where room or language differ (R73). -/
theorem markMovedLead_eq (hg : h.SeatedAs g) (b : Nat) (x : BoothBefore) : g.markMovedLead b x =
    if x.room = h.roomOfBooth b ∧ x.record.language = (h.booth b).language then g
    else
      let left := if x.lead then { g with router.channelDirty := g.languageMarks x.room x.record.language } else g
      if (left.boothRun b).assignment = .lead then
        { left with router.channelDirty := left.languageMarks (h.roomOfBooth b) (h.booth b).language } else left := by
  have hseated : ∀ marks, h.SeatedAs { g with router.channelDirty := marks } := fun _ => hg
  unfold markMovedLead
  rw [roomOfBooth_of_seated hg, booth_of_seated hg, markLanguage_eq]
  refine if_congr Iff.rfl rfl ?_
  have hleft : h.SeatedAs (if x.lead then { g with router.channelDirty := g.languageMarks x.room x.record.language } else g) :=
    keeps_ite (hseated _) hg
  dsimp only
  generalize (if x.lead then { g with router.channelDirty := g.languageMarks x.room x.record.language } else g) = left at hleft ⊢
  rw [markLed_eq, roomOfBooth_of_seated hleft, booth_of_seated hleft]
  split <;> rfl

/-- What follows a written booth record, where the reads find nothing (R60). -/
theorem boothWritten_eq (hm : h.mem.ReadsFindNothing) (led : Nat → Led) (b : Nat) (x : BoothBefore) :
    h.boothWritten reader led b x = h.boothTaken led b x := by
  have hr : reader.Idle := reader_idle
  have hmoved := stateChanged_eq_stateMoved led b x.effective h
  have C := (seated_closed h).toClosedSlots
  unfold boothWritten boothTaken
  rw [← hmoved]
  generalize reader = rd at hr ⊢
  have K := idle_keeps_seated hr hm
  have hstate : h.SeatedAs (h.stateChanged rd led b x.effective) := keeps_stateChanged C K ⟨rfl, rfl⟩
  have hchecked : h.SeatedAs ((h.stateChanged rd led b x.effective).relayCheck rd) := keeps_relayCheck (seated_closed h) K hstate
  have hfirst : h.SeatedAs (((h.stateChanged rd led b x.effective).relayCheck rd).evaluate rd led x.room) :=
    keeps_evaluate C K hchecked
  dsimp only
  rw [← relayCheck_eq hr (hstate.1 ▸ hm)]
  generalize ((h.stateChanged rd led b x.effective).relayCheck rd).evaluate rd led x.room = first at hfirst ⊢
  rw [roomOfBooth_of_seated hfirst]
  have hsecond : h.SeatedAs (if h.roomOfBooth b = x.room then first else first.evaluate rd led (h.roomOfBooth b)) :=
    keeps_ite hfirst (keeps_evaluate C K hfirst)
  generalize (if h.roomOfBooth b = x.room then first else first.evaluate rd led (h.roomOfBooth b)) = second at hsecond ⊢
  rw [markMovedLead_eq hsecond]
  exact if_congr and_assoc.symm rfl rfl

end Sys2Proof.Machine.Hall

/-! SUPPORT. The rules do not see the supervision window (R143), which a command's answer restarts, nor, but for those that hand
a plan over, the lengths of the plans handed over (R85). Each operation is gone through once. -/

namespace Sys2Proof.Machine.Hall

/-- The hall with another supervision window and, where `pl` says so, other lengths of the plans handed over. -/
def veiled (w : Nat) (pl : Option (Vector Nat 8)) (h : Hall) : Hall :=
  { h with cmd.supervision.window := w, slots.planLength := pl.getD h.slots.planLength }

/-- The operation acts alike on the veiled hall. -/
def Blind (w : Nat) (pl : Option (Vector Nat 8)) (f : Hall → Hall) : Prop := ∀ h, f (h.veiled w pl) = (f h).veiled w pl

/-- What is looked up in the hall is the same in the veiled hall. -/
def Unseen (w : Nat) (pl : Option (Vector Nat 8)) {α : Type} (d : Hall → α) : Prop := ∀ h, d (h.veiled w pl) = d h

variable {w : Nat} {pl : Option (Vector Nat 8)} {f g : Hall → Hall}

theorem Blind.then (hf : Blind w pl f) (hg : Blind w pl g) : Blind w pl (fun h => g (f h)) := fun h =>
  (congrArg g (hf h)).trans (hg (f h))

/-- An operation that acts by what is looked up. -/
theorem Blind.by {α : Type} (d : Hall → α) {k : α → Hall → Hall} (hd : Unseen w pl d) (hk : ∀ a, Blind w pl (k a)) :
    Blind w pl (fun h => k (d h) h) := fun h =>
  (congrArg (fun a => k a (h.veiled w pl)) (hd h)).trans (hk (d h) h)

theorem Blind.ite {c : Hall → Prop} {_ : ∀ h, Decidable (c h)} (hc : ∀ h, c (h.veiled w pl) ↔ c h) (hf : Blind w pl f)
    (hg : Blind w pl g) : Blind w pl (fun h => if c h then f h else g h) := fun h => by
  show (if c (h.veiled w pl) then f (h.veiled w pl) else g (h.veiled w pl)) = (if c h then f h else g h).veiled w pl
  by_cases hh : c h
  · rw [if_pos hh, if_pos ((hc h).mpr hh), hf]
  · rw [if_neg hh, if_neg (fun hv => hh ((hc h).mp hv)), hg]

theorem Blind.each {α : Type} {k : α → Hall → Hall} (hk : ∀ a, Blind w pl (k a)) (l : List α) :
    Blind w pl (fun h => h.each l k) := fun h => by
  show (h.veiled w pl).each l k = (h.each l k).veiled w pl
  unfold Hall.each
  induction l generalizing h with
  | nil => rfl
  | cons a l ih => rw [List.foldl_cons, List.foldl_cons, hk a h, ih]

theorem Blind.id : Blind w pl (fun h => h) := fun _ => rfl

section floor

theorem blind_setRun (u : Nat) (x : DelegateRun → DelegateRun) : Blind w pl (setRun u x) := fun _ => rfl
theorem blind_setQueue (r : Nat) (q : List Nat) : Blind w pl (setQueue r q) := fun _ => rfl
theorem blind_setGap (r : Nat) (x : Option Nat) : Blind w pl (setGap r x) := fun _ => rfl
theorem blind_setMic (k : Nat) (x : Option Nat) : Blind w pl (setMic k x) := fun _ => rfl
theorem blind_setMicTarget (k a : Nat) : Blind w pl (setMicTarget k a) := fun _ => rfl
theorem blind_mark (u : Nat) : Blind w pl (mark u) := fun _ => rfl
theorem blind_post (k : EventKind) (a b c d : Byte) : Blind w pl (post k a b c d) := fun _ => rfl
theorem blind_poolGive (k : Nat) : Blind w pl (poolGive k) := fun _ => rfl
theorem blind_leaveChairs (u : Nat) : Blind w pl (leaveChairs u) := fun _ => rfl
theorem blind_indicate (i : Indication) (u : Nat) : Blind w pl (indicate i u) := fun _ => rfl

theorem blind_signal (i : Option Indication) (u : Nat) : Blind w pl (signal i u) := by
  cases i with
  | none => exact blind_mark u
  | some i => exact blind_indicate i u

theorem blind_leaveQueue (u : Nat) : Blind w pl (leaveQueue u) :=
  Blind.by (fun h => (h.roomOfUnit u, h.queue (h.roomOfUnit u)))
    (k := fun x h => if u ∈ x.2 then ((h.setQueue x.1 (x.2.erase u)).poolGive 1).each (x.2.drop (x.2.idxOf u + 1)) mark else h)
    (fun _ => rfl) fun x => .ite (fun _ => Iff.rfl)
      ((blind_setQueue x.1 (x.2.erase u)).then ((blind_poolGive 1).then (.each blind_mark _))) .id

theorem blind_drop (i : Option Indication) (u : Nat) : Blind w pl (drop i u) :=
  (blind_leaveQueue u).then ((blind_setRun u _).then (blind_signal i u))

theorem blind_dropChair (i : Option Indication) (u : Nat) : Blind w pl (dropChair i u) :=
  (blind_leaveChairs u).then ((blind_setRun u _).then (blind_signal i u))

theorem blind_aimMic (u a : Nat) : Blind w pl (aimMic u a) :=
  Blind.by (fun h => (h.run u).slot) (k := fun o h => match o with | none => h | some k => h.setMicTarget k a)
    (fun _ => rfl) fun o => by
      cases o with
      | none => exact .id
      | some k => exact blind_setMicTarget k a

theorem blind_releaseMic (u : Nat) : Blind w pl (releaseMic u) :=
  Blind.by (fun h => (h.run u).slot) (k := fun o h => match o with | none => h | some k => h.setMic k none)
    (fun _ => rfl) fun o => by
      cases o with
      | none => exact .id
      | some k => exact blind_setMic k none

theorem blind_endHold (u : Nat) : Blind w pl (endHold u) := (blind_releaseMic u).then (blind_setRun u _)

/-- A grant: the runtime part carries the frame counter of the grant. -/
theorem blind_grant (u : Nat) : Blind w pl (grant u) :=
  Blind.by (fun h => (h.freeMic, h.frameCounter)) (k := fun x h => match x.1 with
      | none => h
      | some k => (((((h.leaveQueue u).leaveChairs u).setMic k (some u)).setMicTarget k Config.mute).setRun u
        (fun d => { d with
          state := .granting, slot := some k, grantId := d.grantId + 1, attempts := 1, requestTs := none,
          grantTs := some x.2, window := none, reason := none })).mark u)
    (fun _ => rfl) fun x => by
      cases x.1 with
      | none => exact .id
      | some k =>
        exact (blind_leaveQueue u).then ((blind_leaveChairs u).then ((blind_setMic k _).then ((blind_setMicTarget k _).then
          ((blind_setRun u _).then (blind_mark u)))))

theorem blind_closeOne (c : CloseReason) (u : Nat) : Blind w pl (closeOne c u) :=
  Blind.by (fun h => (h.run u).state) (k := fun x h => match x with
      | .granting => (h.endHold u).signal c.indication u
      | .speaking =>
        ((h.aimMic u Config.mute).setRun u (fun d => { d with state := .closing, reason := some c })).signal c.indication u
      | _ => h)
    (fun _ => rfl) fun x => by
      cases x with
      | granting => exact (blind_endHold u).then (blind_signal _ u)
      | speaking => exact (blind_aimMic u _).then ((blind_setRun u _).then (blind_signal _ u))
      | _ => exact .id

theorem blind_aimSpeakers (r : Nat) : Blind w pl (aimSpeakers r) :=
  Blind.by (fun h => (h.speakers r, fun u => (h.loaded u).trim))
    (k := fun x h => h.each x.1 (fun u g => g.aimMic u (speakingTarget (x.2 u) x.1.length)))
    (fun _ => rfl) fun _ => .each (fun _ => blind_aimMic _ _) _

/-- Reads that do nothing do nothing in a series. -/
theorem blind_readAll {read : Nat → Hall → Hall} (hread : ∀ n, Blind w pl (read n)) (ns : List Nat) :
    Blind w pl (fun h => h.readAll read ns) := Blind.each hread ns

theorem blind_recomputeMics (r : Nat) : Blind w pl (recomputeMics .still r) :=
  Blind.by (fun h => h.speakers r) (k := fun us h => (h.readAll Reader.still.delegate us).aimSpeakers r)
    (fun _ => rfl) fun us => (blind_readAll (fun _ => .id) us).then (blind_aimSpeakers r)

theorem blind_closeAll (c : CloseReason) (us : List Nat) : Blind w pl (closeAll .still c us) :=
  Blind.by (fun h => h.roomsOf (us.filter h.isSpeaking)) (k := fun rs h => (h.each us (closeOne c)).each rs (recomputeMics .still))
    (fun _ => rfl) fun rs => (Blind.each (blind_closeOne c) us).then (.each blind_recomputeMics rs)

theorem blind_serviceLoop (r n : Nat) : Blind w pl (serviceLoop .still r n) := by
  induction n with
  | zero => exact .id
  | succ n ih =>
    exact Blind.by (fun h => (h.queue r, h.canServe r))
      (k := fun x h => match x.1 with
        | [] => h
        | u :: _ => if x.2 then
            serviceLoop .still r n (if h.canServe r && (h.queue r).head? == some u then h.grant u else h) else h)
      (fun _ => rfl) fun x => by
        cases x.1 with
        | nil => exact .id
        | cons u q =>
          exact .ite (fun _ => Iff.rfl) (Blind.then (.ite (fun _ => Iff.rfl) (blind_grant u) .id) ih) .id

theorem blind_service (r : Nat) : Blind w pl (service .still r) :=
  .ite (fun _ => Iff.rfl) (Blind.by (fun h => (h.queue r).length) (k := fun n h => serviceLoop .still r n h)
    (fun _ => rfl) (blind_serviceLoop r)) .id

theorem blind_gapTest (r : Nat) : Blind w pl (gapTest .still r) :=
  Blind.by (fun h => (h.settings r).gap) (k := fun n h =>
      if 0 < n ∧ h.queue r ≠ [] ∧ h.gap r = none then h.setGap r (some (10 * n)) else h)
    (fun _ => rfl) fun _ => .ite (fun _ => Iff.rfl) (blind_setGap r _) .id

theorem blind_serveChairs (n : Nat) : Blind w pl (serveChairs .still n) := by
  induction n with
  | zero => exact .id
  | succ n ih =>
    exact Blind.by (fun h => (h.floor.chairs, h.micFree))
      (k := fun x h => match x.1 with
        | [] => h
        | c :: _ => if x.2 then
            serveChairs .still n (if h.micFree && h.floor.chairs.head? == some c then h.grant c else h) else h)
      (fun _ => rfl) fun x => by
        cases x.1 with
        | nil => exact .id
        | cons u q =>
          exact .ite (fun _ => Iff.rfl) (Blind.then (.ite (fun _ => Iff.rfl) (blind_grant u) .id) ih) .id

theorem blind_serveRooms : Blind w pl (serveRooms .still) :=
  .ite (fun _ => Iff.rfl) (Blind.by (fun h => h.rooms.filter (fun r => !(h.queue r).isEmpty))
    (k := fun rs h => (h.readAll Reader.still.settings rs).each (h.readAll Reader.still.settings rs).roomsToServe (service .still))
    (fun _ => rfl) fun rs => (blind_readAll (fun _ => .id) rs).then
      (Blind.by roomsToServe (k := fun xs h => h.each xs (service .still)) (fun _ => rfl) (.each blind_service))) .id

theorem blind_arbiterRun : Blind w pl (arbiterRun .still) :=
  Blind.by (fun h => h.floor.chairs.length) (k := fun n h => (serveChairs .still n h).serveRooms .still)
    (fun _ => rfl) fun n => (blind_serveChairs n).then blind_serveRooms

theorem blind_arbiterRuns (n : Nat) : Blind w pl (arbiterRuns .still n) := by
  induction n with
  | zero => exact .id
  | succ n ih => exact blind_arbiterRun.then ih

theorem blind_consequences (gaps : Bool) (freed : List Nat) (slots : Nat) : Blind w pl (consequences .still gaps freed slots) := by
  have htested : Blind w pl (fun h => if gaps then h.each freed (gapTest .still) else h) :=
    .ite (fun _ => Iff.rfl) (.each blind_gapTest freed) .id
  exact htested.then ((blind_arbiterRuns slots).then (.each blind_service freed))

theorem blind_closeWithConsequences (c : CloseReason) (gaps : Bool) (us : List Nat) :
    Blind w pl (closeWithConsequences .still c gaps us) :=
  Blind.by (fun h => (h.roomsFreed us, h.slotsFreed us))
    (k := fun x h => (h.closeAll .still c us).consequences .still gaps x.1 x.2)
    (fun _ => rfl) fun x => (blind_closeAll c us).then (blind_consequences gaps x.1 x.2)

theorem blind_dropQueue (r : Nat) : Blind w pl (dropQueue .still r) :=
  Blind.by (fun h => h.queue r) (k := fun q h =>
      (h.readAll Reader.still.delegate q).each ((h.readAll Reader.still.delegate q).queue r) (drop (some .dropped)))
    (fun _ => rfl) fun q => (blind_readAll (fun _ => .id) q).then
      (Blind.by (fun h => h.queue r) (k := fun us h => h.each us (drop (some .dropped))) (fun _ => rfl) (.each (blind_drop _)))

theorem blind_cutQueue (r : Nat) : Blind w pl (cutQueue .still r) :=
  Blind.by (fun h => h.beyondLimit r) (k := fun q h =>
      (h.readAll Reader.still.delegate q).each ((h.readAll Reader.still.delegate q).beyondLimit r) (drop (some .dropped)))
    (fun _ => rfl) fun q => (blind_readAll (fun _ => .id) q).then
      (Blind.by (fun h => h.beyondLimit r) (k := fun us h => h.each us (drop (some .dropped))) (fun _ => rfl)
        (.each (blind_drop _)))

theorem blind_readPositions (r : Nat) : Blind w pl (readPositions .still r) :=
  Blind.by (fun h => h.positionHolders r) (k := fun us h => h.readAll Reader.still.delegate us) (fun _ => rfl)
    (blind_readAll fun _ => .id)

theorem blind_closeExcess (r : Nat) : Blind w pl (closeExcess .still r) :=
  (blind_readPositions r).then (Blind.by (fun h => h.excess r)
    (k := fun us h => if us = [] then h else h.closeWithConsequences .still .resize true us) (fun _ => rfl)
    fun us => .ite (fun _ => Iff.rfl) .id (blind_closeWithConsequences _ _ us))

theorem blind_settingsChanged (s : Nat) (old : Settings) : Blind w pl (settingsChanged .still s old) := by
  have hended : Blind w pl (fun h => if keepsQueue old.floorMode && !keepsQueue (h.settings s).floorMode then
      (h.dropQueue .still s).setGap s none else h) :=
    .ite (fun _ => Iff.rfl) ((blind_dropQueue s).then (blind_setGap s none)) .id
  have hacted := hended.then ((blind_cutQueue s).then ((blind_closeExcess s).then (blind_service s)))
  exact .ite (c := fun h => isRoomId h.part.inForce s = true) (fun _ => Iff.rfl) hacted .id

/-! ## Speaking time -/

theorem blind_postTime (k : EventKind) (u n limit : Nat) : Blind w pl (postTime k u n limit) := fun _ => rfl

theorem blind_warn (u limit lead : Nat) : Blind w pl (warn u limit lead) :=
  Blind.by (fun h => ((h.run u).seconds, (h.run u).warned)) (k := fun x h =>
      if 0 < lead ∧ x.2 = false ∧ limit - lead ≤ x.1 ∧ x.1 < limit then
        ((h.setRun u (fun d => { d with warned := true })).indicate .timeWarning u).postTime .timeWarning u x.1 limit
      else h)
    (fun _ => rfl) fun x => .ite (fun _ => Iff.rfl)
      ((blind_setRun u _).then ((blind_indicate _ u).then (blind_postTime _ u x.1 limit))) .id

theorem blind_timeUp (u limit : Nat) (tell : Bool) : Blind w pl (timeUp .still u limit tell) :=
  .ite (fun _ => Iff.rfl) (Blind.by (fun h => (h.timeAction u, (h.run u).seconds)) (k := fun x h => match x.1 with
      | .close => h.closeWithConsequences .still .timeUp true [u]
      | .warnOnly => if tell then (h.indicate .timeUp u).postTime .timeUp u x.2 limit else h)
    (fun _ => rfl) fun x => by
      cases x.1 with
      | close => exact blind_closeWithConsequences _ _ _
      | warnOnly => exact .ite (fun _ => Iff.rfl) ((blind_indicate _ u).then (blind_postTime _ u x.2 limit)) .id) .id

theorem blind_limitChanged (u : Nat) : Blind w pl (limitChanged .still u) := by
  have hread : Blind w pl (fun h => if h.isSpeaking u then Reader.still.timeClass (h.loaded u).timeClass h else h) :=
    .ite (fun _ => Iff.rfl) .id .id
  have htold (l : TimeClass) (n : Nat) :
      Blind w pl (setRun u (fun d => { d with warned := if l.limit = 0 ∨ n < l.limit - l.lead then false else d.warned })) :=
    blind_setRun u _
  have htested (x : TimeClass × Nat) : Blind w pl (fun h =>
      if h.isTimed u then
        if x.1.limit = 0 then h.setRun u (fun d => { d with
          warned := if x.1.limit = 0 ∨ x.2 < x.1.limit - x.1.lead then false else d.warned })
        else if x.1.limit ≤ x.2 then (h.setRun u (fun d => { d with
          warned := if x.1.limit = 0 ∨ x.2 < x.1.limit - x.1.lead then false else d.warned })).timeUp .still u x.1.limit true
        else (h.setRun u (fun d => { d with
          warned := if x.1.limit = 0 ∨ x.2 < x.1.limit - x.1.lead then false else d.warned })).warn u x.1.limit x.1.lead
      else h) :=
    .ite (fun _ => Iff.rfl) (.ite (fun _ => Iff.rfl) (htold _ _) (.ite (fun _ => Iff.rfl)
      ((htold _ _).then (blind_timeUp u _ true)) ((htold _ _).then (blind_warn u _ _)))) .id
  have hlooked := Blind.by (fun h => (h.timeClass (h.loaded u).timeClass, (h.run u).seconds)) (fun _ => rfl) htested
  exact .ite (c := fun h => (h.known u && !h.isChair u) = true) (fun _ => Iff.rfl)
    ((blind_mark u).then (hread.then hlooked)) .id

theorem blind_classChanged (k : Nat) (old : TimeClass) : Blind w pl (classChanged .still k old) :=
  .ite (fun _ => Iff.rfl) .id (Blind.by
    (fun h => units.filter (fun u => (h.record u).value.present && (h.loaded u).timeClass == k))
    (k := fun us h => h.each us (limitChanged .still)) (fun _ => rfl) (.each blind_limitChanged))

end floor

end Sys2Proof.Machine.Hall

/-! SUPPORT. The rules that do not see the supervision window, continued: regrouping, pool, Router and partition. -/

namespace Sys2Proof.Machine.Hall

variable {w : Nat} {pl : Option (Vector Nat 8)} {f g : Hall → Hall}

/-! ## The pool and the Router's claims -/

theorem blind_markBooth (b : Nat) : Blind w pl (markBooth b) := fun _ => rfl
theorem blind_markChannel (r k : Nat) : Blind w pl (markChannel r k) := fun _ => rfl
theorem blind_markSection (s : Nat) : Blind w pl (markSection s) := fun _ => rfl
theorem blind_setBoothRun (b : Nat) (x : BoothRun → BoothRun) : Blind w pl (setBoothRun b x) := fun _ => rfl
theorem blind_setPool (i : Nat) (c : Option Claim) : Blind w pl (setPool i c) := fun _ => rfl
theorem blind_wait (c : Claim) : Blind w pl (wait c) := fun _ => rfl
theorem blind_unwait (c : Claim) : Blind w pl (unwait c) := fun _ => rfl

theorem blind_markLanguage (r l : Nat) : Blind w pl (markLanguage r l) :=
  Blind.by (fun h => h.channelsOf r l) (k := fun ks h => each ks (markChannel r) h) (fun _ => rfl) (.each (blind_markChannel r))

theorem blind_markLed (b : Nat) : Blind w pl (markLed b) :=
  .ite (fun _ => Iff.rfl) (Blind.by (fun h => (h.roomOfBooth b, (h.booth b).language))
    (k := fun x h => h.markLanguage x.1 x.2) (fun _ => rfl) fun x => blind_markLanguage x.1 x.2) .id

theorem blind_tellOutput (b : Nat) (slot : Option Nat) : Blind w pl (tellOutput b slot) :=
  (blind_setBoothRun b _).then ((blind_markBooth b).then (blind_markLed b))

theorem blind_tellFeed (b : Nat) (slot : Option Nat) : Blind w pl (tellFeed b slot) :=
  (blind_setBoothRun b _).then (blind_markBooth b)

theorem blind_tellGiven (c : Claim) (i : Nat) : Blind w pl (tellGiven c i) := by
  cases c with
  | leadOut b => exact blind_tellOutput b _
  | language r k => exact blind_markChannel r k
  | feed b => exact blind_tellFeed b _
  | spareOut b => exact blind_tellOutput b _

theorem blind_tellReleased (c : Claim) : Blind w pl (tellReleased c) := by
  cases c with
  | leadOut b => exact blind_tellOutput b _
  | language r k => exact .id
  | feed b => exact blind_tellFeed b _
  | spareOut b => exact blind_tellOutput b _

theorem blind_makeClaim (c : Claim) : Blind w pl (makeClaim c) :=
  Blind.by freePool (k := fun o h => match o with
      | some i => (h.setPool i (some c)).tellGiven c i
      | none => (h.wait c).post .claimWaiting c.classCode c.keyByte 0 0)
    (fun _ => rfl) fun o => by
      cases o with
      | none => exact (blind_wait c).then (blind_post _ _ _ _ _)
      | some i => exact (blind_setPool i _).then (blind_tellGiven c i)

theorem blind_servePool (i : Nat) : Blind w pl (servePool i) :=
  Blind.by (fun h => h.slots.waitList) (k := fun l h => match l with
      | [] => h.setPool i none
      | x :: _ => (((h.unwait x).setPool i (some x)).post .claimServed x.classCode x.keyByte (byte (40 + i)) 0).tellGiven x i)
    (fun _ => rfl) fun l => by
      cases l with
      | nil => exact blind_setPool i none
      | cons x l => exact (blind_unwait x).then ((blind_setPool i _).then ((blind_post _ _ _ _ _).then (blind_tellGiven x i)))

theorem blind_releaseClaim (c : Claim) : Blind w pl (releaseClaim c) :=
  Blind.by (fun h => h.heldAt c) (k := fun o h => match o with
      | some i => (h.tellReleased c).servePool i
      | none => h.unwait c)
    (fun _ => rfl) fun o => by
      cases o with
      | none => exact blind_unwait c
      | some i => exact (blind_tellReleased c).then (blind_servePool i)

theorem blind_reclass (a b : Claim) : Blind w pl (reclass a b) :=
  Blind.by (fun h => h.heldAt a) (k := fun o h => match o with
      | some i => h.setPool i (some b)
      | none => if a ∈ h.slots.waitList then (h.unwait a).wait b else h)
    (fun _ => rfl) fun o => by
      cases o with
      | none => exact .ite (fun _ => Iff.rfl) ((blind_unwait a).then (blind_wait b)) .id
      | some i => exact blind_setPool i _

theorem blind_claimBooth (b : Nat) : Blind w pl (claimBooth b) :=
  Blind.by (fun h => (h.boothRun b).assignment) (k := fun x h => (h.makeClaim (outputClaim x b)).makeClaim (.feed b))
    (fun _ => rfl) fun _ => (blind_makeClaim _).then (blind_makeClaim _)

theorem blind_releaseBooth (b : Nat) : Blind w pl (releaseBooth b) := fun h => by
  rw [releaseBooth, releaseBooth, blind_releaseClaim, blind_releaseClaim, blind_releaseClaim]

/-! ## Assignments -/

theorem blind_hold (x : Reassigned) : Blind w pl (hold x) := (blind_setBoothRun x.booth _).then (blind_markBooth x.booth)

theorem blind_leadLeft (r b : Nat) (led : Led) : Blind w pl (leadLeft r b led) :=
  .ite (fun _ => Iff.rfl) ((blind_post _ _ _ _ _).then (blind_markLanguage r _)) (blind_post _ _ _ _ _)

theorem blind_leadEntered (r b : Nat) : Blind w pl (leadEntered r b) :=
  Blind.by (fun h => (h.booth b).language) (k := fun l h =>
      (h.post .leadChanged (byte b) (byte r) (byte l) 1).markLanguage r l) (fun _ => rfl)
    fun l => (blind_post _ _ _ _ _).then (blind_markLanguage r l)

theorem blind_readBooths : Blind w pl (readBooths .still) := blind_readAll (fun _ => .id) _

theorem blind_evaluate (led : Nat → Led) (r : Nat) : Blind w pl (evaluate .still led r) := by
  have hacted (xs : List Reassigned) : Blind w pl (fun h =>
      (((((h.each xs hold).each (xs.filter (·.old == .lead)) (fun x => leadLeft r x.booth (led x.booth))).each
        (xs.filter (·.new == .lead)) (fun x => leadEntered r x.booth)).each
        (xs.filter (fun x => x.old != .none && x.new != .none))
          (fun x => reclass (outputClaim x.old x.booth) (outputClaim x.new x.booth))).each
        (xs.filter (·.new == .none)) (fun x => releaseBooth x.booth)).each
        (xs.filter (·.old == .none)) (fun x => claimBooth x.booth)) :=
    (Blind.each blind_hold xs).then ((Blind.each (fun _ => blind_leadLeft _ _ _) _).then
      ((Blind.each (fun _ => blind_leadEntered _ _) _).then ((Blind.each (fun _ => blind_reclass _ _) _).then
        ((Blind.each (fun _ => blind_releaseBooth _) _).then (.each (fun _ => blind_claimBooth _) _)))))
  exact blind_readBooths.then (Blind.by (fun h => h.reassigned r) (fun _ => rfl) hacted)

theorem blind_reassess (r : Nat) : Blind w pl (reassess .still r) :=
  Blind.by ledNow (k := fun led h => h.evaluate .still led r) (fun _ => rfl) fun led => blind_evaluate led r

theorem blind_stateChanged (led : Nat → Led) (b : Nat) (old : BoothState) : Blind w pl (stateChanged .still led b old) :=
  .ite (fun _ => Iff.rfl) .id (.ite (fun _ => Iff.rfl)
    (Blind.then (Blind.by (fun h => h.roomOfBooth b) (k := fun r h => h.evaluate .still led r) (fun _ => rfl)
      (blind_evaluate led)) (blind_markBooth b))
    ((blind_markLed b).then (blind_markBooth b)))

/-! ## Relays -/

theorem blind_loseRelay (b s : Nat) (x : Byte) : Blind w pl (loseRelay b s x) := fun _ => rfl

theorem blind_relayTest (b : Nat) : Blind w pl (relayTest b) :=
  Blind.by (fun h => (h.boothRun b).relay) (k := fun x h => match x with
      | .floor => h
      | .booth s =>
        if h.roomOfBooth s ≠ h.roomOfBooth b then h.loseRelay b s 0
        else if (h.boothRecord s).damaged || (h.boothRecord b).damaged then h.loseRelay b s 1
        else h)
    (fun _ => rfl) fun x => by
      cases x with
      | floor => exact .id
      | booth s =>
        exact .ite (fun _ => Iff.rfl) (blind_loseRelay b s 0) (.ite (fun _ => Iff.rfl) (blind_loseRelay b s 1) .id)

theorem blind_relayCheckOf (b : Nat) : Blind w pl (relayCheckOf .still b) :=
  Blind.by (fun h => (h.boothRun b).relay) (k := fun x h => match x with
      | .floor => h
      | .booth _ => h.relayTest b)
    (fun _ => rfl) fun x => by
      cases x with
      | floor => exact .id
      | booth s => exact blind_relayTest b

theorem blind_relayCheck : Blind w pl (relayCheck .still) := Blind.each blind_relayCheckOf _

theorem blind_markMovedLead (b : Nat) (x : BoothBefore) : Blind w pl (markMovedLead b x) := by
  have hleft : Blind w pl (fun h => if x.lead then h.markLanguage x.room x.record.language else h) :=
    .ite (fun _ => Iff.rfl) (blind_markLanguage _ _) .id
  exact .ite (fun _ => Iff.rfl) .id (hleft.then (blind_markLed b))

theorem blind_boothWritten (led : Nat → Led) (b : Nat) (x : BoothBefore) : Blind w pl (boothWritten .still led b x) := by
  have hmoved : Blind w pl (fun h => if h.roomOfBooth b = x.room then h else h.evaluate .still led (h.roomOfBooth b)) :=
    .ite (fun _ => Iff.rfl) .id (Blind.by (fun h => h.roomOfBooth b) (k := fun r h => h.evaluate .still led r) (fun _ => rfl)
      (blind_evaluate led))
  have hacted := (blind_stateChanged (w := w) (pl := pl) led b x.effective).then (blind_relayCheck.then
    ((blind_evaluate led x.room).then (hmoved.then ((blind_markMovedLead b x).then (blind_markBooth b)))))
  exact .ite (fun _ => Iff.rfl) .id hacted

/-! ## Room plans: these see the lengths of the plans handed over -/

theorem planOf_veiled (r : Nat) (h : Hall) : (h.veiled w pl).planOf r = h.planOf r := by
  have hplans : (h.veiled w pl).homePlan = h.homePlan := rfl
  have hpart : (h.veiled w pl).part = h.part := rfl
  rw [planOf, planOf, hplans, hpart]

theorem dropEvents_veiled (r : Nat) (h : Hall) : (h.veiled w pl).dropEvents r = h.dropEvents r := by
  have hplans : (h.veiled w pl).homePlan = h.homePlan := rfl
  have hpart : (h.veiled w pl).part = h.part := rfl
  have hclock : (h.veiled w pl).frameCounter = h.frameCounter := rfl
  rw [dropEvents, dropEvents, codesCut, codesCut, hplans, hpart, hclock]

theorem blind_computePlan (r : Nat) : Blind w pl (computePlan r) := fun h => by
  rw [computePlan_eq, computePlan_eq, planOf_veiled, dropEvents_veiled]
  rfl

theorem blind_setPlanLength (r k : Nat) : Blind w none (setPlanLength r k) := fun _ => rfl

theorem blind_planHanded (r : Nat) : Blind w none (planHanded r) := by
  have hreleased (ks : List Nat) : Blind w none (fun h => h.each ks (fun c => releaseClaim (.language r c))) :=
    .each (fun _ => blind_releaseClaim _) ks
  have hclaimed (ks : List Nat) : Blind w none (fun h => h.each ks (fun c => makeClaim (.language r c))) :=
    .each (fun _ => blind_makeClaim _) ks
  have hacted (a b : Nat) := (hreleased (channelsBetween b a)).then ((hclaimed (channelsBetween a b)).then (blind_setPlanLength r b))
  exact Blind.by (fun h => (tget h.slots.planLength r, (h.plan r).length)) (fun _ => rfl) (fun x => hacted x.1 x.2)

theorem blind_claimLanguages (r : Nat) : Blind w pl (fun h => h.each (channelsBetween 0 (h.plan r).length)
    (fun c => makeClaim (.language r c))) :=
  Blind.by (fun h => (h.plan r).length) (k := fun k h => h.each (channelsBetween 0 k) (fun c => makeClaim (.language r c)))
    (fun _ => rfl) fun _ => .each (fun _ => blind_makeClaim _) _

theorem blind_planChanged (r : Nat) (old : List Nat) : Blind w none (planChanged .still r old) := by
  have hmarked (xs : List Nat) : Blind w none (fun h => h.each xs (fun i => markChannel r (i + 1))) :=
    .each (fun _ => blind_markChannel _ _) xs
  have hacted (xs : List Nat) := (hmarked xs).then ((blind_planHanded r).then (blind_reassess r))
  intro h
  have hplan : (h.veiled w none).plan r = h.plan r := rfl
  unfold planChanged
  dsimp only
  rw [hplan]
  exact hacted _ h

theorem blind_replan (r : Nat) : Blind w none (replan .still r) := by
  have hchanged (old : List Nat) : Blind w none (fun h => if h.plan r = old then h else h.planChanged .still r old) :=
    .ite (fun _ => Iff.rfl) .id (blind_planChanged r old)
  have hread : Blind w none (readPlans .still r) :=
    Blind.by (fun h => sectionsOf h.part.inForce r) (k := fun ss h => h.readAll Reader.still.plan ss) (fun _ => rfl)
      (blind_readAll fun _ => .id)
  exact hread.then (Blind.by (fun h => h.plan r) (fun _ => rfl) fun old => (blind_computePlan r).then (hchanged old))

end Sys2Proof.Machine.Hall

/-! SUPPORT. The rules that do not see the supervision window, continued: the partition change event, the start test, entry into
STOPPING. -/

namespace Sys2Proof.Machine.Hall

variable {w : Nat} {pl : Option (Vector Nat 8)}

theorem blind_setPartition (p : Partition) : Blind w pl (setPartition p) := fun _ => rfl

/-! ## The floor at the partition change event -/

theorem blind_gatherQueue (r : Nat) : Blind w pl (gatherQueue r) := fun _ => rfl

theorem blind_trimQueue (r : Nat) : Blind w pl (trimQueue .still r) := by
  have hended : Blind w pl (fun h => if keepsQueue (h.settings r).floorMode then h else h.dropQueue .still r) :=
    .ite (fun _ => Iff.rfl) .id (blind_dropQueue r)
  intro h
  have hread : ∀ g : Hall, Reader.still.settings r g = g := fun _ => rfl
  rw [trimQueue, trimQueue, hread, hread, blind_cutQueue]
  exact hended _

theorem blind_readQueue (r : Nat) : Blind w pl (fun h => h.readAll Reader.still.delegate (h.queue r)) :=
  Blind.by (fun h => h.queue r) (k := fun us h => h.readAll Reader.still.delegate us) (fun _ => rfl) (blind_readAll fun _ => .id)

theorem blind_regroup (old : Partition) (before : Nat → Nat) : Blind w pl (regroup .still old before) := by
  have hemptied (rs : List Nat) : Blind w pl (fun h => h.each rs (fun r h => h.setQueue r [])) :=
    .each (fun r => blind_setQueue r []) rs
  have hmarked : Blind w pl (fun h => h.each (units.filter (fun u => before u != h.queuePosition u)) mark) :=
    Blind.by (fun h => h.queuePosition) (k := fun q h => h.each (units.filter (fun u => before u != q u)) mark) (fun _ => rfl)
      fun _ => .each blind_mark _
  have hstopped (rs : List Nat) : Blind w pl (fun h => h.each rs (fun r h => h.setGap r none)) :=
    .each (fun r => blind_setGap r none) rs
  have hclosed (rs : List Nat) : Blind w pl (fun h =>
      (h.closeAll .still .resize (rs.flatMap h.excess)).arbiterRuns .still (h.slotsFreed (rs.flatMap h.excess))) :=
    Blind.by (fun h => (rs.flatMap h.excess, h.slotsFreed (rs.flatMap h.excess)))
      (k := fun x h => (h.closeAll .still .resize x.1).arbiterRuns .still x.2) (fun _ => rfl)
      fun x => (blind_closeAll _ x.1).then (blind_arbiterRuns x.2)
  have hserved (rs : List Nat) : Blind w pl (fun h => h.each (h.oldestHeadFirst rs) (service .still)) :=
    Blind.by (fun h => h.oldestHeadFirst rs) (k := fun xs h => h.each xs (service .still)) (fun _ => rfl) (.each blind_service)
  have hall (changed rs : List Nat) := (hemptied changed).then ((Blind.each (blind_gatherQueue (w := w) (pl := pl)) rs).then
    ((Blind.each (k := fun r h => h.readAll Reader.still.delegate (h.queue r)) blind_readQueue rs).then
      ((Blind.each blind_trimQueue rs).then (hmarked.then ((hstopped changed).then
        ((Blind.each blind_readPositions rs).then ((hclosed rs).then (hserved rs))))))))
  exact Blind.by (fun h => h.part.inForce) (fun _ => rfl) fun new =>
    hall (changedRooms old new) ((roomIds new).filter (fun r => !unchangedRoom new old r))

/-! ## The Router at the partition change event -/

theorem blind_regroupClaims (gone new : List Nat) : Blind w none (regroupClaims gone new) := by
  have hwaits : Blind w none (fun h =>
      { h with slots.waitList := h.slots.waitList.filter (fun c => !languageOf gone c) }) := fun _ => rfl
  have hreleased : Blind w none (fun h => h.each (h.heldLanguages gone) releaseClaim) :=
    Blind.by (fun h => h.heldLanguages gone) (k := fun cs h => h.each cs releaseClaim) (fun _ => rfl) (.each blind_releaseClaim)
  have hlengths : Blind w none (fun h => h.each gone (fun r => setPlanLength r 0)) := .each (fun r => blind_setPlanLength r 0) _
  have hclaimed (r : Nat) : Blind w none (claimLanguages r) := by
    have hset (k : Nat) := (Blind.each (w := w) (pl := none) (k := fun c => makeClaim (.language r c)) (fun _ => blind_makeClaim _)
      (channelsBetween 0 k)).then (blind_setPlanLength r k)
    exact Blind.by (fun h => (h.plan r).length) (fun _ => rfl) hset
  exact hwaits.then (hreleased.then (hlengths.then (.each hclaimed new)))

theorem blind_regroupRouter (old : Partition) : Blind w none (regroupRouter .still old) := by
  have hplans (gone : List Nat) : Blind w none (fun h => h.each (gone.filter (fun r => !isRoomId h.part.inForce r))
      (fun r h => { h with router.plans := tset h.router.plans r [] })) :=
    Blind.by (fun h => h.part.inForce)
      (k := fun p h => h.each (gone.filter (fun r => !isRoomId p r))
        (fun r h => { h with router.plans := tset h.router.plans r [] }))
      (fun _ => rfl) fun _ => Blind.each (k := fun r (h : Hall) => { h with router.plans := tset h.router.plans r [] })
        (fun _ _ => rfl) _
  have hread : ∀ r, Blind w none (readPlans .still r) := fun r =>
    Blind.by (fun h => sectionsOf h.part.inForce r) (k := fun ss h => h.readAll Reader.still.plan ss) (fun _ => rfl)
      (blind_readAll fun _ => .id)
  have hnew (r : Nat) : Blind w none (planNewRoom .still r) := (hread r).then (blind_computePlan r)
  have hnotices (moved : List Nat) : Blind w none (fun h =>
      h.each (boothNumbers.filter (fun b => moved.contains (h.booth b).home)) markBooth) :=
    Blind.by (fun h => h.booth) (k := fun x h => h.each (boothNumbers.filter (fun b => moved.contains (x b).home)) markBooth)
      (fun _ => rfl) fun _ => .each blind_markBooth _
  have hall (gone rs moved : List Nat) :=
    (blind_readBooths (w := w) (pl := none)).then ((hplans gone).then
      ((Blind.each hnew rs).then ((blind_regroupClaims (gone ++ rs.filter (fun r => !gone.contains r)) rs).then
        (blind_relayCheck.then ((Blind.each blind_reassess rs).then
          ((hnotices moved).then (Blind.each blind_markSection moved)))))))
  intro h
  have hnewRooms : (h.veiled w none).newRooms old = h.newRooms old := rfl
  have hpart : (h.veiled w none).part = h.part := rfl
  unfold regroupRouter
  dsimp only
  rw [hnewRooms, hpart]
  exact hall _ _ _ h

/-! ## The Mix Engine -/

theorem blind_setRoomFades (a r : Nat) : Blind w pl (setRoomFades a r) := fun _ => rfl

theorem blind_fadeRooms (a : Nat) (rs : List Nat) : Blind w pl (fadeRooms a rs) :=
  (Blind.each (blind_setRoomFades a) rs).then (g := syncBoothFades) (fun _ => rfl)

theorem blind_regroupMix (old : Partition) : Blind w pl (regroupMix .still old) := by
  have hmics : Blind w pl (fun h => h.each h.rooms (recomputeMics .still)) :=
    Blind.by rooms (k := fun rs h => h.each rs (recomputeMics .still)) (fun _ => rfl) (.each blind_recomputeMics)
  have hgone : Blind w pl (fun h => h.fadeRooms Config.mute ((roomIds old).filter (fun r => !isRoomId h.part.inForce r))) :=
    Blind.by (fun h => h.part.inForce)
      (k := fun p h => h.fadeRooms Config.mute ((roomIds old).filter (fun r => !isRoomId p r))) (fun _ => rfl)
      fun _ => blind_fadeRooms _ _
  exact hmics.then hgone

theorem blind_changePartition (p : Partition) : Blind w none (changePartition .still p) := by
  have hacted (old : Partition) (before : Nat → Nat) :=
    (blind_setPartition (w := w) (pl := none) p).then ((blind_regroup old before).then ((blind_regroupRouter old).then
      (Blind.then (f := setFloorSlots) (fun _ => rfl) (blind_regroupMix old))))
  exact Blind.by (fun h => (h.part.inForce, h.queuePosition)) (fun _ => rfl) fun x => hacted x.1 x.2

/-! ## The start test -/

theorem blind_setRepartition (x : Repartition) : Blind w pl (setRepartition x) := fun _ => rfl

theorem blind_startRepartition : Blind w pl startRepartition := by
  have hacted (p target : Partition) := (blind_setRepartition (w := w) (pl := pl) (.fadingOut target (changedSections p target))).then
    ((blind_fadeRooms Config.mute (changedRooms p target)).then (blind_post .repartitionStarted 0 (wallMap p) (wallMap target)
      (sectionMap (changedSections p target))))
  exact Blind.by (fun h => (h.part.inForce, h.part.effective)) (fun _ => rfl) fun x => hacted x.1 x.2

theorem blind_changeAtOnce : Blind w none (changeAtOnce .still) := by
  have hacted (p old : Partition) := (blind_changePartition (w := w) p).then (blind_post .repartitionDone 0 (wallMap p) 1
    (sectionMap (changedSections old p)))
  exact Blind.by (fun h => (h.part.effective, h.part.inForce)) (fun _ => rfl) fun x => hacted x.1 x.2

theorem blind_startTest : Blind w none (startTest .still) := fun h => by
  have hpart : (h.veiled w none).part = h.part := rfl
  have hcmd : (h.veiled w none).cmd.mode = h.cmd.mode := rfl
  unfold startTest
  rw [hpart, hcmd]
  by_cases hwaits : h.part.effective = h.part.inForce ∨ h.part.repartition ≠ .idle
  · rw [if_pos hwaits, if_pos hwaits]
  · rw [if_neg hwaits, if_neg hwaits]
    cases hmode : h.cmd.mode with
    | live => exact blind_startRepartition h
    | safe => exact blind_startRepartition h
    | config => exact blind_changeAtOnce h
    | stopping => rfl

theorem blind_computeWalls : Blind w none (computeWalls .still) := by
  have hread : Blind w none (fun h => h.readAll Reader.still.override (List.range 7)) := blind_readAll (fun _ => .id) _
  have hset : Blind w none (fun h => (h.setEffective h.wallsNow).startTest .still) :=
    Blind.by wallsNow (k := fun p h => (h.setEffective p).startTest .still) (fun _ => rfl)
      fun p => Blind.then (f := setEffective p) (fun _ => rfl) blind_startTest
  have htested : Blind w none (fun h => if h.wallsNow = h.part.effective then h else (h.setEffective h.wallsNow).startTest .still) :=
    .ite (fun _ => Iff.rfl) .id hset
  exact hread.then htested

/-! ## Entry into STOPPING -/

theorem blind_dropChairs (i : Indication) : Blind w pl (dropChairs .still i (fun _ _ => true)) := by
  have hdropped : Blind w pl (fun h => h.each (h.floor.chairs.filter (fun _ => true)) (dropChair (some i))) :=
    Blind.by (fun h => h.floor.chairs.filter (fun _ => true)) (k := fun us h => h.each us (dropChair (some i)))
      (fun _ => rfl) (.each (blind_dropChair _))
  have hread : Blind w pl (fun h => h.readAll Reader.still.delegate (h.floor.chairs.filter (fun _ => true))) :=
    Blind.by (fun h => h.floor.chairs.filter (fun _ => true)) (k := fun us h => h.readAll Reader.still.delegate us)
      (fun _ => rfl) (blind_readAll fun _ => .id)
  exact hread.then hdropped

/-- The units that pass are the same. -/
theorem filter_unseen {p : Hall → Nat → Bool} (hp : ∀ h u, p (h.veiled w pl) u = p h u) :
    Unseen w pl (fun h => units.filter (p h)) := fun h => congrArg (units.filter ·) (funext (hp h))

theorem blind_readHolders : Blind w pl (readHolders .still (fun _ _ => true)) :=
  Blind.by (fun h => units.filter (fun u => h.onFloor u && true)) (k := fun us h => h.readAll Reader.still.delegate us)
    (filter_unseen (p := fun h u => h.onFloor u && true) fun _ _ => rfl) (blind_readAll fun _ => .id)

theorem blind_closeHolders : Blind w pl (fun h => h.closeWithConsequences .still .stopping false (units.filter h.onFloor)) :=
  Blind.by (fun h => units.filter h.onFloor) (k := fun us h => h.closeWithConsequences .still .stopping false us)
    (filter_unseen (p := fun h => h.onFloor) fun _ _ => rfl) (blind_closeWithConsequences _ _)

theorem blind_closeFloor : Blind w pl (closeFloor .still) := by
  have hqueues : Blind w pl (fun h => h.each h.rooms (dropQueue .still)) :=
    Blind.by rooms (k := fun rs h => h.each rs (dropQueue .still)) (fun _ => rfl) (.each blind_dropQueue)
  have hgaps : Blind w pl (fun h => h.each sections (fun r h => h.setGap r none)) := .each (fun r => blind_setGap r none) _
  have hall := hqueues.then (hgaps.then (blind_readHolders.then blind_closeHolders))
  intro h
  unfold closeFloor
  dsimp only
  rw [blind_dropChairs .denied h]
  exact hall _

theorem blind_enterStopping : Blind w pl (enterStopping .still) :=
  fun h => by
  have hmode : (h.veiled w pl).setMode .stopping = (h.setMode .stopping).veiled w pl := rfl
  rw [enterStopping, enterStopping, hmode, blind_closeFloor, blind_fadeRooms]

end Sys2Proof.Machine.Hall

/-! SUPPORT. O23: SET SECTION FLOOR (R13, R39), the order of the position holders beyond max speakers (R38), and the row of a
command whose rule does not see the supervision window. -/

namespace Sys2Proof.Machine

/-! ## The row of a command whose rule does not see the window (R143) -/

/-- An operation that does not see the window with reads that do nothing does not see it where reads find nothing. -/
theorem Hall.reader_veiled {f : Reader → Hall → Hall} {w : Nat} {h : Hall} (hm : h.Clean)
    (hstill : ∀ g : Hall, g.Clean → f reader g = f .still g) (hblind : Hall.Blind w none (f .still)) :
    f reader (h.veiled w none) = (f reader h).veiled w none := by
  rw [hstill _ hm, hstill (h.veiled w none) hm, hblind]

/-- The answer restarts the window, whatever it was. -/
theorem Chip.answered_veiled (c : Chip) (g : Hall) (w : Nat) (hd : Hdr) (a : Answer) :
    { c with hall := g.veiled w none }.answered hd a = { c with hall := g }.answered hd a := rfl

/-! ## Written records are sound (R153) -/

theorem mem_tset {α : Type} {n : Nat} {t : Vector α n} {i : Nat} {a p : α} (hp : p ∈ tset t i a) : p ∈ t ∨ p = a := by
  rw [← Vector.mem_toList_iff] at hp ⊢
  exact List.mem_or_eq_of_mem_set hp

theorem finding_tset {α : Type} {n : Nat} {t : Vector (Protected α) n} {i : Nat} {v : α} (ht : ∀ p ∈ t, p.finding = .none) :
    ∀ p ∈ tset t i (fresh v), p.finding = .none := fun p hp => by
  obtain hp | rfl := mem_tset hp
  · exact ht p hp
  · rfl

namespace Hall

variable {h : Hall}

theorem writeSettings_clean (hm : h.Clean) (s : Nat) (v : Settings) : (h.writeSettings s v).Clean := by
  obtain ⟨hdelegates, hsettings, hplans, hbooths, hclasses, hoverrides⟩ := hm
  exact ⟨hdelegates, finding_tset hsettings, hplans, hbooths, hclasses, hoverrides⟩

theorem writePlan_clean (hm : h.Clean) (s : Nat) (v : List Nat) : (h.writePlan s v).Clean := by
  obtain ⟨hdelegates, hsettings, hplans, hbooths, hclasses, hoverrides⟩ := hm
  exact ⟨hdelegates, hsettings, finding_tset hplans, hbooths, hclasses, hoverrides⟩

theorem writeBooth_clean (hm : h.Clean) (b : Nat) (v : Booth) : (h.writeBooth b v).Clean := by
  obtain ⟨hdelegates, hsettings, hplans, hbooths, hclasses, hoverrides⟩ := hm
  exact ⟨hdelegates, hsettings, hplans, finding_tset hbooths, hclasses, hoverrides⟩

theorem writeClass_clean (hm : h.Clean) (k : Nat) (v : TimeClass) : (h.writeClass k v).Clean := by
  obtain ⟨hdelegates, hsettings, hplans, hbooths, hclasses, hoverrides⟩ := hm
  exact ⟨hdelegates, hsettings, hplans, hbooths, finding_tset hclasses, hoverrides⟩

theorem writeOverride_clean (hm : h.Clean) (w : Nat) (v : Override) : (h.writeOverride w v).Clean := by
  obtain ⟨hdelegates, hsettings, hplans, hbooths, hclasses, hoverrides⟩ := hm
  exact ⟨hdelegates, hsettings, hplans, hbooths, hclasses, finding_tset hoverrides⟩

/-! ## The position holders beyond max speakers (R38) -/

theorem insertBy_congr {α : Type} {f g : α → α → Bool} {x : α} {l : List α} (hfg : ∀ y ∈ l, f x y = g x y) :
    insertBy f x l = insertBy g x l := by
  induction l with
  | nil => rfl
  | cons y l ih =>
    rw [insertBy, insertBy, hfg y List.mem_cons_self, ih fun z hz => hfg z (List.mem_cons_of_mem y hz)]

theorem sortBy_congr {α : Type} {f g : α → α → Bool} {l : List α} (hfg : ∀ x ∈ l, ∀ y ∈ l, f x y = g x y) :
    sortBy f l = sortBy g l := by
  induction l with
  | nil => rfl
  | cons x l ih =>
    rw [sortBy, sortBy, ih fun y hy z hz => hfg y (List.mem_cons_of_mem x hy) z (List.mem_cons_of_mem x hz)]
    exact insertBy_congr fun y hy =>
      hfg x List.mem_cons_self y (List.mem_cons_of_mem x ((sortBy_perm l).mem_iff.mp hy))

/-- The order of R38: GRANTING before the others, then the newer grant, then the higher address. -/
def Newer (h : Hall) (a b : Nat) : Prop :=
  ((h.run a).state = .granting ∧ (h.run b).state ≠ .granting) ∨
    (((h.run a).state = .granting ↔ (h.run b).state = .granting) ∧
      (h.age (h.grantKey a).1 < h.age (h.grantKey b).1 ∨ (h.age (h.grantKey a).1 = h.age (h.grantKey b).1 ∧ b ≤ a)))

theorem mem_positionHolders {r u : Nat} (hu : u ∈ h.positionHolders r) :
    (h.run u).state = .granting ∨ (h.run u).state = .speaking := by
  have htakes := (List.mem_filter.mp hu).2
  simp only [takesPosition, Bool.and_eq_true] at htakes
  exact onFloor_iff.mp htakes.1.1

theorem sorted_positionHolders (h : Hall) (r : Nat) : (sortBy h.moreRecent (h.positionHolders r)).Pairwise h.Newer := by
  have htotal : sortBy h.moreRecent (h.positionHolders r) = sortBy (fun a b =>
      if (h.run a).state = .granting ↔ (h.run b).state = .granting then h.older (h.grantKey b) (h.grantKey a)
      else (h.run a).state == .granting) (h.positionHolders r) :=
    sortBy_congr fun a ha b hb => by
      have hsame : ((h.run a).state = .granting ↔ (h.run b).state = .granting) ↔ (h.run a).state = (h.run b).state := by
        obtain ha | ha := mem_positionHolders ha <;> obtain hb | hb := mem_positionHolders hb <;> simp [ha, hb]
      exact (if_congr hsame rfl rfl).symm
  rw [htotal]
  refine sortBy_pairwise (fun a b c hab hbc => ?_) (fun a b hab => ?_) (fun a b hab => ?_) _
  · unfold Newer at *
    grind
  · have hkey : ∀ u, (h.grantKey u).2 = u := fun _ => rfl
    unfold Newer
    split at hab
    · next hsame =>
      have hold := older_iff.mp hab
      rw [hkey, hkey] at hold
      exact .inr ⟨hsame, by omega⟩
    · next hdiff =>
      have hgranting := beq_iff_eq.mp hab
      exact .inl ⟨hgranting, fun hb => hdiff (iff_of_true hgranting hb)⟩
  · have hkey : ∀ u, (h.grantKey u).2 = u := fun _ => rfl
    unfold Newer
    split at hab
    · next hsame =>
      have hold := mt older_iff.mpr (Bool.eq_false_iff.mp hab)
      rw [hkey, hkey] at hold
      exact .inr ⟨hsame.symm, by omega⟩
    · next hdiff =>
      have hother : (h.run a).state ≠ .granting := by simpa using hab
      exact .inl ⟨Classical.byContradiction fun hb => hdiff (iff_of_false hother hb), hother⟩

theorem older_of_newer {r u v : Nat} (hv : v ∈ h.positionHolders r) (hu : u ∈ h.positionHolders r) (hne : u ≠ v)
    (hnewer : h.Newer u v) :
    (if (h.run v).state = (h.run u).state then h.older (h.grantKey v) (h.grantKey u) else (h.run v).state == .speaking) = true := by
  have hkey : ∀ u, (h.grantKey u).2 = u := fun _ => rfl
  have hholdsU := mem_positionHolders hu
  have hholdsV := mem_positionHolders hv
  unfold Newer at hnewer
  split
  · next hsame =>
    rw [older_iff, hkey, hkey]
    rw [hsame] at hnewer
    obtain ⟨ha, hb⟩ | ⟨-, hage⟩ := hnewer
    · exact absurd ha hb
    · omega
  · grind

theorem nodup_positionHolders (h : Hall) (r : Nat) : (h.positionHolders r).Nodup := by
  have hunits : units.Nodup := List.Nodup.map (fun _ _ => Nat.succ.inj) List.nodup_range
  exact hunits.filter _

/-- The excess are the first of the position holders, the newest first. -/
theorem excess_spec (h : Hall) (r : Nat) :
    let us := h.excess r
    let older := fun (u v : Nat) =>
      if (h.run u).state = (h.run v).state then h.older (h.grantKey u) (h.grantKey v) else (h.run u).state == .speaking
    us.length = (h.positionHolders r).length - (h.settings r).maxSpeakers ∧ us.Nodup ∧
    (∀ u ∈ us, u ∈ h.positionHolders r) ∧ (∀ u ∈ us, ∀ v ∈ h.positionHolders r, v ∉ us → older v u = true) ∧
    ∀ (i j : Nat), i < j → ∀ u ∈ us[i]?, ∀ v ∈ us[j]?, older v u = true := by
  intro us older
  have hperm := sortBy_perm (before := h.moreRecent) (h.positionHolders r)
  have hsorted := sorted_positionHolders h r
  have hnodup := hperm.nodup_iff.mpr (nodup_positionHolders h r)
  have hus : us = (sortBy h.moreRecent (h.positionHolders r)).take
    ((h.positionHolders r).length - (h.settings r).maxSpeakers) := rfl
  generalize sortBy h.moreRecent (h.positionHolders r) = l at hperm hsorted hnodup hus
  generalize (h.settings r).maxSpeakers = n at hus ⊢
  have hmem : ∀ u ∈ us, u ∈ h.positionHolders r := fun u hu => hperm.mem_iff.mp (List.mem_of_mem_take (hus ▸ hu))
  have hsub : us.Sublist l := hus ▸ List.take_sublist _ _
  refine ⟨?_, hnodup.sublist hsub, hmem, fun u hu v hv hout => ?_, fun i j hij u hu v hv => ?_⟩
  · rw [hus, List.length_take, hperm.length_eq]
    omega
  · have hrest : v ∈ l.drop ((h.positionHolders r).length - n) := by
      have hl := hperm.mem_iff.mpr hv
      rw [← List.take_append_drop ((h.positionHolders r).length - n) l, List.mem_append, ← hus] at hl
      exact hl.resolve_left hout
    rw [← List.take_append_drop ((h.positionHolders r).length - n) l, ← hus, List.pairwise_append] at hsorted
    exact older_of_newer hv (hmem u hu) (fun he => hout (he ▸ hu)) (hsorted.2.2 u hu v hrest)
  · obtain ⟨hi, rfl⟩ := List.getElem?_eq_some_iff.mp hu
    obtain ⟨hj, rfl⟩ := List.getElem?_eq_some_iff.mp hv
    refine older_of_newer (hmem _ (List.getElem_mem hj)) (hmem _ (List.getElem_mem hi)) (fun he => ?_)
      (List.pairwise_iff_getElem.mp (hsorted.sublist hsub) i j hi hj hij)
    exact Nat.ne_of_lt hij ((hnodup.sublist hsub).getElem_inj_iff.mp he)

/-! ## SET SECTION FLOOR (R13) -/

theorem setSectionFloor_eq (hm : h.Clean) (s mode speakers limit gap chair time : Nat) :
    h.setSectionFloor reader s mode speakers limit gap chair time =
      let new := { h.settings s with
        floorMode := floorModeOf mode, maxSpeakers := max 1 (min 8 speakers), queueLimit := max 1 (min 32 limit), gap := min gap 50
        chairPolicy := chairPolicyOf chair, timeAction := timeActionOf time }
      if 7 < s then (h, .check .fieldOutOfRange 1)
      else if 3 < mode then (h, .check .fieldOutOfRange 2)
      else if 1 < chair then (h, .check .fieldOutOfRange 6)
      else if 1 < time then (h, .check .fieldOutOfRange 7)
      else ((h.writeSettings s new).settingsChanged reader s (h.settings s),
        if speakers ≠ max 1 (min 8 speakers) then .good .adjusted 3 {}
        else if limit ≠ max 1 (min 32 limit) then .good .adjusted 4 {}
        else if gap ≠ min gap 50 then .good .adjusted 5 {}
        else .good .none 0 {}) := by
  unfold setSectionFloor
  rw [idle_settings reader_idle hm]
  simp only [fieldAbove_cons, fieldAbove_nil, goodWrite_cons, goodWrite_nil, ne_eq, ite_not,
    clampTo_eq (show 1 ≤ 8 by decide), clampTo_eq (show 1 ≤ 32 by decide)]
  generalize reader = rd
  split_ifs <;> rfl

end Hall

end Sys2Proof.Machine

/-! SUPPORT. O23: the row of SET SECTION FLOOR. -/

namespace Sys2Proof.Machine

theorem floorModeOf_toNat {mode : Byte} (hmode : mode.toNat ≤ 3) : floorModeOf mode.toNat =
    if mode = 0 then .openFloor else if mode = 1 then .queue else if mode = 2 then .override else .operator := by
  have hcase : mode.toNat = 0 ∨ mode.toNat = 1 ∨ mode.toNat = 2 ∨ mode.toNat = 3 := by omega
  obtain hn | hn | hn | hn := hcase <;> simp [BitVec.toNat_eq, hn, floorModeOf]

theorem chairPolicyOf_toNat {chair : Byte} (hchair : chair.toNat ≤ 1) :
    chairPolicyOf chair.toNat = if chair = 0 then .muteOnly else .clearAll := by
  have hcase : chair.toNat = 0 ∨ chair.toNat = 1 := by omega
  obtain hn | hn := hcase <;> simp [BitVec.toNat_eq, hn, chairPolicyOf]

theorem timeActionOf_toNat {time : Byte} (htime : time.toNat ≤ 1) :
    timeActionOf time.toNat = if time = 0 then .warnOnly else .close := by
  have hcase : time.toNat = 0 ∨ time.toNat = 1 := by omega
  obtain hn | hn := hcase <;> simp [BitVec.toNat_eq, hn, timeActionOf]

/-- The row of a taken command whose rule does not see the window. -/
theorem Chip.commandRow_of_veiled {hd : Hdr} {x : Command} {c : Chip} {f : Hall → Hall × Answer} (hr : c.Ready)
    (hs : x.spelled = true) (ht : Command.taken c.hall.cmd.mode x = true) (he : x ≠ .engineReset)
    (hx : c.restartWindow.run reader x = c.restartWindow.onHall f)
    (hf : ∀ w, f (c.hall.veiled w none) = (f c.hall).map (Hall.veiled w none) id) :
    c.commandRow hd x = { c with hall := (f c.hall).1 }.answered hd (f c.hall).2 := by
  have hrestarted : f c.restartWindow.hall = (f c.hall).map (Hall.veiled (10 * c.hall.cmd.supervision.timeout) none) id := hf _
  rw [commandRow_of_rule hr hs ht he hx, hrestarted]
  exact c.answered_veiled _ _ _ _

theorem Chip.commandRow_of_veiled_notSafe {hd : Hdr} {x : Command} {c : Chip} {f : Hall → Hall × Answer} (hr : c.Ready)
    (hs : x.spelled = true) (ht : ∀ m, Command.taken m x = (m != .safe)) (he : x ≠ .engineReset)
    (hx : c.restartWindow.run reader x = c.restartWindow.onHall f)
    (hf : ∀ w, f (c.hall.veiled w none) = (f c.hall).map (Hall.veiled w none) id) :
    c.commandRow hd x = if c.hall.cmd.mode = .safe then c.answered hd (.check .wrongMode 3)
      else { c with hall := (f c.hall).1 }.answered hd (f c.hall).2 := by
  by_cases hsafe : c.hall.cmd.mode = .safe
  · rw [if_pos hsafe, commandRow_of_wrongMode hr hs (by rw [ht, hsafe]; rfl), hsafe]
    rfl
  · rw [if_neg hsafe]
    exact commandRow_of_veiled hr hs ((ht _).trans (bne_iff_ne.mpr hsafe)) he hx hf

namespace Hall

variable {h : Hall}

theorem settingsChanged_veiled (hm : h.Clean) (s : Nat) (old : Settings) (w : Nat) :
    (h.veiled w none).settingsChanged reader s old = (h.settingsChanged reader s old).veiled w none :=
  reader_veiled (f := fun rd => settingsChanged rd s old) hm (fun _ hg => settingsChanged_still reader_idle hg)
    (blind_settingsChanged s old)

theorem setSectionFloor_veiled (hm : h.Clean) (s mode speakers limit gap chair time w : Nat) :
    (h.veiled w none).setSectionFloor reader s mode speakers limit gap chair time =
      (h.setSectionFloor reader s mode speakers limit gap chair time).map (veiled w none) id := by
  rw [setSectionFloor_eq hm, setSectionFloor_eq (h := h.veiled w none) hm]
  dsimp only
  have hacted (v : Settings) := settingsChanged_veiled (h.writeSettings_clean hm s v) s (h.settings s) w
  have hwritten (v : Settings) : (h.veiled w none).writeSettings s v = (h.writeSettings s v).veiled w none := rfl
  have hsettings : (h.veiled w none).settings s = h.settings s := rfl
  rw [hsettings, hwritten, hacted]
  generalize reader = rd
  split_ifs <;> rfl

theorem settingsTaken_sameBeyondFloor (hm : h.Clean) (r : Nat) (old : Settings) : h.SameBeyondFloor (h.settingsTaken r old) := by
  rw [← settingsChanged_eq hm]
  exact keeps_settingsChanged h.sameBeyondFloor_closed (reader_keeps_sameBeyondFloor hm) h.sameBeyondFloor_refl

end Hall

/-- Settles O23: the command is taken outside SAFE, its rule is `Hall.setSectionFloor_eq`, what follows the write is
`Hall.settingsTaken`, and the excess is sorted by `Hall.Newer`. -/
theorem setSectionFloorWrites : Obligations.SetSectionFloorWrites := by
  refine ⟨fun s hd sect mode speakers limit gap chair time hr hm => ?_, Hall.excess_spec⟩
  intro c h x q g good new written fails
  rw [exec_of_command (x := .setSectionFloor sect mode speakers limit gap chair time) rfl,
    Chip.commandRow_of_veiled_notSafe (x := .setSectionFloor sect mode speakers limit gap chair time) hr rfl (fun _ => rfl)
      nofun rfl (fun w => Hall.setSectionFloor_veiled hm _ _ _ _ _ _ _ w), Hall.setSectionFloor_eq (h := s.chip.hall) hm]
  refine ⟨fun hfails => ?_, fun htaken => ?_⟩
  · congr 2
    by_cases hsafe : h.cmd.mode = .safe
    · rw [if_pos hsafe, if_pos hsafe]
    · have hfield := hfails.resolve_left hsafe
      rw [if_neg hsafe, if_neg hsafe]
      split_ifs
      · rfl
      · rfl
      · rfl
      · rfl
      all_goals omega
  · obtain ⟨hsafe, hrest⟩ := not_or.mp htaken
    have hsect : ¬ 7 < sect.toNat := by omega
    have hmode : ¬ 3 < mode.toNat := by omega
    have hchair : ¬ 1 < chair.toNat := by omega
    have htime : ¬ 1 < time.toNat := by omega
    have hclean := h.writeSettings_clean hm sect.toNat new
    have hwritten : h.writeSettings sect.toNat new = written := rfl
    rw [hwritten] at hclean
    refine ⟨_, ?_, Hall.settingsTaken_sameBeyondFloor hclean sect.toNat (h.settings sect.toNat), rfl⟩
    rw [if_neg hsafe, if_neg hsect, if_neg hmode, if_neg hchair, if_neg htime, ← Hall.settingsChanged_eq hclean,
      floorModeOf_toNat (by omega), chairPolicyOf_toNat (by omega), timeActionOf_toNat (by omega), Nat.min_comm gap.toNat 50]
    rfl

end Sys2Proof.Machine

/-! SUPPORT. O16: SET TIME CLASS (R54) and the test of a unit whose class has changed (R57). -/

namespace Sys2Proof.Machine

namespace Hall

variable {h : Hall} {u : Nat}

/-! ## The unit's mark and test (R57) -/

theorem mark_of_unknown (hknown : h.known u = false) : h.mark u = h := by
  rw [mark, hknown]
  rfl

theorem limitChanged_eq (hm : h.Clean) (u : Nat) : h.limitChanged reader u =
    let l := h.timeClass (h.loaded u).timeClass
    let n := (h.run u).seconds
    let tested := (h.mark u).setRun u (fun d => { d with warned := if l.limit = 0 ∨ n < l.limit - l.lead then false else d.warned })
    if h.known u && !h.isChair u then
      if h.isTimed u then
        if l.limit = 0 then tested else if l.limit ≤ n then tested.timeUp reader u l.limit true else tested.warn u l.limit l.lead
      else h.mark u
    else h := by
  unfold limitChanged
  rw [idle_delegate reader_idle hm]
  dsimp only
  rw [idle_timeClass reader_idle (h := h.mark u) hm, ite_self]
  rfl

/-- The unit's runtime part after the test, in full (R57). -/
theorem limitChanged_cases (hm : h.mem.ReadsFindNothing) (hu : u ∈ units) :
    let d := h.run u
    let l := h.timeClass (h.loaded u).timeClass
    let marks := tset h.floor.dirty (u - 1) true
    let x := { d with warned := if l.limit = 0 ∨ d.seconds < l.limit - l.lead then false else d.warned }
    let tested := { h with floor.dirty := marks, floor.runs := tset h.floor.runs (u - 1) x }
    let told := fun (i : Indication) (k : EventKind) (y : DelegateRun) =>
      let detail := min d.seconds 4095 * 4096 + l.limit
      { tested with
        floor.runs := tset h.floor.runs (u - 1) { y with indication := some i }
        events := h.events.push h.frameCounter
          ⟨k, h.frameCounter, byte u, byte (detail / 65536), byte (detail / 256), byte detail⟩ }
    l.limit < 4096 → h.limitChanged reader u =
      if h.known u = false ∨ h.isChair u = true then h
      else if d.state ≠ .speaking then { h with floor.dirty := marks }
      else if l.limit = 0 then tested
      else if d.seconds < l.limit then
        if 0 < l.lead ∧ x.warned = false ∧ l.limit - l.lead ≤ d.seconds then
          told .timeWarning .timeWarning { x with warned := true }
        else tested
      else if (h.settings (h.roomOfUnit u)).timeAction = .close then
        tested.closeWithConsequences reader .timeUp true [u]
      else told .timeUp .timeUp x := by
  intro d l marks x tested told hlimit
  rw [limitChanged_eq hm]
  by_cases hout : h.known u = false ∨ h.isChair u = true
  · rw [if_pos hout]
    refine if_neg ?_
    grind
  obtain ⟨hknown, hchair⟩ := not_or.mp hout
  have hact : (h.known u && !h.isChair u) = true := by grind
  rw [if_neg hout]
  refine (if_pos hact).trans ?_
  have hmark := mark_of_known hu (Bool.eq_true_of_not_eq_false hknown)
  obtain ⟨hindex, hlt, -⟩ := unitIndex_of_mem hu
  by_cases hspeaking : d.state = .speaking
  · have htimed : h.isTimed u = true := isTimed_iff.mpr ⟨hspeaking, Bool.eq_false_iff.mpr hchair⟩
    have htested : (h.mark u).setRun u (fun d => { d with
        warned := if l.limit = 0 ∨ (h.run u).seconds < l.limit - l.lead then false else d.warned }) = tested := by
      rw [setRun_eq hu, hmark]
      rfl
    have hrun : tested.run u = x := by
      show tget (tset h.floor.runs (u - 1) x) (unitIndex u) = x
      rw [hindex, tget_tset_self _ _ hlt]
    have htold : ∀ i k f, tested.toldTime i k u l.limit f = told i k (f x) := by
      intro i k f
      have hseconds : x.seconds = d.seconds := rfl
      have hknows : tested.known u = true := Bool.eq_true_of_not_eq_false hknown
      have hruns (y : DelegateRun) : tset tested.floor.runs (u - 1) y = tset h.floor.runs (u - 1) y := tset_tset _ _ _ _
      have hdirty : tset tested.floor.dirty (u - 1) true = marks := tset_tset _ _ _ _
      rw [toldTime, hrun, hseconds, hindex, if_pos hknows, hdirty]
      dsimp only
      rw [hruns]
    rw [if_neg (not_not.mpr hspeaking)]
    refine (if_pos htimed).trans ?_
    refine if_congr Iff.rfl htested ?_
    by_cases hunder : d.seconds < l.limit
    · rw [if_pos hunder]
      refine (if_neg (Nat.not_le.mpr hunder)).trans ?_
      rw [htested, warn_eq hlimit, htold, hrun]
      exact if_congr (by simp only [x]; tauto) rfl rfl
    · rw [if_neg hunder]
      refine (if_pos (Nat.not_lt.mp hunder)).trans ?_
      rw [htested, timeUp_of_speaking (h := tested) hm hlimit true (by rw [hrun]; exact hspeaking), htold]
      rfl
  · rw [if_pos hspeaking, ← hmark]
    refine if_neg (fun htimed => hspeaking (isTimed_iff.mp htimed).1)

/-! ## SET TIME CLASS (R54) -/

theorem setTimeClass_eq (cls limit lead : Nat) : h.setTimeClass reader cls limit lead =
    let l := if limit = 0 then 0 else max 10 (min 3600 limit)
    let w := if l ≠ 0 ∧ l ≤ min lead 120 then l - 1 else min lead 120
    if 3 < cls then (h, .check .fieldOutOfRange 1)
    else ((h.writeClass cls ⟨l, w⟩).classChanged reader cls (h.timeClass cls),
      if limit ≠ l then .good .adjusted 2 {} else if lead ≠ w then .good .adjusted 3 {} else .good .none 0 {}) := by
  unfold setTimeClass
  simp only [goodWrite_cons, goodWrite_nil, ne_eq, ite_not, clampTo_eq (show 10 ≤ 3600 by decide)]
  rfl

theorem classChanged_veiled (hm : h.Clean) (k : Nat) (old : TimeClass) (w : Nat) :
    (h.veiled w none).classChanged reader k old = (h.classChanged reader k old).veiled w none :=
  reader_veiled (f := fun rd => classChanged rd k old) hm (fun _ hg => classChanged_still reader_idle hg)
    (blind_classChanged k old)

theorem setTimeClass_veiled (hm : h.Clean) (cls limit lead w : Nat) :
    (h.veiled w none).setTimeClass reader cls limit lead = (h.setTimeClass reader cls limit lead).map (veiled w none) id := by
  rw [setTimeClass_eq, setTimeClass_eq]
  dsimp only
  have hacted (v : TimeClass) := classChanged_veiled (h.writeClass_clean hm cls v) cls (h.timeClass cls) w
  have hwritten (v : TimeClass) : (h.veiled w none).writeClass cls v = (h.writeClass cls v).veiled w none := rfl
  have hclass : (h.veiled w none).timeClass cls = h.timeClass cls := rfl
  rw [hclass, hwritten, hacted]
  generalize reader = rd
  split_ifs <;> rfl

theorem classTaken_sameBeyondFloor (hm : h.Clean) (k : Nat) (old : TimeClass) : h.SameBeyondFloor (h.classTaken k old) := by
  rw [← classChanged_eq]
  exact keeps_classChanged h.sameBeyondFloor_closed (reader_keeps_sameBeyondFloor hm) h.sameBeyondFloor_refl

end Hall

/-- Settles O16: the command is taken outside SAFE, its rule is `Hall.setTimeClass_eq`, what follows the write is
`Hall.classTaken`, and the test of one unit is `Hall.limitChanged_cases`. -/
theorem setTimeClassWrites : Obligations.SetTimeClassWrites := by
  refine ⟨fun s hd cls limit lead hr hm => ?_, fun h u hm hu => Hall.limitChanged_cases hm hu⟩
  intro c h l w good written
  have hzero : limit.toNat = 0 ↔ limit = 0 := by simp [BitVec.toNat_eq]
  rw [exec_of_command (x := .setTimeClass cls limit lead) rfl,
    Chip.commandRow_of_veiled_notSafe (x := .setTimeClass cls limit lead) hr rfl (fun _ => rfl)
      nofun rfl (fun w => Hall.setTimeClass_veiled hm _ _ _ w), Hall.setTimeClass_eq (h := s.chip.hall)]
  simp only [hzero]
  refine ⟨fun hfails => ?_, fun htaken => ?_⟩
  · congr 2
    by_cases hsafe : h.cmd.mode = .safe
    · rw [if_pos hsafe, if_pos hsafe]
    · rw [if_neg hsafe, if_neg hsafe, if_pos (hfails.resolve_left hsafe)]
  · obtain ⟨hsafe, hcls⟩ := htaken
    have hclean := h.writeClass_clean hm cls.toNat ⟨l, w⟩
    have hwritten : h.writeClass cls.toNat ⟨l, w⟩ = written := rfl
    rw [hwritten] at hclean
    refine ⟨_, ?_, Hall.classTaken_sameBeyondFloor hclean cls.toNat (h.timeClass cls.toNat), rfl⟩
    rw [if_neg hsafe, if_neg (Nat.not_lt.mpr hcls), ← Hall.classChanged_eq]
    rfl

end Sys2Proof.Machine

/-! SUPPORT. O12: LOAD DELEGATE (R20, R57, R96). -/

namespace Sys2Proof.Machine

theorem unitField_eq (u : Nat) (fs : List FieldLimit) :
    Hall.unitField u fs = if u = 0 ∨ 192 < u then some 1 else fieldAbove fs := by
  by_cases hu : u = 0
  · simp [Hall.unitField, hu]
  · simp [Hall.unitField, hu]

theorem roleOf_toNat {role : Byte} (hrole : role.toNat ≤ 1) : roleOf role.toNat = if role = 0 then .delegate else .chair := by
  have hcase : role.toNat = 0 ∨ role.toNat = 1 := by omega
  obtain hn | hn := hcase <;> simp [BitVec.toNat_eq, hn, roleOf]

theorem mem_units_of_bounds {u : Nat} (hu : ¬(u = 0 ∨ 192 < u)) : u ∈ units := by
  rw [units, List.mem_map]
  exact ⟨u - 1, List.mem_range.mpr (by omega), by omega⟩

namespace Hall

variable {h : Hall} {u : Nat}

/-! ## A whole write (R20) -/

theorem loadWhole_eq (hu : u ∈ units) (d : Delegate) (hd : d.present = true) : h.loadWhole u d = { h with
    mem.delegates := tset h.mem.delegates (u - 1) ⟨d, false, .sound⟩
    floor.runs := tset h.floor.runs (u - 1) { h.run u with unknownReported := false }
    floor.dirty := tset h.floor.dirty (u - 1) true } := by
  obtain ⟨hindex, hlt, -⟩ := unitIndex_of_mem hu
  have hknown : ((h.writeDelegate u d).setRun u (fun x => { x with unknownReported := false })).known u = true := by
    have hrecord : ((h.writeDelegate u d).setRun u (fun x => { x with unknownReported := false })).record u = fresh d := by
      show tget (tset h.mem.delegates (unitIndex u) (fresh d)) (unitIndex u) = fresh d
      rw [hindex, tget_tset_self _ _ hlt]
    rw [known, hrecord, fresh, hd]
    rfl
  rw [loadWhole, mark_of_known hu hknown, setRun_eq hu, writeDelegate, hindex]
  rfl

/-! ## The rewrite of a record in place (R20, R96) -/

/-- The hall with trim and class of a unit's record rewritten. -/
def rewritten (u trim cls : Nat) (h : Hall) : Hall := { h with
  mem.delegates := tset h.mem.delegates (u - 1)
    { h.record u with value := { (h.record u).value with trim := trim, timeClass := cls } } }

theorem record_rewritten (hu : u ∈ units) (t k v : Nat) : (h.rewritten u t k).record v = h.record v ∨
    (unitIndex v = unitIndex u ∧ (h.rewritten u t k).record v =
      { h.record v with value := { (h.record v).value with trim := t, timeClass := k } }) := by
  obtain ⟨hindex, hlt, -⟩ := unitIndex_of_mem hu
  by_cases hv : unitIndex v = unitIndex u
  · have hsame : h.record v = h.record u := congrArg (tget h.mem.delegates) hv
    refine .inr ⟨hv, ?_⟩
    rw [hsame]
    show tget (tset h.mem.delegates (u - 1) _) (unitIndex v) = _
    rw [hv, hindex, tget_tset_self _ _ hlt]
  · exact .inl (tget_tset_of_ne _ _ (hindex ▸ Ne.symm hv))

theorem sect_rewritten (hu : u ∈ units) (t k v : Nat) : ((h.rewritten u t k).loaded v).sect = (h.loaded v).sect := by
  rw [loaded, loaded]
  obtain hv | ⟨-, hv⟩ := record_rewritten (h := h) hu t k v <;> rw [hv]

theorem known_rewritten (hu : u ∈ units) (t k v : Nat) : (h.rewritten u t k).known v = h.known v := by
  rw [known, known]
  obtain hv | ⟨-, hv⟩ := record_rewritten (h := h) hu t k v <;> rw [hv]

theorem roomOfUnit_rewritten (hu : u ∈ units) (t k : Nat) : (h.rewritten u t k).roomOfUnit = h.roomOfUnit :=
  funext fun v => congrArg h.roomOfSection (sect_rewritten hu t k v)

theorem rewritten_clean (hm : h.Clean) (u t k : Nat) : (h.rewritten u t k).Clean := by
  have hfinding := record_finding hm u
  obtain ⟨hdelegates, hrest⟩ := hm
  refine ⟨fun p hp => ?_, hrest⟩
  obtain hp | rfl := mem_tset hp
  · exact hdelegates p hp
  · exact hfinding

/-- The rewrite in place, with the flag cleared and the mark set. -/
def partMarked (u t k : Nat) (h : Hall) : Hall := { h.rewritten u t k with
  floor.runs := tset h.floor.runs (u - 1) { h.run u with unknownReported := false }
  floor.dirty := if h.known u then tset h.floor.dirty (u - 1) true else h.floor.dirty }

/-- The rewrite in place, with the target of a SPEAKING unit too: all but the test of R57. -/
def partLoaded (u t k : Nat) (h : Hall) : Hall := { h.partMarked u t k with
  gains.mics := match (h.run u).slot with
    | some i => if (h.run u).state = .speaking then
        tmod h.gains.mics i (fun x => { x with target := min 127 (t + nom (h.speakers (h.roomOfUnit u)).length) })
      else h.gains.mics
    | none => h.gains.mics }

theorem partMarked_eq (hu : u ∈ units) (t k : Nat) :
    ((h.writeTrimClass u t k).setRun u (fun x => { x with unknownReported := false })).mark u = h.partMarked u t k := by
  obtain ⟨hindex, -, -⟩ := unitIndex_of_mem hu
  have hwritten : h.writeTrimClass u t k = h.rewritten u t k := by
    rw [writeTrimClass, hindex]
    rfl
  have hknown : (((h.rewritten u t k).setRun u (fun x => { x with unknownReported := false }))).known u = h.known u :=
    known_rewritten hu t k u
  rw [hwritten, mark, hknown, setRun_eq hu, hindex]
  rfl

theorem run_partMarked (hu : u ∈ units) (t k : Nat) : (h.partMarked u t k).run u = { h.run u with unknownReported := false } := by
  obtain ⟨hindex, hlt, -⟩ := unitIndex_of_mem hu
  show tget (tset h.floor.runs (u - 1) _) (unitIndex u) = _
  rw [hindex, tget_tset_self _ _ hlt]

theorem state_partMarked (hu : u ∈ units) (t k v : Nat) : ((h.partMarked u t k).run v).state = (h.run v).state := by
  obtain ⟨hindex, -, -⟩ := unitIndex_of_mem hu
  show (tget (tset h.floor.runs (u - 1) _) (unitIndex v)).state = _
  rw [tget_tset]
  split
  · next hv => rw [Hall.run, Hall.run, hindex, hv.1]
  · rfl

theorem speakers_partMarked (hu : u ∈ units) (t k : Nat) :
    (h.partMarked u t k).speakers ((h.partMarked u t k).roomOfUnit u) = h.speakers (h.roomOfUnit u) := by
  have hroom : (h.partMarked u t k).roomOfUnit = h.roomOfUnit := roomOfUnit_rewritten (h := h) hu t k
  rw [speakers, speakers, hroom]
  refine List.filter_congr fun v _ => ?_
  rw [isSpeaking_eq, isSpeaking_eq, state_partMarked hu]

theorem loadPart_eq (hu : u ∈ units) (t k : Nat) : h.loadPart reader u t k =
    if (h.loaded u).timeClass = k then h.partLoaded u t k else (h.partLoaded u t k).limitChanged reader u := by
  have hmics : (h.partMarked u t k).gains.mics = h.gains.mics := rfl
  have haimed : (if (h.partMarked u t k).isSpeaking u then
      (h.partMarked u t k).aimMic u (speakingTarget t ((h.partMarked u t k).speakers ((h.partMarked u t k).roomOfUnit u)).length)
      else h.partMarked u t k) = h.partLoaded u t k := by
    rw [isSpeaking_eq, aimMic_eq, speakers_partMarked hu, state_partMarked hu, run_partMarked hu, hmics, partLoaded, speakingTarget]
    dsimp only
    by_cases hspeaking : (h.run u).state = .speaking
    · rw [if_pos (decide_eq_true hspeaking)]
      simp only [if_pos hspeaking] <;> cases (h.run u).slot <;> rfl
    · rw [if_neg (by simpa using hspeaking)]
      simp only [if_neg hspeaking] <;> cases (h.run u).slot <;> rfl
  unfold loadPart
  dsimp only
  rw [partMarked_eq hu, haimed]

/-! ## LOAD DELEGATE (R20) -/

theorem loadDelegate_eq (hm : h.Clean) (u sect role trim cls : Nat) : h.loadDelegate reader u sect role trim cls =
    let good : Answer := if trim ≠ min trim 40 then .good .adjusted 4 {} else .good .none 0 {}
    if u = 0 ∨ 192 < u then (h, .check .fieldOutOfRange 1)
    else if 7 < sect then (h, .check .fieldOutOfRange 2)
    else if 1 < role then (h, .check .fieldOutOfRange 3)
    else if 3 < cls then (h, .check .fieldOutOfRange 5)
    else if (h.run u).state = .idle then (h.loadWhole u ⟨true, sect, roleOf role, min trim 40, cls⟩, good)
    else if (h.record u).damaged = false ∧ (h.loaded u).sect = sect ∧ (h.loaded u).role = roleOf role then
      (h.loadPart reader u (min trim 40) cls, good)
    else (h, .check .unitNotIdle 0) := by
  unfold loadDelegate
  rw [idle_delegate reader_idle hm, unitField_eq]
  simp only [fieldAbove_cons, fieldAbove_nil, goodWrite_cons, goodWrite_nil, ne_eq, ite_not]
  generalize reader = rd
  split_ifs <;> rfl

theorem limitChanged_veiled (hm : h.Clean) (u w : Nat) :
    (h.veiled w none).limitChanged reader u = (h.limitChanged reader u).veiled w none :=
  reader_veiled (f := fun rd => limitChanged rd u) hm (fun _ hg => limitChanged_still reader_idle hg) (blind_limitChanged u)

theorem partLoaded_clean (hm : h.Clean) (u t k : Nat) : (h.partLoaded u t k).Clean := rewritten_clean hm u t k

theorem loadPart_veiled (hm : h.Clean) (hu : u ∈ units) (t k w : Nat) :
    (h.veiled w none).loadPart reader u t k = (h.loadPart reader u t k).veiled w none := by
  have hloaded : (h.veiled w none).loaded u = h.loaded u := rfl
  have hpart : (h.veiled w none).partLoaded u t k = (h.partLoaded u t k).veiled w none := rfl
  rw [loadPart_eq hu, loadPart_eq hu, hloaded, hpart, limitChanged_veiled (partLoaded_clean hm u t k)]
  split <;> rfl

theorem loadDelegate_veiled (hm : h.Clean) (u sect role trim cls w : Nat) :
    (h.veiled w none).loadDelegate reader u sect role trim cls =
      (h.loadDelegate reader u sect role trim cls).map (veiled w none) id := by
  have hpart : ¬(u = 0 ∨ 192 < u) → (h.veiled w none).loadPart reader u (min trim 40) cls =
      (h.loadPart reader u (min trim 40) cls).veiled w none := fun hu => loadPart_veiled hm (mem_units_of_bounds hu) _ _ _
  rw [loadDelegate_eq hm, loadDelegate_eq (h := h.veiled w none) hm]
  dsimp only
  by_cases hu : u = 0 ∨ 192 < u
  · rw [if_pos hu, if_pos hu]
    rfl
  · rw [if_neg hu, if_neg hu, hpart hu]
    have hwhole : ∀ d, (h.veiled w none).loadWhole u d = (h.loadWhole u d).veiled w none := fun _ => rfl
    rw [hwhole]
    have hrun : (h.veiled w none).run u = h.run u := rfl
    have hrecord : (h.veiled w none).record u = h.record u := rfl
    have hloaded : (h.veiled w none).loaded u = h.loaded u := rfl
    rw [hrun, hrecord, hloaded]
    generalize reader = rd
    split_ifs <;> rfl

theorem loadPart_sameBeyondFloor (hm : h.Clean) (hu : u ∈ units) (t k : Nat) :
    (h.rewritten u t k).SameBeyondFloor (h.loadPart reader u t k) := by
  have hclean : (h.rewritten u t k).mem.ReadsFindNothing := rewritten_clean hm u t k
  have hpart : (h.rewritten u t k).SameBeyondFloor (h.partLoaded u t k) := rfl
  rw [loadPart_eq hu]
  exact keeps_ite hpart (keeps_limitChanged (sameBeyondFloor_closed _) (reader_keeps_sameBeyondFloor hclean) hpart)

end Hall

/-- Settles O12: the command is taken outside SAFE, its rule is `Hall.loadDelegate_eq`, with `Hall.loadWhole_eq` for an absent or
IDLE unit and `Hall.loadPart_eq` for a rewrite in place. -/
theorem loadDelegateWrites : Obligations.LoadDelegateWrites := by
  intro s hd unit sect role trim cls hr hm c h u r t good p inPlace written
  have hgood : good = if trim.toNat ≠ min trim.toNat 40 then .good .adjusted 4 {} else .good .none 0 {} :=
    if_congr (by omega) rfl rfl
  have hrole : ∀ hle : role.toNat ≤ 1, roleOf role.toNat = r := roleOf_toNat
  rw [exec_of_command (x := .loadDelegate unit sect role trim cls) rfl,
    Chip.commandRow_of_veiled_notSafe (x := .loadDelegate unit sect role trim cls) hr rfl (fun _ => rfl)
      nofun rfl (fun w => Hall.loadDelegate_veiled hm _ _ _ _ _ w), Hall.loadDelegate_eq (h := s.chip.hall) hm, ← hgood]
  refine ⟨fun hout => ?_, fun hin => ?_⟩
  · congr 2
    by_cases hsafe : h.cmd.mode = .safe
    · rw [if_pos hsafe, if_pos hsafe]
    rw [if_neg hsafe, if_neg hsafe]
    split_ifs with hunit hsect hrole1 hcls hidle hplace
    · rfl
    · rfl
    · rfl
    · rfl
    · rw [hrole (by omega), Nat.min_comm]
      dsimp only
      rw [Hall.loadWhole_eq (mem_units_of_bounds hunit) _ rfl, Nat.min_comm 40]
    · obtain ⟨hdamaged, hsection, hsame⟩ := hplace
      exact absurd ⟨hsafe, by omega, by omega, by omega, by omega, by omega, hidle, hdamaged, hsection, hsame.trans (hrole (by omega))⟩
        hout
    · rfl
  · obtain ⟨hsafe, hlow, hhigh, hsect, hrole1, hcls, hidle, hdamaged, hsection, hsame⟩ := hin
    have hunit : ¬(u = 0 ∨ 192 < u) := by omega
    have hu := mem_units_of_bounds hunit
    have hplace : (h.record u).damaged = false ∧ (h.loaded u).sect = sect.toNat ∧ (h.loaded u).role = roleOf role.toNat :=
      ⟨hdamaged, hsection, hsame.trans (hrole hrole1).symm⟩
    refine ⟨h.loadPart reader u t cls.toNat, ?_, Hall.loadPart_sameBeyondFloor hm hu _ _, ?_⟩
    · rw [if_neg hsafe, if_neg hunit, if_neg (Nat.not_lt.mpr hsect), if_neg (Nat.not_lt.mpr hrole1),
        if_neg (Nat.not_lt.mpr hcls), if_neg hidle, if_pos hplace]
    · intro told
      have hknown : h.known u = p.value.present := by
        show (p.value.present && !p.damaged) = p.value.present
        rw [hdamaged, Bool.not_false, Bool.and_true]
      have htold : h.partLoaded u t cls.toNat = told := by
        rw [Hall.partLoaded, Hall.partMarked, hknown]
        rfl
      rw [Hall.loadPart_eq hu, htold]
      rfl

end Sys2Proof.Machine

/-! SUPPORT. What the rules of the Router leave alone. O27: SET HOME PLAN (R62 to R64, R85). -/

namespace Sys2Proof.Machine

namespace Hall

variable {h g : Hall}

/-! ## What the rules of the Router leave alone -/

theorem sameBeyondRouter_iff : h.SameBeyondRouter g ↔ g.frameCounter = h.frameCounter ∧ g.part = h.part ∧ g.floor = h.floor ∧
    g.slots.mics = h.slots.mics ∧ g.gains = h.gains ∧ g.cmd = h.cmd ∧ g.events.mask = h.events.mask ∧ g.mem = h.mem ∧
    g.store = h.store := by
  constructor
  · intro same
    unfold SameBeyondRouter at same
    rw [same]
    exact ⟨rfl, rfl, rfl, rfl, rfl, rfl, rfl, rfl, rfl⟩
  · rintro ⟨hframe, hpart, hfloor, hmics, hgains, hcmd, hmask, hmem, hstore⟩
    unfold SameBeyondRouter
    obtain ⟨⟩ := g
    simp only at hframe hpart hfloor hmics hgains hcmd hmask hmem hstore
    subst hframe hpart hfloor hgains hcmd hmem hstore
    rw [← hmask, ← hmics]

theorem sameBeyondRouter_refl (h : Hall) : h.SameBeyondRouter h := rfl

/-- The rules of the Router and the Slot Allocator change Router, pool, floor slots and waiting events alone. -/
theorem sameBeyondRouter_closed (h : Hall) : ClosedSlots h.SameBeyondRouter where
  post ts k a b c d g hg := by
    rw [sameBeyondRouter_iff] at hg ⊢
    obtain ⟨hframe, hpart, hfloor, hmics, hgains, hcmd, hmask, hrest⟩ := hg
    exact ⟨hframe, hpart, hfloor, hmics, hgains, hcmd, (EventQueue.push_mask _ _ _).trans hmask, hrest⟩
  held _ _ g _ hg := by
    have same := sameBeyondRouter_iff.mp hg
    exact sameBeyondRouter_iff.mpr same
  notices g _ _ hg := by
    have same := sameBeyondRouter_iff.mp hg
    exact sameBeyondRouter_iff.mpr same
  slots g x hx hg := by
    rw [sameBeyondRouter_iff] at hg ⊢
    obtain ⟨hframe, hpart, hfloor, hmics, hrest⟩ := hg
    exact ⟨hframe, hpart, hfloor, hx.trans hmics, hrest⟩

theorem SameBeyondRouter.clean (same : h.SameBeyondRouter g) (hm : h.mem.ReadsFindNothing) : g.mem.ReadsFindNothing := by
  obtain ⟨-, -, -, -, -, -, -, hmem, -⟩ := sameBeyondRouter_iff.mp same
  exact hmem ▸ hm

theorem reader_keeps_sameBeyondRouter (hm : h.mem.ReadsFindNothing) : reader.Keeps h.SameBeyondRouter :=
  idle_keeps reader_idle (fun _ same => same.clean hm)

theorem eventsAfter_mask (h : Hall) (es : List Event) : (h.eventsAfter es).mask = h.events.mask := by
  unfold eventsAfter
  generalize h.events = q
  induction es generalizing q with
  | nil => rfl
  | cons e es ih => exact (ih (q.push h.frameCounter e)).trans (EventQueue.push_mask _ _ _)

/-! ## A room plan computed again -/

/-- The hall with room `r`'s plan computed, and the events of the codes cut (R63). -/
def replanned (r : Nat) (h : Hall) : Hall :=
  { h with router.plans := tset h.router.plans r (h.planOf r), events := h.eventsAfter (h.dropEvents r) }

theorem planTaken_of_same {r : Nat} (hsame : h.planOf r = h.plan r) : h.planTaken r = h.replanned r := if_pos hsame

/-- What the Router's and the Slot Allocator's own updates keep is kept once the plan is computed. -/
theorem planTaken_keeps {P : Hall → Prop} (C : ClosedSlots P) (K : reader.Keeps P) {r : Nat} (hp : P (h.replanned r)) :
    P (h.planTaken r) := by
  unfold planTaken
  dsimp only
  refine keeps_ite hp (keeps_evaluate C K ?_)
  refine C.slots _ _ rfl (each_keeps (fun _ _ => keeps_makeClaim C) (each_keeps (fun _ _ => keeps_releaseClaim C) ?_))
  exact C.notices _ _ _ hp

theorem planTaken_sameBeyondRouter (hm : h.mem.ReadsFindNothing) (r : Nat) : h.SameBeyondRouter (h.planTaken r) :=
  planTaken_keeps h.sameBeyondRouter_closed (reader_keeps_sameBeyondRouter hm)
    (sameBeyondRouter_iff.mpr ⟨rfl, rfl, rfl, rfl, rfl, rfl, h.eventsAfter_mask _, rfl, rfl⟩)

/-- The rules that evaluate assignments and move claims leave the room plans. -/
theorem plansAt_closed (x : Vector (List Nat) 8) : ClosedSlots (fun h => h.router.plans = x ∧ h.mem.ReadsFindNothing) where
  post _ _ _ _ _ _ _ hp := hp
  held _ _ _ _ hp := hp
  notices _ _ _ hp := hp
  slots _ _ _ hp := hp

theorem planTaken_plans (hm : h.mem.ReadsFindNothing) (r : Nat) :
    (h.planTaken r).router.plans = tset h.router.plans r (h.planOf r) := by
  obtain ⟨hplans, -⟩ := planTaken_keeps (plansAt_closed (tset h.router.plans r (h.planOf r)))
    (idle_keeps reader_idle fun _ hp => hp.2) (r := r) (h := h) ⟨rfl, hm⟩
  exact hplans

theorem planTaken_plan (hm : h.mem.ReadsFindNothing) {r x : Nat} (hr : r < 8) :
    (h.planTaken r).plan x = if x = r then h.planOf r else h.plan x := by
  rw [plan, planTaken_plans hm, tget_tset]
  by_cases hx : x = r
  · rw [if_pos hx, if_pos ⟨hx.symm, hr⟩]
  · rw [if_neg hx, if_neg fun both => hx both.1.symm]
    rfl

/-! ## SET HOME PLAN (R62) -/

/-- The first element that satisfies `p`, by its place. -/
theorem findIdx?_eq_find?_range (p : Nat → Bool) (l : List Nat) :
    l.findIdx? p = (List.range l.length).find? (fun i => p (l.getD i 0)) := by
  induction l with
  | nil => rfl
  | cons a l ih =>
    rw [List.length_cons, List.range_succ_eq_map, List.find?_cons, List.findIdx?_cons, List.find?_map, ih]
    cases ha : p a <;> simp [ha]

/-- The codes of a plan are language codes, or 0 (R62). -/
theorem badCode_eq {l : List Nat} (hl : ∀ k ∈ l, k ≤ 63) :
    badCode l = (List.range l.length).find? (fun i => l.getD i 0 == 0) := by
  have hcodes : badCode l = l.findIdx? (fun k => k == 0) := by
    unfold badCode
    induction l with
    | nil => rfl
    | cons a l ih =>
      have hbelow : decide (63 < a) = false := decide_eq_false (Nat.not_lt.mpr (hl a List.mem_cons_self))
      rw [List.findIdx?_cons, List.findIdx?_cons, ih fun k hk => hl k (List.mem_cons_of_mem a hk), hbelow, Bool.or_false]
  rw [hcodes, findIdx?_eq_find?_range]

theorem setHomePlan_eq (hm : h.Clean) (s length : Nat) (codes : List Nat) : h.setHomePlan reader s length codes =
    let n := min 8 length
    let l := codes.take n
    if 7 < s then (h, .check .fieldOutOfRange 1)
    else match badCode l with
      | some i => (h, .check .fieldOutOfRange (i + 3))
      | none => match repeatedCode l with
        | some i => (h, .check .duplicateLanguage (i + 3))
        | none => ((h.writePlan s l).planTaken (h.roomOfSection s),
            if 8 < length then .good .adjusted 2 {} else .good .none 0 {}) := by
  have hgood : goodWrite [(2, length, min 8 length)] = if 8 < length then .good .adjusted 2 {} else .good .none 0 {} := by
    rw [goodWrite_cons, goodWrite_nil, ← ite_not]
    exact if_congr (by omega) rfl rfl
  have hacted (l : List Nat) := replan_eq_planTaken (h.writePlan_clean hm s l) (roomOf_lt h.part.inForce s)
  unfold setHomePlan
  dsimp only
  rw [Nat.min_comm length 8, hgood]
  refine if_congr Iff.rfl rfl ?_
  cases badCode (codes.take (min 8 length)) with
  | some i => rfl
  | none =>
    cases repeatedCode (codes.take (min 8 length)) with
    | some i => rfl
    | none => exact congrArg (·, _) (hacted _)

theorem planTaken_veiled (hm : h.Clean) {r : Nat} (hr : r < 8) (w : Nat) :
    (h.veiled w none).planTaken r = (h.planTaken r).veiled w none := by
  rw [← replan_eq_planTaken hm hr, ← replan_eq_planTaken (h := h.veiled w none) hm hr]
  exact reader_veiled (f := fun rd => replan rd r) hm (fun _ hg => replan_still reader_idle hg) (blind_replan r)

theorem setHomePlan_veiled (hm : h.Clean) (s length : Nat) (codes : List Nat) (w : Nat) :
    (h.veiled w none).setHomePlan reader s length codes = (h.setHomePlan reader s length codes).map (veiled w none) id := by
  have hacted (l : List Nat) : ((h.veiled w none).writePlan s l).planTaken ((h.veiled w none).roomOfSection s) =
      ((h.writePlan s l).planTaken (h.roomOfSection s)).veiled w none :=
    planTaken_veiled (h.writePlan_clean hm s l) (roomOf_lt _ _) w
  rw [setHomePlan_eq hm, setHomePlan_eq (h := h.veiled w none) hm]
  dsimp only
  rw [hacted, apply_ite (Prod.map _ _)]
  refine if_congr Iff.rfl rfl ?_
  cases badCode (codes.take (min 8 length)) with
  | some i => rfl
  | none => cases repeatedCode (codes.take (min 8 length)) <;> rfl

end Hall

/-- Settles O27: the command is taken outside SAFE, its rule is `Hall.setHomePlan_eq`, and what follows the write is
`Hall.planTaken`. -/
theorem setHomePlanWrites : Obligations.SetHomePlanWrites := by
  intro s hd sect length codes hr hm c h r n l bad again written good fails
  have hlength : l.length = n := by
    rw [List.length_take, List.length_map, Vector.length_toList]
    omega
  have hcodes : ∀ k ∈ l, k ≤ 63 := fun k hk => by
    obtain ⟨x, -, rfl⟩ := List.mem_map.mp (List.mem_of_mem_take hk)
    exact Nat.lt_succ_iff.mp x.isLt
  have hbad : Hall.badCode l = bad := by rw [Hall.badCode_eq hcodes, hlength]
  have hagain : Hall.repeatedCode l = again := by rw [Hall.repeatedCode, hlength]
  rw [exec_of_command (x := .setHomePlan sect length codes) rfl,
    Chip.commandRow_of_veiled_notSafe (x := .setHomePlan sect length codes) hr rfl (fun _ => rfl)
      nofun rfl (fun w => Hall.setHomePlan_veiled hm _ _ _ w), Hall.setHomePlan_eq (h := s.chip.hall) hm]
  have hclean : written.mem.ReadsFindNothing := h.writePlan_clean hm sect.toNat l
  have hr8 : r < 8 := roomOf_lt _ _
  dsimp only
  rw [hbad, hagain]
  refine ⟨fun hfails => ?_, fun htaken => ?_⟩
  · congr 2
    by_cases hsafe : h.cmd.mode = .safe
    · rw [if_pos hsafe, if_pos hsafe]
    by_cases hsect : 7 < sect.toNat
    · rw [if_neg hsafe, if_neg hsafe, if_pos hsect, if_pos hsect]
    rw [if_neg hsafe, if_neg hsafe, if_neg hsect, if_neg hsect]
    cases hfirst : bad with
    | some i => rfl
    | none =>
      cases hsecond : again with
      | some i => rfl
      | none =>
        simp only [fails, hfirst, hsecond] at hfails
        tauto
  · obtain ⟨hsafe, hsect, hnone, hnoagain⟩ : h.cmd.mode ≠ .safe ∧ ¬ 7 < sect.toNat ∧ bad = none ∧ again = none := by
      simp only [fails] at htaken
      tauto
    refine ⟨written.planTaken r, ?_, Hall.planTaken_sameBeyondRouter hclean r, fun x _ => Hall.planTaken_plan hclean hr8,
      fun hsame => ?_, rfl⟩
    · rw [if_neg hsafe, if_neg hsect, hnone, hnoagain]
      rfl
    · rw [Hall.planTaken_of_same hsame]
      exact ⟨rfl, rfl⟩

end Sys2Proof.Machine

/-! SUPPORT. O26: SET BOOTH (R60). -/

namespace Sys2Proof.Machine

namespace Hall

variable {h g : Hall}

theorem stateChanged_still {rd : Reader} (hr : rd.Idle) (led : Nat → Led) (b : Nat) (old : BoothState) (hm : h.Clean) :
    h.stateChanged rd led b old = h.stateChanged .still led b old := by
  rw [stateChanged, stateChanged, evaluate_still hr hm]

theorem boothWritten_still {rd : Reader} (hr : rd.Idle) (led : Nat → Led) (b : Nat) (x : BoothBefore) (hm : h.Clean) :
    h.boothWritten rd led b x = h.boothWritten .still led b x := by
  have C := clean_closed.toClosedRooms
  have hchanged : (h.stateChanged .still led b x.effective).Clean := keeps_stateChanged C.toClosedSlots still_keeps hm
  have hchecked : ((h.stateChanged .still led b x.effective).relayCheck .still).Clean := keeps_relayCheck C still_keeps hchanged
  have hfirst : (((h.stateChanged .still led b x.effective).relayCheck .still).evaluate .still led x.room).Clean :=
    keeps_evaluate C.toClosedSlots still_keeps hchecked
  unfold boothWritten
  rw [stateChanged_still hr led b _ hm, relayCheck_still hr hchanged]
  dsimp only
  rw [evaluate_still hr hchecked, evaluate_still hr hfirst]

theorem boothWritten_veiled (hm : h.Clean) (led : Nat → Led) (b : Nat) (x : BoothBefore) (w : Nat) :
    (h.veiled w none).boothWritten reader led b x = (h.boothWritten reader led b x).veiled w none :=
  reader_veiled (f := fun rd => boothWritten rd led b x) hm (fun _ hg => boothWritten_still reader_idle led b x hg)
    (blind_boothWritten led b x)

/-! ## What a written booth record leaves alone -/

theorem relayTest_sameBeyondRouter (same : h.SameBeyondRouter g) (b : Nat) : h.SameBeyondRouter (g.relayTest b) := by
  have hlost (s : Nat) (cause : Byte) : h.SameBeyondRouter (g.loseRelay b s cause) := by
    rw [loseRelay_eq, sameBeyondRouter_iff]
    obtain ⟨hframe, hpart, hfloor, hmics, hgains, hcmd, hmask, hrest⟩ := sameBeyondRouter_iff.mp same
    exact ⟨hframe, hpart, hfloor, hmics, hgains, hcmd, (EventQueue.push_mask _ _ _).trans hmask, hrest⟩
  unfold relayTest
  cases (g.boothRun b).relay with
  | floor => exact same
  | booth s => exact keeps_ite (hlost s 0) (keeps_ite (hlost s 1) same)

theorem relayCheck_sameBeyondRouter (hm : h.Clean) (same : h.SameBeyondRouter g) : h.SameBeyondRouter (g.relayCheck reader) := by
  refine (each_keeps (P := h.SameBeyondRouter) (fun b x hx => ?_) same)
  rw [idle_relayCheckOf reader_idle (hx.clean hm)]
  exact relayTest_sameBeyondRouter hx b

theorem boothTaken_sameBeyondRouter (hm : h.Clean) (led : Nat → Led) (b : Nat) (x : BoothBefore) :
    h.SameBeyondRouter (h.boothTaken led b x) := by
  have C := h.sameBeyondRouter_closed
  have K := reader_keeps_sameBeyondRouter hm
  have hchecked := relayCheck_sameBeyondRouter hm (keeps_stateChanged C K (led := led) (b := b) (old := x.effective)
    h.sameBeyondRouter_refl)
  rw [← boothWritten_eq hm]
  generalize reader = rd at K hchecked
  have hfirst := keeps_evaluate C K (led := led) (r := x.room) hchecked
  unfold boothWritten
  refine keeps_ite h.sameBeyondRouter_refl (keeps_markBooth C (keeps_markMovedLead C ?_))
  exact keeps_ite hfirst (keeps_evaluate C K hfirst)

/-- The booths' fade points take the targets of their rooms (R101). -/
theorem syncBoothFades_eq (same : h.SameBeyondRouter g) : g.syncBoothFades = { g with gains.booths := h.boothFades 0 [] } := by
  obtain ⟨-, hpart, -, -, hgains, -, -, hmem, -⟩ := sameBeyondRouter_iff.mp same
  have hroom : g.roomOfBooth = h.roomOfBooth := funext (roomOfBooth_of_seated ⟨hmem, hpart⟩)
  have hfades : tmapIdx g.gains.booths (fun b x => { x with target := (tget g.gains.rooms (9 * g.roomOfBooth b)).target }) =
      h.boothFades 0 [] := by
    rw [boothFades, hgains, hroom]
    simp only [List.not_mem_nil, if_false]
  rw [syncBoothFades, hfades]

/-! ## SET BOOTH (R60) -/

/-- The hall with the record of booth `b` written, and what follows. -/
def boothSet (b language home gain : Nat) (h : Hall) : Hall :=
  ((h.writeBooth b ⟨language, home, min gain 127⟩).boothTaken h.ledNow b (h.boothBefore b)).syncBoothFades

theorem setBooth_eq (hm : h.Clean) (b language home gain : Nat) : h.setBooth reader b language home gain =
    if 15 < b then (h, .check .fieldOutOfRange 1)
    else if 63 < language then (h, .check .fieldOutOfRange 2)
    else if 7 < home then (h, .check .fieldOutOfRange 3)
    else if h.cmd.mode ≠ .config ∧ h.effective b ≠ .off ∧ ¬((h.booth b).language = language ∧ (h.booth b).home = home) then
      (h, .check .boothNotOff 0)
    else (h.boothSet b language home gain, if gain ≠ min gain 127 then .good .adjusted 4 {} else .good .none 0 {}) := by
  have hmoved : (language ≠ (h.booth b).language ∨ home ≠ (h.booth b).home) ↔
      ¬((h.booth b).language = language ∧ (h.booth b).home = home) := by
    rw [not_and_or]
    exact or_congr ne_comm ne_comm
  have hacted := boothWritten_eq (h.writeBooth_clean hm b ⟨language, home, min gain 127⟩) h.ledNow b (h.boothBefore b)
  unfold setBooth boothSet
  rw [← hacted]
  simp only [fieldAbove_cons, fieldAbove_nil, goodWrite_cons, goodWrite_nil, ne_eq, ite_not, idle_booth reader_idle hm,
    idle_readAllBooths reader_idle hm, ite_self]
  rw [boothBefore]
  generalize reader = rd
  by_cases hnumber : 15 < b
  · rw [if_pos hnumber, if_pos hnumber]
    rfl
  by_cases hlanguage : 63 < language
  · rw [if_neg hnumber, if_neg hnumber, if_pos hlanguage, if_pos hlanguage]
    rfl
  by_cases hhome : 7 < home
  · rw [if_neg hnumber, if_neg hnumber, if_neg hlanguage, if_neg hlanguage, if_pos hhome, if_pos hhome]
    rfl
  rw [if_neg hnumber, if_neg hnumber, if_neg hlanguage, if_neg hlanguage, if_neg hhome, if_neg hhome]
  exact if_congr (and_congr_right fun _ => and_congr_right fun _ => hmoved) rfl rfl

theorem boothSet_veiled (hm : h.Clean) (b language home gain w : Nat) :
    (h.veiled w none).boothSet b language home gain = (h.boothSet b language home gain).veiled w none := by
  have hclean := h.writeBooth_clean hm b ⟨language, home, min gain 127⟩
  have hwritten : (h.veiled w none).writeBooth b ⟨language, home, min gain 127⟩ =
    (h.writeBooth b ⟨language, home, min gain 127⟩).veiled w none := rfl
  have hled : (h.veiled w none).ledNow = h.ledNow := rfl
  have hbefore : (h.veiled w none).boothBefore b = h.boothBefore b := rfl
  rw [boothSet, boothSet, hwritten, hled, hbefore, ← boothWritten_eq hclean,
    ← boothWritten_eq (h := (h.writeBooth b ⟨language, home, min gain 127⟩).veiled w none) hclean, boothWritten_veiled hclean]
  rfl

theorem setBooth_veiled (hm : h.Clean) (b language home gain w : Nat) :
    (h.veiled w none).setBooth reader b language home gain =
      (h.setBooth reader b language home gain).map (veiled w none) id := by
  have heffective : (h.veiled w none).effective = h.effective := rfl
  have hbooth : (h.veiled w none).booth = h.booth := rfl
  have hmode : (h.veiled w none).cmd.mode = h.cmd.mode := rfl
  rw [setBooth_eq hm, setBooth_eq (h := h.veiled w none) hm, boothSet_veiled hm, heffective, hbooth, hmode]
  split_ifs <;> rfl

/-- The hall with a booth record written, spelled out. -/
theorem boothSet_eq (hm : h.Clean) (b language home gain : Nat) : h.boothSet b language home gain =
    { (h.writeBooth b ⟨language, home, min gain 127⟩).boothTaken h.ledNow b (h.boothBefore b) with
      gains.booths := (h.writeBooth b ⟨language, home, min gain 127⟩).boothFades 0 [] } :=
  syncBoothFades_eq (boothTaken_sameBeyondRouter (h.writeBooth_clean hm b _) _ _ _)

theorem boothTaken_of_same {led : Nat → Led} {b : Nat} {x : BoothBefore} (hsame : x.record.language = (h.booth b).language ∧
    x.record.home = (h.booth b).home ∧ x.damaged = false) : h.boothTaken led b x = h := if_pos ⟨⟨hsame.1, hsame.2.1⟩, hsame.2.2⟩

/-- The notice of a booth whose record has changed is marked (R60). -/
theorem boothTaken_marked {led : Nat → Led} {b : Nat} {x : BoothBefore} (hb : b < 16) (hdiff : ¬(x.record.language = (h.booth b).language ∧
    x.record.home = (h.booth b).home ∧ x.damaged = false)) : tget (h.boothTaken led b x).router.boothDirty b = true := by
  have htold : ¬((x.record.language = (h.booth b).language ∧ x.record.home = (h.booth b).home) ∧ x.damaged = false) :=
    fun hsame => hdiff ⟨hsame.1.1, hsame.1.2, hsame.2⟩
  unfold boothTaken
  dsimp only
  rw [if_neg htold]
  exact tget_tset_self _ _ hb

end Hall

/-- Settles O26: the command is taken outside SAFE, its rule is `Hall.setBooth_eq`, and what follows the write is
`Hall.boothTaken`. -/
theorem setBoothWrites : Obligations.SetBoothWrites := by
  intro s hd booth language home gain hr hm c h b old a good same written fails
  have hgain : a = min gain.toNat 127 := Nat.min_comm _ _
  rw [exec_of_command (x := .setBooth booth language home gain) rfl,
    Chip.commandRow_of_veiled_notSafe (x := .setBooth booth language home gain) hr rfl (fun _ => rfl)
      nofun rfl (fun w => Hall.setBooth_veiled hm _ _ _ _ w), Hall.setBooth_eq (h := s.chip.hall) hm]
  dsimp only
  rw [Hall.boothSet_eq (h := s.chip.hall) hm, ← hgain]
  refine ⟨fun hfails => ?_, fun htaken => ?_⟩
  · congr 2
    by_cases hsafe : h.cmd.mode = .safe
    · rw [if_pos hsafe, if_pos hsafe]
    rw [if_neg hsafe, if_neg hsafe]
    by_cases hnumber : 15 < b
    · rw [if_pos hnumber, if_pos hnumber]
    rw [if_neg hnumber, if_neg hnumber]
    by_cases hlanguage : 63 < language.toNat
    · rw [if_pos hlanguage, if_pos hlanguage]
    rw [if_neg hlanguage, if_neg hlanguage]
    by_cases hhome : 7 < home.toNat
    · rw [if_pos hhome, if_pos hhome]
    rw [if_neg hhome, if_neg hhome]
    have hheld : h.cmd.mode ≠ .config ∧ h.effective b ≠ .off ∧ ¬same := by
      simp only [fails] at hfails
      tauto
    exact congrArg (fun x : Hall × Answer => ({ c with hall := x.1 } : Chip).answered hd x.2) (if_pos hheld)
  · obtain ⟨hsafe, hnumber, hlanguage, hhome, hheld⟩ : h.cmd.mode ≠ .safe ∧ ¬ 15 < b ∧ ¬ 63 < language.toNat ∧
        ¬ 7 < home.toNat ∧ ¬(h.cmd.mode ≠ .config ∧ h.effective b ≠ .off ∧ ¬same) := by
      simp only [fails] at htaken
      tauto
    have hb : b < 16 := by omega
    have hclean : written.mem.ReadsFindNothing := h.writeBooth_clean hm b _
    have hbooth : written.booth b = ⟨language.toNat, home.toNat, a⟩ := by
      show (tget (tset h.mem.booths b _) b).value = _
      rw [tget_tset_self _ _ hb]
    have hsame : (old.value.language = (written.booth b).language ∧ old.value.home = (written.booth b).home ∧
        old.damaged = false) ↔ (same ∧ old.damaged = false) := by
      rw [hbooth, and_assoc]
    refine ⟨{ written.boothTaken h.ledNow b (h.boothBefore b) with gains.booths := written.boothFades 0 [] }, ?_, ?_,
      fun hkept => ?_, fun hdiff => ⟨?_, rfl⟩⟩
    · rw [if_neg hsafe, if_neg hnumber, if_neg hlanguage, if_neg hhome]
      exact congrArg (fun x : Hall × Answer => Host.Outcome.next (s.withChip ({ c with hall := x.1 }.answered hd x.2)))
        (if_neg hheld)
    · obtain ⟨hframe, hpart, hfloor, hmics, hgains, hcmd, hmask, hmem, hstore⟩ := Hall.sameBeyondRouter_iff.mp
        (Hall.boothTaken_sameBeyondRouter hclean h.ledNow b (h.boothBefore b))
      exact Hall.sameBeyondRouter_iff.mpr ⟨hframe, hpart, hfloor, hmics,
        congrArg (fun x : GainPoints => { x with booths := written.boothFades 0 [] }) hgains, hcmd, hmask, hmem, hstore⟩
    · rw [Hall.boothTaken_of_same (hsame.mpr hkept)]
      exact ⟨rfl, rfl, rfl⟩
    · exact Hall.boothTaken_marked hb (mt hsame.mp hdiff)

end Sys2Proof.Machine

/-! SUPPORT. The floor at the partition change event, as the statements say it (R40, R41). -/

namespace Sys2Proof.Machine

namespace Hall

variable {h : Hall}

/-! ## Writes in a series in a series -/

/-- Entries written one by one are written at once. -/
theorem foldl_tset {α : Type} [Inhabited α] {n : Nat} (x : Nat → α) (rs : List Nat) (t : Vector α n) :
    rs.foldl (fun t r => tset t r (x r)) t = tmapIdx t (fun r a => if r ∈ rs then x r else a) := by
  apply table_ext
  intro i hi
  rw [tget_tmapIdx_of_lt _ _ hi]
  induction rs generalizing t with
  | nil => rfl
  | cons r rs ih =>
    rw [List.foldl_cons, ih, tget_tset]
    by_cases hr : r = i
    · subst hr
      simp [hi]
    · simp [hr, Ne.symm hr]

/-- Changes of every entry in turn are one change. -/
theorem tmapIdx_tmapIdx {α : Type} [Inhabited α] {n : Nat} (f g : Nat → α → α) (t : Vector α n) :
    tmapIdx (tmapIdx t f) g = tmapIdx t (fun i a => g i (f i a)) := by
  apply table_ext
  intro i hi
  rw [tget_tmapIdx_of_lt _ _ hi, tget_tmapIdx_of_lt _ _ hi, tget_tmapIdx_of_lt _ _ hi]

theorem each_setQueue (q : Nat → List Nat) (rs : List Nat) (h : Hall) : h.each rs (fun r => setQueue r (q r)) =
    { h with floor.queues := tmapIdx h.floor.queues (fun r x => if r ∈ rs then q r else x) } := by
  rw [← foldl_tset]
  unfold each
  induction rs generalizing h with
  | nil => rfl
  | cons r rs ih => exact ih (h.setQueue r (q r))

theorem each_setGap (rs : List Nat) (h : Hall) : h.each rs (fun r => setGap r none) =
    { h with floor.gaps := tmapIdx h.floor.gaps (fun r x => if r ∈ rs then none else x) } := by
  rw [← foldl_tset (fun _ => none)]
  unfold each
  induction rs generalizing h with
  | nil => rfl
  | cons r rs ih => exact ih (h.setGap r none)

/-- Two series agree where their steps do, as long as the second keeps what they agree by. -/
theorem each_congr {α : Type} {P : Hall → Prop} {f g : α → Hall → Hall} (l : List α) (hf : ∀ a x, P x → f a x = g a x)
    (hg : ∀ a x, P x → P (g a x)) (hp : P h) : h.each l f = h.each l g := by
  unfold each
  induction l generalizing h with
  | nil => rfl
  | cons a l ih =>
    rw [List.foldl_cons, List.foldl_cons, hf a h hp]
    exact ih (hg a h hp)

/-! ## The stages of the regrouping -/

/-- The queue gathered for new room `r` of partition `p` (R40, step 1). -/
def gathering (p : Partition) (h : Hall) (r : Nat) : List Nat :=
  sortBy (fun u v => h.older (h.requestKey u) (h.requestKey v))
    (units.filter (fun u => (h.run u).state = FloorState.waiting ∧ (h.setPartition p).roomOfUnit u = r))

/-- The new rooms of partition `p` after `old`. -/
def madeRooms (old p : Partition) : List Nat := (roomIds p).filter (fun r => !unchangedRoom p old r)

def gathered (p : Partition) (h : Hall) : Hall := { h.setPartition p with
  floor.queues := tmapIdx h.floor.queues (fun r q =>
    if r ∈ madeRooms h.part.inForce p then h.gathering p r else if r ∈ changedRooms h.part.inForce p then [] else q) }

theorem gather_eq (p : Partition) (h : Hall) :
    ((h.setPartition p).each (changedRooms h.part.inForce p) (fun r => setQueue r [])).each (madeRooms h.part.inForce p)
      gatherQueue = h.gathered p := by
  have hgather : ∀ r g, (∃ x, g = { h.setPartition p with floor.queues := x }) → gatherQueue r g = setQueue r (h.gathering p r) g := by
    rintro r _ ⟨x, rfl⟩
    have hfilter : units.filter (fun u => (h.run u).state == .waiting && (h.setPartition p).roomOfUnit u == r) =
        units.filter (fun u => (h.run u).state = FloorState.waiting ∧ (h.setPartition p).roomOfUnit u = r) :=
      List.filter_congr fun u _ => by rw [Bool.decide_and, beq_eq_decide, beq_eq_decide]
    rw [gathering, ← hfilter]
    rfl
  have hkeeps : ∀ r g, (∃ x, g = { h.setPartition p with floor.queues := x }) →
      ∃ x, setQueue r (h.gathering p r) g = { h.setPartition p with floor.queues := x } := by
    rintro r _ ⟨x, rfl⟩
    exact ⟨_, rfl⟩
  rw [each_setQueue, each_congr _ hgather hkeeps ⟨_, rfl⟩, each_setQueue, gathered]
  exact congrArg (fun x => { h.setPartition p with floor.queues := x }) (tmapIdx_tmapIdx _ _ _)

/-- The queues of the new rooms cut at their limits, and ended where the floor mode keeps none (R40, steps 2 and 3). -/
def trimmed (p : Partition) (h : Hall) : Hall := (h.gathered p).each (madeRooms h.part.inForce p) (fun r x =>
  let cut := x.dropped ((x.queue r).drop (h.settings r).queueLimit)
  if (h.settings r).floorMode ∈ [FloorMode.queue, .operator] then cut else cut.dropped (cut.queue r))

theorem keepsQueue_iff (m : FloorMode) : keepsQueue m = true ↔ m ∈ [FloorMode.queue, .operator] := by
  cases m <;> decide

theorem trim_eq {rd : Reader} (hr : rd.Idle) (hm : h.mem.ReadsFindNothing) (p : Partition) :
    (h.gathered p).each (madeRooms h.part.inForce p) (trimQueue rd) = h.trimmed p := by
  refine each_congr (P := fun g => g.mem = h.mem) _ (fun r x hx => ?_) (fun r x hx => ?_) rfl
  · have hcut := cutQueue_eq hr hm hx r
    have hclean : (x.dropped ((x.queue r).drop (h.settings r).queueLimit)).mem.ReadsFindNothing := by
      rw [dropped_mem, hx]
      exact hm
    have hsettings := settings_of_mem ((dropped_mem ((x.queue r).drop (h.settings r).queueLimit) x).trans hx) r
    rw [trimQueue, idle_settings hr (hx ▸ hm), hcut]
    dsimp only
    rw [hsettings, idle_dropQueue hr hclean]
    exact if_congr (keepsQueue_iff _) rfl rfl
  · exact keeps_ite (P := fun g => g.mem = h.mem) ((dropped_mem _ _).trans hx) ((dropped_mem _ _).trans ((dropped_mem _ _).trans hx))

theorem trimmed_mem (p : Partition) (h : Hall) : (h.trimmed p).mem = h.mem :=
  each_keeps (P := fun g => g.mem = h.mem) (fun _ _ hx =>
    keeps_ite (P := fun g => g.mem = h.mem) ((dropped_mem _ _).trans hx) ((dropped_mem _ _).trans ((dropped_mem _ _).trans hx))) rfl

/-- The units with a new queue position marked, and the gap timers of the changed rooms stopped (R41, R40). -/
def stopped (p : Partition) (h : Hall) : Hall := { h.trimmed p with
  floor.dirty := tmapIdx (h.trimmed p).floor.dirty (fun i d =>
    d || (h.known (i + 1) && h.queuePosition (i + 1) != (h.trimmed p).queuePosition (i + 1)))
  floor.gaps := tmapIdx (h.trimmed p).floor.gaps (fun r x => if r ∈ changedRooms h.part.inForce p then none else x) }

theorem stop_eq (p : Partition) (h : Hall) :
    ((h.trimmed p).each (units.filter (fun u => h.queuePosition u != (h.trimmed p).queuePosition u)) mark).each
      (changedRooms h.part.inForce p) (fun r h => h.setGap r none) = h.stopped p := by
  have hknown : (h.trimmed p).known = h.known := by
    funext u
    rw [known, known, record, record, trimmed_mem]
  have hdirty : (h.trimmed p).dirtyWith (units.filter (fun u => h.queuePosition u != (h.trimmed p).queuePosition u)) =
      tmapIdx (h.trimmed p).floor.dirty (fun i d =>
        d || (h.known (i + 1) && h.queuePosition (i + 1) != (h.trimmed p).queuePosition (i + 1))) := by
    rw [dirtyWith_eq, hknown]
    apply table_ext
    intro i hi
    rw [tget_tmapIdx_of_lt _ _ hi, tget_tmapIdx_of_lt _ _ hi]
    have hunit : i + 1 ∈ units := mem_units_of_bounds (by omega)
    have hmem : (units.filter (fun u => h.queuePosition u != (h.trimmed p).queuePosition u)).contains (i + 1) =
        (h.queuePosition (i + 1) != (h.trimmed p).queuePosition (i + 1)) := by
      rw [Bool.eq_iff_iff, List.contains_iff_mem, List.mem_filter]
      exact and_iff_right hunit
    rw [hmem, Bool.and_comm]
  rw [each_mark, hdirty]
  exact each_setGap _ _

/-- The position holders beyond max speakers closed, and the new rooms served (R40, steps 4 to 6). -/
def regrouped (p : Partition) (h : Hall) : Hall :=
  let us := (madeRooms h.part.inForce p).flatMap (h.stopped p).excess
  let closed := ((h.stopped p).closeAll reader .resize us).arbiterRuns reader ((h.stopped p).slotsFreed us)
  closed.each (closed.oldestHeadFirst (madeRooms h.part.inForce p)) (service reader)

theorem regroup_eq (hm : h.mem.ReadsFindNothing) (p : Partition) :
    (h.setPartition p).regroup reader h.part.inForce h.queuePosition = h.regrouped p := by
  have hr : reader.Idle := reader_idle
  have htrim := trim_eq hr hm p
  have hstopped : (h.stopped p).mem.ReadsFindNothing := by
    show (h.trimmed p).mem.ReadsFindNothing
    rw [trimmed_mem]
    exact hm
  have hgathered : (h.gathered p).mem.ReadsFindNothing := hm
  unfold regroup regrouped
  generalize reader = rd at hr htrim ⊢
  have hread : (h.gathered p).each (madeRooms h.part.inForce p) (fun r g => g.readAll rd.delegate (g.queue r)) = h.gathered p :=
    readAll_eq (read := fun r g => g.readAll rd.delegate (g.queue r)) (fun r => idle_readDelegates hr hgathered _) _
  have hpositions : (h.stopped p).each (madeRooms h.part.inForce p) (readPositions rd) = h.stopped p :=
    readAll_eq (idle_readPositions hr hstopped) _
  have hrooms : (roomIds p).filter (fun r => !unchangedRoom p h.part.inForce r) = madeRooms h.part.inForce p := rfl
  have hpart : (h.setPartition p).part.inForce = p := rfl
  rw [hpart]
  dsimp only
  rw [hrooms, gather_eq, hread, htrim, stop_eq, hpositions]

end Hall

end Sys2Proof.Machine

/-! SUPPORT. The LANGUAGE claims at the partition change event, as the statements say it (R86), and the lengths of the plans handed
over, which only the hand-over itself sees (R85). -/

namespace Sys2Proof.Machine

namespace Hall

variable {h g : Hall}

/-! ## The lengths of the plans handed over -/

def withLengths (l : Vector Nat 8) (h : Hall) : Hall := { h with slots.planLength := l }

/-- The operation acts alike whatever lengths were handed over. -/
def Lengthless (f : Hall → Hall) : Prop := ∀ l h, f (h.withLengths l) = (f h).withLengths l

theorem lengthless_of_blind {f : Hall → Hall} (hf : ∀ w l, Blind w (some l) f) (hcmd : ∀ h, (f h).cmd = h.cmd) : Lengthless f := by
  intro l h
  have hveiled : h.withLengths l = h.veiled h.cmd.supervision.window (some l) := rfl
  rw [hveiled, hf, ← hcmd h]
  rfl

theorem lengthless_each {α : Type} {f : α → Hall → Hall} (hf : ∀ a, Lengthless (f a)) (as : List α) (l : Vector Nat 8) (h : Hall) :
    (h.withLengths l).each as f = (h.each as f).withLengths l := by
  unfold each
  induction as generalizing h with
  | nil => rfl
  | cons a as ih => rw [List.foldl_cons, List.foldl_cons, hf, ih]

theorem lengthless_makeClaim (c : Claim) : Lengthless (makeClaim c) :=
  lengthless_of_blind (fun _ _ => blind_makeClaim c) fun h => keeps_makeClaim (cmdAt_closed h.cmd).toClosedSlots rfl

/-! ## The claims of the new rooms (R86, step 3) -/

theorem each_append {α : Type} (f : α → Hall → Hall) (l k : List α) (h : Hall) : h.each (l ++ k) f = (h.each l f).each k f :=
  List.foldl_append

/-- The rules that make, release and evaluate leave the room plans. -/
theorem plansOf_closed (x : Vector (List Nat) 8) : ClosedSlots (fun h => h.router.plans = x) where
  post _ _ _ _ _ _ _ hp := hp
  held _ _ _ _ hp := hp
  notices _ _ _ hp := hp
  slots _ _ _ hp := hp

/-- The claims of a plan of length `n` for room `r`, channels ascending. -/
def claimsOf (r n : Nat) : List Claim := (List.range n).map (fun i => .language r (i + 1))

theorem claimLanguages_eq {r n : Nat} (hn : (h.plan r).length = n) : h.claimLanguages r =
    (h.each (claimsOf r n) makeClaim).withLengths (tset h.slots.planLength r n) := by
  have hkept : (h.each (claimsOf r n) makeClaim).slots.planLength = h.slots.planLength :=
    each_keeps (P := fun x => x.slots.planLength = h.slots.planLength) (fun c x hx => (makeClaim_planLength c x).trans hx) rfl
  have hchannels : channelsBetween 0 n = (List.range n).map (· + 1) := by
    rw [channelsBetween, Nat.sub_zero]
  have hclaims : h.each (channelsBetween 0 n) (fun c => makeClaim (.language r c)) = h.each (claimsOf r n) makeClaim := by
    rw [hchannels, claimsOf, each_map, each_map]
  rw [claimLanguages, hn, hclaims, setPlanLength, hkept]
  rfl

theorem each_claimLanguages (n : Nat → Nat) (rs : List Nat) (h : Hall) (hn : ∀ r, (h.plan r).length = n r) : h.each rs claimLanguages =
    (h.each (rs.flatMap fun r => claimsOf r (n r)) makeClaim).withLengths
      (rs.foldl (fun t r => tset t r (n r)) h.slots.planLength) := by
  induction rs generalizing h with
  | nil => rfl
  | cons r rs ih =>
    have hplans : (h.each (claimsOf r (n r)) makeClaim).router.plans = h.router.plans :=
      each_keeps (P := fun x => x.router.plans = h.router.plans) (fun c _ => keeps_makeClaim (plansOf_closed h.router.plans)) rfl
    have hrest : ∀ r', (((h.each (claimsOf r (n r)) makeClaim).withLengths (tset h.slots.planLength r (n r))).plan r').length = n r' :=
      fun r' => by
        rw [← hn r', plan, plan, ← hplans]
        rfl
    have hstep : h.each (r :: rs) claimLanguages = (h.claimLanguages r).each rs claimLanguages := rfl
    rw [hstep, claimLanguages_eq (hn r), ih _ hrest, lengthless_each lengthless_makeClaim, List.flatMap_cons, each_append]
    rfl

/-! ## The claims of the changed rooms (R86, steps 1 and 2) -/

theorem each_setPlanLength (rs : List Nat) (h : Hall) : h.each rs (fun r => setPlanLength r 0) =
    h.withLengths (rs.foldl (fun t r => tset t r 0) h.slots.planLength) := by
  unfold each
  induction rs generalizing h with
  | nil => rfl
  | cons r rs ih => exact ih (h.setPlanLength r 0)

theorem heldLanguages_eq (rs : List Nat) (h : Hall) :
    h.heldLanguages rs = (h.slots.pool.toList.filterMap id).filter (languageOf rs) := by
  unfold heldLanguages
  generalize h.slots.pool.toList = l
  induction l with
  | nil => rfl
  | cons o l ih =>
    cases o with
    | none => exact ih
    | some c =>
      by_cases hc : languageOf rs c = true
      · simp [hc, ih]
      · simp [hc, ih]

/-- The waiting claims of some rooms end, and the slots of the others go on (R86). -/
def claimsFreed (gone : List Nat) (h : Hall) : Hall :=
  { h with slots.waitList := h.slots.waitList.filter (fun x => !languageOf gone x) }.each
    ((h.slots.pool.toList.filterMap id).filter (languageOf gone)) releaseClaim

theorem regroupClaims_eq (gone new : List Nat) (h : Hall) : h.regroupClaims gone new =
    ((h.claimsFreed gone).each (h.languageClaims new) makeClaim).withLengths
      (tmapIdx h.slots.planLength (fun r n => if r ∈ new then (h.plan r).length else if r ∈ gone then 0 else n)) := by
  have hplans : (h.claimsFreed gone).router.plans = h.router.plans :=
    each_keeps (P := fun x => x.router.plans = h.router.plans) (fun c _ => keeps_releaseClaim (plansOf_closed h.router.plans)) rfl
  have hlengths : (h.claimsFreed gone).slots.planLength = h.slots.planLength :=
    each_keeps (P := fun x => x.slots.planLength = h.slots.planLength) (fun c x hx => (releaseClaim_planLength c x).trans hx) rfl
  have hn : ∀ r, (((h.claimsFreed gone).withLengths (gone.foldl (fun t r => tset t r 0) h.slots.planLength)).plan r).length =
      (h.plan r).length := fun r => by
    rw [plan, plan, ← hplans]
    rfl
  have hfreed : ({ h with slots.waitList := h.slots.waitList.filter (fun c => !languageOf gone c) } : Hall).each
      (({ h with slots.waitList := h.slots.waitList.filter (fun c => !languageOf gone c) } : Hall).heldLanguages gone) releaseClaim =
      h.claimsFreed gone := by
    rw [heldLanguages_eq]
    rfl
  have hclaims : h.languageClaims new = new.flatMap fun r => claimsOf r (h.plan r).length := rfl
  have htable : new.foldl (fun t r => tset t r (h.plan r).length) (gone.foldl (fun t r => tset t r 0) h.slots.planLength) =
      tmapIdx h.slots.planLength (fun r n => if r ∈ new then (h.plan r).length else if r ∈ gone then 0 else n) := by
    rw [foldl_tset (fun r => (h.plan r).length), foldl_tset (fun _ => 0), tmapIdx_tmapIdx]
  unfold regroupClaims
  dsimp only
  rw [hfreed, each_setPlanLength, hlengths, each_claimLanguages _ _ _ hn, lengthless_each lengthless_makeClaim, hclaims]
  exact congrArg (fun l => withLengths l (each (new.flatMap fun r => claimsOf r (h.plan r).length) makeClaim (h.claimsFreed gone)))
    htable

end Hall

end Sys2Proof.Machine

/-! SUPPORT. The Router at the partition change event, as the statements say it (R74, R86). -/

namespace Sys2Proof.Machine

namespace Hall

variable {h g : Hall}

/-! ## The room plans of the new rooms (R63) -/

theorem eventsAfter_append (h : Hall) (a b : List Event) :
    h.eventsAfter (a ++ b) = b.foldl (fun q e => q.push h.frameCounter e) (h.eventsAfter a) := List.foldl_append

/-- The hall with the plans of some rooms computed, and the events of the codes cut. -/
def planned (rs : List Nat) (h : Hall) : Hall := { h with
  router.plans := tmapIdx h.router.plans (fun r l => if r ∈ rs then h.planOf r else l)
  events := h.eventsAfter (rs.flatMap h.dropEvents) }

theorem planOf_of_seated (hg : h.SeatedAs g) (r : Nat) : g.planOf r = h.planOf r := by
  obtain ⟨hmem, hpart⟩ := hg
  have hplans : g.homePlan = h.homePlan := by
    funext s
    rw [homePlan, homePlan, planRecord, planRecord, hmem]
  rw [planOf, planOf, hpart, hplans]

theorem dropEvents_of_seated (hg : h.SeatedAs g) (hclock : g.frameCounter = h.frameCounter) (r : Nat) :
    g.dropEvents r = h.dropEvents r := by
  obtain ⟨hmem, hpart⟩ := hg
  have hplans : g.homePlan = h.homePlan := by
    funext s
    rw [homePlan, homePlan, planRecord, planRecord, hmem]
  rw [dropEvents, dropEvents, codesCut, codesCut, hpart, hplans, hclock]

theorem each_computePlan (rs : List Nat) (h : Hall) : h.each rs computePlan = h.planned rs := by
  induction rs generalizing h with
  | nil =>
    have hsame : tmapIdx h.router.plans (fun r l => if r ∈ ([] : List Nat) then h.planOf r else l) = h.router.plans :=
      tmapIdx_eq_self fun i _ => by simp
    rw [planned, hsame]
    rfl
  | cons r rs ih =>
    have hstep : h.each (r :: rs) computePlan = (h.computePlan r).each rs computePlan := rfl
    have hseated : h.SeatedAs (h.computePlan r) := by
      rw [computePlan_eq]
      exact ⟨rfl, rfl⟩
    have hclock : (h.computePlan r).frameCounter = h.frameCounter := by rw [computePlan_eq]
    have hplan : (h.computePlan r).planOf = h.planOf := funext (planOf_of_seated hseated)
    have hdrop : (h.computePlan r).dropEvents = h.dropEvents := funext (dropEvents_of_seated hseated hclock)
    have hplans : tmapIdx (tset h.router.plans r (h.planOf r)) (fun r l => if r ∈ rs then h.planOf r else l) =
        tmapIdx h.router.plans (fun x l => if x ∈ r :: rs then h.planOf x else l) := by
      apply table_ext
      intro i hi
      rw [tget_tmapIdx_of_lt _ _ hi, tget_tmapIdx_of_lt _ _ hi, tget_tset]
      by_cases hr : r = i
      · subst hr
        simp [hi]
      · simp [hr, Ne.symm hr]
    have hevents : ((rs.flatMap h.dropEvents).foldl (fun q e => q.push h.frameCounter e) (h.eventsAfter (h.dropEvents r))) =
        h.eventsAfter ((r :: rs).flatMap h.dropEvents) := by
      rw [List.flatMap_cons, eventsAfter_append]
    rw [hstep, ih, planned, hplan, hdrop, planned, ← hplans, ← hevents, computePlan_eq]
    rfl

/-- A room of the old partition whose number is none of the new is changed (R10). -/
theorem gone_eq (old p : Partition) :
    (changedRooms old p).filter (fun r => !isRoomId p r) = (roomIds old).filter (fun r => !isRoomId p r) := by
  rw [changedRooms, List.filter_filter]
  refine List.filter_congr fun r _ => ?_
  unfold unchangedRoom
  cases isRoomId p r <;> simp

/-! ## The notices of booths and sections -/

theorem each_markBooth (bs : List Nat) (h : Hall) : h.each bs markBooth =
    { h with router.boothDirty := tmapIdx h.router.boothDirty (fun b d => d || decide (b ∈ bs)) } := by
  have htable : bs.foldl (fun t b => tset t b true) h.router.boothDirty =
      tmapIdx h.router.boothDirty (fun b d => d || decide (b ∈ bs)) := by
    rw [foldl_tset (fun _ => true)]
    apply table_ext
    intro i hi
    rw [tget_tmapIdx_of_lt _ _ hi, tget_tmapIdx_of_lt _ _ hi]
    by_cases hb : i ∈ bs <;> simp [hb]
  have hseries : ∀ h : Hall, h.each bs markBooth =
      { h with router.boothDirty := bs.foldl (fun t b => tset t b true) h.router.boothDirty } := by
    unfold each
    clear htable
    induction bs with
    | nil => exact fun _ => rfl
    | cons b bs ih => exact fun h => ih (h.markBooth b)
  rw [hseries, htable]

theorem each_markSection (ss : List Nat) (h : Hall) : h.each ss markSection =
    { h with router.channelDirty := tmapIdx h.router.channelDirty (fun i d => d || decide (i / 9 ∈ ss)) } := by
  induction ss generalizing h with
  | nil =>
    have hsame : tmapIdx h.router.channelDirty (fun i d => d || decide (i / 9 ∈ ([] : List Nat))) = h.router.channelDirty :=
      tmapIdx_eq_self fun i _ => by simp
    rw [hsame]
    rfl
  | cons s ss ih =>
    have hstep : h.each (s :: ss) markSection = (h.markSection s).each ss markSection := rfl
    have htable : tmapIdx (h.markSection s).router.channelDirty (fun i d => d || decide (i / 9 ∈ ss)) =
        tmapIdx h.router.channelDirty (fun i d => d || decide (i / 9 ∈ s :: ss)) := by
      apply table_ext
      intro i hi
      rw [tget_tmapIdx_of_lt _ _ hi, tget_tmapIdx_of_lt _ _ hi]
      show (tget ((List.range 9).foldl (fun d c => tset d (9 * s + c) true) h.router.channelDirty) i || decide (i / 9 ∈ ss)) = _
      have hplace : (∃ c ∈ List.range 9, 9 * s + c = i) ↔ i / 9 = s := by
        constructor
        · rintro ⟨c, hc, rfl⟩
          have := List.mem_range.mp hc
          omega
        · rintro rfl
          exact ⟨i % 9, List.mem_range.mpr (Nat.mod_lt _ (by decide)), by omega⟩
      rw [tget_foldl_mark (fun c => 9 * s + c) _ _ hi, decide_eq_decide.mpr hplace, Bool.or_assoc, ← Bool.decide_or]
      simp only [List.mem_cons]
    rw [hstep, ih, htable]
    rfl

/-! ## The Router's reaction (R74) -/

theorem lengthless_evaluate (led : Nat → Led) (r : Nat) : Lengthless (evaluate .still led r) :=
  lengthless_of_blind (fun _ _ => blind_evaluate led r) fun h => keeps_evaluate (cmdAt_closed h.cmd).toClosedSlots still_keeps rfl

theorem relayCheck_cmd (h : Hall) : (h.relayCheck .still).cmd = h.cmd :=
  keeps_relayCheck (P := fun x => x.cmd = h.cmd) (cmdAt_closed h.cmd).toClosedRooms still_keeps rfl

theorem lengthless_relayCheck : Lengthless (relayCheck .still) := lengthless_of_blind (fun _ _ => blind_relayCheck) relayCheck_cmd

theorem relaysChecked_withLengths (hm : h.Clean) (l : Vector Nat 8) :
    (h.withLengths l).relaysChecked = h.relaysChecked.withLengths l := by
  rw [← relayCheck_eq still_idle hm, ← relayCheck_eq (h := h.withLengths l) still_idle hm, lengthless_relayCheck]

theorem relaysChecked_seated (hm : h.Clean) (hg : h.SeatedAs g) : h.SeatedAs g.relaysChecked := by
  rw [← relayCheck_eq still_idle (hg.1 ▸ hm)]
  exact keeps_relayCheck (seated_closed h) still_keeps hg

/-- The assignments of the new rooms are evaluated, with the leads as records and partition give them. -/
theorem each_reassess {rd : Reader} (hr : rd.Idle) (hm : h.Clean) (hg : h.SeatedAs g) (rs : List Nat) : g.each rs (reassess rd) =
    g.each rs (fun r x => x.evaluate rd (fun b => ⟨h.roomOfBooth b, (h.booth b).language⟩) r) := by
  refine each_congr (P := h.SeatedAs) _ (fun r x hx => ?_) (fun r x hx => ?_) hg
  · rw [reassess, ledNow_of_seated hx]
  · exact keeps_evaluate (seated_closed h).toClosedSlots (idle_keeps_seated hr hm) hx

theorem each_evaluate_withLengths (hm : h.Clean) (led : Nat → Led) (rs : List Nat) (l : Vector Nat 8) :
    (h.withLengths l).each rs (fun r x => x.evaluate reader led r) =
      (h.each rs (fun r x => x.evaluate reader led r)).withLengths l := by
  have hstill : ∀ x : Hall, x.Clean → x.each rs (fun r x => x.evaluate reader led r) = x.each rs (fun r x => x.evaluate .still led r) :=
    fun x hx => each_agree rs (fun _ _ hc => evaluate_still reader_idle hc)
      (fun _ _ hc => keeps_evaluate clean_closed.toClosedSlots still_keeps hc) hx
  rw [hstill h hm, hstill (h.withLengths l) hm]
  exact lengthless_each (fun r => lengthless_evaluate led r) rs l h

/-- The room plans at the partition change event: those of the new rooms computed, those of the rooms gone empty. -/
def replannedFor (old : Partition) (h : Hall) : Hall := { h with
  router.plans := tmapIdx h.router.plans (fun r l => if r ∈ madeRooms old h.part.inForce then h.planOf r
    else if r ∈ (roomIds old).filter (fun r => !isRoomId h.part.inForce r) then [] else l)
  events := h.eventsAfter ((madeRooms old h.part.inForce).flatMap h.dropEvents) }

theorem replanFor_eq (old : Partition) (h : Hall) :
    (h.each ((changedRooms old h.part.inForce).filter (fun r => !isRoomId h.part.inForce r))
      (fun r h => { h with router.plans := tset h.router.plans r [] })).each (madeRooms old h.part.inForce) computePlan =
    h.replannedFor old := by
  have hemptied : ∀ (rs : List Nat) (h : Hall), h.each rs (fun r h => { h with router.plans := tset h.router.plans r [] }) =
      { h with router.plans := tmapIdx h.router.plans (fun r l => if r ∈ rs then [] else l) } := by
    intro rs h
    rw [← foldl_tset (fun _ => [])]
    unfold each
    induction rs generalizing h with
    | nil => rfl
    | cons r rs ih => exact ih { h with router.plans := tset h.router.plans r [] }
  rw [gone_eq, hemptied, each_computePlan, planned]
  exact congrArg (fun x => { h with router.plans := x, events := h.eventsAfter ((madeRooms old h.part.inForce).flatMap h.dropEvents) })
    (tmapIdx_tmapIdx _ _ _)

/-- The claims regrouped, but for the lengths handed over (R86). -/
def reclaimed (old : Partition) (h : Hall) : Hall :=
  ((h.replannedFor old).claimsFreed (changedRooms old h.part.inForce ++
    (madeRooms old h.part.inForce).filter (fun r => !(changedRooms old h.part.inForce).contains r))).each
      ((h.replannedFor old).languageClaims (madeRooms old h.part.inForce)) makeClaim

/-- The Router after its reaction, but for the notices and the lengths handed over. -/
def rerouted (old : Partition) (h : Hall) : Hall :=
  (h.reclaimed old).relaysChecked.each (madeRooms old h.part.inForce)
    (fun r x => x.evaluate reader (fun b => ⟨h.roomOfBooth b, (h.booth b).language⟩) r)

/-- The lengths handed over at the partition change event (R86). -/
def lengthsHanded (old : Partition) (h : Hall) : Vector Nat 8 :=
  tmapIdx h.slots.planLength (fun r n => if r ∈ madeRooms old h.part.inForce then ((h.replannedFor old).plan r).length
    else if r ∈ changedRooms old h.part.inForce then 0 else n)

theorem SeatedAs.clean (hg : h.SeatedAs g) (hm : h.Clean) : g.Clean := by
  rw [Hall.Clean, hg.1]
  exact hm

theorem SeatedAs.withLengths (hg : h.SeatedAs g) (l : Vector Nat 8) : h.SeatedAs (g.withLengths l) := hg

theorem reclaimed_seated (old : Partition) (h : Hall) : h.SeatedAs (h.reclaimed old) :=
  each_keeps (fun _ _ => keeps_makeClaim (seated_closed h).toClosedSlots)
    (each_keeps (fun _ _ => keeps_releaseClaim (seated_closed h).toClosedSlots) ⟨rfl, rfl⟩)

theorem rerouted_seated (hm : h.Clean) (old : Partition) : h.SeatedAs (h.rerouted old) :=
  each_keeps (fun _ _ => keeps_evaluate (seated_closed h).toClosedSlots (idle_keeps_seated reader_idle hm))
    (relaysChecked_seated hm (reclaimed_seated old h))

/-- The plans of the new rooms are computed and the claims regrouped. -/
theorem reclaim_eq {rd : Reader} (hr : rd.Idle) (hm : h.Clean) (old : Partition) :
    ((h.each ((changedRooms old h.part.inForce).filter (fun r => !isRoomId h.part.inForce r))
      (fun r h => { h with router.plans := tset h.router.plans r [] })).each (madeRooms old h.part.inForce)
        (planNewRoom rd)).regroupClaims (changedRooms old h.part.inForce ++
          (madeRooms old h.part.inForce).filter (fun r => !(changedRooms old h.part.inForce).contains r))
        (madeRooms old h.part.inForce) =
      (h.reclaimed old).withLengths (h.lengthsHanded old) := by
  have hplans := replanFor_eq old h
  have hcomputed : ∀ x : Hall, x.Clean → x.each (madeRooms old h.part.inForce) (planNewRoom rd) =
      x.each (madeRooms old h.part.inForce) computePlan := fun x hx =>
    each_agree _ (fun r _ hc => idle_planNewRoom hr hc r) (fun _ _ hc => keeps_computePlan clean_closed.toClosedRooms hc) hx
  have hemptied : (h.each ((changedRooms old h.part.inForce).filter (fun r => !isRoomId h.part.inForce r))
      (fun r h => { h with router.plans := tset h.router.plans r [] })).Clean :=
    each_keeps (P := Hall.Clean) (fun _ _ hc => hc) hm
  have hlengths : tmapIdx (h.replannedFor old).slots.planLength (fun r n =>
      if r ∈ madeRooms old h.part.inForce then ((h.replannedFor old).plan r).length
      else if r ∈ changedRooms old h.part.inForce ++
        (madeRooms old h.part.inForce).filter (fun r => !(changedRooms old h.part.inForce).contains r) then 0 else n) =
      h.lengthsHanded old := by
    apply table_ext
    intro i hi
    rw [lengthsHanded, tget_tmapIdx_of_lt _ _ hi, tget_tmapIdx_of_lt _ _ hi]
    refine if_ctx_congr Iff.rfl (fun _ => rfl) fun hout => if_congr ?_ rfl rfl
    rw [List.mem_append, List.mem_filter]
    exact or_iff_left fun hin => hout hin.1
  rw [hcomputed _ hemptied, hplans, regroupClaims_eq, hlengths]
  rfl

/-- The relays are checked and the new rooms' assignments evaluated. -/
theorem reroute_eq (hm : h.Clean) (old : Partition) (l : Vector Nat 8) :
    (((h.reclaimed old).withLengths l).relayCheck reader).each (madeRooms old h.part.inForce) (reassess reader) =
      (h.rerouted old).withLengths l := by
  have hseated := reclaimed_seated old h
  have hclean := (hseated.withLengths l).clean hm
  have hchecked := relaysChecked_seated hm hseated
  rw [relayCheck_eq reader_idle hclean, relaysChecked_withLengths (hseated.clean hm),
    each_reassess reader_idle hm (hchecked.withLengths l), each_evaluate_withLengths (hchecked.clean hm), rerouted]

/-- The notices of the changed sections and of their booths (R74, step 5). -/
theorem noticesRegrouped_eq (hg : h.SeatedAs g) (ss : List Nat) :
    (g.each (boothNumbers.filter (fun b => ss.contains (g.booth b).home)) markBooth).each ss markSection = { g with
      router.boothDirty := tmapIdx g.router.boothDirty (fun b d => d || (h.booth b).home ∈ ss)
      router.channelDirty := tmapIdx g.router.channelDirty (fun i d => d || i / 9 ∈ ss) } := by
  have hbooth : g.booth = h.booth := funext (booth_of_seated hg)
  have hbooths : tmapIdx g.router.boothDirty (fun b d => d || decide (b ∈ boothNumbers.filter (fun b => ss.contains (h.booth b).home))) =
      tmapIdx g.router.boothDirty (fun b d => d || (h.booth b).home ∈ ss) := by
    apply table_ext
    intro b hb
    rw [tget_tmapIdx_of_lt _ _ hb, tget_tmapIdx_of_lt _ _ hb]
    have hnumber : b ∈ boothNumbers := List.mem_range.mpr hb
    simp [hnumber]
  rw [hbooth, each_markBooth, each_markSection, hbooths]

theorem regroupRouter_eq (hm : h.Clean) (old : Partition) : h.regroupRouter reader old =
    { h.rerouted old with
      router.boothDirty := tmapIdx (h.rerouted old).router.boothDirty (fun b d =>
        d || (h.booth b).home ∈ changedSections old h.part.inForce)
      router.channelDirty := tmapIdx (h.rerouted old).router.channelDirty (fun i d =>
        d || i / 9 ∈ changedSections old h.part.inForce)
      slots.planLength := h.lengthsHanded old } := by
  have hrooms : h.newRooms old = madeRooms old h.part.inForce := rfl
  have hlengths := (rerouted_seated hm old).withLengths (h.lengthsHanded old)
  unfold regroupRouter
  dsimp only
  rw [idle_readAllBooths reader_idle hm, hrooms, reclaim_eq reader_idle hm, reroute_eq hm, noticesRegrouped_eq hlengths]
  rfl

end Hall

end Sys2Proof.Machine

/-! SUPPORT. The partition change event as the statements say it (R109), and the start test after it (R106). -/

namespace Sys2Proof.Machine

namespace Hall

variable {h g : Hall}

/-! ## The microphone targets of some rooms (R96) -/

/-- The microphone gain points once the speakers of some rooms are aimed at, in turn. -/
def aimedAll (h : Hall) (rs : List Nat) (mics : Vector GainPoint 24) : Vector GainPoint 24 :=
  rs.foldl (fun m r => h.aimed (h.speakers r).length (h.speakers r) m) mics

theorem each_aimSpeakers (rs : List Nat) (h : Hall) :
    h.each rs aimSpeakers = { h with gains.mics := h.aimedAll rs h.gains.mics } := by
  have hseries : ∀ m, ({ h with gains.mics := m } : Hall).each rs aimSpeakers = { h with gains.mics := h.aimedAll rs m } := by
    induction rs with
    | nil => exact fun _ => rfl
    | cons r rs ih =>
      intro m
      show (({ h with gains.mics := m } : Hall).aimSpeakers r).each rs aimSpeakers = _
      rw [aimSpeakers_eq]
      exact ih _
  exact hseries h.gains.mics

theorem aimedAll_congr (hfloor : g.floor = h.floor) (hseated : h.SeatedAs g) (rs : List Nat) : g.aimedAll rs = h.aimedAll rs := by
  obtain ⟨hmem, hpart⟩ := hseated
  have hrun : g.run = h.run := by
    funext u
    rw [run, run, hfloor]
  have hloaded : g.loaded = h.loaded := by
    funext u
    rw [loaded, loaded, record, record, hmem]
  have hroom : g.roomOfUnit = h.roomOfUnit := by
    funext u
    rw [roomOfUnit, roomOfUnit, roomOfSection, roomOfSection, hloaded, hpart]
  have hspeakers : g.speakers = h.speakers := by
    funext r
    rw [speakers, speakers, hroom]
    refine List.filter_congr fun u _ => ?_
    rw [isSpeaking_eq, isSpeaking_eq, hrun]
  have haimed : g.aimed = h.aimed := by
    funext n us m
    rw [aimed, aimed, hrun, hloaded]
  funext m
  rw [aimedAll, aimedAll, hspeakers, haimed]

/-! ## The Mix Engine's reaction (R96, R101) -/

theorem regroupMix_eq (hm : h.Clean) (old : Partition) : h.regroupMix reader old =
    let gone := (roomIds old).filter (fun r => !isRoomId h.part.inForce r)
    let rooms := tmapIdx h.gains.rooms (fun i x => if i / 9 ∈ gone then { x with target := 128 } else x)
    { h with gains := ⟨h.aimedAll h.rooms h.gains.mics, rooms,
      tmapIdx h.gains.booths (fun b x => { x with target := (tget rooms (9 * h.roomOfBooth b)).target })⟩ } := by
  have hmics : h.each h.rooms (recomputeMics reader) = h.each h.rooms aimSpeakers :=
    each_agree _ (fun r _ hc => idle_recomputeMics reader_idle hc r)
      (fun r x hc => by rw [aimSpeakers_eq]; exact hc) hm
  unfold regroupMix
  rw [hmics, each_aimSpeakers]
  dsimp only
  rw [fadeRooms, each_setRoomFades]
  rfl

/-! ## The partition change event (R109) -/

theorem rerouted_sameBeyondRouter (hm : h.Clean) (old : Partition) : h.SameBeyondRouter (h.rerouted old) := by
  have C := h.sameBeyondRouter_closed
  have hplanned : h.SameBeyondRouter (h.replannedFor old) :=
    sameBeyondRouter_iff.mpr ⟨rfl, rfl, rfl, rfl, rfl, rfl, h.eventsAfter_mask _, rfl, rfl⟩
  have hfreed : h.SameBeyondRouter ((h.replannedFor old).claimsFreed (changedRooms old h.part.inForce ++
      (madeRooms old h.part.inForce).filter (fun r => !(changedRooms old h.part.inForce).contains r))) :=
    each_keeps (fun _ _ => keeps_releaseClaim C) (C.slots _ _ rfl hplanned)
  have hclaimed : h.SameBeyondRouter (h.reclaimed old) := each_keeps (fun _ _ => keeps_makeClaim C) hfreed
  have hchecked := relayCheck_sameBeyondRouter hm hclaimed
  rw [relayCheck_eq reader_idle (hclaimed.clean hm)] at hchecked
  exact each_keeps (fun _ _ => keeps_evaluate C (reader_keeps_sameBeyondRouter hm)) hchecked

theorem regrouped_sameBeyondFloor (hm : h.Clean) (p : Partition) : (h.setPartition p).SameBeyondFloor (h.regrouped p) := by
  have hclean : (h.setPartition p).mem.ReadsFindNothing := hm
  rw [← regroup_eq hm p]
  exact keeps_regroup (sameBeyondFloor_closed _) (reader_keeps_sameBeyondFloor hclean) (sameBeyondFloor_refl _)

/-- The partition change event, by its stages. -/
theorem changePartition_eq_staged (hm : h.Clean) (p : Partition) : h.changePartition reader p =
    let served := h.regrouped p
    let routed := served.rerouted h.part.inForce
    let moved := changedSections h.part.inForce p
    let rooms := tmapIdx h.gains.rooms (fun i x =>
      if i / 9 ∈ (roomIds h.part.inForce).filter (fun r => !isRoomId p r) then { x with target := 128 } else x)
    { routed with
      part := { h.part with inForce := p }
      router.boothDirty := tmapIdx routed.router.boothDirty (fun b d => d || (h.booth b).home ∈ moved)
      router.channelDirty := tmapIdx routed.router.channelDirty (fun i d => d || i / 9 ∈ moved)
      slots.floorActive := tmake 8 (isRoomId p)
      slots.planLength := served.lengthsHanded h.part.inForce
      gains := ⟨(served.each (roomIds p) aimSpeakers).gains.mics, rooms, tmapIdx h.gains.booths (fun b x => { x with
        target := (tget rooms (9 * (h.setPartition p).roomOfBooth b)).target })⟩ } := by
  have hserved := regrouped_sameBeyondFloor hm p
  have hclean : (h.regrouped p).Clean := hserved.clean hm
  have hrouted := rerouted_sameBeyondRouter hclean h.part.inForce
  have hstep : h.changePartition reader p = (((h.regrouped p).regroupRouter reader h.part.inForce).setFloorSlots).regroupMix reader
      h.part.inForce := by
    rw [← regroup_eq hm p]
    rfl
  rw [hstep, regroupRouter_eq hclean]
  dsimp only
  generalize (h.regrouped p).lengthsHanded h.part.inForce = lengths
  generalize h.regrouped p = served at hserved hclean hrouted ⊢
  generalize served.rerouted h.part.inForce = routed at hrouted ⊢
  obtain ⟨-, hpart, hrouter, hslots, hgains, hcmd, hmask, hmem, hstore⟩ := sameBeyondFloor_iff.mp hserved
  obtain ⟨-, hroutedPart, hfloor, -, hroutedGains, -, -, hroutedMem, -⟩ := sameBeyondRouter_iff.mp hrouted
  have hinForce : served.part.inForce = p := congrArg PartitionUnit.inForce hpart
  have hhome : served.booth = h.booth := by
    funext b
    rw [booth, booth, boothRecord, boothRecord, hmem]
    rfl
  rw [hinForce, hhome]
  have hpartition : routed.part = { h.part with inForce := p } := hroutedPart.trans hpart
  set told := setFloorSlots { routed with
    router.boothDirty := tmapIdx routed.router.boothDirty (fun b d => d || (h.booth b).home ∈ changedSections h.part.inForce p)
    router.channelDirty := tmapIdx routed.router.channelDirty (fun i d => d || i / 9 ∈ changedSections h.part.inForce p)
    slots.planLength := lengths } with htold
  have hseated : served.SeatedAs told := ⟨hroutedMem, hroutedPart⟩
  have htoldInForce : told.part.inForce = p := congrArg PartitionUnit.inForce hpartition
  have hmics : told.aimedAll told.rooms told.gains.mics = (served.each (roomIds p) aimSpeakers).gains.mics := by
    have hrooms : told.rooms = roomIds p := congrArg roomIds htoldInForce
    have hpoints : told.gains.mics = served.gains.mics := congrArg GainPoints.mics hroutedGains
    have hheld : told.floor = served.floor := hfloor
    rw [aimedAll_congr hheld hseated, hrooms, hpoints, each_aimSpeakers]
  have hrooms : told.gains.rooms = h.gains.rooms := by
    show routed.gains.rooms = h.gains.rooms
    rw [hroutedGains, hgains]
    rfl
  have hbooths : told.gains.booths = h.gains.booths := by
    show routed.gains.booths = h.gains.booths
    rw [hroutedGains, hgains]
    rfl
  have hroom : told.roomOfBooth = (h.setPartition p).roomOfBooth := funext fun b =>
    (roomOfBooth_of_seated hseated b).trans (roomOfBooth_of_seated ⟨hmem, hpart⟩ b)
  have hslots : told.slots = { routed.slots with floorActive := tmake 8 (isRoomId p), planLength := lengths } := by
    show { routed.slots with floorActive := tmake 8 (fun r => isRoomId routed.part.inForce r), planLength := lengths } = _
    rw [hpartition]
  rw [regroupMix_eq (hseated.clean hclean)]
  dsimp only
  rw [hmics, hrooms, hbooths, hroom, htoldInForce, ← hpartition, hslots]
  rfl

/-- The claims that the partition change event ends are those of the changed rooms and of the new (R86, log 17). -/
theorem languageOf_eq (changed new : List Nat) : languageOf (changed ++ new.filter (fun r => !changed.contains r)) = fun x =>
    match x with
    | .language r _ => r ∈ changed || r ∈ new
    | _ => false := by
  funext x
  cases x with
  | language r k =>
    rw [Bool.eq_iff_iff]
    simp only [languageOf, List.contains_iff_mem, List.mem_append, List.mem_filter, Bool.or_eq_true, decide_eq_true_eq]
    by_cases hr : r ∈ changed <;> simp [hr]
  | leadOut b => rfl
  | feed b => rfl
  | spareOut b => rfl

theorem changePartition_eq (hm : h.Clean) (p : Partition) : h.changePartition reader p = h.partitionTaken p := by
  have hserved := regrouped_sameBeyondFloor hm p
  obtain ⟨hclock, hpart, hrouter, hslots, hgains, hcmd, hmask, hmem, hstore⟩ := sameBeyondFloor_iff.mp hserved
  have hinForce : (h.regrouped p).part.inForce = p := congrArg PartitionUnit.inForce hpart
  have hseated : (h.setPartition p).SeatedAs (h.regrouped p) := ⟨hmem, hpart⟩
  have hplans : (h.regrouped p).planOf = (h.setPartition p).planOf := funext (planOf_of_seated hseated)
  have hevents : (h.regrouped p).dropEvents = (h.setPartition p).dropEvents := funext (dropEvents_of_seated hseated hclock)
  have hrooms : (h.regrouped p).roomOfBooth = (h.setPartition p).roomOfBooth := funext (roomOfBooth_of_seated hseated)
  have hbooths : (h.regrouped p).booth = h.booth := funext (booth_of_seated (h := h.setPartition p) hseated)
  have hheld : (h.regrouped p).router.plans = h.router.plans := congrArg Router.plans hrouter
  have hlengths : (h.regrouped p).slots.planLength = h.slots.planLength := by
    rw [hslots]
    rfl
  rw [changePartition_eq_staged hm]
  dsimp only
  unfold rerouted reclaimed lengthsHanded claimsFreed replannedFor
  rw [hinForce, hplans, hevents, hrooms, hbooths, hheld, hlengths, languageOf_eq]
  unfold partitionTaken regrouped stopped trimmed gathered
  generalize reader = rd
  rfl

/-- The rules do not move the frame counter. -/
theorem clockAt_closed (n : FrameCount) : ClosedRooms (fun h => h.frameCounter = n ∧ h.Clean) where
  post _ _ _ _ _ _ _ hp := hp
  run _ _ _ _ hp := hp
  floor _ _ _ hp := hp
  slot _ _ hp := hp
  mic _ _ _ _ hp := hp
  held _ _ _ _ hp := hp
  notices _ _ _ hp := hp
  slots _ _ _ hp := hp
  plans _ _ hp := hp
  booth _ _ _ hp := hp
  fades _ _ _ _ hp := hp
  sync _ hp := hp

theorem partitionTaken_frameCounter (hm : h.Clean) (p : Partition) : (h.partitionTaken p).frameCounter = h.frameCounter := by
  have K : reader.Keeps (fun g => g.frameCounter = h.frameCounter ∧ g.Clean) := idle_keeps reader_idle fun _ hp => hp.2
  have hkept := keeps_changePartition (clockAt_closed h.frameCounter) K (p := p) (h := h) ⟨rfl, hm⟩
  rw [← changePartition_eq hm]
  exact hkept.1

/-! ## The start test (R106, R107, R115) -/

theorem startRepartition_eq (h : Hall) : h.startRepartition =
    let rs := changedRooms h.part.inForce h.part.effective
    let ss := changedSections h.part.inForce h.part.effective
    { h with
      part.repartition := .fadingOut h.part.effective ss
      gains.rooms := h.roomFades 128 rs, gains.booths := h.boothFades 128 rs
      events := h.events.push h.frameCounter
        ⟨.repartitionStarted, h.frameCounter, 0, wallMap h.part.inForce, wallMap h.part.effective, sectionMap ss⟩ } := by
  unfold startRepartition
  dsimp only
  rw [fadeRooms_eq]
  rfl

theorem startTest_eq (hm : h.Clean) : h.startTest reader = h.startTaken := by
  have hclock := partitionTaken_frameCounter hm h.part.effective
  have hatOnce : h.changeAtOnce reader = { h.partitionTaken h.part.effective with
      events := (h.partitionTaken h.part.effective).events.push h.frameCounter ⟨.repartitionDone, h.frameCounter, 0,
        wallMap h.part.effective, 1, sectionMap (changedSections h.part.inForce h.part.effective)⟩ } := by
    rw [changeAtOnce, changePartition_eq hm, ← hclock]
    rfl
  unfold startTest startTaken
  dsimp only
  rw [hatOnce, startRepartition_eq]
  by_cases hwaits : h.part.effective = h.part.inForce ∨ h.part.repartition ≠ .idle
  · rw [if_pos hwaits, if_pos (hwaits.elim .inl fun hflight => .inr (.inl hflight))]
  · obtain ⟨hsame, hflight⟩ := not_or.mp hwaits
    rw [if_neg hwaits]
    cases hmode : h.cmd.mode with
    | stopping => rw [if_pos (.inr (.inr rfl))]
    | config => rw [if_neg (by simp [hsame, hflight]), if_pos rfl]
    | live => rw [if_neg (by simp [hsame, hflight]), if_neg (by decide)]
    | safe => rw [if_neg (by simp [hsame, hflight]), if_neg (by decide)]

theorem computeWalls_eq (hm : h.Clean) : h.computeWalls reader = h.wallsTaken := by
  have hwalls : h.wallsNow = tmake 7 (fun w => match h.wallOverride w with
      | .follow => (tget h.part.walls w).debounced
      | .forceDeployed => .deployed
      | .forceStowed => .stowed) := by
    rw [wallsNow]
    exact congrArg (tmake 7) (funext fun w => by cases h.wallOverride w <;> rfl)
  have hset : (h.setEffective h.wallsNow).startTest reader = (h.setEffective h.wallsNow).startTaken :=
    startTest_eq (h := h.setEffective h.wallsNow) hm
  unfold computeWalls
  rw [idle_readOverrides reader_idle hm]
  dsimp only
  rw [hset, hwalls]
  rfl

end Hall

end Sys2Proof.Machine

/-! SUPPORT. O25: SET WALL (R8) and the start test (R106). -/

namespace Sys2Proof.Machine

theorem overrideOf_toNat {o : Byte} (ho : o.toNat ≤ 2) : overrideOf o.toNat =
    if o = 0 then .follow else if o = 1 then .forceDeployed else .forceStowed := by
  have hcase : o.toNat = 0 ∨ o.toNat = 1 ∨ o.toNat = 2 := by omega
  obtain hn | hn | hn := hcase <;> simp [BitVec.toNat_eq, hn, overrideOf]

namespace Hall

variable {h : Hall}

/-- The effective walls that overrides and debounced states give (R7). -/
def wallsGiven (h : Hall) : Partition := tmake 7 (fun w => match h.wallOverride w with
  | .follow => (tget h.part.walls w).debounced
  | .forceDeployed => .deployed
  | .forceStowed => .stowed)

theorem wallsTaken_of_same (hsame : h.wallsGiven = h.part.effective) : h.wallsTaken = h := if_pos hsame

theorem wallsTaken_of_changed (hdiff : h.wallsGiven ≠ h.part.effective) :
    h.wallsTaken = (h.setEffective h.wallsGiven).startTaken := if_neg hdiff

theorem startTaken_of_waits (hwaits : h.part.effective = h.part.inForce ∨ h.part.repartition ≠ .idle ∨ h.cmd.mode = .stopping) :
    h.startTaken = h := if_pos hwaits

theorem startTaken_of_config (hwaits : ¬(h.part.effective = h.part.inForce ∨ h.part.repartition ≠ .idle ∨ h.cmd.mode = .stopping))
    (hconfig : h.cmd.mode = .config) : h.startTaken = { h.partitionTaken h.part.effective with
      events := (h.partitionTaken h.part.effective).events.push h.frameCounter ⟨.repartitionDone, h.frameCounter, 0,
        wallMap h.part.effective, 1, sectionMap (changedSections h.part.inForce h.part.effective)⟩ } := by
  unfold startTaken
  dsimp only
  rw [if_neg hwaits, if_pos hconfig]

theorem startTaken_of_open (hwaits : ¬(h.part.effective = h.part.inForce ∨ h.part.repartition ≠ .idle ∨ h.cmd.mode = .stopping))
    (hopen : h.cmd.mode ≠ .config) : h.startTaken = h.startRepartition := by
  unfold startTaken
  dsimp only
  rw [if_neg hwaits, if_neg hopen, startRepartition_eq]

theorem startTaken_effective (h : Hall) : h.startTaken.part.effective = h.part.effective := by
  by_cases hwaits : h.part.effective = h.part.inForce ∨ h.part.repartition ≠ .idle ∨ h.cmd.mode = .stopping
  · rw [startTaken_of_waits hwaits]
  · by_cases hconfig : h.cmd.mode = .config
    · rw [startTaken_of_config hwaits hconfig]
      rfl
    · rw [startTaken_of_open hwaits hconfig, startRepartition_eq]

theorem wallsTaken_effective (h : Hall) : h.wallsTaken.part.effective = h.wallsGiven := by
  by_cases hsame : h.wallsGiven = h.part.effective
  · rw [wallsTaken_of_same hsame, hsame]
  · rw [wallsTaken_of_changed hsame, startTaken_effective]
    rfl

theorem wallsTaken_mem (hm : h.Clean) : h.wallsTaken.mem = h.mem := by
  have K : reader.Keeps (fun g => g.mem = h.mem) := idle_keeps reader_idle fun g hg => by rw [hg]; exact hm
  rw [← computeWalls_eq hm]
  exact keeps_computeWalls (memAt_closed h.mem).toClosedPart K rfl

theorem wallsTaken_veiled (hm : h.Clean) (w : Nat) : (h.veiled w none).wallsTaken = h.wallsTaken.veiled w none := by
  rw [← computeWalls_eq hm, ← computeWalls_eq (h := h.veiled w none) hm]
  exact reader_veiled (f := computeWalls) hm (fun _ hg => computeWalls_still reader_idle hg) blind_computeWalls

/-! ## SET WALL (R8) -/

theorem setWall_eq (hm : h.Clean) (w ovr : Nat) : h.setWall reader w ovr =
    if 6 < w then (h, .check .fieldOutOfRange 1)
    else if 2 < ovr then (h, .check .fieldOutOfRange 2)
    else ((h.writeOverride w (overrideOf ovr)).wallsTaken, .good .none 0 {}) := by
  have hacted := computeWalls_eq (h.writeOverride_clean hm w (overrideOf ovr))
  unfold setWall
  simp only [fieldAbove_cons, fieldAbove_nil]
  rw [hacted]
  split_ifs <;> rfl

theorem setWall_veiled (hm : h.Clean) (n ovr w : Nat) :
    (h.veiled w none).setWall reader n ovr = (h.setWall reader n ovr).map (veiled w none) id := by
  have hacted : ((h.veiled w none).writeOverride n (overrideOf ovr)).wallsTaken =
      (h.writeOverride n (overrideOf ovr)).wallsTaken.veiled w none := wallsTaken_veiled (h.writeOverride_clean hm _ _) w
  rw [setWall_eq hm, setWall_eq (h := h.veiled w none) hm, hacted]
  split_ifs <;> rfl

end Hall

/-- Settles O25: the rule of SET WALL is `Hall.setWall_eq`, what follows the write is `Hall.wallsTaken`, and the start test is
`Hall.startTest_eq`. -/
theorem setWallWrites : Obligations.SetWallWrites := by
  refine ⟨fun s hd wall ovr hr hm => ?_, fun h hm => ⟨Hall.startTest_eq hm, Hall.computeWalls_eq hm⟩⟩
  intro c h o written p waits rs ss
  have hclean : written.mem.ReadsFindNothing := h.writeOverride_clean hm wall.toNat o
  have hgiven : written.wallsGiven = p := rfl
  rw [exec_of_command (x := .setWall wall ovr) rfl,
    Chip.commandRow_of_veiled (x := .setWall wall ovr) hr rfl rfl nofun rfl (fun w => Hall.setWall_veiled hm _ _ w),
    Hall.setWall_eq (h := s.chip.hall) hm]
  refine ⟨fun hfails => ?_, fun ⟨hwall, hovr⟩ => ?_⟩
  · congr 2
    by_cases hwall : 6 < wall.toNat
    · rw [if_pos hwall, if_pos hwall]
    · rw [if_neg hwall, if_neg hwall, if_pos (hfails.resolve_left hwall)]
  · refine ⟨written.wallsTaken, ?_, Hall.wallsTaken_mem hclean, written.wallsTaken_effective, fun hsame => ?_,
      fun ⟨hdiff, hwaits⟩ => ?_, fun ⟨hdiff, hwaits, hmode⟩ => ?_, fun ⟨hdiff, hwaits, hmode⟩ => ?_⟩
    · rw [if_neg (Nat.not_lt.mpr hwall), if_neg (Nat.not_lt.mpr hovr), overrideOf_toNat hovr]
      rfl
    · exact Hall.wallsTaken_of_same hsame
    · rw [Hall.wallsTaken_of_changed hdiff]
      exact Hall.startTaken_of_waits hwaits
    · have hopen : h.cmd.mode ≠ .config := by
        obtain hlive | hsafe := hmode
        · rw [hlive]; decide
        · rw [hsafe]; decide
      rw [Hall.wallsTaken_of_changed hdiff, Hall.startTaken_of_open (h := written.setEffective written.wallsGiven) hwaits hopen, Hall.startRepartition_eq]
      rfl
    · rw [Hall.wallsTaken_of_changed hdiff, Hall.startTaken_of_config (h := written.setEffective written.wallsGiven) hwaits hmode]
      exact ⟨rfl, rfl, rfl⟩

end Sys2Proof.Machine

/-! SUPPORT. O41, O42 and O44: scans and flips of the walls (R3, R4, R7), the partition change event (R109, R110) and the end of
STOPPING (R141). -/

namespace Sys2Proof.Machine

namespace Hall

variable {h : Hall}

/-! ## The partition change event -/

theorem partitionChange_of_fadingOut (hm : h.Clean) {p : Partition} {ss : List Nat} (hfades : h.part.repartition = .fadingOut p ss) :
    h.partitionChange reader =
      let changed := h.partitionTaken p
      let new := (roomIds p).filter (fun r => !unchangedRoom p h.part.inForce r)
      let rooms := tmapIdx changed.gains.rooms (fun i x => if i / 9 ∈ new then { x with target := 0 } else x)
      { changed with
        part.repartition := .fadingIn p ss
        gains.rooms := rooms
        gains.booths := tmapIdx h.gains.booths (fun b x => { x with
          target := (tget rooms (9 * changed.roomOfBooth b)).target }) } := by
  have hevent : h.partitionChange reader = (((h.changePartition reader p).setRepartition (.fadingIn p ss)).fadeRooms 0
      (((h.changePartition reader p).setRepartition (.fadingIn p ss)).newRooms h.part.inForce)) := by
    rw [partitionChange, hfades]
  have hbooths (a : Nat → Nat) : tmapIdx (h.partitionTaken p).gains.booths (fun b x => { x with target := a b }) =
      tmapIdx h.gains.booths (fun b x => { x with target := a b }) := by
    have hfades : (h.partitionTaken p).gains.booths = tmapIdx h.gains.booths (fun b x => { x with
        target := (tget (h.partitionTaken p).gains.rooms (9 * (h.setPartition p).roomOfBooth b)).target }) := rfl
    rw [hfades, tmapIdx_tmapIdx]
  have hnew : ((h.partitionTaken p).setRepartition (.fadingIn p ss)).newRooms h.part.inForce =
      (roomIds p).filter (fun r => !unchangedRoom p h.part.inForce r) := rfl
  rw [hevent, changePartition_eq hm, hnew, fadeRooms, each_setRoomFades]
  dsimp only
  rw [← hbooths]
  generalize h.partitionTaken p = changed
  rfl

theorem partitionChange_of_not (rd : Reader) (hfades : ∀ p ss, h.part.repartition ≠ .fadingOut p ss) : h.partitionChange rd = h := by
  unfold partitionChange
  cases hphase : h.part.repartition with
  | fadingOut p ss => exact absurd hphase (hfades p ss)
  | idle => rfl
  | fadingIn p ss => rfl

/-! ## The end of STOPPING -/

theorem stoppingDone_iff : h.stoppingDone = true ↔ h.cmd.mode = .stopping ∧
    (∀ u ∈ units, (h.run u).state ∉ [FloorState.granting, .speaking, .closing]) ∧
    (∀ i < 72, (tget h.gains.rooms i).current = 128) ∧ (∀ b < 16, (tget h.gains.booths b).current = 128) := by
  have hholder : ∀ u, h.isHolder u = false ↔ (h.run u).state ∉ [FloorState.granting, .speaking, .closing] := fun u => by
    cases hstate : (h.run u).state <;> simp [isHolder, onFloor, hstate]
  have hrooms : (∀ r ∈ sections, h.roomFadesAt Config.mute r = true) ↔ ∀ i < 72, (tget h.gains.rooms i).current = 128 := by
    simp only [sections, List.mem_range, roomFadesAt, List.all_eq_true, beq_iff_eq]
    constructor
    · intro hall i hi
      have := hall (i / 9) (by omega) (i % 9) (Nat.mod_lt _ (by decide))
      rwa [Nat.div_add_mod] at this
    · exact fun hall r hr c hc => hall _ (by omega)
  have hbooths : (∀ b ∈ boothNumbers, (tget h.gains.booths b).current = Config.mute) ↔
      ∀ b < 16, (tget h.gains.booths b).current = 128 := by simp only [boothNumbers, List.mem_range, Config.mute]
  rw [← hrooms, ← hbooths]
  simp only [stoppingDone, Bool.and_eq_true, beq_iff_eq, List.all_eq_true, Bool.not_eq_true', hholder, and_assoc]

theorem stoppingComplete_of_done (hm : h.Clean) (hdone : h.stoppingDone = true) :
    h.stoppingComplete reader = (h.setMode .config).startTaken := by
  rw [stoppingComplete, if_pos hdone]
  exact startTest_eq (h := h.setMode .config) hm

theorem stoppingComplete_of_not (rd : Reader) (hdone : h.stoppingDone ≠ true) : h.stoppingComplete rd = h := if_neg hdone

theorem startTaken_cmd (hm : h.Clean) : h.startTaken.cmd = h.cmd := by
  rw [← startTest_eq hm, startTest_still reader_idle hm]
  exact keeps_startTest (cmdAt_closed h.cmd) still_keeps rfl

/-! ## Scans and flips -/

/-- Entries changed one by one, each by its own number, are changed at once. -/
theorem foldl_tmodIdx {α : Type} [Inhabited α] {n : Nat} {is : List Nat} (hnodup : is.Nodup) (f : Nat → α → α) (t : Vector α n) :
    is.foldl (fun t i => tmod t i (f i)) t = tmapIdx t (fun i a => if i ∈ is then f i a else a) := by
  induction is generalizing t with
  | nil => exact (tmapIdx_eq_self fun i _ => if_neg List.not_mem_nil).symm
  | cons j is ih =>
    obtain ⟨hj, hnodup⟩ := List.nodup_cons.mp hnodup
    rw [List.foldl_cons, ih hnodup]
    apply table_ext
    intro i hi
    rw [tget_tmapIdx_of_lt _ _ hi, tget_tmapIdx_of_lt _ _ hi, tmod, tget_tset]
    by_cases hij : j = i
    · subst hij
      simp [hi, hj]
    · simp [hij, Ne.symm hij]

theorem computeWalls_eq_now (hm : h.Clean) : h.computeWalls reader =
    if h.wallsNow = h.part.effective then h else { h with part.effective := h.wallsNow }.startTaken := by
  have hset : (h.setEffective h.wallsNow).startTest reader = (h.setEffective h.wallsNow).startTaken :=
    startTest_eq (h := h.setEffective h.wallsNow) hm
  unfold computeWalls
  rw [idle_readOverrides reader_idle hm]
  dsimp only
  rw [hset]
  rfl

/-- A scan moves the debounce of every wall (R3). -/
theorem scan_debounces (lines : BitVec 7) (h : Hall) : h.each (List.range 7) (fun w => debounce w (wallReading lines w)) =
    { h with part.walls := tmapIdx h.part.walls (fun w x =>
        if wallReading lines w = x.debounced then { x with run := 0 }
        else { x with run := x.run + 1, capture := if x.run = 0 then h.frameCounter else x.capture }) } := by
  have hstep : ∀ (w : Nat) (g : Hall), g.frameCounter = h.frameCounter → debounce w (wallReading lines w) g =
      { g with part.walls := tmod g.part.walls w (fun x =>
        if wallReading lines w = x.debounced then { x with run := 0 }
        else { x with run := x.run + 1, capture := if x.run = 0 then h.frameCounter else x.capture }) } := by
    intro w g hclock
    unfold debounce tmod
    dsimp only
    rw [← hclock]
    split_ifs <;> rfl
  have hseries : ∀ (ws : List Nat) (g : Hall), g.frameCounter = h.frameCounter →
      g.each ws (fun w => debounce w (wallReading lines w)) = { g with part.walls := ws.foldl (fun t w => tmod t w (fun x =>
        if wallReading lines w = x.debounced then { x with run := 0 }
        else { x with run := x.run + 1, capture := if x.run = 0 then h.frameCounter else x.capture })) g.part.walls } := by
    intro ws
    unfold each
    induction ws with
    | nil => exact fun _ _ => rfl
    | cons w ws ih =>
      intro g hclock
      show ws.foldl (fun g w => debounce w (wallReading lines w) g) (debounce w (wallReading lines w) g) = _
      rw [hstep w g hclock]
      exact ih _ hclock
  have htable : tmapIdx h.part.walls (fun w x => if w ∈ List.range 7 then
        (if wallReading lines w = x.debounced then { x with run := 0 }
        else { x with run := x.run + 1, capture := if x.run = 0 then h.frameCounter else x.capture }) else x) =
      tmapIdx h.part.walls (fun w x => if wallReading lines w = x.debounced then { x with run := 0 }
        else { x with run := x.run + 1, capture := if x.run = 0 then h.frameCounter else x.capture }) := by
    apply table_ext
    intro w hw
    rw [tget_tmapIdx_of_lt _ _ hw, tget_tmapIdx_of_lt _ _ hw, if_pos (List.mem_range.mpr hw)]
  rw [hseries _ h rfl, foldl_tmodIdx List.nodup_range, htable]

theorem flips_eq (h : Hall) : (List.range 7).filter h.flips =
    (List.range 7).filter (fun w => 0 < (tget h.part.walls w).run ∧ h.part.debounceCount ≤ (tget h.part.walls w).run) :=
  List.filter_congr fun w _ => by rw [flips, Bool.decide_and]

end Hall

/-- The first step that is due, taken. -/
theorem exec_takeRow {d : Due} {s : State} {rest : List Due} (hdue : s.chip.due = d :: rest) (hramp : Due.rampStep ∉ rest)
    (hstop : d = .stopping → rest.any Chip.isCloseEnd = false) :
    Host.Outcome.next (φ := Fault) (ρ := Refusal) (s.onChip (Chip.takeRow d)) =
      .next (s.withChip (({ s.chip with due := rest } : Chip).runDue d)) := by
  rw [State.onChip, Chip.takeRow_of_head hdue (fun _ => hramp) hstop]
  rfl

theorem Chip.wallFlip_eq_ite (w : Nat) (c : Chip) : c.wallFlip w =
    if c.due.any isFlip then { c with hall := c.hall.flipWall w }
    else { c with hall := (c.hall.flipWall w).computeWalls reader } := rfl

/-- Settles O42: the row runs the hall's `partitionChange`, and the event is `Hall.partitionTaken`. -/
theorem partitionChangeRegroups : Obligations.PartitionChangeRegroups := by
  intro s rest hdue hramp hm c h
  have hrow : exec .partitionChangeEvent s = .next (s.withChip { c with due := rest, hall := h.partitionChange reader }) :=
    next_takeRow_of_onlyHall hdue hramp nofun (fun _ => rfl)
  refine ⟨fun p ss hfades => ?_, fun hfades => ?_⟩
  · intro changed new rooms
    rw [hrow, Hall.partitionChange_of_fadingOut hm hfades]
  · rw [hrow, Hall.partitionChange_of_not _ hfades]

/-- Settles O44: the row runs the hall's `stoppingComplete`, whose condition is `Hall.stoppingDone_iff`. -/
theorem stoppingEnds : Obligations.StoppingEnds := by
  intro s rest hdue hramp hends hm c h done
  have hrow : exec .stoppingComplete s = .next (s.withChip { c with due := rest, hall := h.stoppingComplete reader }) :=
    next_takeRow_of_onlyHall hdue hramp (fun _ => hends) (fun _ => rfl)
  have hdone : h.stoppingDone = true ↔ done := Hall.stoppingDone_iff
  have hclean : (h.setMode .config).Clean := hm
  refine ⟨fun hnot => ?_, fun hdoneNow => ⟨(h.setMode .config).startTaken, ?_, Hall.startTaken_cmd hclean, fun hwaits => ?_,
    fun hidle => ?_, fun ⟨hdiff, hidle⟩ => ?_⟩⟩
  · rw [hrow, Hall.stoppingComplete_of_not _ (mt hdone.mp hnot)]
  · rw [hrow, Hall.stoppingComplete_of_done hm (hdone.mpr hdoneNow)]
  · exact Hall.startTaken_of_waits (h := h.setMode .config) (hwaits.elim .inl fun hflight => .inr (.inl hflight))
  · by_cases hsame : h.part.effective = h.part.inForce
    · rw [Hall.startTaken_of_waits (h := h.setMode .config) (.inl hsame), hsame]
      rfl
    · rw [Hall.startTaken_of_config (h := h.setMode .config) (by simp [hsame, hidle, Hall.setMode]) rfl]
      rfl
  · exact Hall.startTaken_of_config (h := h.setMode .config) (by simp [hdiff, hidle, Hall.setMode]) rfl

/-- Settles O41: a scan moves the debounces (`Hall.scan_debounces`) and makes the flips due; the walls computed after it, or after
the last flip, are `Hall.computeWalls_eq_now`. -/
theorem scansDebounceWalls : Obligations.ScansDebounceWalls := by
  refine ⟨fun s rest hdue hramp hm => ?_, fun s w rest hdue hramp hm => ?_⟩
  · intro c h walls flips scanned
    have hscanned : h.each (List.range 7) (fun w => Hall.debounce w (wallReading c.pins.walls w)) = scanned :=
      Hall.scan_debounces c.pins.walls h
    have hflips : (List.range 7).filter scanned.flips = flips := Hall.flips_eq scanned
    have hwalls := Hall.computeWalls_eq_now (h := scanned) hm
    have hrow : exec .scan s = .next (s.withChip (({ c with due := rest } : Chip).scan)) := exec_takeRow hdue hramp nofun
    have hscan : ({ c with due := rest } : Chip).scan = if flips = [] then
        { c with due := rest, hall := scanned.computeWalls reader }
        else { c with due := flips.map Due.wallFlip ++ rest, hall := scanned } := by
      rw [← hflips, ← hscanned]
      rfl
    rw [hrow, hscan, hwalls]
  · intro c h x now flipped
    have hflip : h.flipWall w = flipped := by
      have hstate : Hall.otherState (tget h.part.walls w).debounced = now := by
        simp only [now, x]
        cases (tget h.part.walls w).debounced <;> rfl
      have hcode : Hall.wallCode now = if now = .deployed then 1 else 0 := by cases now <;> rfl
      rw [Hall.flipWall, hstate, hcode]
      rfl
    have hrow : exec (.wallChanged w) s = .next (s.withChip (({ c with due := rest } : Chip).wallFlip w)) :=
      exec_takeRow hdue hramp nofun
    have hwalls := Hall.computeWalls_eq_now (h := flipped) hm
    have hlast : (if rest.any Chip.isFlip = true ∨ flipped.wallsNow = h.part.effective then flipped
        else { flipped with part.effective := flipped.wallsNow }.startTaken) =
        if rest.any Chip.isFlip then flipped else flipped.computeWalls reader := by
      rw [hwalls]
      by_cases hmore : rest.any Chip.isFlip = true
      · rw [if_pos hmore, if_pos (.inl hmore)]
      · rw [if_neg hmore, if_congr (or_iff_right hmore) rfl rfl]
    rw [hrow, Chip.wallFlip_eq_ite, hlast]
    dsimp only
    rw [hflip]
    split <;> rfl

end Sys2Proof.Machine

/-! SUPPORT. Entry into STOPPING (R141, R36), first part: the chairs leave the chair-pending list and the queues are dropped. -/

namespace Sys2Proof.Machine

namespace Hall

variable {h : Hall}

/-! ## Runtime parts and marks, one unit at a time -/

/-- One unit's runtime part written, as a change of every entry. -/
theorem runs_set_eq (u : Nat) (f : DelegateRun → DelegateRun) (h : Hall) :
    tmod h.floor.runs (unitIndex u) f = tmapIdx h.floor.runs (fun i d => if i + 1 = u then f d else d) := by
  apply table_ext
  intro i hi
  have hplace : unitIndex u = i ↔ i + 1 = u := by
    unfold unitIndex
    split_ifs <;> omega
  rw [tget_tmapIdx_of_lt _ _ hi, tmod, tget_tset]
  by_cases hu : i + 1 = u
  · have hindex := hplace.mpr hu
    rw [if_pos hu, if_pos ⟨hindex, hindex ▸ hi⟩, hindex]
  · rw [if_neg hu, if_neg fun both => hu (hplace.mp both.1)]

theorem endRequest_signal_eq_all (i : Option Indication) (u : Nat) (h : Hall) : (h.endRequest u).signal i u = { h with
    floor.runs := tmapIdx h.floor.runs (fun j d => if j + 1 = u then requestEnded i d else d)
    floor.dirty := h.dirtyWith [u] } := by
  rw [signal_eq, endRequest]
  simp only [setRun_sets, tmod_tmod, ← runs_set_eq]
  rfl

/-- To end a request with an indication twice is to end it once. -/
theorem requestEnded_requestEnded (i : Indication) (d : DelegateRun) :
    requestEnded (some i) (requestEnded (some i) d) = requestEnded (some i) d := rfl

/-- The runtime parts with the requests of `us` ended. -/
def runsEnded (i : Indication) (us : List Nat) (runs : Vector DelegateRun 192) : Vector DelegateRun 192 :=
  tmapIdx runs (fun j d => if j + 1 ∈ us then requestEnded (some i) d else d)

theorem runsEnded_cons (i : Indication) (u : Nat) (us : List Nat) (runs : Vector DelegateRun 192) :
    runsEnded i us (tmapIdx runs (fun j d => if j + 1 = u then requestEnded (some i) d else d)) = runsEnded i (u :: us) runs := by
  rw [runsEnded, runsEnded, tmapIdx_tmapIdx]
  apply table_ext
  intro j hj
  rw [tget_tmapIdx_of_lt _ _ hj, tget_tmapIdx_of_lt _ _ hj]
  by_cases hu : j + 1 = u
  · by_cases hus : j + 1 ∈ us <;> simp [hu, requestEnded_requestEnded]
  · simp [hu]

theorem runsEnded_nil (i : Indication) (runs : Vector DelegateRun 192) : runsEnded i [] runs = runs :=
  tmapIdx_eq_self fun _ _ => if_neg List.not_mem_nil

/-! ## The chair-pending list (R32) -/

theorem each_dropChair (i : Indication) (us : List Nat) (h : Hall) : h.each us (dropChair (some i)) = { h with
    floor.chairs := h.floor.chairs.diff us
    floor.runs := runsEnded i us h.floor.runs
    floor.dirty := h.dirtyWith us } := by
  induction us generalizing h with
  | nil =>
    rw [runsEnded_nil, List.diff_nil]
    rfl
  | cons u us ih =>
    have hstep : h.each (u :: us) (dropChair (some i)) = (h.dropChair (some i) u).each us (dropChair (some i)) := rfl
    have hdrop : h.dropChair (some i) u = { h with
        floor.chairs := h.floor.chairs.erase u
        floor.runs := tmapIdx h.floor.runs (fun j d => if j + 1 = u then requestEnded (some i) d else d)
        floor.dirty := h.dirtyWith [u] } := by
      rw [dropChair, endRequest_signal_eq_all]
      rfl
    rw [hstep, ih, hdrop, List.diff_cons, ← runsEnded_cons]
    rfl

theorem diff_self {α : Type} [DecidableEq α] (l : List α) : l.diff l = [] := by
  induction l with
  | nil => rfl
  | cons a l ih => rw [List.diff_cons, List.erase_cons_head, ih]

/-- The chair-pending list emptied with DENIED. -/
def chairsDenied (h : Hall) : Hall := { h with
  floor.chairs := []
  floor.runs := runsEnded .denied h.floor.chairs h.floor.runs
  floor.dirty := h.dirtyWith h.floor.chairs }

theorem dropChairs_eq {rd : Reader} (hr : rd.Idle) (hm : h.Clean) : h.dropChairs rd .denied (fun _ _ => true) = h.chairsDenied := by
  have hchairs : h.floor.chairs.filter (fun _ => true) = h.floor.chairs := List.filter_eq_self.mpr fun _ _ => rfl
  unfold dropChairs
  dsimp only
  rw [idle_readDelegates hr hm, hchairs, each_dropChair, diff_self]
  rfl

/-! ## Queue entries dropped (R23) -/

/-- The number of queue entries. -/
def entries (qs : Vector (List Nat) 8) : Nat := ((List.range 8).map (fun r => (tget qs r).length)).sum

/-- The queues without the entries of `us`, each in its unit's room. -/
def queuesWithout (us : List Nat) (h : Hall) : Vector (List Nat) 8 :=
  tmapIdx h.floor.queues (fun r q => q.diff (us.filter (fun u => h.roomOfUnit u = r)))

theorem drop_eq_all (i : Indication) (u : Nat) (h : Hall) : h.drop (some i) u = { h with
    floor.queues := tset h.floor.queues (h.roomOfUnit u) ((h.queue (h.roomOfUnit u)).erase u)
    floor.poolFree := h.floor.poolFree + if u ∈ h.queue (h.roomOfUnit u) then 1 else 0
    floor.poolArmed := h.floor.poolArmed ||
      decide (u ∈ h.queue (h.roomOfUnit u) ∧ Config.poolRearm ≤ h.floor.poolFree + 1)
    floor.runs := tmapIdx h.floor.runs (fun j d => if j + 1 = u then requestEnded (some i) d else d)
    floor.dirty := h.dirtyWith (h.unitsBehind u ++ [u]) } := by
  rw [drop, endRequest_signal_eq_all, leaveQueue_eq, dirtyWith_concat]
  rfl

/-- An entry that leaves is one fewer. -/
theorem entries_erase (u : Nat) {r : Nat} (hr : r < 8) (qs : Vector (List Nat) 8) :
    entries qs = entries (tset qs r ((tget qs r).erase u)) + if u ∈ tget qs r then 1 else 0 := by
  have hlength : (tget qs r).length = ((tget qs r).erase u).length + if u ∈ tget qs r then 1 else 0 := by
    by_cases hu : u ∈ tget qs r
    · have hpos := List.length_pos_of_mem hu
      rw [if_pos hu, List.length_erase_of_mem hu]
      omega
    · rw [if_neg hu, List.erase_of_not_mem hu, Nat.add_zero]
  have hrange : List.range 8 = [0, 1, 2, 3, 4, 5, 6, 7] := rfl
  simp only [entries, hrange, List.map_cons, List.map_nil, List.sum_cons, List.sum_nil, tget_tset]
  generalize (if u ∈ tget qs r then 1 else 0) = n at hlength ⊢
  interval_cases r <;> simp <;> omega

theorem queuesWithout_cons (u : Nat) (us : List Nat) (h : Hall) :
    tmapIdx (tset h.floor.queues (h.roomOfUnit u) ((h.queue (h.roomOfUnit u)).erase u))
      (fun r q => q.diff (us.filter (fun v => h.roomOfUnit v = r))) = h.queuesWithout (u :: us) := by
  apply table_ext
  intro r hr
  rw [queuesWithout, tget_tmapIdx_of_lt _ _ hr, tget_tmapIdx_of_lt _ _ hr, tget_tset]
  by_cases hroom : h.roomOfUnit u = r
  · subst hroom
    rw [if_pos ⟨rfl, hr⟩, List.filter_cons_of_pos (by simp), List.diff_cons]
    rfl
  · rw [if_neg fun both => hroom both.1, List.filter_cons_of_neg (by simpa using hroom)]

theorem dirtyWith_append (us vs : List Nat) (h : Hall) :
    dirtyWith vs { h with floor.dirty := h.dirtyWith us } = h.dirtyWith (us ++ vs) := by
  unfold dirtyWith
  rw [List.foldl_append]
  rfl

/-- Queue entries dropped, in order: who leaves, who is marked, and what the pool gets back (R23, R24). -/
theorem dropped_eq (us : List Nat) (h : Hall) : ∃ ms : List Nat, (∀ u ∈ us, u ∈ ms) ∧
    (∀ v ∈ ms, v ∈ us ∨ ∃ u ∈ us, v ∈ h.queue (h.roomOfUnit u)) ∧
    entries (h.queuesWithout us) ≤ entries h.floor.queues ∧
    h.dropped us = { h with
      floor.queues := h.queuesWithout us
      floor.poolFree := h.floor.poolFree + (entries h.floor.queues - entries (h.queuesWithout us))
      floor.poolArmed := h.floor.poolArmed || decide (entries (h.queuesWithout us) < entries h.floor.queues ∧
        24 ≤ h.floor.poolFree + (entries h.floor.queues - entries (h.queuesWithout us)))
      floor.runs := runsEnded .dropped us h.floor.runs
      floor.dirty := h.dirtyWith ms } := by
  induction us generalizing h with
  | nil =>
    have hqueues : h.queuesWithout [] = h.floor.queues := tmapIdx_eq_self fun _ _ => List.diff_nil _
    refine ⟨[], nofun, nofun, le_of_eq (congrArg entries hqueues), ?_⟩
    rw [hqueues, runsEnded_nil, Nat.sub_self]
    simp only [lt_self_iff_false, false_and, decide_false, Bool.or_false]
    rfl
  | cons u us ih =>
    obtain ⟨ms, hall, honly, hle, hrest⟩ := ih (h.drop (some .dropped) u)
    have hdrop := drop_eq_all .dropped u h
    have hroom : (h.drop (some .dropped) u).roomOfUnit = h.roomOfUnit := by rw [hdrop]; rfl
    have hqueues : (h.drop (some .dropped) u).queuesWithout us = h.queuesWithout (u :: us) := by
      rw [queuesWithout, hroom, hdrop]
      exact queuesWithout_cons u us h
    have hentries : entries h.floor.queues = entries (h.drop (some .dropped) u).floor.queues +
        if u ∈ h.queue (h.roomOfUnit u) then 1 else 0 := by
      rw [hdrop]
      exact entries_erase u (roomOf_lt _ _) h.floor.queues
    have hsub : ∀ v r, v ∈ (h.drop (some .dropped) u).queue r → v ∈ h.queue r := by
      intro v r hv
      rw [hdrop, queue] at hv
      dsimp only at hv
      rw [tget_tset] at hv
      split at hv
      · next hr => exact hr.1 ▸ List.mem_of_mem_erase hv
      · exact hv
    rw [hqueues] at hle hrest
    refine ⟨h.unitsBehind u ++ [u] ++ ms, ?_, ?_, by omega, ?_⟩
    · intro v hv
      obtain rfl | hv := List.mem_cons.mp hv
      · simp
      · simp [hall v hv]
    · intro v hv
      obtain hv | hv := List.mem_append.mp hv
      · obtain hbehind | hself := List.mem_append.mp hv
        · exact .inr ⟨u, List.mem_cons_self, List.mem_of_mem_drop hbehind⟩
        · exact .inl (List.mem_singleton.mp hself ▸ List.mem_cons_self)
      · obtain hus | ⟨w, hw, hin⟩ := honly v hv
        · exact .inl (List.mem_cons_of_mem u hus)
        · rw [hroom] at hin
          exact .inr ⟨w, List.mem_cons_of_mem u hw, hsub v _ hin⟩
    · have hstep : h.dropped (u :: us) = (h.drop (some .dropped) u).dropped us := rfl
      have hgiven : (h.drop (some .dropped) u).floor.poolFree = h.floor.poolFree + if u ∈ h.queue (h.roomOfUnit u) then 1 else 0 := by
        rw [hdrop]
      have hgivenArmed : (h.drop (some .dropped) u).floor.poolArmed = (h.floor.poolArmed ||
          decide (u ∈ h.queue (h.roomOfUnit u) ∧ 24 ≤ h.floor.poolFree + 1)) := by
        rw [hdrop]
        rfl
      have hfree : (h.drop (some .dropped) u).floor.poolFree +
          (entries (h.drop (some .dropped) u).floor.queues - entries (h.queuesWithout (u :: us))) =
          h.floor.poolFree + (entries h.floor.queues - entries (h.queuesWithout (u :: us))) := by
        omega
      have harmed : ((h.drop (some .dropped) u).floor.poolArmed || decide (
            entries (h.queuesWithout (u :: us)) < entries (h.drop (some .dropped) u).floor.queues ∧
            24 ≤ h.floor.poolFree + (entries h.floor.queues - entries (h.queuesWithout (u :: us))))) =
          (h.floor.poolArmed || decide (entries (h.queuesWithout (u :: us)) < entries h.floor.queues ∧
            24 ≤ h.floor.poolFree + (entries h.floor.queues - entries (h.queuesWithout (u :: us))))) := by
        rw [hgivenArmed, Bool.or_assoc, ← Bool.decide_or]
        refine congrArg (h.floor.poolArmed || ·) (decide_eq_decide.mpr ?_)
        by_cases hu : u ∈ h.queue (h.roomOfUnit u)
        · rw [if_pos hu] at hentries
          simp only [hu, true_and]
          omega
        · rw [if_neg hu] at hentries
          simp only [hu, false_and, false_or, hentries, Nat.add_zero]
      have hruns : runsEnded .dropped us (h.drop (some .dropped) u).floor.runs = runsEnded .dropped (u :: us) h.floor.runs := by
        rw [hdrop]
        exact runsEnded_cons .dropped u us h.floor.runs
      have hdirty : (h.drop (some .dropped) u).dirtyWith ms = h.dirtyWith (h.unitsBehind u ++ [u] ++ ms) := by
        rw [← dirtyWith_append, hdrop]
        rfl
      rw [hstep, hrest, hfree, harmed, hruns, hdirty, hdrop]

end Hall

end Sys2Proof.Machine

/-! SUPPORT. Entry into STOPPING (R141, R36), second part: the queues of all rooms, and the holders that are closed. -/

namespace Sys2Proof.Machine

namespace Hall

variable {h : Hall}

/-! ## The queues of all rooms -/

theorem count_diff {α : Type} [DecidableEq α] (a : α) (l k : List α) : (l.diff k).count a = l.count a - k.count a := by
  induction k generalizing l with
  | nil => rfl
  | cons b k ih =>
    rw [List.diff_cons, ih, List.count_erase, List.count_cons]
    omega

theorem dropped_append (us vs : List Nat) (h : Hall) : h.dropped (us ++ vs) = (h.dropped us).dropped vs := each_append _ us vs h

theorem dropped_roomOfUnit (us : List Nat) (h : Hall) : (h.dropped us).roomOfUnit = h.roomOfUnit := by
  obtain ⟨ms, -, -, -, hdropped⟩ := dropped_eq us h
  rw [hdropped]
  rfl

theorem dropped_queue (us : List Nat) (h : Hall) {r : Nat} (hr : r < 8) :
    (h.dropped us).queue r = (h.queue r).diff (us.filter (fun u => h.roomOfUnit u = r)) := by
  obtain ⟨ms, -, -, -, hdropped⟩ := dropped_eq us h
  rw [hdropped]
  exact tget_tmapIdx_of_lt _ _ hr

/-- The queues of some rooms dropped one after the other: the entries in the order of their dropping. -/
theorem each_dropQueue {rd : Reader} (hr : rd.Idle) (rs : List Nat) (hrs : ∀ r ∈ rs, r < 8) (h : Hall) (hm : h.Clean) :
    ∃ us : List Nat, h.each rs (dropQueue rd) = h.dropped us ∧ (∀ u ∈ us, ∃ r ∈ rs, u ∈ h.queue r) ∧
      (∀ r ∈ rs, ∀ u ∈ h.queue r, u ∈ us) ∧
      ∀ r ∈ rs, ∀ u, h.roomOfUnit u = r → (h.queue r).count u ≤ us.count u := by
  induction rs generalizing h with
  | nil => exact ⟨[], rfl, nofun, nofun, nofun⟩
  | cons r rs ih =>
    have hrest : ∀ x ∈ rs, x < 8 := fun x hx => hrs x (List.mem_cons_of_mem r hx)
    have hclean : (h.dropped (h.queue r)).Clean := by
      rw [Hall.Clean, dropped_mem]
      exact hm
    obtain ⟨us, hus, hfrom, hall, hcount⟩ := ih hrest (h.dropped (h.queue r)) hclean
    have hstep : h.each (r :: rs) (dropQueue rd) = (h.dropQueue rd r).each rs (dropQueue rd) := rfl
    have hqueue : ∀ x ∈ rs, (h.dropped (h.queue r)).queue x = (h.queue x).diff ((h.queue r).filter (fun u => h.roomOfUnit u = x)) :=
      fun x hx => dropped_queue _ h (hrest x hx)
    refine ⟨h.queue r ++ us, ?_, fun u hu => ?_, fun x hx u hu => ?_, fun x hx u hroom => ?_⟩
    · rw [hstep, idle_dropQueue hr hm, dropped_append, ← hus]
      rfl
    · obtain hu | hu := List.mem_append.mp hu
      · exact ⟨r, List.mem_cons_self, hu⟩
      · obtain ⟨x, hx, hin⟩ := hfrom u hu
        rw [hqueue x hx] at hin
        exact ⟨x, List.mem_cons_of_mem r hx, (List.diff_sublist _ _).subset hin⟩
    · obtain rfl | hx := List.mem_cons.mp hx
      · exact List.mem_append_left us hu
      · by_cases hleft : u ∈ (h.queue r).filter (fun u => h.roomOfUnit u = x)
        · exact List.mem_append_left us (List.mem_of_mem_filter hleft)
        · refine List.mem_append_right _ (hall x hx u ?_)
          rw [hqueue x hx]
          exact List.mem_diff_of_mem hu hleft
    · rw [List.count_append]
      obtain rfl | hx := List.mem_cons.mp hx
      · omega
      · have hlater := hcount x hx u (by rw [dropped_roomOfUnit]; exact hroom)
        rw [hqueue x hx, count_diff, List.count_filter (by simpa using hroom)] at hlater
        omega

/-! ## Holders closed with reason STOPPING (R18) -/

/-- The runtime part of a holder closed with reason STOPPING. -/
def stoppedRun (d : DelegateRun) : DelegateRun :=
  if d.state = .granting then { d with state := .idle, slot := none, grantTs := none, window := none, indication := some .floorClosed }
  else if d.state = .speaking then { d with state := .closing, reason := some .stopping, indication := some .floorClosed }
  else d

/-- `h` with the holders `us` closed with reason STOPPING. -/
def holdersStopped (us : List Nat) (h : Hall) : Hall := { h with
  slots.mics := tmapIdx h.slots.mics (fun k x =>
    if ∃ u ∈ us, (h.run u).state = .granting ∧ (h.run u).slot = some k then none else x)
  gains.mics := tmapIdx h.gains.mics (fun k x =>
    if ∃ u ∈ us, (h.run u).state = .speaking ∧ (h.run u).slot = some k then { x with target := 128 } else x)
  floor.runs := tmapIdx h.floor.runs (fun i d => if i + 1 ∈ us then stoppedRun d else d)
  floor.dirty := h.dirtyWith us }

theorem releaseMic_eq (u : Nat) (h : Hall) : h.releaseMic u = { h with
    slots.mics := tmapIdx h.slots.mics (fun k x => if (h.run u).slot = some k then none else x) } := by
  unfold releaseMic
  cases (h.run u).slot with
  | none => rw [tmapIdx_eq_self fun _ _ => if_neg nofun]
  | some j =>
    have htable : tset h.slots.mics j none = tmapIdx h.slots.mics (fun k x => if some j = some k then none else x) := by
      apply table_ext
      intro k hk
      rw [tget_tset, tget_tmapIdx_of_lt _ _ hk]
      by_cases hj : j = k <;> simp [hj, hk]
    show { h with slots.mics := tset h.slots.mics j none } = _
    rw [htable]

theorem aimMic_eq_all (u a : Nat) (h : Hall) : h.aimMic u a = { h with
    gains.mics := tmapIdx h.gains.mics (fun k x => if (h.run u).slot = some k then { x with target := a } else x) } := by
  unfold aimMic
  cases (h.run u).slot with
  | none =>
    have hsame : tmapIdx h.gains.mics (fun k x => if (none : Option Nat) = some k then { x with target := a } else x) =
        h.gains.mics := tmapIdx_eq_self fun _ _ => if_neg nofun
    rw [hsame]
  | some j =>
    have htable : tmod h.gains.mics j (fun x => { x with target := a }) =
        tmapIdx h.gains.mics (fun k x => if some j = some k then { x with target := a } else x) := by
      apply table_ext
      intro k hk
      rw [tmod, tget_tset, tget_tmapIdx_of_lt _ _ hk]
      by_cases hj : j = k <;> simp [hj, hk]
    show { h with gains.mics := tmod h.gains.mics j (fun x => { x with target := a }) } = _
    rw [htable]

theorem granting_stopped {d : DelegateRun} (hstate : d.state = .granting) :
    ({ d with state := .idle, slot := none, grantTs := none, window := none, indication := some .floorClosed } : DelegateRun) =
      stoppedRun d := (if_pos hstate).symm

theorem speaking_stopped {d : DelegateRun} (hstate : d.state = .speaking) :
    ({ d with state := .closing, reason := some .stopping, indication := some .floorClosed } : DelegateRun) = stoppedRun d := by
  rw [stoppedRun, if_neg (by rw [hstate]; nofun), if_pos hstate]

theorem closeOne_stopping_eq {u : Nat} (hfloor : h.onFloor u = true) :
    h.closeOne .stopping u = h.holdersStopped [u] := by
  have hruns {f : DelegateRun → DelegateRun} (hf : f (h.run u) = stoppedRun (h.run u)) :
      tmod h.floor.runs (unitIndex u) f = tmapIdx h.floor.runs (fun i d => if i + 1 ∈ [u] then stoppedRun d else d) := by
    have hsame : tmod h.floor.runs (unitIndex u) f = tmod h.floor.runs (unitIndex u) stoppedRun :=
      congrArg (tset h.floor.runs (unitIndex u)) hf
    rw [hsame, runs_set_eq]
    simp only [List.mem_singleton]
  obtain hstate | hstate := onFloor_iff.mp hfloor
  · have hgains : tmapIdx h.gains.mics (fun k x =>
        if ∃ v ∈ [u], (h.run v).state = .speaking ∧ (h.run v).slot = some k then { x with target := 128 } else x) = h.gains.mics :=
      tmapIdx_eq_self fun _ _ => if_neg (by simp [hstate])
    have hmics : tmapIdx h.slots.mics (fun k x =>
        if ∃ v ∈ [u], (h.run v).state = .granting ∧ (h.run v).slot = some k then none else x) =
        tmapIdx h.slots.mics (fun k x => if (h.run u).slot = some k then none else x) := by
      simp [hstate]
    rw [holdersStopped, hgains, hmics, ← hruns (f := fun d => { d with state := .idle, slot := none, grantTs := none, window := none, indication := some .floorClosed })
      (granting_stopped hstate)]
    rw [closeOne, hstate, endHold, releaseMic_eq]
    dsimp only
    rw [signal_eq, setRun_sets]
    dsimp only
    rw [tmod_tmod]
    rfl
  · have hmics : tmapIdx h.slots.mics (fun k x =>
        if ∃ v ∈ [u], (h.run v).state = .granting ∧ (h.run v).slot = some k then none else x) = h.slots.mics :=
      tmapIdx_eq_self fun _ _ => if_neg (by simp [hstate])
    have hgains : tmapIdx h.gains.mics (fun k x =>
        if ∃ v ∈ [u], (h.run v).state = .speaking ∧ (h.run v).slot = some k then { x with target := 128 } else x) =
        tmapIdx h.gains.mics (fun k x => if (h.run u).slot = some k then { x with target := 128 } else x) := by
      simp [hstate]
    rw [holdersStopped, hgains, hmics, ← hruns (f := fun d => { d with state := .closing, reason := some .stopping, indication := some .floorClosed })
      (speaking_stopped hstate)]
    rw [closeOne, hstate, aimMic_eq_all]
    dsimp only
    rw [signal_eq, setRun_sets]
    dsimp only
    rw [tmod_tmod]
    rfl

theorem holdersStopped_run {us : List Nat} {v : Nat} (hv : v ∈ units) (hnot : v ∉ us) : (h.holdersStopped us).run v = h.run v := by
  obtain ⟨hindex, hlt, hpos⟩ := unitIndex_of_mem hv
  have hback : v - 1 + 1 = v := by omega
  rw [run, run, hindex, holdersStopped, tget_tmapIdx_of_lt _ _ hlt, hback, if_neg hnot]

/-- Entries changed by a condition twice, for a change that done twice is done once. -/
theorem tmapIdx_ite_ite {α : Type} [Inhabited α] {n : Nat} {p q r : Nat → Prop} [DecidablePred p] [DecidablePred q]
    [DecidablePred r] {f : α → α} (hf : ∀ x, f (f x) = f x) (hr : ∀ i, r i ↔ p i ∨ q i) (t : Vector α n) :
    tmapIdx (tmapIdx t (fun i x => if p i then f x else x)) (fun i x => if q i then f x else x) =
      tmapIdx t (fun i x => if r i then f x else x) := by
  rw [tmapIdx_tmapIdx]
  apply table_ext
  intro i hi
  rw [tget_tmapIdx_of_lt _ _ hi, tget_tmapIdx_of_lt _ _ hi]
  by_cases hp : p i <;> by_cases hq : q i <;> simp [hr, hp, hq, hf]

theorem stoppedRun_stoppedRun (d : DelegateRun) : stoppedRun (stoppedRun d) = stoppedRun d := by
  unfold stoppedRun
  split_ifs <;> simp_all

theorem holdersStopped_cons {u : Nat} {us : List Nat} (hrun : ∀ v ∈ us, (h.holdersStopped [u]).run v = h.run v) :
    (h.holdersStopped [u]).holdersStopped us = h.holdersStopped (u :: us) := by
  have hgiven (x : FloorState) (k : Nat) : (∃ v ∈ us, ((h.holdersStopped [u]).run v).state = x ∧
      ((h.holdersStopped [u]).run v).slot = some k) ↔ ∃ v ∈ us, (h.run v).state = x ∧ (h.run v).slot = some k := by
    refine exists_congr fun v => and_congr_right fun hv => ?_
    rw [hrun v hv]
  have hmore (x : FloorState) (k : Nat) : (∃ v ∈ u :: us, (h.run v).state = x ∧ (h.run v).slot = some k) ↔
      (∃ v ∈ [u], (h.run v).state = x ∧ (h.run v).slot = some k) ∨
        ∃ v ∈ us, ((h.holdersStopped [u]).run v).state = x ∧ ((h.holdersStopped [u]).run v).slot = some k := by
    rw [hgiven, List.exists_mem_cons_iff, List.exists_mem_cons_iff]
    simp
  have hmics : ((h.holdersStopped [u]).holdersStopped us).slots.mics = (h.holdersStopped (u :: us)).slots.mics :=
    tmapIdx_ite_ite (f := fun _ => none) (fun _ => rfl) (hmore .granting) h.slots.mics
  have hgains : ((h.holdersStopped [u]).holdersStopped us).gains.mics = (h.holdersStopped (u :: us)).gains.mics :=
    tmapIdx_ite_ite (f := fun x : GainPoint => { x with target := 128 }) (fun _ => rfl) (hmore .speaking) h.gains.mics
  have hruns : ((h.holdersStopped [u]).holdersStopped us).floor.runs = (h.holdersStopped (u :: us)).floor.runs :=
    tmapIdx_ite_ite (p := fun i => i + 1 ∈ [u]) (q := fun i => i + 1 ∈ us) stoppedRun_stoppedRun (fun i => by simp) h.floor.runs
  have hparts : (h.holdersStopped [u]).holdersStopped us = { h with
      slots.mics := ((h.holdersStopped [u]).holdersStopped us).slots.mics
      gains.mics := ((h.holdersStopped [u]).holdersStopped us).gains.mics
      floor.runs := ((h.holdersStopped [u]).holdersStopped us).floor.runs
      floor.dirty := h.dirtyWith (u :: us) } := rfl
  rw [hparts, hmics, hgains, hruns]
  rfl

/-- Holders closed one after the other are closed at once. -/
theorem each_closeOne {us : List Nat} (hnodup : us.Nodup) (hunits : ∀ u ∈ us, u ∈ units) (hfloor : ∀ u ∈ us, h.onFloor u = true) :
    h.each us (closeOne .stopping) = h.holdersStopped us := by
  induction us generalizing h with
  | nil => 
    have hmics : tmapIdx h.slots.mics (fun k x =>
        if ∃ u ∈ [], (h.run u).state = .granting ∧ (h.run u).slot = some k then none else x) = h.slots.mics :=
      tmapIdx_eq_self fun _ _ => if_neg (by simp)
    have hgains : tmapIdx h.gains.mics (fun k x =>
        if ∃ u ∈ [], (h.run u).state = .speaking ∧ (h.run u).slot = some k then { x with target := 128 } else x) = h.gains.mics :=
      tmapIdx_eq_self fun _ _ => if_neg (by simp)
    have hruns : tmapIdx h.floor.runs (fun i d => if i + 1 ∈ [] then stoppedRun d else d) = h.floor.runs :=
      tmapIdx_eq_self fun _ _ => if_neg List.not_mem_nil
    rw [holdersStopped, hmics, hgains, hruns]
    rfl
  | cons u us ih =>
    obtain ⟨hu, hnodup⟩ := List.nodup_cons.mp hnodup
    obtain ⟨hunit, hunits⟩ := List.forall_mem_cons.mp hunits
    obtain ⟨hself, hfloor⟩ := List.forall_mem_cons.mp hfloor
    have hrun : ∀ v ∈ us, (h.holdersStopped [u]).run v = h.run v := fun v hv =>
      holdersStopped_run (hunits v hv) fun hin => hu (List.mem_singleton.mp hin ▸ hv)
    have hrest : ∀ v ∈ us, (h.holdersStopped [u]).onFloor v = true := fun v hv => by
      rw [onFloor, hrun v hv]
      exact hfloor v hv
    have hstep : h.each (u :: us) (closeOne .stopping) = (h.closeOne .stopping u).each us (closeOne .stopping) := rfl
    rw [hstep, closeOne_stopping_eq hself, ih hnodup hunits hrest]
    exact holdersStopped_cons hrun

end Hall

end Sys2Proof.Machine

/-! SUPPORT. Entry into STOPPING (R141, R36), third part: the floor closed, and the hall after it. -/

namespace Sys2Proof.Machine

namespace Hall

variable {h : Hall}

/-! ## The holders that STOPPING closes -/

/-- A series whose steps change nothing changes nothing. -/
theorem each_fixed {α : Type} {f : α → Hall → Hall} (l : List α) (hf : ∀ a ∈ l, f a h = h) : h.each l f = h := by
  induction l with
  | nil => rfl
  | cons a l ih =>
    obtain ⟨ha, hrest⟩ := List.forall_mem_cons.mp hf
    have hstep : h.each (a :: l) f = (f a h).each l f := rfl
    rw [hstep, ha]
    exact ih hrest

theorem nodup_units : units.Nodup := by
  unfold units
  exact List.nodup_range.map fun _ _ hab => Nat.succ.inj hab

/-- The units that hold the floor. -/
def holders (h : Hall) : List Nat := units.filter h.onFloor

theorem stoppedRun_of_not {d : DelegateRun} (hstate : ¬(d.state = .granting ∨ d.state = .speaking)) : stoppedRun d = d := by
  rw [not_or] at hstate
  rw [stoppedRun, if_neg hstate.1, if_neg hstate.2]

theorem stoppedRun_state (d : DelegateRun) : (stoppedRun d).state ≠ .speaking := by
  unfold stoppedRun
  split_ifs with hgranting hspeaking
  · nofun
  · nofun
  · exact hspeaking

theorem run_holdersStopped {u : Nat} (hu : u ∈ units) : (h.holdersStopped h.holders).run u = stoppedRun (h.run u) := by
  obtain ⟨hindex, hlt, hpos⟩ := unitIndex_of_mem hu
  by_cases hfloor : h.onFloor u = true
  · have hback : u - 1 + 1 = u := by omega
    have hheld : u ∈ h.holders := List.mem_filter.mpr ⟨hu, hfloor⟩
    rw [run, run, hindex, holdersStopped, tget_tmapIdx_of_lt _ _ hlt, hback, if_pos hheld]
  · have hnot : u ∉ h.holders := fun hheld => hfloor (List.mem_filter.mp hheld).2
    rw [holdersStopped_run hu hnot]
    exact (stoppedRun_of_not fun hstate => hfloor (onFloor_iff.mpr hstate)).symm

theorem speakers_holdersStopped (r : Nat) : (h.holdersStopped h.holders).speakers r = [] := by
  refine List.filter_eq_nil_iff.mpr fun u hu hspeaks => ?_
  rw [Bool.and_eq_true, isSpeaking_eq, decide_eq_true_eq, run_holdersStopped hu] at hspeaks
  exact stoppedRun_state _ hspeaks.1

theorem canServe_of_stopping (hmode : h.cmd.mode = .stopping) (r : Nat) : h.canServe r = false := by
  have hopen : h.floorOpen = false := by rw [floorOpen, hmode]; rfl
  rw [canServe, hopen]
  rfl

theorem arbiterRuns_of_stopping (hm : h.Clean) (hmode : h.cmd.mode = .stopping) (hchairs : h.floor.chairs = []) (n : Nat) :
    arbiterRuns reader n h = h := by
  have hrun : h.arbiterRun reader = h := by
    cases hfree : h.micFree with
    | false => exact arbiterRun_of_notFree hfree
    | true =>
      rw [arbiterRun_of_noChairs hm hfree hchairs]
      exact each_fixed _ fun r _ => service_of_not hm (canServe_of_stopping hmode r)
  induction n with
  | zero => rfl
  | succ n ih => rw [arbiterRuns, hrun, ih]

/-- In STOPPING the close of all holders has no consequences (R18, R25, R79). -/
theorem closeHolders_eq (hm : h.Clean) (hmode : h.cmd.mode = .stopping) (hchairs : h.floor.chairs = []) :
    h.closeWithConsequences reader .stopping false h.holders = h.holdersStopped h.holders := by
  have hclosed : h.each h.holders (closeOne .stopping) = h.holdersStopped h.holders :=
    each_closeOne (nodup_units.filter _) (fun u hu => (List.mem_filter.mp hu).1) fun u hu => (List.mem_filter.mp hu).2
  have hclean : (h.holdersStopped h.holders).Clean := hm
  have hmics (r : Nat) : (h.holdersStopped h.holders).recomputeMics reader r = h.holdersStopped h.holders := by
    rw [idle_recomputeMics reader_idle hclean, aimSpeakers, speakers_holdersStopped]
    rfl
  have hall : h.closeAll reader .stopping h.holders = h.holdersStopped h.holders := by
    rw [closeAll, hclosed]
    exact each_fixed _ fun r _ => hmics r
  rw [closeWithConsequences, hall, consequences, if_neg Bool.false_ne_true, arbiterRuns_of_stopping hclean hmode hchairs]
  exact each_fixed _ fun r _ => service_of_not hclean (canServe_of_stopping (h := h.holdersStopped h.holders) hmode r)

/-! ## The floor closed (R36) -/

/-- `h` with the chairs denied, the entries of `us` dropped and the gap timers stopped. -/
def emptied (us : List Nat) (h : Hall) : Hall := { h.chairsDenied.dropped us with floor.gaps := .replicate 8 none }

theorem closeFloor_eq (hm : h.Clean) (hmode : h.cmd.mode = .stopping) : ∃ us : List Nat,
    h.closeFloor reader = (h.emptied us).holdersStopped (h.emptied us).holders ∧
      (∀ u ∈ us, ∃ r ∈ h.rooms, u ∈ h.queue r) ∧ (∀ r ∈ h.rooms, ∀ u ∈ h.queue r, u ∈ us) ∧
      ∀ r ∈ h.rooms, ∀ u, h.roomOfUnit u = r → (h.queue r).count u ≤ us.count u := by
  have hlt : ∀ r ∈ h.rooms, r < 8 := fun r hr => List.mem_range.mp (List.mem_of_mem_filter (p := isRoomId h.part.inForce) hr)
  have hdenied : h.chairsDenied.Clean := hm
  obtain ⟨us, hus, hfrom, hall, hcount⟩ := each_dropQueue reader_idle h.rooms hlt h.chairsDenied hdenied
  refine ⟨us, ?_, hfrom, hall, hcount⟩
  have hemptied : (h.chairsDenied.dropped us).each sections (fun r => setGap r none) = h.emptied us := by
    have hgaps : tmapIdx (h.chairsDenied.dropped us).floor.gaps (fun r x => if r ∈ sections then none else x) = .replicate 8 none := by
      apply table_ext
      intro r hr
      have hin : r ∈ sections := List.mem_range.mpr hr
      rw [tget_tmapIdx_of_lt _ _ hr, if_pos hin, tget_eq_getElem _ hr, Vector.getElem_replicate]
    rw [each_setGap, hgaps]
    rfl
  have hclean : (h.emptied us).Clean := by
    show (h.chairsDenied.dropped us).mem.ReadsFindNothing
    rw [dropped_mem]
    exact hm
  have hparts := dropped_eq us h.chairsDenied
  have hstep : h.closeFloor reader = (h.emptied us).closeWithConsequences reader .stopping false (h.emptied us).holders := by
    unfold closeFloor
    dsimp only
    rw [dropChairs_eq reader_idle hm]
    have hrooms : h.chairsDenied.rooms = h.rooms := rfl
    rw [hrooms, hus, hemptied, idle_readHolders reader_idle hclean]
    rfl
  rw [hstep]
  obtain ⟨ms, -, -, -, hdropped⟩ := dropped_eq us h.chairsDenied
  refine closeHolders_eq hclean ?_ ?_
  · rw [emptied, hdropped]
    exact hmode
  · rw [emptied, hdropped]
    rfl

end Hall

end Sys2Proof.Machine

/-! SUPPORT. Entry into STOPPING (R141, R36), last part: `Hall.StoppingEntered`. -/

namespace Sys2Proof.Machine

namespace Hall

variable {h : Hall} {us : List Nat}

/-! ## The floor emptied -/

/-- The floor emptied, by its parts: who is marked, and what each table holds. -/
theorem emptied_eq (us : List Nat) (h : Hall) : ∃ ms : List Nat, (∀ u ∈ us, u ∈ ms) ∧
    (∀ v ∈ ms, v ∈ us ∨ ∃ u ∈ us, v ∈ h.queue (h.roomOfUnit u)) ∧
    h.emptied us = { h with floor := {
      runs := runsEnded .dropped us (runsEnded .denied h.floor.chairs h.floor.runs)
      queues := h.queuesWithout us
      poolFree := h.floor.poolFree + (entries h.floor.queues - entries (h.queuesWithout us))
      poolArmed := h.floor.poolArmed || decide (entries (h.queuesWithout us) < entries h.floor.queues ∧
        24 ≤ h.floor.poolFree + (entries h.floor.queues - entries (h.queuesWithout us)))
      chairs := []
      gaps := .replicate 8 none
      dirty := h.dirtyWith (h.floor.chairs ++ ms) } } := by
  obtain ⟨ms, hall, honly, -, hdropped⟩ := dropped_eq us h.chairsDenied
  have hdirty : h.chairsDenied.dirtyWith ms = h.dirtyWith (h.floor.chairs ++ ms) := by
    rw [← dirtyWith_append]
    rfl
  refine ⟨ms, hall, honly, ?_⟩
  rw [emptied, hdropped, hdirty]
  rfl

theorem tget_runsEnded (i : Indication) (us : List Nat) (runs : Vector DelegateRun 192) {u : Nat} (hu : u ∈ units) :
    tget (runsEnded i us runs) (u - 1) =
      if u ∈ us then requestEnded (some i) (tget runs (u - 1)) else tget runs (u - 1) := by
  obtain ⟨-, hlt, hpos⟩ := unitIndex_of_mem hu
  have hback : u - 1 + 1 = u := by omega
  rw [runsEnded, tget_tmapIdx_of_lt _ _ hlt, hback]

theorem emptied_run {u : Nat} (hu : u ∈ units) : (h.emptied us).run u =
    if u ∈ us then requestEnded (some .dropped) (h.run u)
    else if u ∈ h.floor.chairs then requestEnded (some .denied) (h.run u) else h.run u := by
  obtain ⟨ms, -, -, hemptied⟩ := emptied_eq us h
  obtain ⟨hindex, -, -⟩ := unitIndex_of_mem hu
  rw [hemptied, run, run, hindex, tget_runsEnded _ _ _ hu, tget_runsEnded _ _ _ hu]
  split_ifs <;> rfl

theorem emptied_slot {u : Nat} (hu : u ∈ units) : ((h.emptied us).run u).slot = (h.run u).slot := by
  rw [emptied_run hu]
  split_ifs <;> rfl

/-- Who still has a state that no request has. -/
theorem emptied_state_iff {u : Nat} (hu : u ∈ units) {x : FloorState} (hx : x ≠ .idle) :
    ((h.emptied us).run u).state = x ↔ (u ∉ us ∧ u ∉ h.floor.chairs) ∧ (h.run u).state = x := by
  rw [emptied_run hu]
  by_cases hus : u ∈ us
  · simp [hus, requestEnded, Ne.symm hx]
  · by_cases hchair : u ∈ h.floor.chairs
    · simp [hus, hchair, requestEnded, Ne.symm hx]
    · simp [hus, hchair]

theorem mem_holders_emptied {u : Nat} (hu : u ∈ units) : u ∈ (h.emptied us).holders ↔
    (u ∉ us ∧ u ∉ h.floor.chairs) ∧ ((h.run u).state = .granting ∨ (h.run u).state = .speaking) := by
  have hstate {x : FloorState} (hx : x ≠ .idle) := emptied_state_iff (h := h) (us := us) hu hx
  rw [holders, List.mem_filter, onFloor_iff, hstate (by decide), hstate (by decide)]
  tauto

/-! ## The queues left -/

theorem queue_emptied (us : List Nat) (h : Hall) {r : Nat} (hr : r < 8) :
    (h.emptied us).queue r = (h.queue r).diff (us.filter (fun u => h.roomOfUnit u = r)) := by
  obtain ⟨ms, -, -, hemptied⟩ := emptied_eq us h
  rw [hemptied]
  exact tget_tmapIdx_of_lt _ _ hr

theorem not_mem_queue_emptied {r u : Nat} (hr : r < 8) (hcount : (h.queue r).count u ≤ us.count u)
    (hroom : h.roomOfUnit u = r) : u ∉ (h.emptied us).queue r := by
  rw [queue_emptied us h hr, ← List.count_eq_zero, count_diff, List.count_filter (by simpa using hroom)]
  omega

theorem queue_emptied_sublist {r : Nat} (hr : r < 8) : ((h.emptied us).queue r).Sublist (h.queue r) := by
  rw [queue_emptied us h hr]
  exact List.diff_sublist _ _

/-- A room that does not exist has no units, and so keeps its queue. -/
theorem queue_emptied_of_not_mem {r : Nat} (hr : r < 8) (hnot : r ∉ h.rooms) : (h.emptied us).queue r = h.queue r := by
  have hnone : us.filter (fun u => h.roomOfUnit u = r) = [] := by
    refine List.filter_eq_nil_iff.mpr fun u _ hroom => hnot ?_
    have hroom : h.roomOfUnit u = r := of_decide_eq_true hroom
    exact hroom ▸ mem_roomIds.mpr (isRoomId_roomOf _ _)
  rw [queue_emptied us h hr, hnone, List.diff_nil]

/-! ## The floor stopped -/

/-- `h` with its floor emptied and its holders closed. -/
def floorStopped (us : List Nat) (h : Hall) : Hall := (h.emptied us).holdersStopped (h.emptied us).holders

theorem requestEnded_stopped (i : Indication) (d : DelegateRun) :
    stoppedRun (requestEnded (some i) d) = requestEnded (some i) d := stoppedRun_of_not (by simp [requestEnded])

theorem floorStopped_run {u : Nat} (hu : u ∈ units) : (h.floorStopped us).run u =
    if u ∈ us then requestEnded (some .dropped) (h.run u)
    else if u ∈ h.floor.chairs then requestEnded (some .denied) (h.run u) else stoppedRun (h.run u) := by
  rw [floorStopped, run_holdersStopped hu, emptied_run hu]
  split_ifs
  · exact requestEnded_stopped _ _
  · exact requestEnded_stopped _ _
  · rfl

theorem floorStopped_dirty (hrooms : ∀ u ∈ us, ∀ v ∈ h.queue (h.roomOfUnit u), v ∈ us) {u : Nat} (hu : u ∈ units) :
    tget (h.floorStopped us).floor.dirty (u - 1) = (tget h.floor.dirty (u - 1) || (h.known u &&
      (decide (u ∈ us) || h.floor.chairs.contains u || decide ((h.run u).state = .granting ∨ (h.run u).state = .speaking)))) := by
  obtain ⟨ms, hmarks, honly, hemptied⟩ := emptied_eq us h
  obtain ⟨-, hlt, hpos⟩ := unitIndex_of_mem hu
  have hback : u - 1 + 1 = u := by omega
  have hms : u ∈ ms ↔ u ∈ us := ⟨fun hin => (honly u hin).elim id fun ⟨v, hv, hq⟩ => hrooms v hv u hq, hmarks u⟩
  have hdirty : (h.floorStopped us).floor.dirty = h.dirtyWith (h.floor.chairs ++ ms ++ (h.emptied us).holders) := by
    have hlast : (h.floorStopped us).floor.dirty = (h.emptied us).dirtyWith (h.emptied us).holders := rfl
    rw [hlast, ← dirtyWith_append]
    generalize (h.emptied us).holders = vs
    rw [hemptied]
    rfl
  have hmarked : (h.floor.chairs ++ ms ++ (h.emptied us).holders).contains u = (decide (u ∈ us) || h.floor.chairs.contains u ||
      decide ((h.run u).state = .granting ∨ (h.run u).state = .speaking)) := by
    rw [Bool.eq_iff_iff]
    simp only [List.contains_iff_mem, List.mem_append, Bool.or_eq_true, decide_eq_true_eq, hms, mem_holders_emptied hu]
    tauto
  rw [hdirty, dirtyWith_eq, tget_tmapIdx_of_lt _ _ hlt, hback, hmarked, Bool.and_comm]

/-- The holders closed from a state, by their slots. -/
theorem exists_holder_iff {x : FloorState} (hx : x = .granting ∨ x = .speaking) (k : Nat) :
    (∃ u ∈ (h.emptied us).holders, ((h.emptied us).run u).state = x ∧ ((h.emptied us).run u).slot = some k) ↔
      ∃ u ∈ units, (decide (u ∈ us) || h.floor.chairs.contains u) = false ∧ (h.run u).state = x ∧ (h.run u).slot = some k := by
  have hidle : x ≠ .idle := by
    obtain rfl | rfl := hx <;> nofun
  have hwaits (u : Nat) : (decide (u ∈ us) || h.floor.chairs.contains u) = false ↔ u ∉ us ∧ u ∉ h.floor.chairs := by
    simp
  refine exists_congr fun u => ?_
  rw [hwaits]
  constructor
  · rintro ⟨hheld, hstate, hslot⟩
    have hu : u ∈ units := (List.mem_filter.mp hheld).1
    obtain ⟨hnot, hstate⟩ := (emptied_state_iff hu hidle).mp hstate
    exact ⟨hu, hnot, hstate, emptied_slot hu ▸ hslot⟩
  · rintro ⟨hu, hnot, hstate, hslot⟩
    refine ⟨(mem_holders_emptied hu).mpr ⟨hnot, ?_⟩, (emptied_state_iff hu hidle).mpr ⟨hnot, hstate⟩, ?_⟩
    · rwa [hstate]
    · rw [emptied_slot hu, hslot]

theorem floorStopped_mics {k : Nat} (hk : k < 24) : tget (h.floorStopped us).slots.mics k =
    if ∃ u ∈ units, (decide (u ∈ us) || h.floor.chairs.contains u) = false ∧ (h.run u).state = .granting ∧
      (h.run u).slot = some k then none else tget h.slots.mics k := by
  have hmics : (h.emptied us).slots.mics = h.slots.mics := by
    obtain ⟨ms, -, -, hemptied⟩ := emptied_eq us h
    rw [hemptied]
  rw [floorStopped, holdersStopped, tget_tmapIdx_of_lt _ _ hk, hmics]
  exact if_congr (exists_holder_iff (.inl rfl) k) rfl rfl

theorem floorStopped_gains {k : Nat} (hk : k < 24) : tget (h.floorStopped us).gains.mics k =
    if ∃ u ∈ units, (decide (u ∈ us) || h.floor.chairs.contains u) = false ∧ (h.run u).state = .speaking ∧
      (h.run u).slot = some k then { tget h.gains.mics k with target := 128 } else tget h.gains.mics k := by
  have hmics : (h.emptied us).gains.mics = h.gains.mics := by
    obtain ⟨ms, -, -, hemptied⟩ := emptied_eq us h
    rw [hemptied]
  rw [floorStopped, holdersStopped, tget_tmapIdx_of_lt _ _ hk, hmics]
  exact if_congr (exists_holder_iff (.inr rfl) k) rfl rfl

theorem floorStopped_queue (r : Nat) : (h.floorStopped us).queue r = (h.emptied us).queue r := rfl

theorem floorStopped_entries : entries (h.floorStopped us).floor.queues = entries (h.queuesWithout us) := by
  obtain ⟨ms, -, -, hemptied⟩ := emptied_eq us h
  have hqueues : (h.floorStopped us).floor.queues = (h.emptied us).floor.queues := rfl
  rw [hqueues, hemptied]

/-! ## The fade points -/

theorem fadeRooms_sections (h : Hall) : h.fadeRooms Config.mute sections = { h with
    gains.rooms := tmapIdx h.gains.rooms (fun _ x => { x with target := 128 })
    gains.booths := tmapIdx h.gains.booths (fun _ x => { x with target := 128 }) } := by
  have hrooms : tmapIdx h.gains.rooms (fun i x => if i / 9 ∈ sections then { x with target := 128 } else x) =
      tmapIdx h.gains.rooms (fun _ x => { x with target := 128 }) := by
    apply table_ext
    intro i hi
    have hin : i / 9 ∈ sections := List.mem_range.mpr (by omega)
    rw [tget_tmapIdx_of_lt _ _ hi, tget_tmapIdx_of_lt _ _ hi, if_pos hin]
  have hbooths : tmapIdx h.gains.booths (fun b x => { x with
        target := if h.roomOfBooth b ∈ sections then 128 else (tget h.gains.rooms (9 * h.roomOfBooth b)).target }) =
      tmapIdx h.gains.booths (fun _ x => { x with target := 128 }) := by
    apply table_ext
    intro b hb
    have hin : h.roomOfBooth b ∈ sections := List.mem_range.mpr (roomOf_lt _ _)
    rw [tget_tmapIdx_of_lt _ _ hb, tget_tmapIdx_of_lt _ _ hb, if_pos hin]
  have hfades := fadeRooms_eq 128 sections h
  rw [hrooms, hbooths] at hfades
  exact hfades

/-! ## Entry into STOPPING -/

/-- The floor stopped and the fade points aimed at mute, as the statements say it. -/
theorem stoppingEntered_of_floorStopped (hfrom : ∀ u ∈ us, ∃ r ∈ h.rooms, u ∈ h.queue r)
    (hall : ∀ r ∈ h.rooms, ∀ u ∈ h.queue r, u ∈ us)
    (hcount : ∀ r ∈ h.rooms, ∀ u, h.roomOfUnit u = r → (h.queue r).count u ≤ us.count u) :
    h.StoppingEntered (((h.setMode .stopping).floorStopped us).fadeRooms Config.mute sections) := by
  have hlt : ∀ r ∈ h.rooms, r < 8 := fun r hr => List.mem_range.mp (List.mem_of_mem_filter (p := isRoomId h.part.inForce) hr)
  have hqueued (u : Nat) : h.rooms.any (fun r => (h.queue r).contains u) = decide (u ∈ us) := by
    rw [Bool.eq_iff_iff, List.any_eq_true, decide_eq_true_eq]
    constructor
    · rintro ⟨r, hr, hin⟩
      exact hall r hr u (List.contains_iff_mem.mp hin)
    · intro hu
      obtain ⟨r, hr, hin⟩ := hfrom u hu
      exact ⟨r, hr, List.contains_iff_mem.mpr hin⟩
  have hbehind : ∀ u ∈ us, ∀ v ∈ h.queue (h.roomOfUnit u), v ∈ us :=
    fun u _ => hall (h.roomOfUnit u) (mem_roomIds.mpr (isRoomId_roomOf _ _))
  have hgone : ∀ r ∈ h.rooms, ∀ u ∈ h.queue r, h.roomOfUnit u = r → u ∉ ((h.setMode .stopping).emptied us).queue r :=
    fun r hr u _ hroom => not_mem_queue_emptied (h := h.setMode .stopping) (hlt r hr) (hcount r hr u hroom) hroom
  have hsub (r : Nat) (hr : r < 8) : (((h.setMode .stopping).emptied us).queue r).Sublist (h.queue r) :=
    queue_emptied_sublist (h := h.setMode .stopping) hr
  have hentries := floorStopped_entries (h := h.setMode .stopping) (us := us)
  obtain ⟨ms, -, -, hemptied⟩ := emptied_eq us (h.setMode .stopping)
  have hpool : ((h.setMode .stopping).floorStopped us).floor.poolFree = h.floor.poolFree +
      (entries h.floor.queues - entries ((h.setMode .stopping).floorStopped us).floor.queues) := by
    rw [hentries]
    show ((h.setMode .stopping).emptied us).floor.poolFree = _
    rw [hemptied]
    rfl
  have harmed : ((h.setMode .stopping).floorStopped us).floor.poolArmed = (h.floor.poolArmed || decide (
      entries ((h.setMode .stopping).floorStopped us).floor.queues < entries h.floor.queues ∧ 24 ≤ h.floor.poolFree +
        (entries h.floor.queues - entries ((h.setMode .stopping).floorStopped us).floor.queues))) := by
    rw [hentries]
    show ((h.setMode .stopping).emptied us).floor.poolArmed = _
    rw [hemptied]
    rfl
  have hsame : (h.setMode .stopping).floorStopped us = { h with
      cmd.mode := .stopping
      floor := ((h.setMode .stopping).floorStopped us).floor
      slots.mics := ((h.setMode .stopping).floorStopped us).slots.mics
      gains.mics := ((h.setMode .stopping).floorStopped us).gains.mics } := by
    rw [floorStopped]
    generalize ((h.setMode .stopping).emptied us).holders = vs
    rw [hemptied]
    rfl
  rw [fadeRooms_sections]
  unfold StoppingEntered
  simp only [hqueued]
  refine ⟨?_, ?_, fun r hr => ?_, fun r hr => ⟨hgone r hr, fun hrooms => ?_⟩, fun r hr => ⟨hsub r hr, fun hnot => ?_⟩,
    ?_, ?_, fun u hu => ?_, fun u hu => ?_, fun k hk => ?_, fun k hk => ?_⟩
  · rw [hsame]
  · show ((h.setMode .stopping).emptied us).floor.chairs = []
    rw [hemptied]
  · show tget ((h.setMode .stopping).emptied us).floor.gaps r = none
    rw [hemptied, tget_eq_getElem _ hr, Vector.getElem_replicate]
  · refine List.eq_nil_iff_forall_not_mem.mpr fun u hin => ?_
    have hq := (hsub r (hlt r hr)).subset hin
    exact hgone r hr u hq (hrooms u hq) hin
  · exact queue_emptied_of_not_mem (h := h.setMode .stopping) hr hnot
  · exact hpool
  · exact harmed
  · simp only [decide_eq_true_eq, List.contains_iff_mem]
    exact floorStopped_run (h := h.setMode .stopping) hu
  · exact floorStopped_dirty (h := h.setMode .stopping) hbehind hu
  · exact floorStopped_mics (h := h.setMode .stopping) hk
  · exact floorStopped_gains (h := h.setMode .stopping) hk

theorem enterStopping_stoppingEntered (hm : h.Clean) : h.StoppingEntered (h.enterStopping reader) := by
  obtain ⟨us, hclosed, hfrom, hall, hcount⟩ := closeFloor_eq (h := h.setMode .stopping) hm rfl
  have hentered : h.enterStopping reader = ((h.setMode .stopping).floorStopped us).fadeRooms Config.mute sections :=
    congrArg (fadeRooms Config.mute sections) hclosed
  rw [hentered]
  exact stoppingEntered_of_floorStopped hfrom hall hcount

end Hall

end Sys2Proof.Machine

/-! SUPPORT. O10 and O43: the two entries into STOPPING (R141, R111). -/

namespace Sys2Proof.Machine

namespace Hall

variable {h : Hall}

theorem floorOpen_iff : h.floorOpen = true ↔ h.cmd.mode = .live ∨ h.cmd.mode = .safe := by
  rw [floorOpen, Bool.or_eq_true, beq_iff_eq, beq_iff_eq]

/-- Reads that find nothing do not change how the floor closes. -/
theorem closeFloor_still {rd : Reader} (hr : rd.Idle) (hm : h.Clean) : h.closeFloor rd = h.closeFloor .still := by
  have C := clean_closed.toClosedFloor
  have hchairs : h.dropChairs rd .denied (fun _ _ => true) = h.dropChairs .still .denied (fun _ _ => true) := by
    rw [idle_dropChairs hr hm, idle_dropChairs still_idle hm]
  have hdenied : (h.dropChairs .still .denied (fun _ _ => true)).Clean := keeps_dropChairs C still_keeps hm
  unfold closeFloor
  dsimp only
  rw [hchairs]
  generalize h.dropChairs .still .denied (fun _ _ => true) = g at hdenied
  have hqueues : g.each g.rooms (dropQueue rd) = g.each g.rooms (dropQueue .still) :=
    each_agree _ (fun _ _ hc => dropQueue_still hr hc) (fun _ _ hc => keeps_dropQueue C still_keeps hc) hdenied
  have hdropped : (g.each g.rooms (dropQueue .still)).Clean := each_keeps (fun _ _ hc => keeps_dropQueue C still_keeps hc) hdenied
  rw [hqueues]
  generalize g.each g.rooms (dropQueue .still) = x at hdropped
  have hgaps : (x.each sections (fun r h => h.setGap r none)).Clean := each_keeps (fun _ _ hc => keeps_setGap C hc) hdropped
  generalize x.each sections (fun r h => h.setGap r none) = y at hgaps
  rw [idle_readHolders hr hgaps, idle_readHolders still_idle hgaps]
  exact closeWithConsequences_still hr hgaps

theorem enterStopping_veiled (hm : h.Clean) (w : Nat) :
    (h.veiled w none).enterStopping reader = (h.enterStopping reader).veiled w none := by
  refine reader_veiled (f := enterStopping) hm (fun g hg => ?_) blind_enterStopping
  have hmode : (g.setMode .stopping).Clean := hg
  rw [enterStopping, enterStopping, closeFloor_still reader_idle hmode]

theorem setModeConfig_veiled (hm : h.Clean) (w : Nat) :
    (h.veiled w none).setModeConfig reader = (h.setModeConfig reader).map (veiled w none) id := by
  have hrequested : ((h.veiled w none).setRequested .config).enterStopping reader =
      ((h.setRequested .config).enterStopping reader).veiled w none := enterStopping_veiled (h := h.setRequested .config) hm w
  have hopen : (h.veiled w none).floorOpen = h.floorOpen := rfl
  have hflight : ((h.veiled w none).setRequested .config).inFlight = (h.setRequested .config).inFlight := rfl
  unfold setModeConfig
  dsimp only
  rw [hrequested, hopen, hflight]
  generalize (h.setRequested .config).enterStopping reader = g
  split_ifs <;> rfl

end Hall

/-- Settles O10: the branches of `Hall.setModeConfig`, and the entry is `Hall.enterStopping_stoppingEntered`. -/
theorem setModeConfigByMode : Obligations.SetModeConfigByMode := by
  intro s hd hr hm c h good stops
  have hrow : exec (.setModeConfig hd) s = .next (s.withChip
      ({ c with hall := (h.setModeConfig reader).1 }.answered hd (h.setModeConfig reader).2)) := by
    rw [exec_of_command (x := .setModeConfig) rfl, Chip.commandRow_of_veiled (x := .setModeConfig) hr rfl rfl nofun rfl
      (fun w => Hall.setModeConfig_veiled hm w)]
  rw [hrow, Hall.setModeConfig]
  by_cases hopen : h.floorOpen = true
  · have hmode := Hall.floorOpen_iff.mp hopen
    have hnot : ¬(h.cmd.mode = .config ∨ h.cmd.mode = .stopping) := by
      obtain hlive | hsafe := hmode
      · rw [hlive]; decide
      · rw [hsafe]; decide
    have hflight : (h.setRequested .config).inFlight = true ↔ h.part.repartition ≠ .idle := bne_iff_ne
    rw [if_pos hopen]
    refine ⟨fun hwaits => ?_, fun hstops => ?_⟩
    · have hfly := hflight.mpr fun hidle => hwaits ⟨hmode, hidle⟩
      dsimp only
      rw [if_pos hfly, if_neg hnot]
      rfl
    · have hfly : ¬(h.setRequested .config).inFlight = true := fun hfly => hflight.mp hfly hstops.2
      dsimp only
      rw [if_neg hfly]
      exact ⟨_, rfl, Hall.enterStopping_stoppingEntered (h := h.setRequested .config) hm⟩
  · have hmode : h.cmd.mode = .config ∨ h.cmd.mode = .stopping := by
      have hnot := mt Hall.floorOpen_iff.mpr hopen
      cases hx : h.cmd.mode <;> simp_all
    rw [if_neg hopen]
    refine ⟨fun _ => ?_, fun hstops => absurd (Hall.floorOpen_iff.mpr hstops.1) hopen⟩
    rw [if_pos hmode]
    rfl

namespace Hall

variable {h : Hall}

theorem repartitionDone_of_not (rd : Reader) (hnot : ∀ p ss, h.part.repartition ≠ .fadingIn p ss) : h.repartitionDone rd = h := by
  unfold repartitionDone
  split
  · next p ss hfades => exact absurd hfades (hnot p ss)
  · rfl

theorem repartitionDone_of_fadingIn (rd : Reader) {p : Partition} {ss : List Nat} (hfades : h.part.repartition = .fadingIn p ss) :
    h.repartitionDone rd =
      let ended := (h.setRepartition .idle).post .repartitionDone 0 (wallMap h.part.inForce) 0 (sectionMap ss)
      (if h.cmd.requested = .config ∧ h.floorOpen = true then ended.enterStopping rd else ended).startTest rd := by
  unfold repartitionDone
  rw [hfades]
  rfl

/-- STOPPING once entered starts no repartition. -/
theorem startTest_of_stoppingEntered {g : Hall} (rd : Reader) (hg : h.StoppingEntered g) : g.startTest rd = g := by
  have hmode : g.cmd.mode = .stopping := by
    rw [hg.1]
  unfold startTest
  rw [hmode]
  split_ifs <;> rfl

end Hall

/-- Settles O43: the row runs the hall's `repartitionDone`. -/
theorem repartitionDoneEnds : Obligations.RepartitionDoneEnds := by
  intro s rest hdue hramp hm c h
  have hrow : exec .repartitionDone s = .next (s.withChip { c with due := rest, hall := h.repartitionDone reader }) :=
    next_takeRow_of_onlyHall hdue hramp nofun (fun _ => rfl)
  refine ⟨fun p ss hfades => ?_, fun hfades => ?_⟩
  · intro ended open' q rs ts
    have hclean : ended.Clean := hm
    have hdone := Hall.repartitionDone_of_fadingIn reader hfades
    have hended : (h.setRepartition .idle).post .repartitionDone 0 (wallMap h.part.inForce) 0 (sectionMap ss) = ended := rfl
    rw [hended] at hdone
    dsimp only at hdone
    have hstay (hwaits : ¬(h.cmd.requested = .config ∧ h.floorOpen = true)) : h.repartitionDone reader = ended.startTaken := by
      rw [hdone, if_neg hwaits, Hall.startTest_eq hclean]
    refine ⟨h.repartitionDone reader, hrow, fun ⟨hopen, hreq, hsame⟩ => ?_, fun ⟨hopen, hreq, hdiff⟩ => ?_, fun ⟨hopen, hreq⟩ => ?_,
      fun hclosed => ?_⟩
    · rw [hstay fun hboth => hreq hboth.1]
      exact Hall.startTaken_of_waits (h := ended) (.inl hsame)
    · have hconfig : h.cmd.mode ≠ .config ∧ h.cmd.mode ≠ .stopping := by
        obtain hlive | hsafe := hopen
        · rw [hlive]; decide
        · rw [hsafe]; decide
      have hidle : ended.part.repartition = .idle := rfl
      rw [hstay fun hboth => hreq hboth.1, Hall.startTaken_of_open (h := ended)
        (not_or.mpr ⟨hdiff, not_or.mpr ⟨not_not_intro hidle, hconfig.2⟩⟩) hconfig.1, Hall.startRepartition_eq]
      rfl
    · have hentered := Hall.enterStopping_stoppingEntered hclean
      rw [hdone, if_pos ⟨hreq, Hall.floorOpen_iff.mpr hopen⟩, Hall.startTest_of_stoppingEntered reader hentered]
      exact hentered
    · exact hstay fun hboth => hclosed (Hall.floorOpen_iff.mp hboth.2)
  · rw [hrow, Hall.repartitionDone_of_not _ hfades]

end Sys2Proof.Machine

/-! SUPPORT. O30: RECALL PRESET writes the parts of a preset, each with its reaction (R160, Table 11.2). -/

namespace Sys2Proof.Machine

namespace Hall

variable {h : Hall}

/-! ## Tables written whole -/

/-- A series that writes every entry of a table leaves the table of its values. -/
theorem foldl_tset_range {α : Type} [Inhabited α] {n : Nat} (x : Nat → α) (t : Vector α n) :
    (List.range n).foldl (fun t r => tset t r (x r)) t = tmake n x := by
  rw [foldl_tset]
  apply table_ext
  intro i hi
  rw [tget_tmapIdx_of_lt _ _ hi, tget_tmake_of_lt _ hi, if_pos (List.mem_range.mpr hi)]

theorem writeClasses_eq (x : PresetContents) (h : Hall) :
    h.writeClasses x = { h with mem.classes := tmake 4 (fun k => ⟨tget x.classes k, false, .sound⟩) } := by
  have hseries (l : List Nat) (h : Hall) : h.each l (fun k => writeClass k (tget x.classes k)) =
      { h with mem.classes := l.foldl (fun t k => tset t k ⟨tget x.classes k, false, .sound⟩) h.mem.classes } := by
    unfold each
    induction l generalizing h with
    | nil => rfl
    | cons k l ih => exact ih (h.writeClass k (tget x.classes k))
  rw [writeClasses, hseries, foldl_tset_range]

theorem writeAllSettings_eq (x : PresetContents) (h : Hall) :
    h.writeAllSettings x = { h with mem.settings := tmake 8 (fun i => ⟨tget x.settings i, false, .sound⟩) } := by
  have hseries (l : List Nat) (h : Hall) : h.each l (fun s => writeSettings s (tget x.settings s)) =
      { h with mem.settings := l.foldl (fun t s => tset t s ⟨tget x.settings s, false, .sound⟩) h.mem.settings } := by
    unfold each
    induction l generalizing h with
    | nil => rfl
    | cons s l ih => exact ih (h.writeSettings s (tget x.settings s))
  rw [writeAllSettings, hseries, sections, foldl_tset_range]

theorem writePlans_eq (x : PresetContents) (h : Hall) :
    h.writePlans x = { h with mem.plans := tmake 8 (fun i => ⟨tget x.plans i, false, .sound⟩) } := by
  have hseries (l : List Nat) (h : Hall) : h.each l (fun s => writePlan s (tget x.plans s)) =
      { h with mem.plans := l.foldl (fun t s => tset t s ⟨tget x.plans s, false, .sound⟩) h.mem.plans } := by
    unfold each
    induction l generalizing h with
    | nil => rfl
    | cons s l ih => exact ih (h.writePlan s (tget x.plans s))
  rw [writePlans, hseries, sections, foldl_tset_range]

theorem writeBooths_eq (x : PresetContents) (h : Hall) :
    h.writeBooths x = { h with mem.booths := tmake 16 (fun b => ⟨tget x.booths b, false, .sound⟩) } := by
  have hseries (l : List Nat) (h : Hall) : h.each l (fun b => writeBooth b (tget x.booths b)) =
      { h with mem.booths := l.foldl (fun t b => tset t b ⟨tget x.booths b, false, .sound⟩) h.mem.booths } := by
    unfold each
    induction l generalizing h with
    | nil => rfl
    | cons b l ih => exact ih (h.writeBooth b (tget x.booths b))
  rw [writeBooths, hseries, boothNumbers, foldl_tset_range]

theorem writeOverrides_eq (x : PresetContents) (h : Hall) :
    h.writeOverrides x = { h with mem.overrides := tmake 7 (fun w => ⟨tget x.overrides w, false, .sound⟩) } := by
  have hseries (l : List Nat) (h : Hall) : h.each l (fun w => writeOverride w (tget x.overrides w)) =
      { h with mem.overrides := l.foldl (fun t w => tset t w ⟨tget x.overrides w, false, .sound⟩) h.mem.overrides } := by
    unfold each
    induction l generalizing h with
    | nil => rfl
    | cons w l ih => exact ih (h.writeOverride w (tget x.overrides w))
  rw [writeOverrides, hseries, foldl_tset_range]

/-- A table of sound records is free of findings. -/
theorem finding_tmake {α : Type} {n : Nat} (x : Nat → α) :
    ∀ p ∈ tmake n (fun i => (⟨x i, false, .sound⟩ : Protected α)), p.finding = .none := by
  intro p hp
  obtain ⟨i, hi, rfl⟩ := Vector.getElem_of_mem hp
  simp only [tmake, Vector.getElem_mk, List.getElem_toArray, List.getElem_map]
  rfl

/-! ## Series of reactions -/

/-- Two series agree where their steps do, for the members of the list. -/
theorem each_congr_mem {α : Type} {P : Hall → Prop} {f g : α → Hall → Hall} {l : List α} (hf : ∀ a ∈ l, ∀ x, P x → f a x = g a x)
    (hg : ∀ a ∈ l, ∀ x, P x → P (g a x)) (hp : P h) : h.each l f = h.each l g ∧ P (h.each l g) := by
  unfold each
  induction l generalizing h with
  | nil => exact ⟨rfl, hp⟩
  | cons a l ih =>
    rw [List.foldl_cons, List.foldl_cons, hf a List.mem_cons_self h hp]
    exact ih (fun b hb => hf b (List.mem_cons_of_mem a hb)) (fun b hb => hg b (List.mem_cons_of_mem a hb))
      (hg a List.mem_cons_self h hp)

/-- A series does not see the window where its steps do not. -/
theorem each_veiled {α : Type} {f : α → Hall → Hall} {l : List α} {w : Nat}
    (hf : ∀ a ∈ l, ∀ x : Hall, x.Clean → f a (x.veiled w none) = (f a x).veiled w none)
    (hkeep : ∀ a ∈ l, ∀ x : Hall, x.Clean → (f a x).Clean) (hm : h.Clean) :
    (h.veiled w none).each l f = (h.each l f).veiled w none := by
  unfold each
  induction l generalizing h with
  | nil => rfl
  | cons a l ih =>
    rw [List.foldl_cons, List.foldl_cons, hf a List.mem_cons_self h hm]
    exact ih (fun b hb => hf b (List.mem_cons_of_mem a hb)) (fun b hb => hkeep b (List.mem_cons_of_mem a hb))
      (hkeep a List.mem_cons_self h hm)

theorem room_lt {r : Nat} (hr : r ∈ h.rooms) : r < 8 :=
  List.mem_range.mp (List.mem_of_mem_filter (p := isRoomId h.part.inForce) hr)

/-! ## The records and the store under the reactions -/

/-- The tables are `m`, and the store `s`. -/
def RecordsAt (m : TableMemory) (s : PresetStore) (g : Hall) : Prop := g.mem = m ∧ g.store = s

theorem recordsAt_closed (m : TableMemory) (s : PresetStore) : ClosedSafe (RecordsAt m s) where
  post _ _ _ _ _ _ _ hp := hp
  run _ _ _ _ hp := hp
  floor _ _ _ hp := hp
  slot _ _ hp := hp
  mic _ _ _ _ hp := hp
  held _ _ _ _ hp := hp
  notices _ _ _ hp := hp
  slots _ _ _ hp := hp
  plans _ _ hp := hp
  booth _ _ _ hp := hp
  fades _ _ _ _ hp := hp
  sync _ hp := hp
  partition _ _ hp := hp
  effective _ _ hp := hp
  repartition _ _ hp := hp
  safe _ _ hp := hp

theorem RecordsAt.refl (h : Hall) : RecordsAt h.mem h.store h := ⟨rfl, rfl⟩

theorem RecordsAt.clean {m : TableMemory} {s : PresetStore} {g : Hall} (hg : RecordsAt m s g) (hm : m.ReadsFindNothing) : g.Clean := by
  rw [Clean, hg.1]
  exact hm

theorem reader_keeps_recordsAt {m : TableMemory} (hm : m.ReadsFindNothing) (s : PresetStore) : reader.Keeps (RecordsAt m s) :=
  idle_keeps reader_idle fun _ hg => hg.clean hm

section recalled

variable {m : TableMemory} {s : PresetStore} {g : Hall}

theorem classTaken_records (hm : m.ReadsFindNothing) (k : Nat) (old : TimeClass) (hg : RecordsAt m s g) :
    RecordsAt m s (g.classTaken k old) := by
  rw [← classChanged_eq]
  exact keeps_classChanged (recordsAt_closed m s).toClosedFloor (reader_keeps_recordsAt hm s) hg

theorem settingsTaken_records (hm : m.ReadsFindNothing) (r : Nat) (old : Settings) (hg : RecordsAt m s g) :
    RecordsAt m s (g.settingsTaken r old) := by
  rw [← settingsChanged_eq (hg.clean hm)]
  exact keeps_settingsChanged (recordsAt_closed m s).toClosedFloor (reader_keeps_recordsAt hm s) hg

theorem planTaken_records (hm : m.ReadsFindNothing) {r : Nat} (hr : r < 8) (hg : RecordsAt m s g) :
    RecordsAt m s (g.planTaken r) := by
  rw [← replan_eq_planTaken (hg.clean hm) hr]
  exact keeps_replan (recordsAt_closed m s).toClosedRooms (reader_keeps_recordsAt hm s) hg

theorem boothTaken_records (hm : m.ReadsFindNothing) (led : Nat → Led) (b : Nat) (x : BoothBefore) (hg : RecordsAt m s g) :
    RecordsAt m s (g.boothTaken led b x) := by
  rw [← boothWritten_eq (hg.clean hm)]
  exact keeps_boothWritten (recordsAt_closed m s).toClosedRooms (reader_keeps_recordsAt hm s) hg

theorem wallsTaken_records (hm : m.ReadsFindNothing) (hg : RecordsAt m s g) : RecordsAt m s g.wallsTaken := by
  rw [← computeWalls_eq (hg.clean hm)]
  exact keeps_computeWalls (recordsAt_closed m s).toClosedPart (reader_keeps_recordsAt hm s) hg

end recalled

/-! ## The parts of a recall (Table 11.2) -/

section parts

/-- The tables with the time classes of a preset. -/
def classesSet (m : TableMemory) (x : Vector TimeClass 4) : TableMemory :=
  { m with classes := tmake 4 (fun k => ⟨tget x k, false, .sound⟩) }

/-- The tables with the section settings of a preset. -/
def settingsSet (m : TableMemory) (x : Vector Settings 8) : TableMemory :=
  { m with settings := tmake 8 (fun i => ⟨tget x i, false, .sound⟩) }

/-- The tables with the home plans of a preset. -/
def plansSet (m : TableMemory) (x : Vector (List Nat) 8) : TableMemory :=
  { m with plans := tmake 8 (fun i => ⟨tget x i, false, .sound⟩) }

/-- The tables with the booth records of a preset. -/
def boothsSet (m : TableMemory) (x : Vector Booth 16) : TableMemory :=
  { m with booths := tmake 16 (fun b => ⟨tget x b, false, .sound⟩) }

/-- The tables with the wall overrides of a preset. -/
def overridesSet (m : TableMemory) (x : Vector Override 7) : TableMemory :=
  { m with overrides := tmake 7 (fun w => ⟨tget x w, false, .sound⟩) }

variable {m : TableMemory}

theorem classesSet_clean (hm : m.ReadsFindNothing) (x : Vector TimeClass 4) : (classesSet m x).ReadsFindNothing := by
  obtain ⟨hdelegates, hsettings, hplans, hbooths, hclasses, hoverrides⟩ := hm
  exact ⟨hdelegates, hsettings, hplans, hbooths, finding_tmake _, hoverrides⟩

theorem settingsSet_clean (hm : m.ReadsFindNothing) (x : Vector Settings 8) : (settingsSet m x).ReadsFindNothing := by
  obtain ⟨hdelegates, hsettings, hplans, hbooths, hclasses, hoverrides⟩ := hm
  exact ⟨hdelegates, finding_tmake _, hplans, hbooths, hclasses, hoverrides⟩

theorem plansSet_clean (hm : m.ReadsFindNothing) (x : Vector (List Nat) 8) : (plansSet m x).ReadsFindNothing := by
  obtain ⟨hdelegates, hsettings, hplans, hbooths, hclasses, hoverrides⟩ := hm
  exact ⟨hdelegates, hsettings, finding_tmake _, hbooths, hclasses, hoverrides⟩

theorem boothsSet_clean (hm : m.ReadsFindNothing) (x : Vector Booth 16) : (boothsSet m x).ReadsFindNothing := by
  obtain ⟨hdelegates, hsettings, hplans, hbooths, hclasses, hoverrides⟩ := hm
  exact ⟨hdelegates, hsettings, hplans, finding_tmake _, hclasses, hoverrides⟩

theorem overridesSet_clean (hm : m.ReadsFindNothing) (x : Vector Override 7) : (overridesSet m x).ReadsFindNothing := by
  obtain ⟨hdelegates, hsettings, hplans, hbooths, hclasses, hoverrides⟩ := hm
  exact ⟨hdelegates, hsettings, hplans, hbooths, hclasses, finding_tmake _⟩

theorem recallClasses_eq (x : PresetContents) (h : Hall) : h.recallClasses reader x = h.classesRecalled x.classes := by
  unfold recallClasses
  rw [writeClasses_eq]
  exact (each_congr_mem (P := fun _ => True) (fun k _ g _ => classChanged_eq (h := g) k _) (fun _ _ _ _ => trivial) trivial).1

theorem classesRecalled_records (hm : h.Clean) (x : Vector TimeClass 4) :
    RecordsAt (classesSet h.mem x) h.store (h.classesRecalled x) :=
  each_keeps (fun k _ hg => classTaken_records (classesSet_clean hm x) k _ hg) ⟨rfl, rfl⟩

theorem classesRecalled_veiled (hm : h.Clean) (x : Vector TimeClass 4) (w : Nat) :
    (h.veiled w none).classesRecalled x = (h.classesRecalled x).veiled w none := by
  refine each_veiled (h := { h with mem := classesSet h.mem x }) (f := fun k g => g.classTaken k (h.timeClass k))
    (fun k _ g hg => ?_) (fun k _ g hg => ?_) (classesSet_clean hm x)
  · rw [← classChanged_eq, ← classChanged_eq]
    exact classChanged_veiled hg k _ w
  · exact (classTaken_records hg k _ (RecordsAt.refl g)).clean hg

theorem recallSettings_eq (hm : h.Clean) (x : PresetContents) : h.recallSettings reader x = h.settingsRecalled x.settings := by
  unfold recallSettings
  rw [writeAllSettings_eq]
  exact (each_congr_mem (h := { h with mem := settingsSet h.mem x.settings }) (P := Clean) (fun r _ g hg => settingsChanged_eq (h := g) hg r _)
    (fun r _ g hg => (settingsTaken_records hg r _ (RecordsAt.refl g)).clean hg) (settingsSet_clean hm x.settings)).1

theorem settingsRecalled_records (hm : h.Clean) (x : Vector Settings 8) :
    RecordsAt (settingsSet h.mem x) h.store (h.settingsRecalled x) :=
  each_keeps (fun r _ hg => settingsTaken_records (settingsSet_clean hm x) r _ hg) ⟨rfl, rfl⟩

theorem settingsRecalled_veiled (hm : h.Clean) (x : Vector Settings 8) (w : Nat) :
    (h.veiled w none).settingsRecalled x = (h.settingsRecalled x).veiled w none := by
  refine each_veiled (h := { h with mem := settingsSet h.mem x }) (f := fun r g => g.settingsTaken r (h.settings r))
    (fun r _ g hg => ?_) (fun r _ g hg => ?_) (settingsSet_clean hm x)
  · rw [← settingsChanged_eq hg, ← settingsChanged_eq (h := g.veiled w none) hg]
    exact settingsChanged_veiled hg r _ w
  · exact (settingsTaken_records hg r _ (RecordsAt.refl g)).clean hg

theorem recallPlans_eq (hm : h.Clean) (x : PresetContents) : h.recallPlans reader x = h.plansRecalled x.plans := by
  unfold recallPlans
  rw [writePlans_eq]
  exact (each_congr_mem (h := { h with mem := plansSet h.mem x.plans }) (P := Clean) (fun r hr g hg => replan_eq_planTaken (h := g) hg (room_lt hr))
    (fun r hr g hg => (planTaken_records hg (room_lt hr) (RecordsAt.refl g)).clean hg) (plansSet_clean hm x.plans)).1

theorem plansRecalled_records (hm : h.Clean) (x : Vector (List Nat) 8) :
    RecordsAt (plansSet h.mem x) h.store (h.plansRecalled x) :=
  (each_congr_mem (h := { h with mem := plansSet h.mem x }) (f := fun r g => g.planTaken r) (P := RecordsAt (plansSet h.mem x) h.store) (fun _ _ _ _ => rfl)
    (fun _ hr _ hg => planTaken_records (plansSet_clean hm x) (room_lt hr) hg) ⟨rfl, rfl⟩).2

theorem plansRecalled_veiled (hm : h.Clean) (x : Vector (List Nat) 8) (w : Nat) :
    (h.veiled w none).plansRecalled x = (h.plansRecalled x).veiled w none :=
  each_veiled (h := { h with mem := plansSet h.mem x }) (f := fun r g => g.planTaken r)
    (fun _ hr _ hg => planTaken_veiled hg (room_lt hr) w)
    (fun _ hr g hg => (planTaken_records hg (room_lt hr) (RecordsAt.refl g)).clean hg) (plansSet_clean hm x)

/-- The booths' steps, before the booth fade points follow. -/
def boothsStepped (h : Hall) (x : Vector Booth 16) : Hall :=
  { h with mem := boothsSet h.mem x }.each boothNumbers (fun b g => g.boothTaken h.ledNow b (h.boothBefore b))

theorem boothsRecalled_eq_stepped (x : Vector Booth 16) (h : Hall) :
    h.boothsRecalled x = { h.boothsStepped x with gains.booths := (h.boothsStepped x).boothFades 0 [] } := rfl

theorem recallBooths_eq (hm : h.Clean) (x : PresetContents) : h.recallBooths reader x = h.boothsRecalled x.booths := by
  have hstepped : (h.writeBooths x).each boothNumbers (fun b => boothWritten reader h.ledNow b (h.boothBefore b)) =
      h.boothsStepped x.booths := by
    rw [writeBooths_eq]
    exact (each_congr_mem (h := { h with mem := boothsSet h.mem x.booths }) (P := Clean) (fun b _ g hg => boothWritten_eq (h := g) hg _ b _)
      (fun b _ g hg => (boothTaken_records hg _ b _ (RecordsAt.refl g)).clean hg) (boothsSet_clean hm x.booths)).1
  unfold recallBooths
  rw [idle_readAllBooths reader_idle hm]
  dsimp only
  rw [hstepped, syncBoothFades_eq (sameBeyondRouter_refl _), boothsRecalled_eq_stepped]

theorem boothsRecalled_records (hm : h.Clean) (x : Vector Booth 16) :
    RecordsAt (boothsSet h.mem x) h.store (h.boothsRecalled x) := by
  have hstepped : RecordsAt (boothsSet h.mem x) h.store (h.boothsStepped x) :=
    each_keeps (fun b _ hg => boothTaken_records (boothsSet_clean hm x) _ b _ hg) ⟨rfl, rfl⟩
  rw [boothsRecalled_eq_stepped]
  exact hstepped

theorem boothsRecalled_veiled (hm : h.Clean) (x : Vector Booth 16) (w : Nat) :
    (h.veiled w none).boothsRecalled x = (h.boothsRecalled x).veiled w none := by
  have hstepped : (h.veiled w none).boothsStepped x = (h.boothsStepped x).veiled w none := by
    refine each_veiled (h := { h with mem := boothsSet h.mem x }) (f := fun b g => g.boothTaken h.ledNow b (h.boothBefore b))
      (fun b _ g hg => ?_) (fun b _ g hg => ?_) (boothsSet_clean hm x)
    · rw [← boothWritten_eq hg, ← boothWritten_eq (h := g.veiled w none) hg]
      exact boothWritten_veiled hg _ b _ w
    · exact (boothTaken_records hg _ b _ (RecordsAt.refl g)).clean hg
  rw [boothsRecalled_eq_stepped, hstepped]
  rfl

theorem recallOverrides_eq (hm : h.Clean) (x : PresetContents) :
    h.recallOverrides reader x = { h with mem := overridesSet h.mem x.overrides }.wallsTaken := by
  rw [recallOverrides, writeOverrides_eq]
  exact computeWalls_eq (overridesSet_clean hm x.overrides)

end parts

/-! ## RECALL PRESET (R160) -/

/-- The parts of a recall but the last. -/
def partsRecalled (h : Hall) (x : PresetContents) : Hall :=
  let planned := ((h.classesRecalled x.classes).settingsRecalled x.settings).plansRecalled x.plans
  if h.cmd.mode = .live then planned else planned.boothsRecalled x.booths

/-- The hall after a recall. -/
def recalled (h : Hall) (x : PresetContents) : Hall :=
  { h.partsRecalled x with mem := overridesSet (h.partsRecalled x).mem x.overrides }.wallsTaken

/-- The tables after a recall. -/
def recordsRecalled (h : Hall) (x : PresetContents) : TableMemory :=
  let planned := plansSet (settingsSet (classesSet h.mem x.classes) x.settings) x.plans
  if h.cmd.mode = .live then planned else boothsSet planned x.booths

theorem recordsRecalled_clean (hm : h.Clean) (x : PresetContents) : (h.recordsRecalled x).ReadsFindNothing := by
  have hplanned := plansSet_clean (settingsSet_clean (classesSet_clean hm x.classes) x.settings) x.plans
  unfold recordsRecalled
  dsimp only
  split
  · exact hplanned
  · exact boothsSet_clean hplanned x.booths

/-- The tables and the store after the parts of a recall but the last, and the parts as the model takes them. -/
theorem partsRecalled_spec (hm : h.Clean) (x : PresetContents) : RecordsAt (h.recordsRecalled x) h.store (h.partsRecalled x) ∧
    (if (h.cmd.mode == .live) = true then ((h.recallClasses reader x).recallSettings reader x).recallPlans reader x
      else (((h.recallClasses reader x).recallSettings reader x).recallPlans reader x).recallBooths reader x) =
      h.partsRecalled x := by
  have htold := classesRecalled_records hm x.classes
  have htoldClean : (h.classesRecalled x.classes).Clean := htold.clean (classesSet_clean hm x.classes)
  have hset := settingsRecalled_records htoldClean x.settings
  have hsetClean : ((h.classesRecalled x.classes).settingsRecalled x.settings).Clean := hset.clean (settingsSet_clean htoldClean x.settings)
  have hplanned := plansRecalled_records hsetClean x.plans
  have hplannedClean := hplanned.clean (plansSet_clean hsetClean x.plans)
  have hbooths := boothsRecalled_records hplannedClean x.booths
  rw [recallClasses_eq, recallSettings_eq htoldClean, recallPlans_eq hsetClean, recallBooths_eq hplannedClean]
  rw [hplanned.1, hplanned.2, hset.1, hset.2, htold.1, htold.2] at hbooths
  rw [hset.1, hset.2, htold.1, htold.2] at hplanned
  unfold partsRecalled recordsRecalled
  dsimp only
  by_cases hlive : h.cmd.mode = .live
  · rw [if_pos hlive, if_pos hlive, if_pos (beq_iff_eq.mpr hlive)]
    exact ⟨hplanned, rfl⟩
  · rw [if_neg hlive, if_neg hlive, if_neg (mt beq_iff_eq.mp hlive)]
    exact ⟨hbooths, rfl⟩

theorem recallPreset_eq (hm : h.Clean) (p : Nat) : h.recallPreset reader p =
    if 15 < p then (h, .check .fieldOutOfRange 1)
    else match tget h.store.presets p with
      | .writing => (h, .check .storeInProgress 0)
      | .empty => (h, .check .presetEmpty 0)
      | .valid x => (h.recalled x, if h.cmd.mode = .live then .good .partialRecall 0 {} else .good .none 0 {}) := by
  unfold recallPreset
  by_cases hp : 15 < p
  · rw [if_pos hp, if_pos hp]
    rfl
  · rw [if_neg hp, if_neg hp]
    cases tget h.store.presets p with
    | writing => rfl
    | empty => rfl
    | valid x =>
      obtain ⟨hrecords, hparts⟩ := partsRecalled_spec hm x
      have hwalls : (h.partsRecalled x).recallOverrides reader x = h.recalled x :=
        recallOverrides_eq (hrecords.clean (recordsRecalled_clean hm x)) x
      dsimp only
      rw [hparts, hwalls]
      simp only [beq_iff_eq]
      rfl

theorem recalled_records (hm : h.Clean) (x : PresetContents) :
    RecordsAt (overridesSet (h.recordsRecalled x) x.overrides) h.store (h.recalled x) := by
  obtain ⟨⟨hmem, hstore⟩, -⟩ := partsRecalled_spec hm x
  refine wallsTaken_records (overridesSet_clean (recordsRecalled_clean hm x) x.overrides) ⟨?_, hstore⟩
  rw [hmem]

theorem recalled_veiled (hm : h.Clean) (x : PresetContents) (w : Nat) :
    (h.veiled w none).recalled x = (h.recalled x).veiled w none := by
  obtain ⟨hrecords, -⟩ := partsRecalled_spec hm x
  have hclean : (h.partsRecalled x).Clean := hrecords.clean (recordsRecalled_clean hm x)
  have htold := classesRecalled_records hm x.classes
  have htoldClean : (h.classesRecalled x.classes).Clean := htold.clean (classesSet_clean hm x.classes)
  have hset := settingsRecalled_records htoldClean x.settings
  have hsetClean : ((h.classesRecalled x.classes).settingsRecalled x.settings).Clean := hset.clean (settingsSet_clean htoldClean x.settings)
  have hplanned := plansRecalled_records hsetClean x.plans
  have hplannedClean := hplanned.clean (plansSet_clean hsetClean x.plans)
  have hmode : (h.veiled w none).cmd.mode = h.cmd.mode := rfl
  have hparts : (h.veiled w none).partsRecalled x = (h.partsRecalled x).veiled w none := by
    unfold partsRecalled
    dsimp only
    rw [classesRecalled_veiled hm, settingsRecalled_veiled htoldClean, plansRecalled_veiled hsetClean, boothsRecalled_veiled hplannedClean,
      hmode]
    split <;> rfl
  rw [recalled, hparts]
  exact wallsTaken_veiled (h := { h.partsRecalled x with mem := overridesSet (h.partsRecalled x).mem x.overrides })
    (overridesSet_clean hclean x.overrides) w

theorem recallPreset_veiled (hm : h.Clean) (p w : Nat) :
    (h.veiled w none).recallPreset reader p = (h.recallPreset reader p).map (veiled w none) id := by
  have hstore : (h.veiled w none).store = h.store := rfl
  have hmode : (h.veiled w none).cmd.mode = h.cmd.mode := rfl
  rw [recallPreset_eq hm, recallPreset_eq (h := h.veiled w none) hm, hstore, hmode]
  simp only [recalled_veiled hm]
  by_cases hp : 15 < p
  · rw [if_pos hp, if_pos hp]
    rfl
  · rw [if_neg hp, if_neg hp]
    cases tget h.store.presets p <;> rfl

end Hall

/-- Settles O30: the command is taken in CONFIG and LIVE, and its rule is `Hall.recallPreset_eq`. -/
theorem recallPresetRewrites : Obligations.RecallPresetRewrites := by
  intro s hd preset hr hm c h p taken
  have hrow (hmode : h.cmd.mode = .config ∨ h.cmd.mode = .live) : exec (.recallPreset hd preset) s = .next (s.withChip
      ({ c with hall := (h.recallPreset reader p).1 }.answered hd (h.recallPreset reader p).2)) := by
    have htaken : Command.taken h.cmd.mode (.recallPreset preset) = true := by
      obtain hconfig | hlive := hmode
      · rw [hconfig]; rfl
      · rw [hlive]; rfl
    rw [exec_of_command (x := .recallPreset preset) rfl, Chip.commandRow_of_veiled (x := .recallPreset preset) hr rfl htaken nofun rfl
      (fun w => Hall.recallPreset_veiled hm p w)]
  refine ⟨fun hfails => ?_, fun x htaken hvalid => ?_⟩
  · by_cases hmode : h.cmd.mode = .config ∨ h.cmd.mode = .live
    · have htaken : ¬(h.cmd.mode ≠ .config ∧ h.cmd.mode ≠ .live) := fun hboth => hmode.elim hboth.1 hboth.2
      rw [hrow hmode, Hall.recallPreset_eq hm, if_neg htaken]
      by_cases hp : 15 < p
      · rw [if_pos hp, if_pos hp]
      · have hnot := hfails.resolve_right fun hnot => hnot ⟨hmode, Nat.not_lt.mp hp⟩
        rw [if_neg hp, if_neg hp]
        cases hpreset : tget h.store.presets p with
        | writing => rw [if_pos rfl]
        | empty =>
          have hidle : ¬Preset.empty = Preset.writing := nofun
          rw [if_neg hidle]
        | valid x => exact absurd hpreset (hnot x)
    · have htaken : Command.taken c.hall.cmd.mode (.recallPreset preset) = false := by
        show (h.cmd.mode == .config || h.cmd.mode == .live) = false
        simpa using not_or.mp hmode
      rw [exec_of_command (x := .recallPreset preset) rfl, Chip.commandRow_of_wrongMode hr rfl htaken, if_pos (not_or.mp hmode)]
  · obtain ⟨hmode, hp⟩ := htaken
    obtain ⟨hmem, hstore⟩ := Hall.recalled_records hm x
    refine ⟨h.recalled x, ?_, ?_, hstore, rfl⟩
    · rw [hrow hmode, Hall.recallPreset_eq hm, if_neg (Nat.not_lt.mpr hp), hvalid]
    · rw [hmem]
      unfold Hall.recordsRecalled
      dsimp only
      split <;> rfl

end Sys2Proof.Machine

/-! SUPPORT. O11 and O52: what the readers set up at a reset (R59, R63, R80, R84). -/

namespace Sys2Proof.Machine

namespace Hall

variable {h : Hall}

/-! ## The room plans at a reset (R59, R63) -/

theorem planAtReset_eq (hm : h.Clean) (r : Nat) : h.planAtReset r = h.computePlan r := by
  have hfound : (sectionsOf h.part.inForce r).filter (fun s => (h.planRecord s).finding == .damaged) = [] :=
    List.filter_eq_nil_iff.mpr fun s _ hfinding => by
      rw [planRecord_finding hm] at hfinding
      exact absurd hfinding (by decide)
  unfold planAtReset
  rw [hfound, idle_readRoomPlans notes_idle hm]
  rfl

theorem each_planAtReset (hm : h.Clean) (rs : List Nat) : h.each rs planAtReset = h.planned rs := by
  rw [← each_computePlan]
  exact each_agree rs (fun r _ hc => planAtReset_eq hc r) (fun r g hc => by rw [computePlan_eq]; exact hc) hm

/-! ## The LANGUAGE claims in an empty pool (R84) -/

/-- A pool that holds `cs` from its first place on. -/
def poolOf (cs : List Claim) : Vector (Option Claim) 88 := tmake 88 (fun i => cs[i]?)

theorem freePool_of_poolOf {cs : List Claim} (hpool : h.slots.pool = poolOf cs) (hlt : cs.length < 88) :
    h.freePool = some cs.length := by
  have htaken : ∀ i < 88, tget h.slots.pool i = cs[i]? := fun i hi => by rw [hpool, poolOf, tget_tmake_of_lt _ hi]
  unfold freePool
  rw [List.find?_range_eq_some]
  refine ⟨?_, List.mem_range.mpr hlt, fun i hi => ?_⟩
  · rw [htaken _ hlt, List.getElem?_eq_none le_rfl]
    rfl
  · rw [htaken i (hi.trans hlt), List.getElem?_eq_getElem hi]
    rfl

theorem poolOf_concat {cs : List Claim} (hlt : cs.length < 88) (x : Claim) :
    tset (poolOf cs) cs.length (some x) = poolOf (cs ++ [x]) := by
  apply table_ext
  intro i hi
  rw [tget_tset, poolOf, poolOf, tget_tmake_of_lt _ hi, tget_tmake_of_lt _ hi]
  by_cases hlast : cs.length = i
  · subst hlast
    simp [hlt]
  · rw [if_neg fun both => hlast both.1]
    by_cases hin : i < cs.length
    · rw [List.getElem?_append_left hin]
    · have hbeyond : cs.length + 1 ≤ i := by omega
      rw [List.getElem?_eq_none (by omega), List.getElem?_eq_none (by simpa using hbeyond)]

/-- The LANGUAGE claim of a room's channel. -/
def claimAt (x : Nat × Nat) : Claim := .language x.1 x.2

/-- Claims made in turn fill the pool; the notices that they mark are all marked at a reset. -/
theorem each_makeClaim_poolOf {cs : List Claim} (ls : List (Nat × Nat)) (hpool : h.slots.pool = poolOf cs)
    (hlength : cs.length + ls.length ≤ 88) :
    (h.each (ls.map claimAt) makeClaim).markAllNotices =
      { h with slots.pool := poolOf (cs ++ ls.map claimAt) }.markAllNotices := by
  induction ls generalizing h cs with
  | nil =>
    rw [List.map_nil, List.append_nil, ← hpool]
    rfl
  | cons x ls ih =>
    rw [List.length_cons] at hlength
    have hlt : cs.length < 88 := by omega
    have hmade : h.makeClaim (claimAt x) = (h.setPool cs.length (some (claimAt x))).markChannel x.1 x.2 := by
      rw [makeClaim, freePool_of_poolOf hpool hlt]
      rfl
    have hnext : ((h.setPool cs.length (some (claimAt x))).markChannel x.1 x.2).slots.pool =
        poolOf (cs ++ [claimAt x]) := by
      rw [← poolOf_concat hlt, ← hpool]
      rfl
    have hstep : h.each ((x :: ls).map claimAt) makeClaim =
        (h.makeClaim (claimAt x)).each (ls.map claimAt) makeClaim := rfl
    have hlong : (cs ++ [claimAt x]).length + ls.length ≤ 88 := by
      rw [List.length_append, List.length_singleton]
      omega
    rw [hstep, hmade, ih hnext hlong, List.append_assoc]
    rfl

/-! ## The readers at a reset -/

theorem planOf_length_le (h : Hall) (r : Nat) : (h.planOf r).length ≤ 8 := List.length_take_le _ _

/-- The rooms and channels of the claims of some plans, at most eight to a room. -/
def planChannels (h : Hall) (rs : List Nat) : List (Nat × Nat) :=
  rs.flatMap fun r => (List.range (h.planOf r).length).map fun i => (r, i + 1)

theorem length_planChannels_le (h : Hall) (rs : List Nat) : (h.planChannels rs).length ≤ 8 * rs.length := by
  induction rs with
  | nil => exact Nat.le_refl _
  | cons r rs ih =>
    have hr := h.planOf_length_le r
    have hcons : (h.planChannels (r :: rs)).length = (h.planOf r).length + (h.planChannels rs).length := by
      rw [planChannels, List.flatMap_cons, List.length_append, List.length_map, List.length_range]
      rfl
    rw [hcons, List.length_cons]
    omega

theorem length_rooms_le (h : Hall) : h.rooms.length ≤ 8 := by
  have hle := List.length_filter_le (isRoomId h.part.inForce) sections
  rwa [sections, List.length_range] at hle

theorem map_planChannels (h : Hall) (rs : List Nat) :
    (h.planChannels rs).map claimAt = rs.flatMap fun r => claimsOf r (h.planOf r).length := by
  rw [planChannels, List.map_flatMap]
  simp only [List.map_map]
  rfl

/-- `h` as the readers set it up, rooms ascending. -/
def setUpTaken (h : Hall) : Hall := { h with
  router := ⟨.replicate 16 {}, tmake 8 (fun r => if r ∈ h.rooms then h.planOf r else []), .replicate 16 true, .replicate 72 true⟩
  slots := ⟨.replicate 24 none, tmake 8 (isRoomId h.part.inForce), poolOf (h.rooms.flatMap fun r => claimsOf r (h.planOf r).length), [],
    tmake 8 (fun r => if r ∈ h.rooms then (h.planOf r).length else 0)⟩
  events := h.eventsAfter (h.rooms.flatMap h.dropEvents) }

theorem tmapIdx_replicate {α : Type} [Inhabited α] {n : Nat} (f : Nat → α → α) (x : α) :
    tmapIdx (.replicate n x) f = tmake n (fun i => f i x) := by
  apply table_ext
  intro i hi
  rw [tget_tmapIdx_of_lt _ _ hi, tget_tmake_of_lt _ hi, tget_eq_getElem _ hi, Vector.getElem_replicate]

theorem setUp_eq (hm : h.Clean) (hrouter : h.router = .reset) (hslots : h.slots = .reset) : h.setUp = h.setUpTaken := by
  have hplans : tmapIdx h.router.plans (fun r l => if r ∈ h.rooms then h.planOf r else l) =
      tmake 8 (fun r => if r ∈ h.rooms then h.planOf r else []) := by
    rw [hrouter]
    exact tmapIdx_replicate _ _
  have hplannedAt (r : Nat) : (tget (tmake 8 (fun r => if r ∈ h.rooms then h.planOf r else [])) r).length =
      if r ∈ h.rooms then (h.planOf r).length else 0 := by
    rw [tget_tmake]
    by_cases hr : r ∈ h.rooms
    · rw [if_pos (room_lt hr), if_pos hr, if_pos hr]
    · rw [if_neg hr, if_neg hr]
      split <;> rfl
  have hlengths : h.rooms.foldl (fun t r => tset t r (if r ∈ h.rooms then (h.planOf r).length else 0)) h.slots.planLength =
      tmake 8 (fun r => if r ∈ h.rooms then (h.planOf r).length else 0) := by
    rw [foldl_tset (fun r => if r ∈ h.rooms then (h.planOf r).length else 0), hslots]
    refine (tmapIdx_replicate _ _).trans (congrArg (tmake 8) (funext fun r => ?_))
    split <;> rfl
  have hclaims : (h.rooms.flatMap fun r => claimsOf r (if r ∈ h.rooms then (h.planOf r).length else 0)) =
      (h.planChannels h.rooms).map claimAt := by
    rw [map_planChannels]
    exact List.flatMap_congr fun r hr => by rw [if_pos hr]
  have hlen : ([] : List Claim).length + (h.planChannels h.rooms).length ≤ 88 := by
    have hrooms := h.length_rooms_le
    have hchannels := h.length_planChannels_le h.rooms
    rw [List.length_nil]
    omega
  have hpool : ((h.planned h.rooms).setFloorSlots).slots.pool = poolOf [] := by
    show h.slots.pool = poolOf []
    rw [hslots]
    apply table_ext
    intro i hi
    rw [poolOf, tget_tmake_of_lt _ hi]
    exact (tget_eq_getElem _ hi).trans (Vector.getElem_replicate _)
  have hsetPlan : ∀ r, (((h.planned h.rooms).setFloorSlots).plan r).length = if r ∈ h.rooms then (h.planOf r).length else 0 := by
    intro r
    rw [← hplannedAt r, ← hplans]
    rfl
  have hsetRooms : ((h.planned h.rooms).setFloorSlots).rooms = h.rooms := rfl
  have hmade := each_makeClaim_poolOf (h.planChannels h.rooms) hpool hlen
  have hcommute (g : Hall) (l : Vector Nat 8) : (g.withLengths l).markAllNotices = g.markAllNotices.withLengths l := rfl
  unfold setUp
  dsimp only
  rw [each_planAtReset hm, hsetRooms, each_claimLanguages _ _ _ hsetPlan, hclaims, hcommute, hmade]
  have hset : ((h.planned h.rooms).setFloorSlots).slots.planLength = h.slots.planLength := rfl
  rw [hset, hlengths, List.nil_append, map_planChannels, setUpTaken, planned, hplans, hrouter, hslots]
  rfl

end Hall

end Sys2Proof.Machine

/-! SUPPORT. O11 and O52: ENGINE RESET and the hard reset (R2, R11, R148, R161). -/

namespace Sys2Proof.Machine

namespace Hall

variable {h : Hall}

/-! ## The hall that the readers have set up -/

theorem languageClaims_setUpTaken (h : Hall) :
    h.setUpTaken.languageClaims h.rooms = h.rooms.flatMap fun r => claimsOf r (h.planOf r).length := by
  refine List.flatMap_congr fun r hr => ?_
  have hplan : h.setUpTaken.plan r = h.planOf r := by
    have hentry : h.setUpTaken.plan r = tget (tmake 8 (fun r => if r ∈ h.rooms then h.planOf r else [])) r := rfl
    rw [hentry, tget_tmake_of_lt _ (room_lt hr), if_pos hr]
  rw [hplan]
  rfl

/-- The slot map that the readers leave, as the statements say it. -/
theorem setUpTaken_slots (h : Hall) : h.setUpTaken.slots = ⟨.replicate 24 none, tmake 8 (isRoomId h.part.inForce),
    tmake 88 (fun i => (h.setUpTaken.languageClaims h.rooms)[i]?), [],
    tmake 8 (fun r => if r ∈ h.rooms then (h.setUpTaken.planOf r).length else 0)⟩ := by
  rw [languageClaims_setUpTaken]
  rfl

/-! ## The seeding scan (R2) -/

/-- `h` with the partition `p` in force and effective. -/
def seeded (p : Partition) (h : Hall) : Hall := { h with part.effective := p, part.inForce := p }

theorem wallsNow_of_seedWalls {lines : BitVec 7} (hwalls : h.part.walls = seedWalls lines) : h.wallsNow = h.wallsRead lines := by
  have hread : ∀ w < 7, (tget h.part.walls w).debounced = wallReading lines w := fun w hw => by
    rw [hwalls, seedWalls, tget_tmake_of_lt _ hw]
  apply table_ext
  intro w hw
  rw [wallsNow, wallsRead, tget_tmake_of_lt _ hw, tget_tmake_of_lt _ hw, hread w hw]

theorem seed_eq (hm : h.Clean) {lines : BitVec 7} (hwalls : h.part.walls = seedWalls lines) :
    h.seed = h.seeded (h.wallsRead lines) := by
  have hread : h.readAll noteOverride (List.range 7) = h := idle_readOverrides notes_idle hm (List.range 7)
  unfold seed
  dsimp only
  rw [hread, wallsNow_of_seedWalls hwalls]
  rfl

/-- What an overriding record without damage says of the lines. -/
theorem wallsRead_of_undamaged (hsound : ∀ w < 7, (h.overrideRecord w).damaged = false) (lines : BitVec 7) :
    h.wallsRead lines = tmake 7 (fun w => effectiveWall (tget h.mem.overrides w).value (wallReading lines w)) := by
  apply table_ext
  intro w hw
  have hvalue : h.wallOverride w = (tget h.mem.overrides w).value := by
    rw [wallOverride, hsound w hw]
    rfl
  rw [wallsRead, tget_tmake_of_lt _ hw, tget_tmake_of_lt _ hw, hvalue]

/-! ## ENGINE RESET (R148) -/

/-- The marks of the known units, where none was marked. -/
theorem tget_known_marks (hclear : h.floor.dirty = .replicate 192 false) {u : Nat} (hu : u ∈ units) :
    tget (tmapIdx h.floor.dirty (fun i d => d || h.known (i + 1))) (u - 1) = h.known u := by
  obtain ⟨-, hlt, hpos⟩ := unitIndex_of_mem hu
  have hback : u - 1 + 1 = u := by omega
  rw [tget_tmapIdx_of_lt _ _ hlt, hback, hclear, tget_eq_getElem _ hlt, Vector.getElem_replicate, Bool.false_or]

end Hall

/-- The chip after an engine reset. -/
theorem Chip.engineReset_eq {c : Chip} (hm : c.hall.mem.ReadsFindNothing) : c.engineReset =
    let g := ((Hall.restarted c.keptByEngineReset c.pins.walls c.hall.store).seeded (c.hall.wallsRead c.pins.walls)).setUpTaken
    restarted { g with floor.dirty := tmapIdx g.floor.dirty (fun i d => d || g.known (i + 1)) } c.time.rampInterval c.pins c.ringOut := by
  have hseed := Hall.seed_eq (h := Hall.restarted c.keptByEngineReset c.pins.walls c.hall.store) (lines := c.pins.walls) hm rfl
  have hwalls : (Hall.restarted c.keptByEngineReset c.pins.walls c.hall.store).wallsRead c.pins.walls = c.hall.wallsRead c.pins.walls := rfl
  rw [hwalls] at hseed
  have hsetUp := Hall.setUp_eq (h := (Hall.restarted c.keptByEngineReset c.pins.walls c.hall.store).seeded (c.hall.wallsRead c.pins.walls))
    hm rfl rfl
  unfold engineReset
  rw [hseed, hsetUp, Hall.markKnown_eq]

/-- Settles O11: the row is `Chip.engineReset`, which `Chip.engineReset_eq` spells out. -/
theorem engineResetSetsUp : Obligations.EngineResetSetsUp := by
  intro s hd hr hm c h v walls
  have hreset := Chip.engineReset_eq (c := c.restartWindow) hm
  have hexec := exec_of_command (i := .engineReset hd) (x := .engineReset) rfl s
  rw [Chip.commandRow_engineReset hr, hreset] at hexec
  have hwalls : c.restartWindow.hall.wallsRead c.restartWindow.pins.walls = walls := rfl
  rw [hwalls] at hexec
  set x := (Hall.restarted c.restartWindow.keptByEngineReset c.restartWindow.pins.walls c.restartWindow.hall.store).seeded walls
  refine ⟨_, hexec, rfl, rfl, rfl, rfl, rfl, rfl, ?_⟩
  exact ⟨rfl, rfl, rfl, rfl, rfl, rfl, rfl, rfl, rfl, rfl, rfl, rfl, fun u hu => Hall.tget_known_marks (h := x.setUpTaken) rfl hu,
    x.setUpTaken_slots, rfl, rfl⟩

namespace Hall

variable {h : Hall}

/-! ## The hard reset (R2, R11, R161) -/

theorem finding_replicate {α : Type} {n : Nat} (v : α) :
    ∀ p ∈ Vector.replicate n (⟨v, false, .sound⟩ : Protected α), p.finding = .none := fun p hp => by
  obtain ⟨-, rfl⟩ := Vector.mem_replicate.mp hp
  rfl

theorem reset_clean : TableMemory.reset.ReadsFindNothing :=
  ⟨finding_replicate _, finding_replicate _, finding_replicate _, finding_replicate _, finding_replicate _, finding_replicate _⟩

/-- The tables that the start-up recall leaves. -/
def startTables (store : PresetStore) : TableMemory :=
  match tget store.presets 0 with
  | .valid x => overridesSet (boothsSet (plansSet (settingsSet (classesSet .reset x.classes) x.settings) x.plans) x.booths) x.overrides
  | _ => .reset

theorem startTables_clean (store : PresetStore) : (startTables store).ReadsFindNothing := by
  unfold startTables
  split
  · exact overridesSet_clean (boothsSet_clean (plansSet_clean (settingsSet_clean (classesSet_clean reset_clean _) _) _) _) _
  · exact reset_clean

/-- The walls as overrides and lines give them. -/
def wallsOf (m : TableMemory) (lines : BitVec 7) : Partition :=
  tmake 7 (fun w => effectiveWall (tget m.overrides w).value (wallReading lines w))

theorem wallsOf_reset (lines : BitVec 7) : wallsOf .reset lines = tmake 7 (wallReading lines) := by
  apply table_ext
  intro w hw
  have hfollow : (tget TableMemory.reset.overrides w).value = .follow := by
    have hentry : tget TableMemory.reset.overrides w = ⟨.follow, false, .sound⟩ :=
      (tget_eq_getElem _ hw).trans (Vector.getElem_replicate _)
    rw [hentry]
  rw [wallsOf, tget_tmake_of_lt _ hw, tget_tmake_of_lt _ hw, hfollow]
  rfl

theorem wallsRead_reset (hmem : h.mem = .reset) (lines : BitVec 7) : h.wallsRead lines = tmake 7 (wallReading lines) := by
  have hsound : ∀ w < 7, (h.overrideRecord w).damaged = false := fun w hw => by
    have hentry : tget TableMemory.reset.overrides w = ⟨.follow, false, .sound⟩ :=
      (tget_eq_getElem _ hw).trans (Vector.getElem_replicate _)
    rw [overrideRecord, hmem, hentry]
  rw [wallsRead_of_undamaged hsound, hmem]
  exact wallsOf_reset lines

/-- The events of a start-up recall that moves the walls from `old` to `p`. -/
def recallEvents (old p : Partition) : List Event :=
  if p = old then [] else [⟨.repartitionDone, 0, 0, wallMap p, 1, sectionMap (changedSections old p)⟩]

theorem startUpRecall_eq {lines : BitVec 7} (hmem : h.mem = .reset) (hclock : h.frameCounter = 0) (hwalls : h.part.walls = seedWalls lines)
    (heffective : h.part.effective = tmake 7 (wallReading lines)) (hforce : h.part.inForce = tmake 7 (wallReading lines)) :
    h.startUpRecall = { h.seeded (wallsOf (startTables h.store) lines) with
      mem := startTables h.store
      events := h.eventsAfter (recallEvents (tmake 7 (wallReading lines)) (wallsOf (startTables h.store) lines)) } := by
  have hkept (m : TableMemory) (hm : wallsOf m lines = tmake 7 (wallReading lines)) : ({ h with mem := m } : Hall) =
      { h.seeded (wallsOf m lines) with
        mem := m, events := h.eventsAfter (recallEvents (tmake 7 (wallReading lines)) (wallsOf m lines)) } := by
    have hpart : h.part = { h.part with effective := wallsOf m lines, inForce := wallsOf m lines } := by
      rw [hm, ← heffective]
      nth_rw 2 [← hforce.trans heffective.symm]
    rw [recallEvents, if_pos hm, seeded, ← hpart]
    rfl
  have hfresh : h = { h.seeded (wallsOf .reset lines) with
      mem := .reset, events := h.eventsAfter (recallEvents (tmake 7 (wallReading lines)) (wallsOf .reset lines)) } := by
    rw [← hkept .reset (wallsOf_reset lines), ← hmem]
  unfold startUpRecall startTables
  cases tget h.store.presets 0 with
  | empty => exact hfresh
  | writing => exact hfresh
  | valid x =>
    set m := overridesSet (boothsSet (plansSet (settingsSet (classesSet .reset x.classes) x.settings) x.plans) x.booths) x.overrides
    have hwritten : ((((h.writeClasses x).writeAllSettings x).writePlans x).writeBooths x).writeOverrides x = { h with mem := m } := by
      rw [writeClasses_eq, writeAllSettings_eq, writePlans_eq, writeBooths_eq, writeOverrides_eq, hmem]
      rfl
    have hsound : ∀ w < 7, (overrideRecord { h with mem := m } w).damaged = false := fun w hw => by
      have hentry : tget m.overrides w = ⟨tget x.overrides w, false, .sound⟩ := tget_tmake_of_lt _ hw
      show (tget m.overrides w).damaged = false
      rw [hentry]
    have hnow : wallsNow { h with mem := m } = wallsOf m lines :=
      (wallsNow_of_seedWalls (h := { h with mem := m }) hwalls).trans (wallsRead_of_undamaged hsound lines)
    dsimp only
    rw [hwritten, hnow, heffective, hforce]
    by_cases hsame : wallsOf m lines = tmake 7 (wallReading lines)
    · rw [if_pos hsame]
      exact hkept m hsame
    · rw [if_neg hsame, recallEvents, if_neg hsame, ← hclock]
      rfl

end Hall

/-- The hall of a hard reset before the readers set it up. -/
def Hall.started (lines : BitVec 7) (store : PresetStore) : Hall :=
  { (Hall.restarted Chip.keptByHardReset lines store).seeded (Hall.wallsOf (Hall.startTables store.restarted) lines) with
    mem := Hall.startTables store.restarted
    events := (Hall.restarted Chip.keptByHardReset lines store).eventsAfter
      (Hall.recallEvents (tmake 7 (wallReading lines)) (Hall.wallsOf (Hall.startTables store.restarted) lines)) }

theorem Chip.hardReset_eq (pins : Pins) (c : Chip) : c.hardReset pins =
    restarted (Hall.started pins.walls c.hall.store).setUpTaken 4 pins none := by
  have hseed := Hall.seed_eq (h := Hall.restarted keptByHardReset pins.walls c.hall.store) (lines := pins.walls) Hall.reset_clean rfl
  rw [Hall.wallsRead_reset rfl] at hseed
  have hrecall := Hall.startUpRecall_eq
    (h := (Hall.restarted keptByHardReset pins.walls c.hall.store).seeded (tmake 7 (wallReading pins.walls))) (lines := pins.walls)
    rfl rfl rfl rfl rfl
  have hstarted : ((Hall.restarted keptByHardReset pins.walls c.hall.store).seeded (tmake 7 (wallReading pins.walls))).startUpRecall =
      Hall.started pins.walls c.hall.store := hrecall
  have hsetUp := Hall.setUp_eq (h := Hall.started pins.walls c.hall.store) (Hall.startTables_clean _) rfl rfl
  rw [hardReset, hseed, hstarted, hsetUp]

/-- Settles O52: the row is `Chip.hardReset`, which `Chip.hardReset_eq` spells out. -/
theorem hardResetSetsUp : Obligations.HardResetSetsUp := by
  intro s pins store fresh mem seeded walls
  have hmem : mem = Hall.startTables store := by
    unfold Hall.startTables
    simp only [mem] <;> cases tget store.presets 0 <;> rfl
  have hwalls : walls = Hall.wallsOf (Hall.startTables store) pins.walls := by
    rw [← hmem]
    rfl
  have hexec : exec (.hardReset pins) s = .next (s.withChip (s.chip.hardReset pins)) := rfl
  rw [Chip.hardReset_eq] at hexec
  clear_value mem walls
  subst hmem hwalls
  set x := Hall.started pins.walls s.chip.hall.store with hx
  have hevents : x.setUpTaken.events = { x.setUpTaken with events := ⟨[⟨.restarted, 0, 0, 0, 0, 0⟩], 0x7F, false, 0⟩ }.eventsAfter
      (Hall.recallEvents seeded (Hall.wallsOf (Hall.startTables store) pins.walls) ++ x.rooms.flatMap x.dropEvents) := by
    rw [Hall.eventsAfter_append]
    rfl
  refine ⟨_, hexec, rfl, rfl, rfl, rfl, rfl, rfl, ?_⟩
  exact ⟨rfl, rfl, rfl, rfl, rfl, hevents, rfl, x.setUpTaken_slots, rfl, rfl⟩

end Sys2Proof.Machine

/-! SUPPORT. O53: what a read reports (R153), and the reactions of the owners to damage, as the statements say them. -/

namespace Sys2Proof.Machine

/-! ## The check of one record (R153) -/

/-- The record as a read that finds `f` leaves it. -/
def Protected.after {α : Type} (v : α) (f : MemErr) : Protected α :=
  if f = .uncorrectable then ⟨v, true, f⟩ else ⟨v, false, .sound⟩

theorem Protected.checked_eq_after {α : Type} (v : α) {f : MemErr} (hf : f ≠ .sound) :
    (⟨v, false, f⟩ : Protected α).checked = .after v f := by
  cases f with
  | sound => exact absurd rfl hf
  | correctable => rfl
  | uncorrectable => rfl

/-- A damaged record more is one more in the count. -/
theorem damagedIn_tset {α : Type} [Inhabited α] {n i : Nat} (t : Vector (Protected α) n) (hi : i < n) {p q : Protected α}
    (hold : tget t i = p) (hsound : p.damaged = false) (hdamaged : q.damaged = true) : damagedIn (tset t i q) = damagedIn t + 1 := by
  have hlist : (tset t i q).toList = t.toList.set i q := by simp [tset]
  have hlt : i < t.toList.length := by rwa [Vector.length_toList]
  have hentry : t.toList[i] = p := by
    rw [← hold, tget_eq_getElem _ hi, Vector.getElem_toList]
  rw [damagedIn, damagedIn, ← List.countP_eq_length_filter, ← List.countP_eq_length_filter, hlist, List.countP_set hlt, hentry,
    hsound, hdamaged]
  rfl

/-- The event of a finding in record `n` of a table. -/
def Hall.findingEvent (h : Hall) (f : MemErr) (table : Byte) (n : Nat) : Event :=
  if f = .uncorrectable then
    ⟨.recordDamaged, h.frameCounter, table, byte n, byte (min 255 (h.mem.damagedCount + 1)), 0⟩
  else ⟨.integrityCorrected, h.frameCounter, table, byte n, 0, 0⟩

/-- `h` with the tables `m` after a finding in record `n` of a table. -/
def Hall.reportedIn (h : Hall) (f : MemErr) (table : Byte) (n : Nat) (m : TableMemory) : Hall :=
  { h with mem := m, events := h.events.push h.frameCounter (h.findingEvent f table n) }

namespace Hall

variable {h : Hall} {n : Nat} {f : MemErr}

/-- A finding reported, where the tables `m` have a damaged record more if there was damage. -/
theorem report_eq {α : Type} {v : α} (hf : f ≠ .sound) (t : TableId) (m : TableMemory)
    (hcount : f = .uncorrectable → m.damagedCount = h.mem.damagedCount + 1) :
    report (⟨v, false, f⟩ : Protected α).finding t n { h with mem := m } = h.reportedIn f (tableCode t) n m := by
  cases f with
  | sound => exact absurd rfl hf
  | correctable => rfl
  | uncorrectable =>
    rw [reportedIn, findingEvent, if_pos rfl, ← hcount rfl]
    rfl

/-- A read of a sound or marked record finds nothing; of this one it does. -/
theorem finding_ne_none {α : Type} (v : α) (hf : f ≠ .sound) : (⟨v, false, f⟩ : Protected α).finding ≠ .none := by
  cases f with
  | sound => exact absurd rfl hf
  | correctable => nofun
  | uncorrectable => nofun

theorem after_damaged {α : Type} (v : α) (hf : f = .uncorrectable) : (Protected.after v f).damaged = true := by
  subst hf
  rfl

section note

variable (hf : f ≠ .sound)
include hf

theorem noteDelegate_eq {v : Delegate} (hn : n ∈ units) (hrec : h.record n = ⟨v, false, f⟩) : h.noteDelegate n =
    h.reportedIn f 0 n { h.mem with delegates := tset h.mem.delegates (n - 1) (.after v f) } := by
  obtain ⟨hindex, hlt, -⟩ := unitIndex_of_mem hn
  have hold : tget h.mem.delegates (n - 1) = ⟨v, false, f⟩ := hindex ▸ hrec
  unfold noteDelegate
  rw [hrec, if_neg (finding_ne_none v hf), Protected.checked_eq_after v hf, hindex]
  refine report_eq hf .delegate _ fun hdamage => ?_
  have hmore := damagedIn_tset h.mem.delegates hlt hold rfl (after_damaged v hdamage)
  simp only [TableMemory.damagedCount, hmore]
  omega

theorem noteSettings_eq {v : Settings} (hn : n < 8) (hrec : h.settingsRecord n = ⟨v, false, f⟩) : h.noteSettings n =
    h.reportedIn f 1 n { h.mem with settings := tset h.mem.settings n (.after v f) } := by
  unfold noteSettings
  rw [hrec, if_neg (finding_ne_none v hf), Protected.checked_eq_after v hf]
  refine report_eq hf .settings _ fun hdamage => ?_
  have hmore := damagedIn_tset h.mem.settings hn hrec rfl (after_damaged v hdamage)
  simp only [TableMemory.damagedCount, hmore]
  omega

theorem notePlan_eq {v : List Nat} (hn : n < 8) (hrec : h.planRecord n = ⟨v, false, f⟩) : h.notePlan n =
    h.reportedIn f 2 n { h.mem with plans := tset h.mem.plans n (.after v f) } := by
  unfold notePlan
  rw [hrec, if_neg (finding_ne_none v hf), Protected.checked_eq_after v hf]
  refine report_eq hf .plan _ fun hdamage => ?_
  have hmore := damagedIn_tset h.mem.plans hn hrec rfl (after_damaged v hdamage)
  simp only [TableMemory.damagedCount, hmore]
  omega

theorem noteBooth_eq {v : Booth} (hn : n < 16) (hrec : h.boothRecord n = ⟨v, false, f⟩) : h.noteBooth n =
    h.reportedIn f 3 n { h.mem with booths := tset h.mem.booths n (.after v f) } := by
  unfold noteBooth
  rw [hrec, if_neg (finding_ne_none v hf), Protected.checked_eq_after v hf]
  refine report_eq hf .booth _ fun hdamage => ?_
  have hmore := damagedIn_tset h.mem.booths hn hrec rfl (after_damaged v hdamage)
  simp only [TableMemory.damagedCount, hmore]
  omega

theorem noteClass_eq {v : TimeClass} (hn : n < 4) (hrec : h.classRecord n = ⟨v, false, f⟩) : h.noteClass n =
    h.reportedIn f 4 n { h.mem with classes := tset h.mem.classes n (.after v f) } := by
  unfold noteClass
  rw [hrec, if_neg (finding_ne_none v hf), Protected.checked_eq_after v hf]
  refine report_eq hf .timeClass _ fun hdamage => ?_
  have hmore := damagedIn_tset h.mem.classes hn hrec rfl (after_damaged v hdamage)
  simp only [TableMemory.damagedCount, hmore]
  omega

theorem noteOverride_eq {v : Override} (hn : n < 7) (hrec : h.overrideRecord n = ⟨v, false, f⟩) : h.noteOverride n =
    h.reportedIn f 5 n { h.mem with overrides := tset h.mem.overrides n (.after v f) } := by
  unfold noteOverride
  rw [hrec, if_neg (finding_ne_none v hf), Protected.checked_eq_after v hf]
  refine report_eq hf .override _ fun hdamage => ?_
  have hmore := damagedIn_tset h.mem.overrides hn hrec rfl (after_damaged v hdamage)
  simp only [TableMemory.damagedCount, hmore]
  omega

end note

/-! ## The reactions, as the statements say them -/

theorem enterSafe_of_idle {rd : Reader} (hr : rd.Idle) (hm : h.Clean) : h.enterSafe rd = h.safeTaken := by
  rw [← enterSafe_eq hm, enterSafe_still hr hm, enterSafe_still reader_idle hm]

theorem settings_safeAfter {rd : Reader} (hr : rd.Idle) (hm : h.Clean) (s : Nat) (old : Settings) :
    h.safeAfter rd (settingsChanged rd s old) = (h.settingsTaken s old).safeTaken := by
  have htaken : h.settingsChanged rd s old = h.settingsTaken s old := by
    rw [← settingsChanged_eq hm, settingsChanged_still hr hm, settingsChanged_still reader_idle hm]
  rw [safeAfter, htaken, enterSafe_of_idle hr ((settingsTaken_records hm s old (RecordsAt.refl h)).clean hm)]

theorem class_safeAfter {rd : Reader} (hr : rd.Idle) (hm : h.Clean) (k : Nat) (old : TimeClass) :
    h.safeAfter rd (classChanged rd k old) = (h.classTaken k old).safeTaken := by
  have htaken : h.classChanged rd k old = h.classTaken k old := by
    rw [← classChanged_eq, classChanged_still hr hm, classChanged_still reader_idle hm]
  rw [safeAfter, htaken, enterSafe_of_idle hr ((classTaken_records hm k old (RecordsAt.refl h)).clean hm)]

theorem plan_safeAfter {rd : Reader} (hr : rd.Idle) (hm : h.Clean) (s : Nat) :
    h.safeAfter rd (planDamaged rd s) = (h.planTaken (h.roomOfSection s)).safeTaken := by
  have hroom : h.roomOfSection s < 8 := roomOf_lt _ _
  have htaken : h.planDamaged rd s = h.planTaken (h.roomOfSection s) := by
    rw [← replan_eq_planTaken hm hroom, planDamaged, replan_still hr hm, replan_still reader_idle hm]
  rw [safeAfter, htaken, enterSafe_of_idle hr ((planTaken_records hm hroom (RecordsAt.refl h)).clean hm)]

theorem walls_safeAfter {rd : Reader} (hr : rd.Idle) (hm : h.Clean) : h.safeAfter rd (computeWalls rd) = h.wallsTaken.safeTaken := by
  have htaken : h.computeWalls rd = h.wallsTaken := by
    rw [← computeWalls_eq hm, computeWalls_still hr hm, computeWalls_still reader_idle hm]
  rw [safeAfter, htaken, enterSafe_of_idle hr ((wallsTaken_records hm (RecordsAt.refl h)).clean hm)]

end Hall

end Sys2Proof.Machine

/-! SUPPORT. O53: the reactions to a damaged booth record and to a damaged delegate record (R75, R42). -/

namespace Sys2Proof.Machine

namespace Hall

variable {h : Hall} {rd : Reader} {u : Nat}

/-! ## A booth record (R75) -/

/-- `h` after the reaction to the damage of booth `b`. -/
def boothSettled (b : Nat) (h : Hall) : Hall :=
  (h.releaseBooth b).relaysChecked.evaluate reader (fun y => ⟨h.roomOfBooth y, (h.booth y).language⟩) (h.roomOfBooth b)

theorem booth_safeAfter (hr : rd.Idle) (hm : h.Clean) (b : Nat) : h.safeAfter rd (boothDamaged rd b) =
    { h.boothSettled b with router.boothDirty := tset (h.boothSettled b).router.boothDirty b true }.safeTaken := by
  have C := (seated_closed h).toClosedSlots
  have hseated : h.SeatedAs (h.releaseBooth b) := keeps_releaseBooth C ⟨rfl, rfl⟩
  have hreleased : (h.releaseBooth b).Clean := hseated.clean hm
  have hcheckedSeated : h.SeatedAs (h.releaseBooth b).relaysChecked := relaysChecked_seated hm hseated
  have hsettled : h.boothDamaged reader b =
      { h.boothSettled b with router.boothDirty := tset (h.boothSettled b).router.boothDirty b true } := by
    rw [boothDamaged, relayCheck_eq reader_idle hreleased, reassess, ledNow_of_seated hcheckedSeated, markBooth]
    unfold boothSettled
    generalize reader = rd
    rfl
  have htaken : h.boothDamaged rd b = h.boothDamaged reader b := by
    rw [boothDamaged_still hr hm, boothDamaged_still reader_idle hm]
  have hclean : (h.boothDamaged reader b).Clean :=
    keeps_boothDamaged clean_closed.toClosedRooms (idle_keeps reader_idle fun _ hp => hp) hm
  rw [safeAfter, htaken, enterSafe_of_idle hr hclean, hsettled]

/-! ## A delegate record (R42) -/

/-- `h` after the first step of the reaction to the damage of unit `u`'s record. -/
def unseated (u : Nat) (h : Hall) : Hall :=
  match (h.run u).state with
  | .idle => h
  | .waiting => h.drop none u
  | .granting => h.closeOne .damaged u
  | .speaking => (h.closeOne .damaged u).aimSpeakers (h.roomOfUnit u)
  | .closing => h
  | .chairPending => h.dropChair none u

/-- `h` with unit `u`'s indication and mark gone. -/
def muted (u : Nat) (h : Hall) : Hall := { h with
  floor.runs := tset h.floor.runs (u - 1) { h.run u with indication := none }
  floor.dirty := tset h.floor.dirty (u - 1) false }

theorem muted_eq (hu : u ∈ units) (h : Hall) : (h.setRun u (fun d => { d with indication := none })).unmark u = h.muted u := by
  obtain ⟨hindex, -, -⟩ := unitIndex_of_mem hu
  rw [muted, ← hindex]
  rfl

/-- A mark more or less of the unit does not matter once it is gone. -/
theorem muted_mark (hu : u ∈ units) (h : Hall) : (h.mark u).muted u = h.muted u := by
  obtain ⟨hindex, -, -⟩ := unitIndex_of_mem hu
  have hdirty : tset (if h.known u then tset h.floor.dirty (unitIndex u) true else h.floor.dirty) (u - 1) false =
      tset h.floor.dirty (u - 1) false := by
    split
    · rw [hindex, tset_tset]
    · rfl
  have hmarked : (h.mark u).muted u = { h with
      floor.runs := tset h.floor.runs (u - 1) { h.run u with indication := none }
      floor.dirty := tset (if h.known u then tset h.floor.dirty (unitIndex u) true else h.floor.dirty) (u - 1) false } := rfl
  rw [hmarked, hdirty]
  rfl

/-- The consequences of the close of at most one holder (R19). -/
theorem consequences_one (hr : rd.Idle) (hm : h.Clean) (P Q : Prop) [Decidable P] [Decidable Q] (r : Nat) :
    h.consequences rd true (if P then [r] else []) (if Q then 1 else 0) =
      let gapped := if P then h.gapTested r else h
      let handed := if Q then gapped.arbiterRun reader else gapped
      if P then handed.service reader r else handed := by
  have hstill : h.consequences rd true (if P then [r] else []) (if Q then 1 else 0) =
      h.consequences reader true (if P then [r] else []) (if Q then 1 else 0) := by
    rw [consequences_still hr hm, consequences_still reader_idle hm]
  have hgap : h.gapTest reader r = h.gapTested r := idle_gapTest reader_idle hm r
  rw [hstill, ← hgap]
  generalize reader = rd
  by_cases hp : P
  · by_cases hq : Q
    · simp only [if_pos hp, if_pos hq]
      rfl
    · simp only [if_pos hp, if_neg hq]
      rfl
  · by_cases hq : Q
    · simp only [if_neg hp, if_pos hq]
      rfl
    · simp only [if_neg hp, if_neg hq]
      rfl

theorem closeAll_of_not_onFloor (rd : Reader) (c : CloseReason) (hstate : ¬((h.run u).state = .granting ∨ (h.run u).state = .speaking)) :
    h.closeAll rd c [u] = h := by
  obtain ⟨hgranting, hspeaking⟩ := not_or.mp hstate
  have hnone : [u].filter h.isSpeaking = [] := by simp [isSpeaking, hspeaking]
  have hclose : h.closeOne c u = h := by
    unfold closeOne
    cases hs : (h.run u).state <;> simp_all
  have hrooms : h.roomsOf [] = [] := by simp [roomsOf]
  rw [closeAll, hnone, hrooms]
  exact hclose

/-- The reaction by its steps. -/
theorem delegateDamaged_eq_muted (hr : rd.Idle) (hm : h.Clean) (hu : u ∈ units) : h.delegateDamaged rd u =
    ((h.unseated u).muted u).consequences rd true (h.roomsFreed [u]) (h.slotsFreed [u]) := by
  unfold delegateDamaged
  dsimp only
  rw [muted_eq hu]
  refine congrArg (consequences rd true (h.roomsFreed [u]) (h.slotsFreed [u])) ?_
  unfold unseated
  cases hstate : (h.run u).state with
  | idle => exact congrArg (muted u) (closeAll_of_not_onFloor rd .damaged (by simp [hstate]))
  | closing => exact congrArg (muted u) (closeAll_of_not_onFloor rd .damaged (by simp [hstate]))
  | waiting => exact (muted_mark hu _).symm
  | chairPending => exact (muted_mark hu _).symm
  | granting => exact congrArg (muted u) (closeAll_of_granting .damaged hstate)
  | speaking => exact congrArg (muted u) (closeAll_of_speaking hr hm .damaged hstate)

theorem roomsFreed_one (h : Hall) (u : Nat) : h.roomsFreed [u] =
    if ((h.run u).state = .granting ∨ (h.run u).state = .speaking) ∧ (h.loaded u).role ≠ .chair then [h.roomOfUnit u] else [] := by
  by_cases hfloor : h.onFloor u = true
  · have hstate := onFloor_iff.mp hfloor
    rw [roomsFreed_singleton hfloor, isChair]
    by_cases hchair : (h.loaded u).role = .chair
    · rw [if_pos (beq_iff_eq.mpr hchair), if_neg fun both => both.2 hchair]
    · rw [if_neg (mt beq_iff_eq.mp hchair), if_pos ⟨hstate, hchair⟩]
  · have hstate := mt onFloor_iff.mpr hfloor
    have hnone : [u].filter h.takesPosition = [] := by simp [takesPosition, hfloor]
    have hrooms : h.roomsOf [] = [] := by simp [roomsOf]
    rw [roomsFreed, hnone, hrooms, if_neg fun both => hstate both.1]

theorem unseated_clean (hm : h.Clean) (u : Nat) : ((h.unseated u).muted u).Clean := by
  have C := clean_closed.toClosedFloor
  have hgone : (h.unseated u).Clean := by
    unfold unseated
    split
    · exact hm
    · exact keeps_drop C hm
    · exact keeps_closeOne C hm
    · rw [aimSpeakers_eq]
      exact keeps_closeOne C hm
    · exact hm
    · exact keeps_dropChair C hm
  exact hgone

theorem delegateDamaged_eq (hr : rd.Idle) (hm : h.Clean) (hu : u ∈ units) : h.delegateDamaged rd u =
    let silent := (h.unseated u).muted u
    let position := ((h.run u).state = .granting ∨ (h.run u).state = .speaking) ∧ (h.loaded u).role ≠ .chair
    let gapped := if position then silent.gapTested (h.roomOfUnit u) else silent
    let handed := if (h.run u).state = .granting then gapped.arbiterRun reader else gapped
    if position then handed.service reader (h.roomOfUnit u) else handed := by
  rw [delegateDamaged_eq_muted hr hm hu, roomsFreed_one, slotsFreed_singleton]
  exact consequences_one hr (unseated_clean hm u) _ _ _

end Hall

end Sys2Proof.Machine

/-! SUPPORT. O53: the reads of Table Memory (R153). -/

namespace Sys2Proof.Machine

/-! ## The reads, one level down (Table 10.4) -/

section reads

variable (n : Nat) (h : Hall)

theorem reader_delegate : reader.delegate n h =
    if (h.record n).finding = .damaged then (h.noteDelegate n).delegateDamaged (readerAt 234) n else h.noteDelegate n := by
  rw [reader_eq_next]
  generalize readerAt 234 = rd
  rfl

theorem reader_settings : reader.settings n h =
    if (h.settingsRecord n).finding = .damaged then
      (h.noteSettings n).safeAfter (readerAt 234) (Hall.settingsChanged (readerAt 234) n (h.settings n))
    else h.noteSettings n := by
  rw [reader_eq_next]
  generalize readerAt 234 = rd
  rfl

theorem reader_plan : reader.plan n h =
    if (h.planRecord n).finding = .damaged then (h.notePlan n).safeAfter (readerAt 234) (Hall.planDamaged (readerAt 234) n)
    else h.notePlan n := by
  rw [reader_eq_next]
  generalize readerAt 234 = rd
  rfl

theorem reader_booth : reader.booth n h =
    if (h.boothRecord n).finding = .damaged then (h.noteBooth n).safeAfter (readerAt 234) (Hall.boothDamaged (readerAt 234) n)
    else h.noteBooth n := by
  rw [reader_eq_next]
  generalize readerAt 234 = rd
  rfl

theorem reader_timeClass : reader.timeClass n h =
    if (h.classRecord n).finding = .damaged then
      (h.noteClass n).safeAfter (readerAt 234) (Hall.classChanged (readerAt 234) n (h.timeClass n))
    else h.noteClass n := by
  rw [reader_eq_next]
  generalize readerAt 234 = rd
  rfl

theorem reader_override : reader.override n h =
    if (h.overrideRecord n).finding = .damaged then (h.noteOverride n).safeAfter (readerAt 234) (Hall.computeWalls (readerAt 234))
    else h.noteOverride n := by
  rw [reader_eq_next]
  generalize readerAt 234 = rd
  rfl

end reads

namespace Hall

variable {h : Hall} {n : Nat} {f : MemErr}

theorem correctable_finding {α : Type} (v : α) : (⟨v, false, .correctable⟩ : Protected α).finding ≠ .damaged := nofun

theorem uncorrectable_finding {α : Type} (v : α) : (⟨v, false, .uncorrectable⟩ : Protected α).finding = .damaged := rfl

/-! ## The delegate table -/

theorem reader_delegate_correctable {v : Delegate} (hn : n ∈ units) (hrec : h.record n = ⟨v, false, .correctable⟩) :
    reader.delegate n h = h.reportedIn .correctable 0 n
      { h.mem with delegates := tset h.mem.delegates (n - 1) ⟨v, false, .sound⟩ } := by
  rw [reader_delegate, hrec, if_neg (correctable_finding v), noteDelegate_eq (f := .correctable) nofun hn hrec]
  rfl

/-- `h` with the damage of unit `n`'s record marked and reported. -/
def delegateMarked (h : Hall) (n : Nat) (v : Delegate) : Hall := h.reportedIn .uncorrectable 0 n
  { h.mem with delegates := tset h.mem.delegates (n - 1) ⟨v, true, .uncorrectable⟩ }

theorem reader_delegate_uncorrectable {v : Delegate} (hn : n ∈ units) (hrec : h.record n = ⟨v, false, .uncorrectable⟩) :
    reader.delegate n h = (h.delegateMarked n v).delegateDamaged (readerAt 234) n := by
  rw [reader_delegate, hrec, if_pos (uncorrectable_finding v), noteDelegate_eq (f := .uncorrectable) nofun hn hrec]
  rfl

theorem loaded_delegateMarked {v : Delegate} (hn : n ∈ units) : (h.delegateMarked n v).loaded n = v := by
  obtain ⟨hindex, hlt, -⟩ := unitIndex_of_mem hn
  have hrecord : (h.delegateMarked n v).record n = ⟨v, true, .uncorrectable⟩ := by
    rw [record, hindex]
    exact tget_tset_self _ _ hlt
  rw [loaded, hrecord]

theorem roomOfUnit_delegateMarked {v : Delegate} (hn : n ∈ units) (hrec : h.record n = ⟨v, false, .uncorrectable⟩) :
    (h.delegateMarked n v).roomOfUnit n = h.roomOfUnit n := by
  have hloaded : h.loaded n = v := by rw [loaded, hrec]
  rw [roomOfUnit, roomOfUnit, loaded_delegateMarked hn, hloaded]
  rfl

/-! ## The reads, as the statement says them -/

theorem reads_delegate {v : Delegate} (hn : n ∈ units) (hrec : h.record n = ⟨v, false, .uncorrectable⟩)
    (hm : (h.delegateMarked n v).Clean) : reader.delegate n h =
    let silent := ((h.delegateMarked n v).unseated n).muted n
    let position := ((h.run n).state = .granting ∨ (h.run n).state = .speaking) ∧ v.role ≠ .chair
    let gapped := if position then silent.gapTested (h.roomOfUnit n) else silent
    let handed := if (h.run n).state = .granting then gapped.arbiterRun reader else gapped
    if position then handed.service reader (h.roomOfUnit n) else handed := by
  have hrun : (h.delegateMarked n v).run n = h.run n := rfl
  rw [reader_delegate_uncorrectable hn hrec, delegateDamaged_eq (readerAt_idle 234) hm hn, hrun, loaded_delegateMarked hn,
    roomOfUnit_delegateMarked hn hrec]

theorem unseated_delegateMarked {v : Delegate} (hn : n ∈ units) (hrec : h.record n = ⟨v, false, .uncorrectable⟩) :
    (h.delegateMarked n v).unseated n =
      match (h.run n).state with
      | .idle => h.delegateMarked n v
      | .waiting => (h.delegateMarked n v).drop none n
      | .granting => (h.delegateMarked n v).closeOne .damaged n
      | .speaking => ((h.delegateMarked n v).closeOne .damaged n).aimSpeakers (h.roomOfUnit n)
      | .closing => h.delegateMarked n v
      | .chairPending => (h.delegateMarked n v).dropChair none n := by
  have hrun : (h.delegateMarked n v).run n = h.run n := rfl
  rw [unseated, hrun, roomOfUnit_delegateMarked hn hrec] <;> cases (h.run n).state <;> rfl

theorem reads_settings {v : Settings} (hn : n < 8) (hrec : h.settingsRecord n = ⟨v, false, f⟩) :
    (f = .correctable → reader.settings n h =
      h.reportedIn f 1 n { h.mem with settings := tset h.mem.settings n ⟨v, false, .sound⟩ }) ∧
    (f = .uncorrectable → ∀ marked, marked = h.reportedIn f 1 n { h.mem with settings := tset h.mem.settings n ⟨v, true, f⟩ } →
      marked.Clean → reader.settings n h = (marked.settingsTaken n v).safeTaken) := by
  refine ⟨fun hf => ?_, fun hf marked hmarked hm => ?_⟩
  · subst hf
    rw [reader_settings, hrec, if_neg (correctable_finding v), noteSettings_eq (f := .correctable) nofun hn hrec]
    rfl
  · subst hf
    have hnote : h.noteSettings n = marked := (noteSettings_eq (f := .uncorrectable) nofun hn hrec).trans hmarked.symm
    have hold : h.settings n = v := by
      rw [settings, hrec]
      rfl
    rw [reader_settings, hrec, if_pos (uncorrectable_finding v), hnote, hold]
    exact settings_safeAfter (readerAt_idle 234) hm n v

theorem reads_plan {v : List Nat} (hn : n < 8) (hrec : h.planRecord n = ⟨v, false, f⟩) :
    (f = .correctable → reader.plan n h =
      h.reportedIn f 2 n { h.mem with plans := tset h.mem.plans n ⟨v, false, .sound⟩ }) ∧
    (f = .uncorrectable → ∀ marked, marked = h.reportedIn f 2 n { h.mem with plans := tset h.mem.plans n ⟨v, true, f⟩ } →
      marked.Clean → reader.plan n h = (marked.planTaken (h.roomOfSection n)).safeTaken) := by
  refine ⟨fun hf => ?_, fun hf marked hmarked hm => ?_⟩
  · subst hf
    rw [reader_plan, hrec, if_neg (correctable_finding v), notePlan_eq (f := .correctable) nofun hn hrec]
    rfl
  · subst hf
    have hnote : h.notePlan n = marked := (notePlan_eq (f := .uncorrectable) nofun hn hrec).trans hmarked.symm
    have hroom : marked.roomOfSection n = h.roomOfSection n := by
      rw [hmarked]
      rfl
    rw [reader_plan, hrec, if_pos (uncorrectable_finding v), hnote, ← hroom]
    exact plan_safeAfter (readerAt_idle 234) hm n

theorem reads_booth {v : Booth} (hn : n < 16) (hrec : h.boothRecord n = ⟨v, false, f⟩) :
    (f = .correctable → reader.booth n h =
      h.reportedIn f 3 n { h.mem with booths := tset h.mem.booths n ⟨v, false, .sound⟩ }) ∧
    (f = .uncorrectable → ∀ marked, marked = h.reportedIn f 3 n { h.mem with booths := tset h.mem.booths n ⟨v, true, f⟩ } →
      marked.Clean → ∀ settled, settled = (marked.releaseBooth n).relaysChecked.evaluate reader
        (fun b => ⟨h.roomOfBooth b, (h.booth b).language⟩) (h.roomOfBooth n) →
      reader.booth n h = { settled with router.boothDirty := tset settled.router.boothDirty n true }.safeTaken) := by
  refine ⟨fun hf => ?_, fun hf marked hmarked hm settled hsettled => ?_⟩
  · subst hf
    rw [reader_booth, hrec, if_neg (correctable_finding v), noteBooth_eq (f := .correctable) nofun hn hrec]
    rfl
  · subst hf
    have hnote : h.noteBooth n = marked := (noteBooth_eq (f := .uncorrectable) nofun hn hrec).trans hmarked.symm
    have hbooth : marked.booth = h.booth := by
      funext b
      have hentry : marked.boothRecord b = tget (tset h.mem.booths n ⟨v, true, .uncorrectable⟩) b := by
        rw [hmarked]
        rfl
      rw [booth, hentry, tget_tset]
      split
      · next heq =>
        rw [← heq.1, booth, hrec]
      · rfl
    have hroom : marked.roomOfBooth = h.roomOfBooth := by
      funext b
      rw [roomOfBooth, roomOfBooth, hbooth, hmarked]
      rfl
    have hsame : marked.boothSettled n = settled := by
      rw [boothSettled, hroom, hbooth, hsettled]
    rw [reader_booth, hrec, if_pos (uncorrectable_finding v), hnote, booth_safeAfter (readerAt_idle 234) hm, hsame]

theorem reads_class {v : TimeClass} (hn : n < 4) (hrec : h.classRecord n = ⟨v, false, f⟩) :
    (f = .correctable → reader.timeClass n h =
      h.reportedIn f 4 n { h.mem with classes := tset h.mem.classes n ⟨v, false, .sound⟩ }) ∧
    (f = .uncorrectable → ∀ marked, marked = h.reportedIn f 4 n { h.mem with classes := tset h.mem.classes n ⟨v, true, f⟩ } →
      marked.Clean → reader.timeClass n h = (marked.classTaken n v).safeTaken) := by
  refine ⟨fun hf => ?_, fun hf marked hmarked hm => ?_⟩
  · subst hf
    rw [reader_timeClass, hrec, if_neg (correctable_finding v), noteClass_eq (f := .correctable) nofun hn hrec]
    rfl
  · subst hf
    have hnote : h.noteClass n = marked := (noteClass_eq (f := .uncorrectable) nofun hn hrec).trans hmarked.symm
    have hold : h.timeClass n = v := by
      rw [timeClass, hrec]
      rfl
    rw [reader_timeClass, hrec, if_pos (uncorrectable_finding v), hnote, hold]
    exact class_safeAfter (readerAt_idle 234) hm n v

theorem reads_override {v : Override} (hn : n < 7) (hrec : h.overrideRecord n = ⟨v, false, f⟩) :
    (f = .correctable → reader.override n h =
      h.reportedIn f 5 n { h.mem with overrides := tset h.mem.overrides n ⟨v, false, .sound⟩ }) ∧
    (f = .uncorrectable → ∀ marked, marked = h.reportedIn f 5 n { h.mem with overrides := tset h.mem.overrides n ⟨v, true, f⟩ } →
      marked.Clean → reader.override n h = marked.wallsTaken.safeTaken) := by
  refine ⟨fun hf => ?_, fun hf marked hmarked hm => ?_⟩
  · subst hf
    rw [reader_override, hrec, if_neg (correctable_finding v), noteOverride_eq (f := .correctable) nofun hn hrec]
    rfl
  · subst hf
    have hnote : h.noteOverride n = marked := (noteOverride_eq (f := .uncorrectable) nofun hn hrec).trans hmarked.symm
    rw [reader_override, hrec, if_pos (uncorrectable_finding v), hnote]
    exact walls_safeAfter (readerAt_idle 234) hm

/-! ## READ DELEGATE (R22) -/

/-- The reaction to the damage of an IDLE delegate's record needs no read (R42). -/
theorem delegateDamaged_of_idle (rd : Reader) (hn : n ∈ units) (hidle : (h.run n).state = .idle) :
    h.delegateDamaged rd n = h.muted n := by
  have hfreed : h.roomsFreed [n] = [] := by
    rw [roomsFreed_one, if_neg (by simp [hidle])]
  have hslots : h.slotsFreed [n] = 0 := by
    rw [slotsFreed_singleton, if_neg (by simp [hidle])]
  have hclosed : h.closeAll rd .damaged [n] = h := closeAll_of_not_onFloor rd .damaged (by simp [hidle])
  unfold delegateDamaged
  dsimp only
  rw [muted_eq hn, hfreed, hslots, hidle]
  exact congrArg (muted n) hclosed

/-! ## READ BOOTH (R61) -/

/-- The mode satisfies `M`, and what a read of booth `b` leaves besides. -/
def DamageHeld (M : Mode → Prop) (q : ReqMode) (l : List Reply) (b : Nat) (g : Hall) : Prop :=
  M g.cmd.mode ∧ g.cmd.requested = q ∧ g.cmd.replies = l ∧ (g.boothRecord b).damaged = true

variable {M : Mode → Prop} {q : ReqMode} {l : List Reply} {b : Nat}

theorem damageHeld_closed (hM : M .safe) : ClosedSafe (DamageHeld M q l b) where
  post _ _ _ _ _ _ _ hp := hp
  run _ _ _ _ hp := hp
  floor _ _ _ hp := hp
  slot _ _ hp := hp
  mic _ _ _ _ hp := hp
  held _ _ _ _ hp := hp
  notices _ _ _ hp := hp
  slots _ _ _ hp := hp
  plans _ _ hp := hp
  booth _ _ _ hp := hp
  fades _ _ _ _ hp := hp
  sync _ hp := hp
  partition _ _ hp := hp
  effective _ _ hp := hp
  repartition _ _ hp := hp
  safe _ _ hp := ⟨hM, hp.2⟩

theorem report_held (x : Finding) (t : TableId) (n : Nat) (hp : DamageHeld M q l b h) : DamageHeld M q l b (h.report x t n) := by
  cases x <;> exact hp

/-- A marked record is not checked again. -/
theorem noteBooth_held (n : Nat) (hp : DamageHeld M q l b h) : DamageHeld M q l b (h.noteBooth n) := by
  obtain ⟨hmode, hrequested, hreplies, hdamaged⟩ := hp
  unfold noteBooth
  split
  · exact ⟨hmode, hrequested, hreplies, hdamaged⟩
  · next hfound =>
    refine report_held _ _ _ ⟨hmode, hrequested, hreplies, ?_⟩
    have hother : n ≠ b := fun heq => hfound (by rw [heq, Protected.finding, hdamaged]; rfl)
    show (tget (tset h.mem.booths n _) b).damaged = true
    rw [tget_tset, if_neg fun both => hother both.1]
    exact hdamaged

theorem notes_keeps_damageHeld : Reader.notes.Keeps (DamageHeld M q l b) where
  delegate n h hp := by
    show DamageHeld M q l b (h.noteDelegate n)
    unfold noteDelegate
    exact keeps_ite hp (report_held _ _ _ hp)
  settings n h hp := by
    show DamageHeld M q l b (h.noteSettings n)
    unfold noteSettings
    exact keeps_ite hp (report_held _ _ _ hp)
  plan n h hp := by
    show DamageHeld M q l b (h.notePlan n)
    unfold notePlan
    exact keeps_ite hp (report_held _ _ _ hp)
  booth n _ hp := noteBooth_held n hp
  timeClass n h hp := by
    show DamageHeld M q l b (h.noteClass n)
    unfold noteClass
    exact keeps_ite hp (report_held _ _ _ hp)
  override n h hp := by
    show DamageHeld M q l b (h.noteOverride n)
    unfold noteOverride
    exact keeps_ite hp (report_held _ _ _ hp)

/-- A finding in a booth record takes LIVE to SAFE (R142). -/
theorem reader_booth_uncorrectable {v : Booth} (hb : b < 16) (hlive : h.cmd.mode = .live)
    (hrec : h.boothRecord b = ⟨v, false, .uncorrectable⟩) :
    DamageHeld (· = .safe) h.cmd.requested h.cmd.replies b (reader.booth b h) := by
  have hopen : DamageHeld (fun m => m = .live ∨ m = .safe) h.cmd.requested h.cmd.replies b (h.noteBooth b) := by
    rw [noteBooth_eq (f := .uncorrectable) nofun hb hrec]
    refine ⟨.inl hlive, rfl, rfl, ?_⟩
    show (tget (tset h.mem.booths b ⟨v, true, .uncorrectable⟩) b).damaged = true
    rw [tget_tset_self _ _ hb]
  have hreacted : DamageHeld (fun m => m = .live ∨ m = .safe) h.cmd.requested h.cmd.replies b
      ((h.noteBooth b).boothDamaged (readerAt 234) b) :=
    keeps_boothDamaged (damageHeld_closed (.inr rfl)).toClosedRooms
      (readerAt_keeps (damageHeld_closed (.inr rfl)) notes_keeps_damageHeld 234) hopen
  have C : ClosedSafe (DamageHeld (· = .safe) h.cmd.requested h.cmd.replies b) := damageHeld_closed rfl
  have K := readerAt_keeps C notes_keeps_damageHeld 234
  rw [reader_booth, hrec, if_pos (uncorrectable_finding v), safeAfter]
  generalize (h.noteBooth b).boothDamaged (readerAt 234) b = g at hreacted
  generalize readerAt 234 = rd at K
  obtain ⟨hmode, hrest⟩ := hreacted
  unfold enterSafe
  split
  · exact each_keeps (fun _ _ => keeps_service C.toClosedFloor K) (readAll_keeps K.settings ⟨rfl, hrest⟩)
  · next hnot => exact ⟨hmode.resolve_left hnot, hrest⟩

end Hall

/-- A delegate record once written. -/
theorem Hall.record_tset {g : Hall} {t : Vector (Protected Delegate) 192} {u : Nat} (hu : u ∈ units) (p : Protected Delegate)
    (hmem : g.mem.delegates = tset t (u - 1) p := by rfl) : g.record u = p := by
  obtain ⟨hindex, hlt, -⟩ := unitIndex_of_mem hu
  rw [record, hmem, hindex, tget_tset_self _ _ hlt]

/-- READ DELEGATE shows no more of memory than the delegate's record. -/
theorem Hall.delegateData_congr {g h : Hall} {u : Nat} (hloaded : g.loaded u = h.loaded u) (hfloor : g.floor = h.floor)
    (hpart : g.part = h.part) (part : Nat) : g.delegateData u part = h.delegateData u part := by
  have hroom : g.roomOfUnit u = h.roomOfUnit u := by rw [roomOfUnit, roomOfUnit, roomOfSection, roomOfSection, hloaded, hpart]
  have hrun : g.run u = h.run u := by rw [run, run, hfloor]
  have hqueue (r : Nat) : g.queue r = h.queue r := by rw [queue, queue, hfloor]
  unfold delegateData queuePosition
  rw [hloaded, hroom, hrun, hqueue]

theorem Chip.readBooth_of_damaged {c : Chip} {b part : Nat} (hb : b ≤ 15) (hpart : part ≤ 2)
    (hdamaged : ((reader.booth b c.hall).boothRecord b).damaged = true) :
    c.readBooth reader b part = ({ c with hall := reader.booth b c.hall }, .check .recordDamaged 0) := by
  have hfields : fieldAbove [(1, b, 15), (2, part, 2)] = none := by
    rw [fieldAbove_cons, if_neg (Nat.not_lt.mpr hb), fieldAbove_cons, if_neg (Nat.not_lt.mpr hpart)]
    rfl
  unfold readBooth
  rw [hfields]
  exact if_pos hdamaged

theorem Hall.readDelegate_of_range {h : Hall} {u part : Nat} (hlow : 1 ≤ u) (hhigh : u ≤ 192) (hpart : part ≤ 2) :
    h.readDelegate reader u part =
      if ((reader.delegate u h).record u).damaged then (reader.delegate u h, .check .recordDamaged 0)
      else (reader.delegate u h, .good .none 0 ((reader.delegate u h).delegateData u part)) := by
  have hfields : unitField u [(2, part, 2)] = none := by
    unfold unitField
    simp only [fieldAbove_cons, fieldAbove_nil]
    split_ifs <;> first | rfl | omega
  unfold readDelegate
  rw [hfields]
  rfl

/-- Settles O53: the reads are `Hall.reads_*`, with the findings of READ DELEGATE and READ BOOTH. -/
theorem readsFindErrors : Obligations.ReadsFindErrors := by
  refine ⟨fun s hd unit part v hr hlow hhigh hpart => ?_, fun s hd booth part v hr hbooth hpart hlive hrec => ?_, fun h n => ?_⟩
  · intro c h u
    have hu : u ∈ units := mem_units.mpr ⟨hlow, hhigh⟩
    have hrow : exec (.readDelegate hd unit part) s = .next (s.withChip (
        { c with hall := (c.restartWindow.hall.readDelegate reader u part.toNat).1 }.answered hd
          (c.restartWindow.hall.readDelegate reader u part.toNat).2)) := by
      rw [exec_of_command (x := .readDelegate unit part) rfl,
        Chip.commandRow_of_rule (x := .readDelegate unit part) hr rfl rfl nofun rfl]
    rw [hrow, Hall.readDelegate_of_range hlow hhigh hpart]
    refine ⟨fun hrec => ?_, fun hrec hidle => ?_⟩
    · have hread := Hall.reader_delegate_correctable (h := c.restartWindow.hall) hu hrec
      have hrecord : (reader.delegate u c.restartWindow.hall).record u = ⟨v, false, .sound⟩ := by
        rw [hread]
        exact Hall.record_tset hu _
      have hdata : (reader.delegate u c.restartWindow.hall).delegateData u part.toNat = h.delegateData u part.toNat := by
        refine Hall.delegateData_congr ?_ ?_ ?_ _
        · rw [Hall.loaded, Hall.loaded, hrecord, hrec]
        · rw [hread]
          rfl
        · rw [hread]
          rfl
      rw [hrecord, if_neg Bool.false_ne_true, hdata, hread]
      rfl
    · have hread : reader.delegate u c.restartWindow.hall = (c.restartWindow.hall.delegateMarked u v).muted u :=
        (Hall.reader_delegate_uncorrectable (h := c.restartWindow.hall) hu hrec).trans (Hall.delegateDamaged_of_idle _ hu hidle)
      have hrecord : (reader.delegate u c.restartWindow.hall).record u = ⟨v, true, .uncorrectable⟩ := by
        rw [hread]
        exact Hall.record_tset hu _
      rw [hrecord, if_pos rfl, hread]
      rfl
  · set c := s.chip
    have hheld := Hall.reader_booth_uncorrectable (h := c.restartWindow.hall) (Nat.lt_succ_of_le hbooth) hlive hrec
    obtain ⟨hmode, hrequested, hreplies, hdamaged⟩ := hheld
    have hrun : c.restartWindow.run reader (.readBooth booth part) = c.restartWindow.readBooth reader booth.toNat part.toNat := rfl
    have hrow : exec (.readBooth hd booth part) s = .next (s.withChip
        ({ c.restartWindow with hall := reader.booth booth.toNat c.restartWindow.hall }.answered hd (.check .recordDamaged 0))) := by
      rw [exec_of_command (x := .readBooth booth part) rfl,
        Chip.commandRow_eq_answered (x := .readBooth booth part) hr rfl rfl nofun, hrun,
        Chip.readBooth_of_damaged hbooth hpart hdamaged]
    refine ⟨_, hrow, hmode, hrequested, hdamaged, ?_⟩
    exact congrArg (· ++ [_]) hreplies
  · intro reported
    refine ⟨fun v f hn hrec hf => ?_, fun v f hn hrec hf => ?_, fun v f hn hrec hf => ?_, fun v f hn hrec hf => ?_,
      fun v f hn hrec hf => ?_, fun v f hn hrec hf => ?_⟩
    · intro corrected marked d r position gone silent gapped handed
      refine ⟨fun hfound => ?_, fun hfound hm => ?_⟩
      · subst hfound
        exact Hall.reader_delegate_correctable hn hrec
      · subst hfound
        have hmarked : marked = h.delegateMarked n v := rfl
        have hgone : gone = (h.delegateMarked n v).unseated n := by
          rw [Hall.unseated_delegateMarked hn hrec]
          simp only [gone, hmarked, d, r] <;> cases (h.run n).state <;> rfl
        have hsilent : silent = ((h.delegateMarked n v).unseated n).muted n := by
          rw [← hgone]
          rfl
        rw [Hall.reads_delegate hn hrec hm]
        simp only [gapped, handed, hsilent, position, d, r]
    · intro corrected marked
      obtain ⟨hcorrected, hreacted⟩ := Hall.reads_settings hn hrec
      exact ⟨fun hfound => (hcorrected hfound).trans (by subst hfound; rfl), fun hfound => hreacted hfound marked rfl⟩
    · intro corrected marked
      obtain ⟨hcorrected, hreacted⟩ := Hall.reads_plan hn hrec
      exact ⟨fun hfound => (hcorrected hfound).trans (by subst hfound; rfl), fun hfound => hreacted hfound marked rfl⟩
    · intro corrected marked released settled
      obtain ⟨hcorrected, hreacted⟩ := Hall.reads_booth hn hrec
      exact ⟨fun hfound => (hcorrected hfound).trans (by subst hfound; rfl), fun hfound hm => hreacted hfound marked rfl hm settled rfl⟩
    · intro corrected marked
      obtain ⟨hcorrected, hreacted⟩ := Hall.reads_class hn hrec
      exact ⟨fun hfound => (hcorrected hfound).trans (by subst hfound; rfl), fun hfound => hreacted hfound marked rfl⟩
    · intro corrected marked
      obtain ⟨hcorrected, hreacted⟩ := Hall.reads_override hn hrec
      exact ⟨fun hfound => (hcorrected hfound).trans (by subst hfound; rfl), fun hfound => hreacted hfound marked rfl⟩

end Sys2Proof.Machine

/-! SUPPORT. O51: the claims of the distribution pool (R81 to R83). -/

namespace Sys2Proof.Machine

namespace Hall

variable {h : Hall}

/-! ## The owners of the claims are told (R67, R83) -/

theorem assignment_setBoothRun {b : Nat} {f : BoothRun → BoothRun} (hf : ∀ x, (f x).assignment = x.assignment) (y : Nat) (h : Hall) :
    ((h.setBoothRun b f).boothRun y).assignment = (h.boothRun y).assignment := by
  show (tget (tmod h.router.booths b f) y).assignment = (tget h.router.booths y).assignment
  rw [tmod, tget_tset]
  split
  · next heq => rw [hf, heq.1]
  · rfl

theorem tellOutput_eq (b : Nat) (n : Option Nat) (h : Hall) : h.tellOutput b n = { h with
    router.booths := tmod h.router.booths b (fun y => { y with outSlot := n })
    router.boothDirty := tset h.router.boothDirty b true
    router.channelDirty := if (h.boothRun b).assignment = .lead then h.languageMarks (h.roomOfBooth b) (h.booth b).language
      else h.router.channelDirty } := by
  have hassignment : (((h.setBoothRun b (fun y => { y with outSlot := n })).markBooth b).boothRun b).assignment =
      (h.boothRun b).assignment := assignment_setBoothRun (f := fun y => { y with outSlot := n }) (fun _ => rfl) b h
  rw [tellOutput, markLed_eq, hassignment]
  rfl

theorem markChannel_eq (r k : Nat) (h : Hall) : h.markChannel r k = { h with
    router.channelDirty := tmapIdx h.router.channelDirty (fun j d =>
      d || sections.any (fun s => h.roomOfSection s == r && j == 9 * s + k)) } := by
  have hdirty : (sectionsOf h.part.inForce r).foldl (fun d s => tset d (9 * s + k) true) h.router.channelDirty =
      tmapIdx h.router.channelDirty (fun j d => d || sections.any (fun s => h.roomOfSection s == r && j == 9 * s + k)) := by
    apply table_ext
    intro j hj
    have hplace : (∃ s ∈ sectionsOf h.part.inForce r, 9 * s + k = j) ↔
        sections.any (fun s => h.roomOfSection s == r && j == 9 * s + k) = true := by
      simp only [List.any_eq_true, Bool.and_eq_true, beq_iff_eq, sectionsOf, List.mem_filter]
      exact exists_congr fun s => ⟨fun ⟨⟨hs, hroom⟩, hj⟩ => ⟨hs, hroom, hj.symm⟩, fun ⟨hs, hroom, hj⟩ => ⟨⟨hs, hroom⟩, hj.symm⟩⟩
    rw [tget_foldl_mark (fun s => 9 * s + k) _ _ hj, tget_tmapIdx_of_lt _ _ hj, decide_eq_decide.mpr hplace, Bool.decide_coe]
  rw [markChannel, hdirty]

/-! ## Places in the pool (R81) -/

theorem find_place_iff (h : Hall) (y : Option Claim) (i : Nat) : (List.range 88).find? (fun i => tget h.slots.pool i == y) = some i ↔
    i < 88 ∧ tget h.slots.pool i = y ∧ ∀ j < i, tget h.slots.pool j ≠ y := by
  rw [List.find?_range_eq_some]
  simp only [List.mem_range, beq_iff_eq, Bool.not_eq_true', beq_eq_false_iff_ne]
  tauto

theorem find_place_none {h : Hall} {y : Option Claim} (hnone : ∀ i < 88, tget h.slots.pool i ≠ y) :
    (List.range 88).find? (fun i => tget h.slots.pool i == y) = none :=
  List.find?_eq_none.mpr fun i hi heq => hnone i (List.mem_range.mp hi) (beq_iff_eq.mp heq)

/-- The wait list with a claim at its place (R82). -/
theorem wait_eq (y : Claim) (h : Hall) : h.wait y = { h with
    slots.waitList := h.slots.waitList.takeWhile (fun z => decide (z.rank ≤ y.rank)) ++
      y :: h.slots.waitList.dropWhile (fun z => decide (z.rank ≤ y.rank)) } := by
  have hbefore : (fun z : Claim => !decide (y.rank < z.rank)) = fun z => decide (z.rank ≤ y.rank) := by
    funext z
    rw [← decide_not]
    exact decide_eq_decide.mpr Nat.not_lt
  rw [wait, insertBy_eq, hbefore]

/-! ## Claims made, released and reclassed (R81 to R83) -/

theorem makeClaim_of_place {x : Claim} {i : Nat} (hi : h.freePool = some i) : h.makeClaim x = (h.setPool i (some x)).tellGiven x i := by
  rw [makeClaim, hi]

theorem makeClaim_of_none (x : Claim) (hnone : h.freePool = none) :
    h.makeClaim x = (h.wait x).post .claimWaiting x.classCode x.keyByte 0 0 := by
  rw [makeClaim, hnone]

theorem releaseClaim_of_place {x : Claim} {i : Nat} (hi : h.heldAt x = some i) : h.releaseClaim x = (h.tellReleased x).servePool i := by
  rw [releaseClaim, hi]

theorem servePool_nil (hwait : h.slots.waitList = []) (i : Nat) : h.servePool i = h.setPool i none := by
  rw [servePool, hwait]

/-- The first waiter is served. -/
theorem servePool_cons {w : Claim} {rest : List Claim} (hwait : h.slots.waitList = w :: rest) (i : Nat) : h.servePool i =
    tellGiven w i { h with
      slots := { h.slots with pool := tset h.slots.pool i (some w), waitList := rest }
      events := h.events.push h.frameCounter ⟨.claimServed, h.frameCounter, w.classCode, w.keyByte, byte (40 + i), 0⟩ } := by
  have herase : h.slots.waitList.erase w = rest := by rw [hwait, List.erase_cons_head]
  unfold servePool
  rw [hwait]
  dsimp only
  rw [unwait, herase]
  rfl

end Hall

end Sys2Proof.Machine

/-! SUPPORT. O51: the evaluation of a room's assignments (R65, R66, R67). -/

namespace Sys2Proof.Machine

namespace Hall

variable {h g : Hall}

/-! ## The lead (R65) -/

/-- `a` stands before `b`, or is it, among the candidates for the lead. -/
def Foremost (h : Hall) (a b : Nat) : Prop :=
  (h.booth a).home < (h.booth b).home ∨ ((h.booth a).home = (h.booth b).home ∧ a ≤ b)

theorem Foremost.antisymm {a b : Nat} (hab : h.Foremost a b) (hba : h.Foremost b a) : a = b := by
  unfold Foremost at hab hba
  omega

theorem sorted_candidates (h : Hall) (l : List Nat) : (sortBy h.precedes l).Pairwise h.Foremost := by
  refine sortBy_pairwise (fun a b c hab hbc => ?_) (fun a b hab => ?_) (fun a b hab => ?_) l
  · unfold Foremost at hab hbc ⊢
    omega
  · simp only [precedes, Bool.or_eq_true, Bool.and_eq_true, decide_eq_true_eq, beq_iff_eq] at hab
    unfold Foremost
    omega
  · simp only [precedes, Bool.or_eq_false_iff, Bool.and_eq_false_iff, decide_eq_false_iff_not, beq_eq_false_iff_ne] at hab
    unfold Foremost
    omega

/-- The head of the sorted candidates is the one that stands before all. -/
theorem head_sorted_iff {l : List Nat} {b : Nat} (hb : b ∈ l) :
    (sortBy h.precedes l).head? = some b ↔ ∀ y ∈ l, h.Foremost b y := by
  have hperm : (sortBy h.precedes l).Perm l := sortBy_perm l
  have hsorted := h.sorted_candidates l
  have hin : b ∈ sortBy h.precedes l := hperm.mem_iff.mpr hb
  have hself : h.Foremost b b := .inr ⟨rfl, le_rfl⟩
  cases hlist : sortBy h.precedes l with
  | nil =>
    rw [hlist] at hin
    exact absurd hin List.not_mem_nil
  | cons c t =>
    rw [hlist] at hperm hsorted hin
    obtain ⟨hfirst, -⟩ := List.pairwise_cons.mp hsorted
    rw [List.head?_cons, Option.some.injEq]
    constructor
    · rintro rfl y hy
      obtain rfl | hy := List.mem_cons.mp (hperm.mem_iff.mpr hy)
      · exact hself
      · exact hfirst y hy
    · intro hall
      obtain rfl | ht := List.mem_cons.mp hin
      · rfl
      · exact (hfirst b ht).antisymm (hall c (hperm.mem_iff.mp List.mem_cons_self))

theorem assignmentOf_eq {b : Nat} (hb : b ∈ boothNumbers) : h.assignmentOf b = h.assignedTo b := by
  unfold assignmentOf assignedTo
  dsimp only
  by_cases hoff : h.effective b = .off
  · rw [if_pos hoff, if_pos hoff]
  · rw [if_neg hoff, if_neg hoff]
    by_cases hplan : (h.booth b).language ∈ h.plan (h.roomOfBooth b)
    · have hcandidate (y : Nat) : y ∈ boothNumbers.filter (h.isCandidate (h.roomOfBooth b) (h.booth b).language) ↔
          y ∈ boothNumbers ∧ h.roomOfBooth y = h.roomOfBooth b ∧ h.effective y ≠ .off ∧ (h.booth y).language = (h.booth b).language := by
        simp only [List.mem_filter, isCandidate, Bool.and_eq_true, beq_iff_eq, bne_iff_ne, and_assoc]
      have hlead : h.leadOf (h.roomOfBooth b) (h.booth b).language = some b ↔ ∀ y ∈ boothNumbers,
          h.roomOfBooth y = h.roomOfBooth b → h.effective y ≠ .off → (h.booth y).language = (h.booth b).language →
            (h.booth b).home < (h.booth y).home ∨ ((h.booth b).home = (h.booth y).home ∧ b ≤ y) := by
        rw [leadOf, head_sorted_iff ((hcandidate b).mpr ⟨hb, rfl, hoff, rfl⟩)]
        simp only [hcandidate, Foremost, and_imp]
      rw [if_pos hplan, if_neg (not_not_intro hplan)]
      exact if_congr hlead rfl rfl
    · rw [if_neg hplan, if_pos hplan]

/-! ## The booths whose assignment changes (R66) -/

/-- The booths of room `r` whose assignment changes. -/
def reassignedBooths (h : Hall) (r : Nat) : List Nat :=
  boothNumbers.filter (fun b => h.roomOfBooth b = r ∧ (h.boothRun b).assignment ≠ h.assignedTo b)

/-- What changes for booth `b`. -/
def reassignedAt (h : Hall) (b : Nat) : Reassigned := ⟨b, (h.boothRun b).assignment, h.assignedTo b⟩

theorem filterMap_ite_none {α β : Type} (p : α → Prop) [DecidablePred p] (f : α → β) (l : List α) :
    l.filterMap (fun a => if p a then none else some (f a)) = (l.filter (fun a => ¬p a)).map f := by
  induction l with
  | nil => rfl
  | cons a l ih => by_cases ha : p a <;> simp [ha, ih]

theorem reassigned_eq (r : Nat) (h : Hall) : h.reassigned r = (h.reassignedBooths r).map h.reassignedAt := by
  have hassigned : h.reassigned r = (h.boothsOf r).filterMap (fun b =>
      if (h.boothRun b).assignment = h.assignedTo b then none else some (h.reassignedAt b)) := by
    refine List.filterMap_congr fun b hb => ?_
    rw [assignmentOf_eq (List.mem_of_mem_filter hb)]
    rfl
  rw [hassigned, filterMap_ite_none, boothsOf, List.filter_filter, reassignedBooths]
  refine congrArg (List.map h.reassignedAt) (List.filter_congr fun b _ => ?_)
  rw [Bool.decide_and, Bool.and_comm, beq_eq_decide]

end Hall

end Sys2Proof.Machine

/-! SUPPORT. O51: an evaluation step by step (R66, R67). -/

namespace Sys2Proof.Machine

namespace Hall

variable {h g : Hall}

/-! ## The assignments under the rules that move claims -/

/-- The booths' assignments in `g` are those of `h`. -/
def AssignedAs (h g : Hall) : Prop := ∀ y, (g.boothRun y).assignment = (h.boothRun y).assignment

theorem AssignedAs.refl (h : Hall) : h.AssignedAs h := fun _ => rfl

theorem assignedAs_tellOutput (hg : h.AssignedAs g) (b : Nat) (n : Option Nat) : h.AssignedAs (g.tellOutput b n) := fun y => by
  rw [tellOutput_eq]
  exact (assignment_setBoothRun (f := fun x => { x with outSlot := n }) (fun _ => rfl) y g).trans (hg y)

theorem assignedAs_tellFeed (hg : h.AssignedAs g) (b : Nat) (n : Option Nat) : h.AssignedAs (g.tellFeed b n) := fun y =>
  (assignment_setBoothRun (f := fun x => { x with feedSlot := n }) (fun _ => rfl) y g).trans (hg y)

theorem assignedAs_tellGiven (hg : h.AssignedAs g) (c : Claim) (i : Nat) : h.AssignedAs (g.tellGiven c i) := by
  cases c with
  | leadOut b => exact assignedAs_tellOutput hg b _
  | spareOut b => exact assignedAs_tellOutput hg b _
  | feed b => exact assignedAs_tellFeed hg b _
  | language r k => exact hg

theorem assignedAs_tellReleased (hg : h.AssignedAs g) (c : Claim) : h.AssignedAs (g.tellReleased c) := by
  cases c with
  | leadOut b => exact assignedAs_tellOutput hg b _
  | spareOut b => exact assignedAs_tellOutput hg b _
  | feed b => exact assignedAs_tellFeed hg b _
  | language r k => exact hg

theorem assignedAs_servePool (hg : h.AssignedAs g) (i : Nat) : h.AssignedAs (g.servePool i) := by
  cases hwait : g.slots.waitList with
  | nil =>
    rw [servePool_nil hwait]
    exact hg
  | cons w rest =>
    rw [servePool_cons hwait]
    have hserved : h.AssignedAs { g with
        slots := { g.slots with pool := tset g.slots.pool i (some w), waitList := rest }
        events := g.events.push g.frameCounter ⟨.claimServed, g.frameCounter, w.classCode, w.keyByte, byte (40 + i), 0⟩ } := hg
    exact assignedAs_tellGiven hserved w i

theorem assignedAs_makeClaim (hg : h.AssignedAs g) (c : Claim) : h.AssignedAs (g.makeClaim c) := by
  cases hfree : g.freePool with
  | none =>
    rw [makeClaim_of_none c hfree]
    exact hg
  | some i =>
    rw [makeClaim_of_place hfree]
    have hset : h.AssignedAs (g.setPool i (some c)) := hg
    exact assignedAs_tellGiven hset c i

theorem assignedAs_releaseClaim (hg : h.AssignedAs g) (c : Claim) : h.AssignedAs (g.releaseClaim c) := by
  cases hheld : g.heldAt c with
  | none =>
    rw [releaseClaim, hheld]
    exact hg
  | some i =>
    rw [releaseClaim_of_place hheld]
    exact assignedAs_servePool (assignedAs_tellReleased hg c) i

theorem assignedAs_reclass (hg : h.AssignedAs g) (a b : Claim) : h.AssignedAs (g.reclass a b) := by
  unfold reclass
  split
  · exact hg
  · split
    · exact hg
    · exact hg

theorem assignedAs_releaseBooth (hg : h.AssignedAs g) (b : Nat) : h.AssignedAs (g.releaseBooth b) :=
  assignedAs_releaseClaim (assignedAs_releaseClaim (assignedAs_releaseClaim hg _) _) _

theorem assignedAs_markLanguage (hg : h.AssignedAs g) (r l : Nat) : h.AssignedAs (g.markLanguage r l) := by
  rw [markLanguage_eq]
  exact hg

/-! ## The steps of an evaluation -/

/-- The assignments held, and the notices of the booths `bs` marked (R66). -/
def assignmentsHeld (bs : List Nat) (now : Nat → Assignment) (h : Hall) : Hall := { h with
  router.booths := tmapIdx h.router.booths (fun b x => if b ∈ bs then { x with assignment := now b } else x)
  router.boothDirty := tmapIdx h.router.boothDirty (fun b d => d || b ∈ bs) }

theorem each_hold {bs : List Nat} (hnodup : bs.Nodup) (x : Nat → Reassigned) (hx : ∀ b, (x b).booth = b) (h : Hall) :
    h.each bs (fun b => hold (x b)) = h.assignmentsHeld bs (fun b => (x b).new) := by
  have hseries (l : List Nat) (h : Hall) : h.each l (fun b => hold (x b)) = { h with
      router.booths := l.foldl (fun t b => tmod t b (fun y => { y with assignment := (x b).new })) h.router.booths
      router.boothDirty := l.foldl (fun t b => tset t b true) h.router.boothDirty } := by
    unfold each
    induction l generalizing h with
    | nil => rfl
    | cons b l ih =>
      have hb : h.hold (x b) = { h with
          router.booths := tmod h.router.booths b (fun y => { y with assignment := (x b).new })
          router.boothDirty := tset h.router.boothDirty b true } := by
        rw [hold, hx]
        rfl
      rw [List.foldl_cons]
      dsimp only
      rw [hb]
      exact ih _
  have hmarks : tmapIdx h.router.boothDirty (fun b d => if b ∈ bs then true else d) =
      tmapIdx h.router.boothDirty (fun b d => d || decide (b ∈ bs)) := by
    apply table_ext
    intro b hb
    rw [tget_tmapIdx_of_lt _ _ hb, tget_tmapIdx_of_lt _ _ hb]
    by_cases hin : b ∈ bs <;> simp [hin]
  have hbooths : bs.foldl (fun t b => tmod t b (fun y => { y with assignment := (x b).new })) h.router.booths =
      tmapIdx h.router.booths (fun b y => if b ∈ bs then { y with assignment := (x b).new } else y) :=
    foldl_tmodIdx hnodup (fun b y => { y with assignment := (x b).new }) h.router.booths
  rw [hseries, hbooths, foldl_tset (fun _ => true), hmarks]
  rfl

/-- LEAD CHANGED of booth `b`, with the channel notices of its language where it counts here (R66). -/
def leadTold (r n l : Nat) (here : Bool) (b : Nat) (g : Hall) : Hall := { g with
  events := g.events.push g.frameCounter ⟨.leadChanged, g.frameCounter, byte b, byte r, byte l, byte n⟩
  router.channelDirty := if here then g.languageMarks r l else g.router.channelDirty }

theorem leadLeft_eq (r b : Nat) (led : Led) (g : Hall) : g.leadLeft r b led = g.leadTold r 0 led.language (decide (led.room = r)) b := by
  unfold leadLeft leadTold
  dsimp only
  rw [markLanguage_eq]
  by_cases hhere : led.room = r
  · simp only [if_pos hhere, decide_eq_true hhere, if_true]
    rfl
  · simp only [if_neg hhere, decide_eq_false hhere, Bool.false_eq_true, if_false]
    rfl

theorem leadEntered_eq (hmem : g.mem = h.mem) (r b : Nat) : g.leadEntered r b = g.leadTold r 1 (h.booth b).language true b := by
  have hbooth : g.booth b = h.booth b := by rw [booth, booth, boothRecord, boothRecord, hmem]
  rw [leadEntered, markLanguage_eq, hbooth]
  rfl

/-- The evaluation of room `r`, step by step. -/
def evaluated (led : Nat → Led) (r : Nat) (h : Hall) : Hall :=
  let was := fun (b : Nat) => (h.boothRun b).assignment
  let now := h.assignedTo
  let moved := h.reassignedBooths r
  let held := h.assignmentsHeld moved now
  let left := held.each (moved.filter (fun b => was b = .lead)) (fun b => leadTold r 0 (led b).language (decide ((led b).room = r)) b)
  let entered := left.each (moved.filter (fun b => now b = .lead)) (fun b => leadTold r 1 (h.booth b).language true b)
  let reclassed := entered.each (moved.filter (fun b => was b ≠ .none ∧ now b ≠ .none))
    (fun b => reclass (outputClaim (was b) b) (outputClaim (now b) b))
  let released := reclassed.each (moved.filter (fun b => now b = .none)) (fun b => releaseBooth b)
  released.each (moved.filter (fun b => was b = .none)) (fun b g => (g.makeClaim (outputClaim (now b) b)).makeClaim (.feed b))

theorem nodup_reassignedBooths (h : Hall) (r : Nat) : (h.reassignedBooths r).Nodup := List.nodup_range.filter _

/-- The changed assignments that satisfy a condition. -/
theorem filter_reassigned (h : Hall) (r : Nat) (p : Reassigned → Bool) (q : Nat → Prop) [DecidablePred q]
    (hpq : ∀ b, p (h.reassignedAt b) = decide (q b)) :
    ((h.reassignedBooths r).map h.reassignedAt).filter p = ((h.reassignedBooths r).filter (fun b => q b)).map h.reassignedAt := by
  rw [List.filter_map]
  exact congrArg (List.map h.reassignedAt) (List.filter_congr fun b _ => hpq b)

/-- A booth that left OFF makes the claims of the assignment it has got. -/
theorem claimBooth_eq {now : Nat → Assignment} {b : Nat} (hnow : (g.boothRun b).assignment = now b) :
    g.claimBooth b = (g.makeClaim (outputClaim (now b) b)).makeClaim (.feed b) := by
  rw [claimBooth, hnow]

theorem assigned_held {r b : Nat} (hb : b ∈ h.reassignedBooths r) :
    ((h.assignmentsHeld (h.reassignedBooths r) h.assignedTo).boothRun b).assignment = h.assignedTo b := by
  have hlt : b < 16 := List.mem_range.mp (List.mem_of_mem_filter (l := boothNumbers) hb)
  have hentry : (h.assignmentsHeld (h.reassignedBooths r) h.assignedTo).boothRun b =
      tget (tmapIdx h.router.booths (fun b x => if b ∈ h.reassignedBooths r then { x with assignment := h.assignedTo b } else x)) b := rfl
  rw [hentry, tget_tmapIdx_of_lt _ _ hlt, if_pos hb]

theorem evaluate_eq (hm : h.Clean) (led : Nat → Led) (r : Nat) : h.evaluate reader led r = h.evaluated led r := by
  have hheld : h.each ((h.reassignedBooths r).map h.reassignedAt) hold = h.assignmentsHeld (h.reassignedBooths r) h.assignedTo := by
    rw [each_map]
    exact each_hold (h.nodup_reassignedBooths r) h.reassignedAt (fun _ => rfl) h
  have hold := h.filter_reassigned r (fun x => x.old == .lead) (fun b => (h.boothRun b).assignment = .lead) fun _ => beq_eq_decide ..
  have hnew := h.filter_reassigned r (fun x => x.new == .lead) (fun b => h.assignedTo b = .lead) fun _ => beq_eq_decide ..
  have hboth := h.filter_reassigned r (fun x => x.old != .none && x.new != .none)
    (fun b => (h.boothRun b).assignment ≠ .none ∧ h.assignedTo b ≠ .none) fun b => by
      rw [Bool.eq_iff_iff]
      simp [reassignedAt]
  have hgone := h.filter_reassigned r (fun x => x.new == .none) (fun b => h.assignedTo b = .none) fun _ => beq_eq_decide ..
  have hcame := h.filter_reassigned r (fun x => x.old == .none) (fun b => (h.boothRun b).assignment = .none) fun _ => beq_eq_decide ..
  have hleft (bs : List Nat) (g : Hall) : g.each bs (fun b => leadLeft r b (led b)) =
      g.each bs (fun b => leadTold r 0 (led b).language (decide ((led b).room = r)) b) :=
    congrArg (fun f => g.each bs f) (funext fun b => funext fun g => leadLeft_eq r b (led b) g)
  unfold evaluate evaluated
  dsimp only
  rw [idle_readAllBooths reader_idle hm, reassigned_eq, hheld, hold, hnew, hboth, hgone, hcame]
  simp only [each_map]
  set held := h.assignmentsHeld (h.reassignedBooths r) h.assignedTo
  have hleftNow := hleft ((h.reassignedBooths r).filter (fun b => (h.boothRun b).assignment = .lead)) held
  have hleftAssigned : held.AssignedAs (held.each ((h.reassignedBooths r).filter (fun b => (h.boothRun b).assignment = .lead))
      (fun b => leadTold r 0 (led b).language (decide ((led b).room = r)) b)) :=
    each_keeps (P := held.AssignedAs) (fun _ _ hx => hx) (AssignedAs.refl held)
  have hleftMem : (held.each ((h.reassignedBooths r).filter (fun b => (h.boothRun b).assignment = .lead))
      (fun b => leadTold r 0 (led b).language (decide ((led b).room = r)) b)).mem = h.mem :=
    each_keeps (P := fun x => x.mem = h.mem) (fun _ _ hx => hx) rfl
  have hreassigned (b : Nat) : h.reassignedAt b = ⟨b, (h.boothRun b).assignment, h.assignedTo b⟩ := rfl
  simp only [hreassigned]
  rw [hleftNow]
  generalize held.each ((h.reassignedBooths r).filter (fun b => (h.boothRun b).assignment = .lead))
    (fun b => leadTold r 0 (led b).language (decide ((led b).room = r)) b) = left at hleftAssigned hleftMem
  have hentered : left.each ((h.reassignedBooths r).filter (fun b => h.assignedTo b = .lead)) (fun b => leadEntered r b) =
      left.each ((h.reassignedBooths r).filter (fun b => h.assignedTo b = .lead)) (fun b => leadTold r 1 (h.booth b).language true b) :=
    each_congr (P := fun x => x.mem = h.mem) _ (fun b x hx => leadEntered_eq hx r b) (fun _ _ hx => hx) hleftMem
  rw [hentered]
  refine (each_congr_mem (P := held.AssignedAs) (fun b hb x hx => ?_) (fun b _ x hx => ?_) ?_).1
  · exact claimBooth_eq ((hx b).trans (assigned_held (List.mem_of_mem_filter hb)))
  · exact assignedAs_makeClaim (assignedAs_makeClaim hx _) _
  · refine each_keeps (fun b _ hx => assignedAs_releaseBooth hx b) (each_keeps (fun b _ hx => assignedAs_reclass hx _ _) ?_)
    exact each_keeps (P := held.AssignedAs) (fun _ _ hx => hx) hleftAssigned

end Hall

end Sys2Proof.Machine

/-! SUPPORT. O51: a booth's report (R68, R69). -/

namespace Sys2Proof.Machine

namespace Hall

variable {h g : Hall} {b : Nat} {sel : Relay}

theorem boothRecord_of_seated (hg : h.SeatedAs g) (t : Nat) : g.boothRecord t = h.boothRecord t := by
  obtain ⟨hmem, -⟩ := hg
  rw [boothRecord, hmem, boothRecord]

/-! ## Relays and selections under the rules that move assignments and claims -/

/-- The booths' records, rooms, relays in force and relay selections in `g` are those of `h`. -/
def RelaysAs (h g : Hall) : Prop := h.SeatedAs g ∧
  ∀ y, (g.boothRun y).relay = (h.boothRun y).relay ∧ (g.boothRun y).selection = (h.boothRun y).selection

theorem relaysAs_closed (h : Hall) : ClosedSlots h.RelaysAs where
  post _ _ _ _ _ _ _ hg := hg
  held b f g hf hg := by
    obtain ⟨hseated, hruns⟩ := hg
    refine ⟨hseated, fun y => ?_⟩
    obtain ⟨hrelay, hsel⟩ := hruns y
    obtain ⟨-, hfsel, hfrelay⟩ := hf (g.boothRun b)
    simp only [boothRun, setBoothRun, tmod, tget_tset] at hrelay hsel hfsel hfrelay ⊢
    split_ifs with hy
    · obtain ⟨rfl, -⟩ := hy
      exact ⟨hfrelay.trans hrelay, hfsel.trans hsel⟩
    · exact ⟨hrelay, hsel⟩
  notices _ _ _ hg := hg
  slots _ _ _ hg := hg

/-! ## The choice of a relay (R69) -/

/-- The relay in force that a selection gives booth `b`. -/
def relayChosen (h : Hall) (b : Nat) (sel : Relay) : Relay :=
  if (h.boothRecord b).damaged || (h.booth b).language == 0 then (h.boothRun b).relay
  else match sel with
    | .floor => .floor
    | .booth t => if h.mayRelay b t then .booth t else (h.boothRun b).relay

theorem mayRelay_iff (b t : Nat) (h : Hall) : h.mayRelay b t = true ↔ t ≠ b ∧ (h.boothRecord t).damaged = false ∧
    h.roomOfBooth t = h.roomOfBooth b ∧ (h.boothRun t).relay = .floor ∧ ∀ y < 16, (h.boothRun y).relay ≠ .booth b := by
  simp only [mayRelay, Bool.and_eq_true, bne_iff_ne, Bool.not_eq_true', beq_iff_eq, List.all_eq_true, boothNumbers,
    List.mem_range, and_assoc]

theorem relayChosen_congr (hg : h.SeatedAs g) (hrelay : ∀ y, (g.boothRun y).relay = (h.boothRun y).relay) (b : Nat)
    (sel : Relay) : g.relayChosen b sel = h.relayChosen b sel := by
  have hmay (t : Nat) : g.mayRelay b t = h.mayRelay b t := by
    simp only [mayRelay, hrelay, boothRecord_of_seated hg, roomOfBooth_of_seated hg]
  cases sel with
  | floor => simp only [relayChosen, hrelay, boothRecord_of_seated hg, booth_of_seated hg]
  | booth t => simp only [relayChosen, hrelay, hmay, boothRecord_of_seated hg, booth_of_seated hg]

theorem relayChosen_floor (hsound : (h.boothRecord b).damaged = false) (hlang : (h.booth b).language ≠ 0) :
    h.relayChosen b .floor = .floor := by
  simp [relayChosen, hsound, hlang]

theorem relayChosen_booth {t : Nat} (hsound : (h.boothRecord b).damaged = false) (hlang : (h.booth b).language ≠ 0)
    (hmay : h.mayRelay b t = true) : h.relayChosen b (.booth t) = .booth t := by
  simp [relayChosen, hsound, hlang, hmay]

theorem relayChosen_refused {t : Nat} (hmay : ¬h.mayRelay b t = true) :
    h.relayChosen b (.booth t) = (h.boothRun b).relay := by
  simp only [relayChosen, if_neg hmay, ite_self]

theorem relayChosen_inactive (hoff : ¬((h.boothRecord b).damaged = false ∧ (h.booth b).language ≠ 0)) :
    h.relayChosen b sel = (h.boothRun b).relay := by
  refine if_pos ?_
  rw [Bool.or_eq_true, beq_iff_eq]
  by_contra hnot
  obtain ⟨hsound, hlang⟩ := not_or.mp hnot
  exact hoff ⟨by simpa using hsound, hlang⟩

/-- Booth `b`'s relay in force becomes `y`. -/
def relayed (h : Hall) (b : Nat) (y : Relay) : Hall :=
  { h with router.booths := tset h.router.booths b { h.boothRun b with relay := y } }

theorem relayed_self (b : Nat) (h : Hall) : h.relayed b (h.boothRun b).relay = h := by
  have hrun : tset h.router.booths b (h.boothRun b) = h.router.booths := tset_tget _ _
  show { h with router.booths := tset h.router.booths b (h.boothRun b) } = h
  rw [hrun]

theorem selectRelay_eq (hm : h.Clean) (b : Nat) :
    (if (h.boothRecord b).damaged || (h.booth b).language == 0 then h else h.selectRelay reader b) =
      h.relayed b (h.relayChosen b (h.boothRun b).selection) := by
  unfold relayChosen
  split_ifs with hoff
  · exact (h.relayed_self b).symm
  have hread (t : Nat) : reader.booth t h = h := idle_booth reader_idle hm t
  unfold selectRelay
  generalize reader = rd at hread
  dsimp only
  by_cases hsame : (h.boothRun b).selection = (h.boothRun b).relay
  · rw [if_pos hsame, hsame]
    cases hrelay : (h.boothRun b).relay with
    | floor => exact (hrelay ▸ h.relayed_self b).symm
    | booth t =>
      dsimp only
      rw [ite_self]
      exact (hrelay ▸ h.relayed_self b).symm
  · rw [if_neg hsame]
    cases (h.boothRun b).selection with
    | floor => rfl
    | booth t =>
      dsimp only
      rw [hread]
      split_ifs
      · rfl
      · exact (h.relayed_self b).symm

/-! ## The report as a whole (R68) -/

/-- The report is stored. -/
def reportStored (h : Hall) (b : Nat) (reported : BoothState) (sel : Relay) : Hall :=
  { h with router.booths := tset h.router.booths b { h.boothRun b with reported := reported, selection := sel } }

/-- The report is stored, and what follows where the effective state changes. -/
def reportMoved (h : Hall) (b : Nat) (reported : BoothState) (sel : Relay) : Hall :=
  (h.reportStored b reported sel).stateMoved (fun y => ⟨h.roomOfBooth y, (h.booth y).language⟩) b (h.effective b)

variable {reported : BoothState}

theorem boothRun_reportStored (hb : b < 16) (y : Nat) : (h.reportStored b reported sel).boothRun y =
    if b = y then { h.boothRun b with reported := reported, selection := sel } else h.boothRun y := by
  simp only [reportStored, boothRun, tget_tset, hb, and_true]

theorem relay_reportStored (hb : b < 16) (y : Nat) :
    ((h.reportStored b reported sel).boothRun y).relay = (h.boothRun y).relay := by
  rw [boothRun_reportStored hb]
  split_ifs with hy
  · rw [hy]
  · rfl

theorem reportMoved_keeps {P : Hall → Prop} (C : ClosedSlots P) (K : reader.Keeps P)
    (hp : P (h.reportStored b reported sel)) : P (h.reportMoved b reported sel) := by
  rw [reportMoved, ← stateChanged_eq_stateMoved]
  exact keeps_stateChanged C K hp

theorem reportMoved_sameBeyondRouter (hm : h.Clean) : h.SameBeyondRouter (h.reportMoved b reported sel) :=
  reportMoved_keeps h.sameBeyondRouter_closed (reader_keeps_sameBeyondRouter hm)
    (sameBeyondRouter_iff.mpr ⟨rfl, rfl, rfl, rfl, rfl, rfl, rfl, rfl, rfl⟩)

theorem reportMoved_relaysAs (hm : h.Clean) :
    (h.reportStored b reported sel).RelaysAs (h.reportMoved b reported sel) := by
  have K : reader.Keeps (h.reportStored b reported sel).RelaysAs := idle_keeps reader_idle fun g hg => by
    obtain ⟨⟨hmem, -⟩, -⟩ := hg
    rw [hmem]
    exact hm
  exact reportMoved_keeps (relaysAs_closed _) K ⟨⟨rfl, rfl⟩, fun _ => ⟨rfl, rfl⟩⟩

/-- What a report leaves: the relay chosen, and the booth notice marked where relay or relay-refused changed. -/
def reportTaken (h : Hall) (b : Nat) (reported : BoothState) (sel : Relay) : Hall :=
  let moved := h.reportMoved b reported sel
  let now := h.relayChosen b sel
  let x := h.boothRun b
  { moved with
    router.booths := tset moved.router.booths b { moved.boothRun b with relay := now }
    router.boothDirty := if now ≠ x.relay ∨ decide (sel ≠ now) ≠ decide (x.selection ≠ x.relay) then
        tset moved.router.boothDirty b true
      else moved.router.boothDirty }

theorem boothReport_eq (hm : h.Clean) (hb : b < 16) :
    h.boothReport reader b reported sel = h.reportTaken b reported sel := by
  obtain ⟨hseated, hruns⟩ := reportMoved_relaysAs (b := b) (reported := reported) (sel := sel) hm
  have hseated' : h.SeatedAs (h.reportMoved b reported sel) := hseated
  have hmoved : (h.reportStored b reported sel).stateChanged reader (h.reportStored b reported sel).ledNow b
      (h.effective b) = h.reportMoved b reported sel := stateChanged_eq_stateMoved ..
  have hchosen : (h.reportMoved b reported sel).relayChosen b sel = h.relayChosen b sel :=
    relayChosen_congr hseated' (fun y => (hruns y).1.trans (relay_reportStored hb y)) b sel
  have hsel : ((h.reportMoved b reported sel).boothRun b).selection = sel := by
    rw [(hruns b).2, boothRun_reportStored hb, if_pos rfl]
  have hclean : (h.reportMoved b reported sel).Clean := by
    obtain ⟨hmem, -⟩ := hseated'
    show (h.reportMoved b reported sel).mem.ReadsFindNothing
    rw [hmem]
    exact hm
  have hselect := selectRelay_eq hclean b
  rw [hsel, hchosen] at hselect
  have hread : reader.booth b h = h := idle_booth reader_idle hm b
  have hnow : ((h.reportMoved b reported sel).relayed b (h.relayChosen b sel)).boothRun b =
      { (h.reportMoved b reported sel).boothRun b with relay := h.relayChosen b sel } := tget_tset_self _ _ hb
  have hstored (rd : Reader) (hread : rd.booth b h = h) : h.boothReport rd b reported sel =
      let m := (h.reportStored b reported sel).stateChanged rd (h.reportStored b reported sel).ledNow b (h.effective b)
      let g := if (m.boothRecord b).damaged || (m.booth b).language == 0 then m else m.selectRelay rd b
      if (g.boothRun b).relay ≠ (h.boothRun b).relay ∨ g.relayRefused b ≠ h.relayRefused b then g.markBooth b else g := by
    unfold boothReport
    rw [hread]
    rfl
  rw [hstored reader hread, hmoved]
  dsimp only
  rw [hselect, hnow, relayRefused, hnow, hsel]
  unfold reportTaken relayRefused
  dsimp only
  split_ifs <;> rfl

theorem relay_reportTaken (hb : b < 16) : ((h.reportTaken b reported sel).boothRun b).relay = h.relayChosen b sel := by
  rw [reportTaken, boothRun, tget_tset_self _ _ hb]

theorem relay_reportTaken_of_ne (hm : h.Clean) (hb : b < 16) {y : Nat} (hy : y ≠ b) :
    ((h.reportTaken b reported sel).boothRun y).relay = (h.boothRun y).relay := by
  obtain ⟨-, hruns⟩ := reportMoved_relaysAs (b := b) (reported := reported) (sel := sel) hm
  rw [reportTaken, boothRun, tget_tset_of_ne _ _ hy.symm]
  exact (hruns y).1.trans (relay_reportStored hb y)

theorem reportTaken_sameBeyondRouter (hm : h.Clean) : h.SameBeyondRouter (h.reportTaken b reported sel) :=
  have same := sameBeyondRouter_iff.mp (reportMoved_sameBeyondRouter (b := b) (reported := reported) (sel := sel) hm)
  sameBeyondRouter_iff.mpr same

theorem reportTaken_self (hreported : reported = (h.boothRun b).reported) (hsel : sel = (h.boothRun b).selection)
    (hrelay : h.relayChosen b sel = (h.boothRun b).relay) : h.reportTaken b reported sel = h := by
  have hstored : h.reportStored b reported sel = h := by
    rw [hreported, hsel]
    exact relayed_self b h
  have hmoved : h.reportMoved b reported sel = h := by
    rw [reportMoved, hstored, stateMoved]
    exact if_pos rfl
  have hunmarked : ¬((h.boothRun b).relay ≠ (h.boothRun b).relay ∨ decide (sel ≠ (h.boothRun b).relay) ≠
      decide ((h.boothRun b).selection ≠ (h.boothRun b).relay)) := by
    rw [hsel]
    exact not_or.mpr ⟨fun hne => hne rfl, fun hne => hne rfl⟩
  rw [reportTaken, hmoved, hrelay]
  dsimp only
  rw [if_neg hunmarked]
  exact relayed_self b h

end Hall

/-! ## The fields of a report (R132) -/

theorem boothReport_good_iff (source state relay : Byte) : (InCell.boothReport source state relay).good = true ↔
    208 ≤ source.toNat ∧ source.toNat ≤ 223 ∧ state.toNat ≤ 2 ∧ (relay.toNat ≤ 15 ∨ relay = 0xFF) := by
  simp only [InCell.good, isBoothAddr, Bool.and_eq_true, Bool.or_eq_true, decide_eq_true_eq, beq_iff_eq, and_assoc]

theorem boothStateOf_toNat (state : Byte) : boothStateOf state.toNat =
    if state = 0 then .off else if state = 1 then .ready else .onAir := by
  simp only [boothStateOf, BitVec.toNat_eq]
  rfl

/-- Settles O51: the report is `reportTaken`, the evaluation `evaluated`, and the claims go by the lowest slot of the pool. -/
theorem boothReportsAreHandled : Obligations.BoothReportsAreHandled := by
  refine ⟨?report, ?evaluation, ?claims⟩
  case report =>
    intro s source state relay hq hm c h b x reported selection good active accepts stored moved
    have hrow : exec (.boothReport source state relay) s = .next (s.withChip (c.cellRow (.boothReport source state relay))) := rfl
    have hgood : (InCell.boothReport source state relay).good = true ↔ good := boothReport_good_iff source state relay
    have hreported : boothStateOf state.toNat = reported := boothStateOf_toNat state
    rw [hrow]
    refine ⟨fun hbad => ?_, fun hg => ?_⟩
    · rw [Chip.cellRow_of_malformed hq (by simpa using hgood.not.mpr hbad)]
    have hb : b < 16 := by
      obtain ⟨hlow, hhigh, -⟩ := hg
      omega
    have hact : exec (.boothReport source state relay) s =
        .next (s.withChip { c with hall := h.reportTaken b reported selection }) := by
      rw [hrow, Chip.cellRow_of_quiet (m := .boothReport source state relay) hq (hgood.mpr hg) (hgood.mpr hg) rfl]
      show Host.Outcome.next (s.withChip { c with hall := h.boothReport reader b (boothStateOf state.toNat) selection }) = _
      rw [hreported, Hall.boothReport_eq hm hb]
    have hmay (t : Nat) : h.mayRelay b t = true ↔ accepts t := h.mayRelay_iff b t
    have hnow : ((h.reportTaken b reported selection).boothRun b).relay = h.relayChosen b selection :=
      Hall.relay_reportTaken hb
    refine ⟨h.reportTaken b reported selection, hrow ▸ hact, Hall.reportTaken_sameBeyondRouter hm, ?_, ?_, ?_, ?_, ?_,
      fun y _ hy => Hall.relay_reportTaken_of_ne hm hb hy, ?_⟩
    · rw [hnow]
      rfl
    · rintro ⟨hsound, hlang⟩ hsel
      rw [hnow, hsel, Hall.relayChosen_floor hsound hlang]
    · rintro t ⟨hsound, hlang⟩ hsel haccepts
      rw [hnow, hsel, Hall.relayChosen_booth hsound hlang ((hmay t).mpr haccepts)]
    · intro t hsel hrefused
      rw [hnow, hsel, Hall.relayChosen_refused ((hmay t).not.mpr hrefused)]
    · intro hoff
      rw [hnow, Hall.relayChosen_inactive hoff]
    · intro hsame hsel hrelay
      exact Hall.reportTaken_self hsame hsel (hnow ▸ hrelay)
  case evaluation =>
    intro h led r hm was now moved held tell left entered output reclassed released
    exact Hall.evaluate_eq hm led r
  case claims =>
    intro h x subject leadMarks output feed given taken joined pool lowest
    have houtput (b : Nat) (n : Option Nat) (g : Hall) : g.tellOutput b n = output b n g := Hall.tellOutput_eq b n g
    have hgiven (y : Claim) (i : Nat) (g : Hall) : g.tellGiven y i = given y i g := by
      cases y with
      | leadOut b => exact houtput b _ g
      | spareOut b => exact houtput b _ g
      | feed b => rfl
      | language r k => exact Hall.markChannel_eq r k g
    have htaken (y : Claim) (g : Hall) : g.tellReleased y = taken y g := by
      cases y with
      | leadOut b => exact houtput b _ g
      | spareOut b => exact houtput b _ g
      | feed b => rfl
      | language r k => rfl
    have hsubject (y : Claim) : subject y = (y.classCode, y.keyByte) := by cases y <;> rfl
    have hheld {i : Nat} (hi : lowest i (some x)) : h.heldAt x = some i := (h.find_place_iff (some x) i).mpr hi
    have hnotHeld (hnone : ∀ i < 88, tget h.slots.pool i ≠ some x) : h.heldAt x = none := Hall.find_place_none hnone
    refine ⟨fun i hi => ?_, fun hnone => ?_, fun i hi => ?_, fun hnone => ?_, fun y => ⟨fun i hi => ?_, fun hnone => ?_⟩⟩
    · rw [Hall.makeClaim_of_place ((h.find_place_iff none i).mpr hi), hgiven]
      rfl
    · rw [Hall.makeClaim_of_none x (Hall.find_place_none hnone), Hall.wait_eq, hsubject]
      rfl
    · rw [Hall.releaseClaim_of_place (hheld hi)]
      have hslots : (h.tellReleased x).slots.waitList = h.slots.waitList := by rw [Hall.tellReleased_slots]
      cases hwait : h.slots.waitList with
      | nil =>
        rw [← htaken]
        exact Hall.servePool_nil (hslots.trans hwait) i
      | cons w rest =>
        rw [← htaken, Hall.servePool_cons (hslots.trans hwait), hgiven]
        dsimp only
        rw [hsubject]
    · rw [Hall.releaseClaim, hnotHeld hnone]
      rfl
    · rw [Hall.reclass, hheld hi]
      rfl
    · rw [Hall.reclass, hnotHeld hnone]
      simp only [Hall.wait_eq]
      rfl

end Sys2Proof.Machine
